-- ==== Sys2Proof/Word.lean ====
section
/-! DEFINITION. The word and byte types of the block (R9 00_scope.md). -/

namespace Sys2Proof

/-- A register or message-buffer RAM word: 32 bits, numbered 31 down to 0 (R9). -/
abbrev Word := BitVec 32

/-- A byte of host memory (R57). -/
abbrev Byte := BitVec 8

end Sys2Proof
end

