-- ==== Sys2Proof/Config.lean ====
section
/-! DEFINITION. The implementation parameters (R7 00_scope.md), the constants the spec fixes, and the
free values the spec leaves to a draw or to the schedule. An `opaque` constant has no body: nothing can
be proved about its value. -/

namespace Sys2Proof.Config

/-- RAM_WORDS of R7: the words of the message-buffer RAM. -/
def ramWords : Nat := 128

/-- MB_MAX of R7: the largest pool population. -/
def mbMax : Nat := 32

/-- RJW_CAP of R7: the cap on the resync jump width. -/
def rjwCap : Nat := 3

/-- QPB_MIN of R7: the smallest valid count of quanta per bit. -/
def qpbMin : Nat := 2

/-- INSTANCE of R7: the one controller that is modelled. -/
def modelledInst : Nat := 0

/-- The bytes of host memory (R57): addresses 0 to 2^32 - 1. -/
def hostBytes : Nat := 4294967296

/-- The bytes of the register window (R53). -/
def windowBytes : Nat := 4096

/-- The not-modelled bits of FDCBT (R31): 31:30, 19, 15, 9:8 and 4:3. -/
def fdcbtNm : Word := 0xC0088318#32

/-- PRESCALER_RULE of R7 (R111, R112). -/
inductive PrescalerRule where
  | source
  | conventional
  deriving DecidableEq, Repr, Inhabited

/-- TX_FREE_MATCH of R7 (R149). -/
inductive TxFreeMatch where
  | codeField
  | wholeWord
  deriving DecidableEq, Repr, Inhabited

/-- TX_ID_MODE of R7 (R151). -/
inductive TxIdMode where
  | alwaysStandard
  | followConfig
  deriving DecidableEq, Repr, Inhabited

/-- The parameters of R7 that are open or defaulted, and one of the model's own. R13 makes them a parameter of the step relation;
here they are carried in the state and no step writes them (DESIGN CHOICE, log 1). -/
structure Params where
  /-- CAN_BASE: the byte address of the register window in host memory. -/
  canBase : Word
  /-- F_CLK_OSC in Hz. -/
  fClkOsc : Nat
  /-- F_CLK_BUS in Hz. -/
  fClkBus : Nat
  prescalerRule : PrescalerRule
  /-- FD_CBT_WORD, the arbitration-phase literal. -/
  fdCbtWord : Word
  /-- FD_FDCBT_WORD, the data-phase literal. -/
  fdFdcbtWord : Word
  txFreeMatch : TxFreeMatch
  txIdMode : TxIdMode
  /-- POLL_LIMIT: `none` is NONE. -/
  pollLimit : Option Nat
  fdctrlReset : Word
  /-- The model's own parameter (log 22): whether BUS offers frames in loop-back. R191 and R196 say that it
  does not, decision D21 can be read to say that it does. -/
  loopBackBus : Bool
  deriving DecidableEq, Repr

/-- What R7 and R92 require of the parameters: both clocks at least 1 Hz, no not-modelled bit in the
data-phase literal, and a poll limit of at least 1. -/
def Params.wf (p : Params) : Bool :=
  decide (1 ≤ p.fClkOsc) && decide (1 ≤ p.fClkBus) && (p.fdFdcbtWord &&& fdcbtNm == 0#32) &&
    (p.pollLimit != some 0)

/-- CAN_BASE, OPEN (D2). -/
opaque canBase : Word

/-- F_CLK_OSC less 1, OPEN (D15): the clock itself is at least 1. -/
opaque fClkOscPred : Nat

/-- F_CLK_BUS less 1, OPEN (D15). -/
opaque fClkBusPred : Nat

/-- PRESCALER_RULE, OPEN (D11). -/
opaque prescalerRule : PrescalerRule

/-- FD_CBT_WORD, OPEN (D14). -/
opaque fdCbtWord : Word

/-- FD_FDCBT_WORD before its not-modelled bits are taken out as R92 requires, OPEN (D14). -/
opaque fdFdcbtRaw : Word

/-- FDCTRL_RESET, OPEN (D4). -/
opaque fdctrlReset : Word

/-- The parameters of the reset state: the open ones are the opaque constants above (log 2), the
defaulted ones have the defaults of R7 (log 3), and BUS is silent in loop-back as R191 and R196 say
(log 22). -/
def params : Params where
  canBase := canBase
  fClkOsc := fClkOscPred + 1
  fClkBus := fClkBusPred + 1
  prescalerRule := prescalerRule
  fdCbtWord := fdCbtWord
  fdFdcbtWord := fdFdcbtRaw &&& ~~~fdcbtNm
  txFreeMatch := .codeField
  txIdMode := .alwaysStandard
  pollLimit := none
  fdctrlReset := fdctrlReset
  loopBackBus := false

/-- FREE VALUE (log 5): the n-th draw of a run (TIMESTAMP, the free bits of a delivered control word,
the parts of a BUS frame: R190, R194, R196). -/
opaque freeWord : Nat → Word

/-- FREE VALUE (log 4): the n-th free choice among the agents' enabled steps (R66, R198). -/
opaque freeChoice : Nat → Nat

end Sys2Proof.Config
end

