-- ==== Sys2Proof/Syntax.lean ====
section
/-! DEFINITION. The six host operations as syntax (R3 00_scope.md; R79 to R87 30_encoding.md), with the
fields of the CFG and TPAR words already named. -/

namespace Sys2Proof

/-- The operating mode, MODE of the CFG word (R81). -/
inductive Mode where
  | normal | freeze | loopBack | listenOnly | fdActive | moduleDisable | stop | pretendedNetwork
  deriving DecidableEq, Repr

/-- The protocol generation, PROTO of the CFG word (R81). -/
inductive Proto where
  | can20 | canFd
  deriving DecidableEq, Repr

/-- The clock source, CLK of the CFG word (R81, R90). -/
inductive ClkSrc where
  | osc | bus
  deriving DecidableEq, Repr

/-- The identifier width, IDT of the CFG word (R81). -/
inductive IdType where
  | standard | extended
  deriving DecidableEq, Repr

/-- The payload class, PCLASS of the CFG word (R81) and FDCTRL.MBDSR0 (R102). -/
inductive PClass where
  | b8 | b16 | b32 | b64
  deriving DecidableEq, Repr

/-- The CFG word of INIT (R81). The reserved fields are kept: INIT answers NOT_OK when one is not 0. -/
structure Cfg where
  /-- Bit 31, reserved. -/
  rsvHigh : Nat
  /-- SP, the sample point in whole percent. -/
  sp : Nat
  /-- QPB, the time quanta per bit. -/
  qpb : Nat
  /-- Bits 15:9, reserved. -/
  rsvLow : Nat
  idt : IdType
  pclass : PClass
  /-- BRS, the bit-rate-switch enable. -/
  brs : Bool
  clk : ClkSrc
  proto : Proto
  mode : Mode
  deriving DecidableEq, Repr

/-- The TPAR word of CALC_TIMING (R85). -/
structure Tpar where
  /-- Bits 31:15, reserved: CALC_TIMING answers NOT_OK when they are not 0. -/
  rsv : Nat
  sp : Nat
  qpb : Nat
  deriving DecidableEq, Repr

/-- One constructor per row of spec/opcode_table.json. `inst` is the INST field and `len` the LEN field
of the command word (R77). -/
inductive Instr where
  /-- INIT (R80): `dbr` and `txid` are carried and read by no rule. -/
  | init (inst : Nat) (cfg : Cfg) (nbr dbr txid rxid : Word)
  /-- TRANSMIT (R82). -/
  | transmit (inst len : Nat) (id src : Word)
  /-- RECEIVE (R83). -/
  | receive (inst len : Nat) (dst : Word)
  /-- CALC_TIMING (R85). -/
  | calcTiming (inst : Nat) (tpar : Tpar) (nbr : Word)
  /-- READ32 (R86). -/
  | read32 (inst : Nat) (off : Word)
  /-- WRITE32 (R87). -/
  | write32 (inst : Nat) (off val : Word)
  deriving DecidableEq, Repr

end Sys2Proof
end

