-- ==== Sys2Proof/WellFormed.lean ====
section
/-! DEFINITION. When a term of `Instr` is an instruction of the descriptor format: every number fits the
field that holds it (R77, R81, R85 30_encoding.md). A field the spec restricts further (INST other than
0, reserved bits set, SP over 100) is still an instruction, with the NOT_OK or the fault the spec gives. -/

namespace Sys2Proof

/-- INST is a 4-bit field (R77). -/
def instFits (inst : Nat) : Bool := decide (inst < 16)

/-- LEN is a 16-bit field (R77). -/
def lenFits (len : Nat) : Bool := decide (len < 65536)

/-- The fields of the CFG word fit: bit 31, SP 7 bits, QPB 8 bits, bits 15:9 (R81). -/
def Cfg.fits (c : Cfg) : Bool :=
  decide (c.rsvHigh < 2) && decide (c.sp < 128) && decide (c.qpb < 256) && decide (c.rsvLow < 128)

/-- The fields of the TPAR word fit: bits 31:15, SP 7 bits, QPB 8 bits (R85). -/
def Tpar.fits (t : Tpar) : Bool :=
  decide (t.rsv < 131072) && decide (t.sp < 128) && decide (t.qpb < 256)

/-- The well-formed instructions. -/
def WellFormed : Instr → Bool
  | .init inst cfg _ _ _ _ => instFits inst && cfg.fits
  | .transmit inst len _ _ => instFits inst && lenFits len
  | .receive inst len _ => instFits inst && lenFits len
  | .calcTiming inst tpar _ => instFits inst && tpar.fits
  | .read32 inst _ => instFits inst
  | .write32 inst _ _ => instFits inst

end Sys2Proof
end

