-- ==== Sys2Proof/Decode.lean ====
section
/-! DEFINITION. The descriptor decoder (R76 to R88 30_encoding.md), total on every list of words, and the
encoder written from the same tables. A descriptor is a sequence of 32-bit words and is read as words
(R56 20_memory.md), so the decoder takes words and not bytes. -/

namespace Sys2Proof

/-- `v[hi:lo]` of R9: bits hi down to lo of a word, as a number. -/
def bits (w : Word) (hi lo : Nat) : Nat := w.toNat / 2 ^ lo % 2 ^ (hi - lo + 1)

/-- Why a descriptor is refused before its operation starts (R88 items 1 to 4). -/
inductive DecodeError where
  /-- A reserved OP, nonzero command bits 15:8, or LEN not 0 where it must be. -/
  | illegalOp
  /-- The program ends inside the descriptor. -/
  | truncated
  deriving DecidableEq, Repr

/-- MODE values 0 to 7 (R81). -/
def modeOfBits (n : Nat) : Mode :=
  match n with
  | 0 => .normal
  | 1 => .freeze
  | 2 => .loopBack
  | 3 => .listenOnly
  | 4 => .fdActive
  | 5 => .moduleDisable
  | 6 => .stop
  | _ => .pretendedNetwork

/-- MODE values 0 to 7 (R81). -/
def modeToBits : Mode → Nat
  | .normal => 0
  | .freeze => 1
  | .loopBack => 2
  | .listenOnly => 3
  | .fdActive => 4
  | .moduleDisable => 5
  | .stop => 6
  | .pretendedNetwork => 7

/-- PCLASS and MBDSR0 values 0 to 3 (R81, R102). -/
def pclassOfBits (n : Nat) : PClass :=
  match n with
  | 0 => .b8
  | 1 => .b16
  | 2 => .b32
  | _ => .b64

/-- PCLASS and MBDSR0 values 0 to 3 (R81, R102). -/
def pclassToBits : PClass → Nat
  | .b8 => 0
  | .b16 => 1
  | .b32 => 2
  | .b64 => 3

/-- PROTO: 0 CAN 2.0, 1 CAN-FD (R81). -/
def protoOfBits (n : Nat) : Proto := if n = 1 then .canFd else .can20

/-- PROTO: 0 CAN 2.0, 1 CAN-FD (R81). -/
def protoToBits : Proto → Nat
  | .can20 => 0
  | .canFd => 1

/-- CLK: 0 oscillator-divided, 1 bus (R81, R90). -/
def clkOfBits (n : Nat) : ClkSrc := if n = 1 then .bus else .osc

/-- CLK: 0 oscillator-divided, 1 bus (R81, R90). -/
def clkToBits : ClkSrc → Nat
  | .osc => 0
  | .bus => 1

/-- IDT: 0 standard, 1 extended (R81). -/
def idTypeOfBits (n : Nat) : IdType := if n = 1 then .extended else .standard

/-- IDT: 0 standard, 1 extended (R81). -/
def idTypeToBits : IdType → Nat
  | .standard => 0
  | .extended => 1

/-- The CFG word (R81). -/
def decodeCfg (w : Word) : Cfg where
  rsvHigh := bits w 31 31
  sp := bits w 30 24
  qpb := bits w 23 16
  rsvLow := bits w 15 9
  idt := idTypeOfBits (bits w 8 8)
  pclass := pclassOfBits (bits w 7 6)
  brs := decide (bits w 5 5 = 1)
  clk := clkOfBits (bits w 4 4)
  proto := protoOfBits (bits w 3 3)
  mode := modeOfBits (bits w 2 0)

/-- The TPAR word (R85). -/
def decodeTpar (w : Word) : Tpar where
  rsv := bits w 31 15
  sp := bits w 14 8
  qpb := bits w 7 0

/-- R88 items 2 and 3: bits 15:8 are 0, and so is LEN for the four operations that have none. -/
def commandClean (cmd : Word) : Bool :=
  decide (bits cmd 15 8 = 0) &&
    (decide (bits cmd 3 0 = 2) || decide (bits cmd 3 0 = 3) || decide (bits cmd 31 16 = 0))

/-- R88 item 1: OP is one of the six operations. -/
def commandKnown (cmd : Word) : Bool := decide (1 ≤ bits cmd 3 0) && decide (bits cmd 3 0 ≤ 6)

/-- The operand words after a command word that passed R88 items 1 to 3: the operation, fixed by OP
alone (R78, R79), and the words after it; Truncated when words are missing (R88 item 4). -/
def decodeOperands (cmd : Word) (ws : List Word) : Except DecodeError (Instr × List Word) :=
  match bits cmd 3 0, ws with
  | 1, cfg :: nbr :: dbr :: txid :: rxid :: rest =>
    .ok (.init (bits cmd 7 4) (decodeCfg cfg) nbr dbr txid rxid, rest)
  | 2, id :: src :: rest => .ok (.transmit (bits cmd 7 4) (bits cmd 31 16) id src, rest)
  | 3, dst :: rest => .ok (.receive (bits cmd 7 4) (bits cmd 31 16) dst, rest)
  | 4, tpar :: nbr :: rest => .ok (.calcTiming (bits cmd 7 4) (decodeTpar tpar) nbr, rest)
  | 5, off :: rest => .ok (.read32 (bits cmd 7 4) off, rest)
  | 6, off :: val :: rest => .ok (.write32 (bits cmd 7 4) off val, rest)
  | _, _ => .error .truncated

/-- The first descriptor of a program and the words after it, checked in the order of R88: the OP, the
reserved bits, LEN, then the missing words. INST is left to the operation (R88 item 5). -/
def decode : List Word → Except DecodeError (Instr × List Word)
  | [] => .error .truncated
  | cmd :: ws =>
    if commandKnown cmd && commandClean cmd then decodeOperands cmd ws else .error .illegalOp

/-- The number of words of a descriptor (R78). -/
def descWords : Instr → Nat
  | .init _ _ _ _ _ _ => 6
  | .transmit _ _ _ _ => 3
  | .receive _ _ _ => 2
  | .calcTiming _ _ _ => 3
  | .read32 _ _ => 2
  | .write32 _ _ _ => 3

/-- The command word (R77). -/
def commandWord (op inst len : Nat) : Word := BitVec.ofNat 32 (len * 2 ^ 16 + inst * 2 ^ 4 + op)

/-- The CFG word (R81). -/
def encodeCfg (c : Cfg) : Word :=
  BitVec.ofNat 32
    (c.rsvHigh * 2 ^ 31 + c.sp * 2 ^ 24 + c.qpb * 2 ^ 16 + c.rsvLow * 2 ^ 9 +
      idTypeToBits c.idt * 2 ^ 8 + pclassToBits c.pclass * 2 ^ 6 + c.brs.toNat * 2 ^ 5 +
      clkToBits c.clk * 2 ^ 4 + protoToBits c.proto * 2 ^ 3 + modeToBits c.mode)

/-- The TPAR word (R85). -/
def encodeTpar (t : Tpar) : Word := BitVec.ofNat 32 (t.rsv * 2 ^ 15 + t.sp * 2 ^ 8 + t.qpb)

/-- The words of a well-formed instruction (R80 to R87). -/
def encode : Instr → List Word
  | .init inst cfg nbr dbr txid rxid =>
    [commandWord 1 inst 0, encodeCfg cfg, nbr, dbr, txid, rxid]
  | .transmit inst len id src => [commandWord 2 inst len, id, src]
  | .receive inst len dst => [commandWord 3 inst len, dst]
  | .calcTiming inst tpar nbr => [commandWord 4 inst 0, encodeTpar tpar, nbr]
  | .read32 inst off => [commandWord 5 inst 0, off]
  | .write32 inst off val => [commandWord 6 inst 0, off, val]

/-- The words of an instruction whose first `nbits` bits are `w`, bit 0 the least significant bit of the
first word, every bit above `nbits` zero, up to the longest descriptor (6 words, R78). -/
def tableWords (nbits w : Nat) : List Word :=
  [0, 1, 2, 3, 4, 5].map fun k => BitVec.ofNat 32 (w % 2 ^ nbits / 2 ^ (32 * k))

/-- The instruction the decoder reads from an opcode-table word. -/
def decodeTableWord (nbits w : Nat) : Option Instr :=
  match decode (tableWords nbits w) with
  | .ok (i, _) => some i
  | .error _ => none

end Sys2Proof
end

