-- ==== Sys2Proof/Machine/State.lean ====
section
/-! DEFINITION. The state of the block (R20 to R40 10_state.md), its faults (R201 60_exceptions.md) and
its reset (R219 70_reset_and_hazards.md). Plain data throughout. Poison (R20), a value the spec itself
names, is `none` in an option or an unlisted key of a cell list. -/

namespace Sys2Proof.Machine

/-- The fault reasons of R201. A fault ends the run, and the state stays the one before the faulting
step (R200). All are the spec's own and all are safe: the spec goes no further either. -/
inductive Fault where
  /-- A rule read a poison element (R20): raised by register reads, the sequencer, the session, host
  reads, the IFLAG1 write and the engine. -/
  | readPoison
  /-- A host buffer range wraps or overlaps block space (R57): raised by TRANSMIT and RECEIVE. -/
  | hostRange
  /-- An offset that is not a multiple of 4 (R58): raised by READ32 and WRITE32. -/
  | misaligned
  /-- An offset outside the map (R60): raised by READ32 and WRITE32. -/
  | unmapped
  /-- A host write to a word of an ENGINE-owned buffer (R63): raised by RAM writes. -/
  | ownershipViolation
  /-- A host write changed a windowed field outside its window (R64): raised by register writes. -/
  | configWindow
  /-- RAM or RXIMR accessed while LPMACK = 1 (R65): raised by register accesses. -/
  | moduleDisabled
  /-- A reserved CODE written to a CS word (R74): raised by RAM writes. -/
  | reservedCode
  /-- A write changed a not-modelled bit (R75): raised by register writes. -/
  | unmodelledField
  /-- A reserved command word (R88 items 1 to 3): raised when HOST takes a descriptor. -/
  | illegalOp
  /-- The program ends inside a descriptor (R88 item 4): raised when HOST takes a descriptor. -/
  | truncated
  /-- INST not 0 on TRANSMIT, RECEIVE, READ32 or WRITE32 (R88 item 5). -/
  | badInstance
  /-- TRANSMIT or RECEIVE while sess.valid = 0 (R148, R162). -/
  | notInitialized
  /-- TRANSMIT with LEN other than sess.P (R148). -/
  | payloadLength
  /-- TRANSMIT found no free buffer (R150). -/
  | noFreeTxBuffer
  deriving DecidableEq, Repr

/-- What the model refuses. -/
inductive Refusal where
  /-- An instruction without a meaning; no arm of exec answers it. Safe. -/
  | notModelled (mnemonic : String)
  /-- A meaning was asked for a micro-step while another operation is in progress: the spec has one
  operation at a time (R22), and no step of the machine asks. Raised by every meaning. Safe (log 11). -/
  | sequencerBusy
  /-- INIT's micro-step 13 found no buffer with the RX_EMPTY tag, which R139 derives cannot happen and
  gives no effect for. Raised by INIT. Safe (log 14). -/
  | tagScanExhausted
  deriving DecidableEq, Repr

/-- What a step or a meaning answers. -/
abbrev Out (σ : Type) := Host.Outcome σ Fault Refusal

/-- Status values (R84): OK = 0, NOT_OK = 1, TIMEOUT = 2. -/
inductive Status where
  | ok | notOk | timeout
  deriving DecidableEq, Repr

/-- The names of the sequencer's operations (R22). -/
inductive OpName where
  | idle | init | transmit | receive | calcTiming | read32 | write32
  deriving DecidableEq, Repr

/-- The result of the bit-timing calculation (R105). -/
structure Timing where
  presdiv : Int
  rjw : Nat
  prop : Nat
  ps1 : Nat
  ps2 : Nat
  deriving DecidableEq, Repr

/-- The next micro-step of INIT (R123). The numbers are the lines of R123. A field write is two
micro-steps (R72): `t = none` is its read, `t = some w` its write with the word read. -/
inductive InitPos where
  /-- 1, its session part. -/
  | clearValid
  /-- 1, MCR.MDIS <- 1. -/
  | disable (t : Option Word)
  /-- 2, poll LPMACK = 1. -/
  | pollDisabled
  /-- 3, CTRL1.CLKSRC <- CLK. -/
  | clkSrc (t : Option Word)
  /-- 4, MCR.MDIS <- 0, FRZ <- 1, HALT <- 1. -/
  | enable (t : Option Word)
  /-- 5, poll LPMACK = 0. -/
  | pollEnabled
  /-- 6, poll FRZACK = 1. -/
  | pollFrozen
  /-- 7, MCR.FDEN <- PROTO. -/
  | fdEn (t : Option Word)
  /-- 7, FDCTRL.FDRATE <- BRS, MBDSR0 <- PCLASS. -/
  | fdCtrl (t : Option Word)
  /-- 8, its session part. -/
  | session
  /-- 8, MCR.MAXMB <- N - 1. -/
  | maxMb (t : Option Word)
  /-- 9.1, the read of MCR (R135). -/
  | timingMcr
  /-- 9.2 with FDEN = 1, CBT <- FD_CBT_WORD. -/
  | timingFdCbt
  /-- 9.3 with FDEN = 1, FDCBT <- FD_FDCBT_WORD. -/
  | timingFdFdcbt
  /-- 9.2 with FDEN = 0, the read of CTRL1 and the calculation. -/
  | timingCtrl1
  /-- 9.3 with FDEN = 0, CBT <- cbtWord(r). -/
  | timingCbt (r : Timing)
  /-- 10, RAM[k] <- 0. -/
  | zeroRam (k : Nat)
  /-- 11, RXIMR[i] <- ACCEPT_ALL. -/
  | mask (i : Nat)
  /-- 12, CS(i) <- its tag. -/
  | tag (i : Nat)
  /-- 13, the read of CS(i). -/
  | findTag (i : Nat)
  /-- 14, ID(j) <- the receive identifier. -/
  | rxId (j : Nat)
  /-- 15, CTRL1.LPB. -/
  | loopBack (t : Option Word)
  /-- 16, MCR.FRZ <- 0, HALT <- 0. -/
  | exitFreeze (t : Option Word)
  /-- 17, poll FRZACK = 0. -/
  | pollUnfrozen
  /-- 18, poll NOTRDY = 0. -/
  | pollReady
  /-- 19, sess.valid <- 1 and finish(OK). -/
  | complete
  /-- R144 item 1, MCR.MDIS <- 1. -/
  | timeoutDisable (t : Option Word)
  /-- R144 item 2, finish(TIMEOUT). -/
  | timeoutFinish
  deriving DecidableEq, Repr

/-- The next micro-step of TRANSMIT (R147); the numbers are the lines of R147. -/
inductive TxPos where
  /-- 1, the read of CS(i). -/
  | scan (i : Nat)
  /-- 2, ID(j). -/
  | writeId (j : Nat)
  /-- 3, DATA(j,k). -/
  | writeData (j k : Nat)
  /-- 4, CS(j). -/
  | writeCs (j : Nat)
  /-- 5, the request. -/
  | request (j : Nat)
  /-- 6, poll IFLAG[j] = 1. -/
  | poll (j : Nat)
  /-- 7, finish(OK). -/
  | complete
  /-- R155 item 1, the revocation. -/
  | revoke (j : Nat)
  /-- R155 item 2, finish(TIMEOUT). -/
  | timeoutFinish
  deriving DecidableEq, Repr

/-- The next micro-step of RECEIVE (R161); the numbers are the lines of R161. -/
inductive RxPos where
  /-- 1, the read of IFLAG1 for bit i. -/
  | scan (i : Nat)
  /-- 2, the read of DATA(j,k); `w` holds the k words read so far. -/
  | readData (j k : Nat) (w : List Word)
  /-- 3, the copy to the caller. -/
  | copy (j : Nat) (w : List Word)
  /-- 4, the release. -/
  | release (j : Nat)
  /-- 5, finish(OK). -/
  | complete
  deriving DecidableEq, Repr

/-- The next micro-step of CALC_TIMING (R116); the numbers are the lines of R116. -/
inductive CalcPos where
  /-- 1, the read of MCR. -/
  | readMcr
  /-- 2, CBT <- FD_CBT_WORD. -/
  | fdCbt
  /-- 3, FDCBT <- FD_FDCBT_WORD. -/
  | fdFdcbt
  /-- 4, the read of CTRL1 and the calculation. -/
  | readCtrl1
  /-- 5, CBT <- cbtWord(r). -/
  | writeCbt (r : Timing)
  deriving DecidableEq, Repr

/-- Where the host sequencer stands: seq.op, seq.step and seq.loc of R22 in one value, so that a local
variable exists exactly where the pseudocode has set it (log 10). -/
inductive Pos where
  | idle
  | init (p : InitPos)
  | transmit (p : TxPos)
  | receive (p : RxPos)
  | calcTiming (p : CalcPos)
  /-- READ32's micro-step 1. -/
  | read32
  /-- WRITE32's micro-step 1. -/
  | write32
  deriving DecidableEq, Repr

/-- The host sequencer (R22). -/
structure Seq where
  /-- seq.op, seq.step and seq.loc. -/
  pos : Pos
  /-- seq.desc: the words of the descriptor in progress or last taken; `none` is poison. -/
  desc : Option (List Word)
  /-- seq.attempts. -/
  attempts : Nat
  /-- seq.result.status; `none` is poison. -/
  status : Option Status
  /-- seq.result.value; `none` is poison. -/
  value : Option Word
  deriving DecidableEq, Repr

/-- The session (R37). W, N and P are the geometry of the class (log 12). -/
structure Session where
  valid : Bool
  /-- The payload class that sess.W, sess.N and sess.P belong to; `none` is poison. -/
  cls : Option PClass
  /-- sess.idType; `none` is poison. -/
  idType : Option IdType
  deriving DecidableEq, Repr

/-- The steps an agent can take (R12): HOST's next micro-step, the five CTRL steps (R182 to R186), the
ENGINE step TX(i) (R189) and the BUS step RX-FRAME (R196). -/
inductive Move where
  | host
  | lpmEnter
  | lpmExit
  | frzEnter
  | frzExit
  | ready
  | tx (i : Nat)
  | rxFrame
  deriving DecidableEq, Repr

/-- Host memory (R57): the bytes that are not poison, by address. -/
abbrev Memory := List Host.Cell

/-- A word array whose unlisted entries are poison (R23, R35). -/
abbrev WordCells := List (Nat × Word)

/-- The state of the block. -/
structure State where
  /-- The parameters of R7, written by no step (log 1). -/
  params : Config.Params
  mcr : Word
  ctrl1 : Word
  cbt : Word
  fdcbt : Word
  fdctrl : Word
  iflag : Word
  /-- RXIMR[0..31] (R35). -/
  rximr : WordCells
  /-- RAM[0..127] (R23). -/
  ram : WordCells
  /-- txPending[i] is bit i (R36). -/
  txPending : BitVec 32
  sess : Session
  seq : Seq
  hostMem : Memory
  /-- The descriptor stream that is left (R53, R76). -/
  prog : List Word
  /-- The statuses of the operations finished so far, oldest first (R205). -/
  statuses : List Status
  /-- The moves the next steps shall take where they are enabled (log 4). -/
  agenda : List Move
  /-- How many free scheduling choices were made (log 4). -/
  choices : Nat
  /-- How many draws were made (log 5). -/
  draws : Nat
  deriving DecidableEq, Repr

/-- LAUNCH_RESET of R217: the reset state of R40 and R219 with the parameters, the program and the
launch bytes of a run. -/
def State.launch (p : Config.Params) (prog : List Word) (mem : Memory) : State where
  params := p
  mcr := 0xD890000F#32
  ctrl1 := 0#32
  cbt := 0#32
  fdcbt := 0#32
  fdctrl := p.fdctrlReset
  iflag := 0#32
  rximr := []
  ram := []
  txPending := 0#32
  sess := { valid := false, cls := none, idType := none }
  seq := { pos := .idle, desc := none, attempts := 0, status := none, value := none }
  hostMem := mem
  prog := prog
  statuses := []
  agenda := []
  choices := 0
  draws := 0

/-- The machine right after reset (R219), before a program and its launch bytes are given to it
(log 15, 16). -/
def State.reset : State := State.launch Config.params [] []

end Sys2Proof.Machine
end

