-- ==== Sys2Proof/Machine/Operands.lean ====
section
/-! DEFINITION. The operand forms of the operations: pool geometry, buffer codes, identifier and control
words, payload bytes, register fields and offsets (R23 to R35 10_state.md, R55 20_memory.md, R90 to R102
30_encoding.md). -/

namespace Sys2Proof.Machine

/-! ## Pool geometry (R24, R8) -/

/-- P: the payload bytes of a class (R24). -/
def payloadBytes : PClass → Nat
  | .b8 => 8
  | .b16 => 16
  | .b32 => 32
  | .b64 => 64

/-- W: the buffer width in words of a class (R24). -/
def bufWords : PClass → Nat
  | .b8 => 4
  | .b16 => 6
  | .b32 => 10
  | .b64 => 18

/-- N: the pool population of a class (R24). -/
def poolSize : PClass → Nat
  | .b8 => 32
  | .b16 => 21
  | .b32 => 12
  | .b64 => 7

/-- P/4: the payload words of a buffer (R25). -/
def dataWords (c : PClass) : Nat := payloadBytes c / 4

/-- NRX = N div 2: the receive buffers (R8). -/
def rxBuffers (c : PClass) : Nat := poolSize c / 2

/-- The RAM index of CS(i) (R25). -/
def csIndex (c : PClass) (i : Nat) : Nat := i * bufWords c

/-- The RAM index of ID(i) (R25). -/
def idIndex (c : PClass) (i : Nat) : Nat := i * bufWords c + 1

/-- The RAM index of DATA(i,k) (R25). -/
def dataIndex (c : PClass) (i k : Nat) : Nat := i * bufWords c + 2 + k

/-! ## Block offsets (R54) -/

def offMcr : Nat := 0x000
def offCtrl1 : Nat := 0x004
def offIflag1 : Nat := 0x030
def offCbt : Nat := 0x050
def offFdctrl : Nat := 0xC00
def offFdcbt : Nat := 0xC04

/-- The offset of RAM[k] (R23). -/
def offRam (k : Nat) : Nat := 0x080 + 4 * k

/-- The offset of RXIMR[i] (R35). -/
def offRximr (i : Nat) : Nat := 0x880 + 4 * i

/-! ## Fields of words (R9, R72) -/

/-- The mask M of a field write: bits hi down to lo (R72). -/
def fieldMask (hi lo : Nat) : Word := BitVec.ofNat 32 ((2 ^ (hi - lo + 1) - 1) * 2 ^ lo)

/-- `(old & ~M) | (new & M)`: the bits under the mask taken from the new word (R72). -/
def mergeBits (mask old new : Word) : Word := (old &&& ~~~mask) ||| (new &&& mask)

/-- Bit i set: the flag write of R152 and R166 is `1 << j`. -/
def bitWord (i : Nat) : Word := BitVec.ofNat 32 (2 ^ i)

/-- A one-bit field value placed at bit `lo`. -/
def flagAt (b : Bool) (lo : Nat) : Word := if b then bitWord lo else 0#32

/-- The writable fields of MCR: MDIS, FRZ, HALT, FDEN, MAXMB (R27, R28). -/
def mcrWritable : Word := 0xD000087F#32

/-- The RW-F fields of MCR: FDEN and MAXMB (R27). -/
def mcrFreeze : Word := 0x0000087F#32

/-- The read-only bits of MCR: NOTRDY, FRZACK and LPMACK (R27). -/
def mcrReadOnly : Word := 0x09100000#32

/-- The not-modelled bits of MCR: every other bit (R27). -/
def mcrNm : Word := 0x26EFF780#32

/-- CTRL1.CLKSRC, RW-D (R29). -/
def ctrl1Clk : Word := 0x00002000#32

/-- CTRL1.LPB, RW-F (R29). -/
def ctrl1Lpb : Word := 0x00001000#32

/-- The not-modelled bits of CTRL1 (R29). -/
def ctrl1Nm : Word := 0xFFFFCFFF#32

/-- The RW-F fields of FDCTRL: FDRATE and MBDSR0 (R32). -/
def fdctrlFreeze : Word := 0x80030000#32

/-- The not-modelled bits of FDCTRL (R32). -/
def fdctrlNm : Word := 0x7FFCFFFF#32

/-- The not-modelled bits of FDCBT (R31). -/
def fdcbtNm : Word := Config.fdcbtNm

/-! ## Buffer codes and control words (R96 to R100) -/

/-- CODE of a control word, bits 27:24 (R98). -/
def codeOf (w : Word) : BitVec 4 := w.extractLsb' 24 4

/-- DLC of a control word, bits 19:16 (R96). -/
def dlcOf (w : Word) : BitVec 4 := w.extractLsb' 16 4

def codeRxInactive : BitVec 4 := 0#4
def codeRxEmpty : BitVec 4 := 4#4
def codeRxFull : BitVec 4 := 2#4
def codeTxInactive : BitVec 4 := 8#4
def codeTxData : BitVec 4 := 12#4

/-- The five defined codes (R98); the other eleven are reserved (R99). -/
def codeDefined (c : BitVec 4) : Bool :=
  c == codeRxInactive || c == codeRxEmpty || c == codeRxFull || c == codeTxInactive || c == codeTxData

/-- A 4-bit field value at bits 27:24. -/
def codeAt (c : BitVec 4) : Word := c.setWidth 32 <<< 24

/-- A 4-bit field value at bits 19:16. -/
def dlcAt (d : BitVec 4) : Word := d.setWidth 32 <<< 16

/-- `CS[27:24] <- c`, every other bit unchanged. -/
def withCode (w : Word) (c : BitVec 4) : Word := mergeBits (fieldMask 27 24) w (codeAt c)

/-- The data length code of a payload size (R97). -/
def dlcOfClass : PClass → BitVec 4
  | .b8 => 8#4
  | .b16 => 10#4
  | .b32 => 13#4
  | .b64 => 15#4

/-- INIT's receive tag, RX_EMPTY << 24 (R100). -/
def tagRxEmpty : Word := 0x04000000#32

/-- INIT's transmit tag, TX_INACTIVE << 24 (R100). -/
def tagTxInactive : Word := 0x08000000#32

/-- The control word TRANSMIT writes (R100). -/
def txCsWord (c : PClass) : Word := codeAt codeTxData ||| dlcAt (dlcOfClass c)

/-- SRR and IDE, bits 22 and 21 (R147). -/
def srrIde : Word := 0x00600000#32

/-- What ENGINE leaves in CS(i) when it has sent buffer i: TX_INACTIVE, a drawn TIMESTAMP and the other
bits as they were (R190). -/
def sentCs (cs draw : Word) : Word :=
  mergeBits (fieldMask 15 0) (withCode cs codeTxInactive) draw

/-- What ENGINE writes to CS(j) on delivery: a draw but for CODE and DLC (R194). -/
def deliveredCs (draw : Word) (dlc : BitVec 4) : Word :=
  mergeBits (fieldMask 19 16) (withCode draw codeRxFull) (dlcAt dlc)

/-! ## Identifiers (R93 to R95, R101, R151) -/

/-- The standard identifier word (R94). -/
def stdIdWord (id : Word) : Word := id <<< 18

/-- The extended identifier word (R95). -/
def extIdWord (id : Word) : Word := id

/-- The receive identifier word INIT installs (R139). -/
def rxIdWord (idt : IdType) (id : Word) : Word :=
  match idt with
  | .standard => stdIdWord id
  | .extended => extIdWord id

/-- Whether TRANSMIT uses the extended encoding (R147, R151). -/
def txExtended (mode : Config.TxIdMode) (idt : IdType) : Bool :=
  match mode, idt with
  | .followConfig, .extended => true
  | _, _ => false

/-- txIdWord of R147. -/
def txIdWord (ext : Bool) (id : Word) : Word := if ext then extIdWord id else stdIdWord id

/-- txCs of R147. -/
def txCs (ext : Bool) (c : PClass) : Word := if ext then txCsWord c ||| srrIde else txCsWord c

/-- free(c) of R147. -/
def txFree (m : Config.TxFreeMatch) (cs : Word) : Bool :=
  match m with
  | .codeField => codeOf cs == codeTxInactive
  | .wholeWord => cs == tagTxInactive

/-- match(f, i) of R101, given ID(i) and RXIMR[i]. -/
def idMatches (f idw mask : Word) : Bool := ((f ^^^ idw) &&& mask &&& 0x1FFFFFFF#32) == 0#32

/-- ACCEPT_ALL of R101. -/
def acceptAll : Word := 0#32

/-! ## Payload bytes (R55) -/

/-- One word of `pack`: four payload bytes, the first in bits 31:24 (R55). -/
def packWord (b0 b1 b2 b3 : Byte) : Word := b0 ++ b1 ++ b2 ++ b3

/-- Byte j of a word in the order of `unpack` (R55). -/
def unpackByte (w : Word) (j : Nat) : Byte := (w >>> (24 - 8 * j)).setWidth 8

/-- unpack(w)[m] (R55, R165). -/
def unpackAt (ws : List Word) (m : Nat) : Byte := unpackByte (ws.getD (m / 4) 0#32) (m % 4)

/-! ## Session and configuration operands -/

/-- The payload class INIT applies (R123, R134). -/
def initClass (cfg : Cfg) : PClass :=
  match cfg.proto with
  | .canFd => cfg.pclass
  | .can20 => .b8

/-- The clock of a CLKSRC value (R90). -/
def clockOf (p : Config.Params) (clk : ClkSrc) : Nat :=
  match clk with
  | .bus => p.fClkBus
  | .osc => p.fClkOsc

/-- CTRL1.CLKSRC, bit 13, as a clock source (R29, R90). -/
def clkSrcOf (ctrl1 : Word) : ClkSrc := if ctrl1.getLsbD 13 then .bus else .osc

/-- Whether the host bytes `a` to `a + len - 1` may be accessed (R57): no wrap past 2^32 - 1 and no
overlap with the register window; a range of length 0 is never checked. -/
def hostRangeOk (p : Config.Params) (a : Word) (len : Nat) : Bool :=
  decide (len = 0) ||
    (decide (a.toNat + len ≤ Config.hostBytes) &&
      (decide (a.toNat + len ≤ p.canBase.toNat) ||
        decide (p.canBase.toNat + Config.windowBytes ≤ a.toNat)))

end Sys2Proof.Machine
end

