-- ==== Sys2Proof/Machine/Flags.lean ====
section
/-! DEFINITION. The status flags (R38 10_state.md): the MCR bits, the completion flags and the transmit
requests, and what a write of 1 does to them (R34, R61). -/

namespace Sys2Proof.Machine

/-! ## MCR fields (R27) -/

def mdis (mcr : Word) : Bool := mcr.getLsbD 31
def frz (mcr : Word) : Bool := mcr.getLsbD 30
def halt (mcr : Word) : Bool := mcr.getLsbD 28
def notRdy (mcr : Word) : Bool := mcr.getLsbD 27
def frzAck (mcr : Word) : Bool := mcr.getLsbD 24
def lpmAck (mcr : Word) : Bool := mcr.getLsbD 20
def fdEn (mcr : Word) : Bool := mcr.getLsbD 11

/-- MCR.MAXMB, bits 6:0. -/
def maxMb (mcr : Word) : Nat := bits mcr 6 0

/-- Freeze is requested: FRZ = 1 and HALT = 1 (R27). -/
def freezeRequested (mcr : Word) : Bool := frz mcr && halt mcr

/-- The controller is operational (R188). -/
def operationalMcr (mcr : Word) : Bool := !lpmAck mcr && !frzAck mcr && !notRdy mcr

/-- CTRL1.LPB, bit 12 (R29). -/
def lpb (ctrl1 : Word) : Bool := ctrl1.getLsbD 12

/-! ## Bits of IFLAG1 and txPending -/

/-- Bit i set. -/
def setBit (w : BitVec 32) (i : Nat) : BitVec 32 := w ||| bitWord i

/-- Bit i cleared. -/
def clearBit (w : BitVec 32) (i : Nat) : BitVec 32 := w &&& ~~~bitWord i

/-- The word whose bits below `n` are those of the predicate. -/
def maskOf (p : Nat → Bool) : Nat → BitVec 32
  | 0 => 0#32
  | n + 1 => if p n then setBit (maskOf p n) n else maskOf p n

/-- Write-1-to-clear (R34): bits with `v[i] = 1` become 0, the others stay. -/
def w1c (iflag v : Word) : Word := iflag &&& ~~~v

end Sys2Proof.Machine
end

