-- ==== Sys2Proof/Machine/Ops.lean ====
section
/-! DEFINITION. The shared operations: raising a fault (R200 60_exceptions.md), cells with poison (R20),
host memory (R57), the sequencer (R22, R84, R226), and block-space reads and writes with every check and
side effect (R54 to R65, R72 to R75 20_memory.md; R173, R177 44_register_access.md). -/

namespace Sys2Proof.Machine

/-! ## Raising a fault -/

/-- `raise Fault(r)` (R200), the machine's only exception: the run ends, the faulting step has no effect,
and nothing returns from it (no handler, vector or saved state exists). -/
def raise (r : Fault) : Out State := .fault r

/-- Goes on with the value of an operation, or raises its fault. -/
def tryDo {α : Type} (x : Except Fault α) (k : α → Out State) : Out State :=
  match x with
  | .ok a => k a
  | .error r => raise r

/-- Goes on inside an operation. -/
def thenDo {α β : Type} (x : Except Fault α) (k : α → Except Fault β) : Except Fault β :=
  match x with
  | .ok a => k a
  | .error r => .error r

/-- A check of an operation: its fault where the condition fails. -/
def check (c : Bool) (r : Fault) : Except Fault Unit := if c then .ok () else .error r

/-- Reading an element: poison is a fault (R20). -/
def needed {α : Type} (x : Option α) : Except Fault α :=
  match x with
  | some a => .ok a
  | none => .error .readPoison

/-! ## Cells: sparse arrays whose unlisted entries are poison -/

/-- The value at a key; `none` is poison. -/
def cellRead {α : Type} (m : List (Nat × α)) (a : Nat) : Option α :=
  match m with
  | [] => none
  | (b, v) :: rest => if a = b then some v else cellRead rest a

/-- Writes a key, keeping the keys strictly rising. -/
def cellWrite {α : Type} (m : List (Nat × α)) (a : Nat) (v : α) : List (Nat × α) :=
  match m with
  | [] => [(a, v)]
  | (b, w) :: rest =>
    if a < b then (a, v) :: (b, w) :: rest
    else if a = b then (a, v) :: rest
    else (b, w) :: cellWrite rest a v

/-- Changes every listed value by a function of its key. -/
def cellMap {α : Type} (f : Nat → α → α) (m : List (Nat × α)) : List (Nat × α) :=
  m.map fun c => (c.1, f c.1 c.2)

/-- The canonical form: keys strictly rising, from `lo` up and below `bound`. -/
def cellsFrom {α : Type} (lo bound : Nat) (m : List (Nat × α)) : Bool :=
  match m with
  | [] => true
  | (a, _) :: rest => decide (lo ≤ a) && decide (a < bound) && cellsFrom (a + 1) bound rest

/-- Host memory is in canonical form: addresses strictly rising and below 2^32. Nothing is listed that
equals what an unlisted address reads as, since an unlisted byte is poison and a listed one is not. -/
def Memory.wf (m : Memory) : Bool := cellsFrom 0 Config.hostBytes m

/-- The message-buffer RAM is in canonical form: word indices strictly rising and below 128. -/
def ramWf (m : WordCells) : Bool := cellsFrom 0 Config.ramWords m

/-- The receive masks are in canonical form: indices strictly rising and below 32. -/
def rximrWf (m : WordCells) : Bool := cellsFrom 0 Config.mbMax m

/-! ## Host memory (R57) -/

/-- HostRead(a). -/
def hostRead (s : State) (a : Nat) : Except Fault Byte := needed (cellRead s.hostMem a)

/-- HostWrite(a, v). No address from 2^32 up exists (log 19). -/
def hostWrite (a : Nat) (v : Byte) (s : State) : Except Fault State :=
  if a < Config.hostBytes then .ok { s with hostMem := cellWrite s.hostMem a v }
  else .error .hostRange

/-- HostWrite(a + m, f(m)) for the m of a list, in its order (R165). -/
def hostWriteAll (a : Nat) (f : Nat → Byte) (s : State) : List Nat → Except Fault State
  | [] => .ok s
  | m :: ms => thenDo (hostWrite (a + m) (f m) s) fun t => hostWriteAll a f t ms

/-! ## The sequencer (R22) -/

/-- Moves the sequencer to another micro-step. -/
def State.goto (s : State) (p : Pos) : State := { s with seq := { s.seq with pos := p } }

/-- An operation starts: its first micro-step comes next and seq.attempts is 0 (R22). -/
def State.start (s : State) (p : Pos) : State :=
  { s with seq := { s.seq with pos := p, attempts := 0 } }

/-- seq.attempts <- 0, which starting an operation does (R22, R227). -/
def State.clearAttempts (s : State) : State := { s with seq := { s.seq with attempts := 0 } }

/-- finish(s) of R84: the status is set, the sequencer is IDLE, and the status joins the run's sequence
of statuses (R205). -/
def State.finish (s : State) (st : Status) : State :=
  { s with
    seq := { s.seq with pos := .idle, status := some st }
    statuses := s.statuses ++ [st] }

/-- An operation that started and that its own check at micro-step 0 ends with NOT_OK: seq.attempts is 0
because the operation started (DEDUCED, log 28: R116 and R124 name only the finish). -/
def State.startNotOk (s : State) : State := s.clearAttempts.finish .notOk

/-- A poll that is done: attempts go back to 0 and the operation goes on (R226). -/
def State.pollDone (s : State) (p : Pos) : State := s.start p

/-- What a failed poll attempt does (R226): nothing without a limit; with limit n the count goes up, and
at n the operation's timeout rule runs. -/
def State.pollFailed (s : State) (timedOut : State → State) : State :=
  match s.params.pollLimit with
  | none => s
  | some n =>
    let t := { s with seq := { s.seq with attempts := s.seq.attempts + 1 } }
    if s.seq.attempts + 1 = n then timedOut t else t

/-! ## Block state as the rules name it -/

/-- The payload class of the hardware geometry hwGeom (R26). -/
def hwClass (s : State) : PClass :=
  if fdEn s.mcr then pclassOfBits (bits s.fdctrl 17 16) else .b8

/-- The controller is operational (R188). -/
def operational (s : State) : Bool := operationalMcr s.mcr

/-- CS(i) under hwGeom; `none` is poison. -/
def hwCs (s : State) (i : Nat) : Option Word := cellRead s.ram (csIndex (hwClass s) i)

/-- CODE(i) = c under hwGeom, where a poison word has no code. -/
def hwCodeIs (s : State) (c : BitVec 4) (i : Nat) : Bool :=
  match hwCs s i with
  | some w => codeOf w == c
  | none => false

/-- The session's payload class; poison is a fault (R37, R20). -/
def sessClass (s : State) : Except Fault PClass := needed s.sess.cls

/-- owner(i) = ENGINE (R62). CODE(i) is read only while the controller is operational, and a poison
control word is then a fault (R20, log 8). -/
def engineOwns (s : State) (i : Nat) : Except Fault Bool :=
  if operational s then
    thenDo (needed (hwCs s i)) fun w =>
      .ok (codeOf w == codeRxEmpty || (codeOf w == codeTxData && s.txPending.getLsbD i))
  else .ok false

/-! ## The map of block space (R54) -/

/-- The words of block space. -/
inductive BlockWord where
  | mcr
  | ctrl1
  | iflag1
  | cbt
  | ram (k : Nat)
  | rximr (i : Nat)
  | fdctrl
  | fdcbt
  deriving DecidableEq, Repr

/-- The word an offset reaches: Misaligned, then Unmapped (R173 items 1 and 2). -/
def blockWord (off : Nat) : Except Fault BlockWord :=
  if off % 4 ≠ 0 then .error .misaligned
  else if off = offMcr then .ok .mcr
  else if off = offCtrl1 then .ok .ctrl1
  else if off = offIflag1 then .ok .iflag1
  else if off = offCbt then .ok .cbt
  else if off = offFdctrl then .ok .fdctrl
  else if off = offFdcbt then .ok .fdcbt
  else if 0x080 ≤ off ∧ off < 0x280 then .ok (.ram ((off - 0x080) / 4))
  else if 0x880 ≤ off ∧ off < 0x900 then .ok (.rximr ((off - 0x880) / 4))
  else .error .unmapped

/-- RAM and RXIMR are out of reach while the module is disabled (R65, R173 item 3). -/
def moduleEnabled (s : State) : Except Fault Unit := check (!lpmAck s.mcr) .moduleDisabled

/-! ## Block reads (R59, R172 to R175) -/

/-- The value of a word of block space. -/
def readWord (w : BlockWord) (s : State) : Except Fault Word :=
  match w with
  | .mcr => .ok s.mcr
  | .ctrl1 => .ok s.ctrl1
  | .iflag1 => .ok s.iflag
  | .cbt => .ok s.cbt
  | .fdctrl => .ok s.fdctrl
  | .fdcbt => .ok s.fdcbt
  | .ram k => thenDo (moduleEnabled s) fun _ => needed (cellRead s.ram k)
  | .rximr i => thenDo (moduleEnabled s) fun _ => needed (cellRead s.rximr i)

/-- `Reg(off)` (R10). -/
def regRead (off : Nat) (s : State) : Except Fault Word :=
  thenDo (blockWord off) fun w => readWord w s

/-! ## Block writes (R61 to R65, R74, R75, R177) -/

/-- A write changes some bit under the mask. -/
def changes (mask old new : Word) : Bool := (old ^^^ new) &&& mask != 0#32

/-- R75: a write may not change a not-modelled bit. -/
def keepsNm (nm old new : Word) : Except Fault Unit := check (!changes nm old new) .unmodelledField

/-- R64: a write may change a windowed field only while its window is open. -/
def inWindow (isOpen : Bool) (mask old new : Word) : Except Fault Unit :=
  check (isOpen || !changes mask old new) .configWindow

/-- A host write to MCR (R28, R61 item 3): the requests and the freeze fields take the written bits, the
read-only bits stay. -/
def writeMcr (v : Word) (s : State) : Except Fault State :=
  thenDo (keepsNm mcrNm s.mcr v) fun _ =>
    thenDo (inWindow (frzAck s.mcr) mcrFreeze s.mcr v) fun _ =>
      .ok { s with mcr := mergeBits mcrWritable s.mcr v }

/-- A host write to CTRL1 (R29): LPB in freeze, CLKSRC while disabled. -/
def writeCtrl1 (v : Word) (s : State) : Except Fault State :=
  thenDo (keepsNm ctrl1Nm s.ctrl1 v) fun _ =>
    thenDo (inWindow (frzAck s.mcr) ctrl1Lpb s.ctrl1 v) fun _ =>
      thenDo (inWindow (lpmAck s.mcr) ctrl1Clk s.ctrl1 v) fun _ => .ok { s with ctrl1 := v }

/-- A host write to CBT (R30). -/
def writeCbt (v : Word) (s : State) : Except Fault State :=
  thenDo (inWindow (frzAck s.mcr) (~~~0#32) s.cbt v) fun _ => .ok { s with cbt := v }

/-- A host write to FDCBT (R31). -/
def writeFdcbt (v : Word) (s : State) : Except Fault State :=
  thenDo (keepsNm fdcbtNm s.fdcbt v) fun _ =>
    thenDo (inWindow (frzAck s.mcr) (~~~fdcbtNm) s.fdcbt v) fun _ => .ok { s with fdcbt := v }

/-- A host write to FDCTRL (R32). -/
def writeFdctrl (v : Word) (s : State) : Except Fault State :=
  thenDo (keepsNm fdctrlNm s.fdctrl v) fun _ =>
    thenDo (inWindow (frzAck s.mcr) fdctrlFreeze s.fdctrl v) fun _ => .ok { s with fdctrl := v }

/-- A host write to RXIMR[i] (R35). Writing over poison changes the mask (log 9). -/
def writeRximr (i : Nat) (v : Word) (s : State) : Except Fault State :=
  thenDo (check (frzAck s.mcr || cellRead s.rximr i == some v) .configWindow) fun _ =>
    .ok { s with rximr := cellWrite s.rximr i v }

/-- The transmit requests a write of `v` to IFLAG1 makes: the bits of the buffers below N_hw with
CODE = TX_DATA (R61 item 1). -/
def requestMask (v : Word) (s : State) : BitVec 32 :=
  maskOf (fun i => v.getLsbD i && decide (i < poolSize (hwClass s)) && hwCodeIs s codeTxData i) 32

/-- What a write of `v` to IFLAG1 does to RAM[k]: a CS word with CODE = RX_FULL whose flag bit is written
becomes RX_EMPTY (R61 item 1). -/
def releasedWord (v : Word) (c : PClass) (k : Nat) (w : Word) : Word :=
  if k % bufWords c = 0 ∧ k / bufWords c < poolSize c ∧ v.getLsbD (k / bufWords c) ∧
      codeOf w = codeRxFull then
    withCode w codeRxEmpty
  else w

/-- No buffer below N_hw whose flag bit is written has a poison control word (R61, R177 item 4). -/
def flagsReadable (v : Word) (s : State) : Bool :=
  (List.range (poolSize (hwClass s))).all fun i => !v.getLsbD i || (hwCs s i).isSome

/-- A host write to IFLAG1 (R34, R61 item 1): the flags of the set bits are cleared, requests are latched
and full receive buffers are released, all in one step. -/
def writeIflag (v : Word) (s : State) : Except Fault State :=
  thenDo (check (flagsReadable v s) .readPoison) fun _ =>
    .ok { s with
      iflag := w1c s.iflag v
      txPending := s.txPending ||| requestMask v s
      ram := cellMap (releasedWord v (hwClass s)) s.ram }

/-- Clears every transmit request, which INIT's RAM zeroing does (R36, R146). -/
def State.dropRequests (s : State) : State := { s with txPending := 0#32 }

/-- The revocation of R63: a TX_INACTIVE code written to the CS word of a requested TX_DATA buffer. -/
def isRevocation (k i : Nat) (v : Word) (s : State) : Bool :=
  decide (k = csIndex (hwClass s) i) && hwCodeIs s codeTxData i && s.txPending.getLsbD i &&
    codeOf v == codeTxInactive

/-- R63: HOST writes only words of buffers it owns, but for a revocation. -/
def hostMayWrite (k i : Nat) (v : Word) (s : State) : Except Fault Unit :=
  thenDo (engineOwns s i) fun owned => check (!owned || isRevocation k i v s) .ownershipViolation

/-- RAM[k] is CS(i) under hwGeom for some i < N_hw. -/
def isCsWord (k : Nat) (s : State) : Bool :=
  decide (k % bufWords (hwClass s) = 0) && decide (k / bufWords (hwClass s) < poolSize (hwClass s))

/-- RAM[k] takes a word, with no check: the store of R61 and of the engine. -/
def State.putRam (s : State) (k : Nat) (v : Word) : State := { s with ram := cellWrite s.ram k v }

/-- A host write to RAM[k] (R61 item 2, R63, R74): ownership, then the code of a CS word, then the store;
a CS word also loses its transmit request. A request of a buffer at or beyond N_hw has no CS word
(R61 item 4); INIT's zeroing clears it (log 29). -/
def writeRam (k : Nat) (v : Word) (s : State) : Except Fault State :=
  let i := k / bufWords (hwClass s)
  if i < poolSize (hwClass s) then
    thenDo (hostMayWrite k i v s) fun _ =>
      if isCsWord k s then
        thenDo (check (codeDefined (codeOf v)) .reservedCode) fun _ =>
          .ok { s.putRam k v with txPending := clearBit s.txPending i }
      else .ok (s.putRam k v)
  else .ok (s.putRam k v)

/-- A host write to a word of block space, the checks in the order of R173 item 3 and R177. -/
def writeWord (w : BlockWord) (v : Word) (s : State) : Except Fault State :=
  match w with
  | .mcr => writeMcr v s
  | .ctrl1 => writeCtrl1 v s
  | .iflag1 => writeIflag v s
  | .cbt => writeCbt v s
  | .fdctrl => writeFdctrl v s
  | .fdcbt => writeFdcbt v s
  | .ram k => thenDo (moduleEnabled s) fun _ => writeRam k v s
  | .rximr i => thenDo (moduleEnabled s) fun _ => writeRximr i v s

/-- `Reg(off) <- v` (R10). -/
def regWrite (off : Nat) (v : Word) (s : State) : Except Fault State :=
  thenDo (blockWord off) fun w => writeWord w v s

/-! ## Micro-steps that several operations take -/

/-- `Reg(off) <- v` as one micro-step. -/
def writeStep (off : Nat) (v : Word) (next : Pos) (s : State) : Out State :=
  tryDo (regWrite off v s) fun t => .next (t.goto next)

/-- A field write `F.X <- v` (R72): with `t = none` the read micro-step, with `t = some w` the write
micro-step on the word read. `here` is the position of the write micro-step. -/
def fieldStep (off : Nat) (mask v : Word) (t : Option Word) (here : Option Word → Pos) (next : Pos)
    (s : State) : Out State :=
  match t with
  | none => tryDo (regRead off s) fun w => .next (s.goto (here (some w)))
  | some w => writeStep off (mergeBits mask w v) next s

/-- One attempt of `poll c` (R226). -/
def pollStep (off : Nat) (c : Word → Bool) (next timedOut : Pos) (s : State) : Out State :=
  tryDo (regRead off s) fun w =>
    .next (if c w then s.pollDone next else s.pollFailed fun t => t.goto timedOut)

end Sys2Proof.Machine
end

