-- ==== Sys2Proof/Machine/Agents.lean ====
section
/-! DEFINITION. The hardware agents CTRL, ENGINE and BUS (45_hardware_agents.md, R182 to R196): for each
step its guard and its effect. -/

namespace Sys2Proof.Machine

/-! ## CTRL (R182 to R187) -/

/-- MCR with its three acknowledge bits, LPMACK, FRZACK and NOTRDY. -/
def withAcks (mcr : Word) (lpmack frzack notrdy : Bool) : Word :=
  mergeBits mcrReadOnly mcr (flagAt lpmack 20 ||| flagAt frzack 24 ||| flagAt notrdy 27)

/-- The guard of LPM-ENTER (R182). -/
def lpmEnterOn (m : Word) : Bool := mdis m && !lpmAck m

/-- The guard of LPM-EXIT (R183). -/
def lpmExitOn (m : Word) : Bool := !mdis m && lpmAck m

/-- The guard of FRZ-ENTER (R184). -/
def frzEnterOn (m : Word) : Bool := !mdis m && !lpmAck m && freezeRequested m && !frzAck m

/-- The guard of FRZ-EXIT (R185). -/
def frzExitOn (m : Word) : Bool := !lpmAck m && frzAck m && !freezeRequested m

/-- The guard of READY (R186). -/
def readyOn (m : Word) : Bool :=
  !mdis m && !lpmAck m && !frzAck m && !freezeRequested m && notRdy m

/-- The effect of LPM-ENTER: LPMACK <- 1, FRZACK <- 0, NOTRDY <- 1 (R182). -/
def lpmEnter (s : State) : State := { s with mcr := withAcks s.mcr true false true }

/-- The effect of LPM-EXIT: LPMACK <- 0 (R183). -/
def lpmExit (s : State) : State :=
  { s with mcr := withAcks s.mcr false (frzAck s.mcr) (notRdy s.mcr) }

/-- The effect of FRZ-ENTER: FRZACK <- 1, NOTRDY <- 1 (R184). -/
def frzEnter (s : State) : State := { s with mcr := withAcks s.mcr (lpmAck s.mcr) true true }

/-- The effect of FRZ-EXIT: FRZACK <- 0 (R185). -/
def frzExit (s : State) : State :=
  { s with mcr := withAcks s.mcr (lpmAck s.mcr) false (notRdy s.mcr) }

/-- The effect of READY: NOTRDY <- 0 (R186). -/
def ready (s : State) : State :=
  { s with mcr := withAcks s.mcr (lpmAck s.mcr) (frzAck s.mcr) false }

/-! ## Frames and delivery (R192, R194) -/

/-- A frame (R192): the identifier word, the payload words, the data length code. -/
structure Frame where
  idw : Word
  data : List Word
  dlc : BitVec 4
  deriving DecidableEq, Repr

/-- The words DATA(i,k) under hwGeom for the k of a list; poison is a fault (R190, R20). -/
def readData (s : State) (i : Nat) : List Nat → Except Fault (List Word)
  | [] => .ok []
  | k :: ks =>
    thenDo (needed (cellRead s.ram (dataIndex (hwClass s) i k))) fun w =>
      thenDo (readData s i ks) fun ws => .ok (w :: ws)

/-- Puts words at consecutive RAM indices. -/
def putWords (a : Nat) (ws : List Word) (s : State) : State :=
  match ws with
  | [] => s
  | w :: rest => putWords (a + 1) rest (s.putRam a w)

/-- ENGINE may use buffer j: j < N_hw and j ≤ MAXMB (R26). -/
def usable (s : State) (j : Nat) : Bool :=
  decide (j < poolSize (hwClass s)) && decide (j ≤ maxMb s.mcr)

/-- The first buffer of a list that takes the identifier word (R194): usable, RX_EMPTY and matching. A
poison control word, identifier or mask met on the way is a fault (R20, R194, log 8). -/
def findRx (f : Word) (s : State) : List Nat → Except Fault (Option Nat)
  | [] => .ok none
  | j :: js =>
    if usable s j then
      thenDo (needed (hwCs s j)) fun cs =>
        if codeOf cs = codeRxEmpty then
          thenDo (needed (cellRead s.ram (idIndex (hwClass s) j))) fun idw =>
            thenDo (needed (cellRead s.rximr j)) fun mask =>
              if idMatches f idw mask then .ok (some j) else findRx f s js
        else findRx f s js
    else findRx f s js

/-- The next draw (R15). -/
def draw (s : State) : Word := Config.freeWord s.draws

/-- The state after some draws were made. -/
def State.drew (s : State) (n : Nat) : State := { s with draws := s.draws + n }

/-- The effect of a delivery into buffer j (R194). -/
def deliverInto (f : Frame) (j : Nat) (s : State) : State :=
  let c := hwClass s
  let t := putWords (dataIndex c j 0) f.data (s.putRam (idIndex c j) f.idw)
  let u := t.putRam (csIndex c j) (deliveredCs (draw s) f.dlc)
  { u.drew 1 with iflag := setBit s.iflag j }

/-- deliver(f) of R194: into the lowest matching buffer, or the frame is dropped. -/
def deliver (f : Frame) (s : State) : Except Fault State :=
  thenDo (findRx f.idw s (List.range Config.mbMax)) fun r =>
    match r with
    | some j => .ok (deliverInto f j s)
    | none => .ok s

/-! ## ENGINE (R188 to R195) -/

/-- The guard of TX(i) (R189). The code of a requested buffer is read, so over a poison control word the
step is there and faults (R20, log 23). -/
def txOn (i : Nat) (s : State) : Bool :=
  operational s && usable s i && s.txPending.getLsbD i &&
    (hwCodeIs s codeTxData i || (hwCs s i).isNone)

/-- The frame buffer i holds (R190). -/
def frameOf (i : Nat) (cs : Word) (s : State) : Except Fault Frame :=
  thenDo (needed (cellRead s.ram (idIndex (hwClass s) i))) fun idw =>
    thenDo (readData s i (List.range (dataWords (hwClass s)))) fun data =>
      .ok { idw := idw, data := data, dlc := dlcOf cs }

/-- The completion part of TX(i) (R190): the code, the timestamp, the request and the flag. -/
def completeTx (i : Nat) (cs : Word) (s : State) : State :=
  let t := s.putRam (csIndex (hwClass s) i) (sentCs cs (draw s))
  { t.drew 1 with txPending := clearBit s.txPending i, iflag := setBit s.iflag i }

/-- The effect of TX(i) (R190), with the loop-back delivery of R191 in the same step. -/
def txStep (i : Nat) (s : State) : Except Fault State :=
  thenDo (needed (hwCs s i)) fun cs =>
    thenDo (frameOf i cs s) fun f =>
      if lpb s.ctrl1 then deliver f (completeTx i cs s) else .ok (completeTx i cs s)

/-! ## BUS (R196) -/

/-- The guard of RX-FRAME (R196). In loop-back BUS has no step, as R191 and R196 say, unless the parameter
for the other reading of decision D21 is set (log 22). -/
def rxFrameOn (s : State) : Bool := operational s && (!lpb s.ctrl1 || s.params.loopBackBus)

/-- A frame all of whose parts are draws (R196): the n-th draw and those after it. -/
def drawnFrame (c : PClass) (n : Nat) : Frame where
  idw := Config.freeWord n
  data := (List.range (dataWords c)).map fun k => Config.freeWord (n + 1 + k)
  dlc := (Config.freeWord (n + 1 + dataWords c)).setWidth 4

/-- The effect of RX-FRAME (R196). -/
def rxFrameStep (s : State) : Except Fault State :=
  deliver (drawnFrame (hwClass s) s.draws) (s.drew (dataWords (hwClass s) + 2))

end Sys2Proof.Machine
end

