-- ==== Sys2Proof/Machine/Access.lean ====
section
/-! DEFINITION. READ32 and WRITE32 (44_register_access.md, R172 to R181). -/

namespace Sys2Proof.Machine

/-- Micro-step 0 of both: INST (R88 item 5), then the offset checks that need no block state (R173 items
1 and 2). -/
def accessStart (inst : Nat) (off : Word) (p : Pos) (s : State) : Except Fault State :=
  thenDo (check (decide (inst = Config.modelledInst)) .badInstance) fun _ =>
    thenDo (blockWord off.toNat) fun _ => .ok (s.start p)

/-- READ32 (R172): its next micro-step. -/
def execRead32 (inst : Nat) (off : Word) (s : State) : Out State :=
  match s.seq.pos with
  | .idle => tryDo (accessStart inst off .read32 s) fun t => .next t
  | .read32 =>
    tryDo (regRead off.toNat s) fun v =>
      .next ({ s with seq := { s.seq with value := some v } }.finish .ok)
  | _ => .refused .sequencerBusy

/-- WRITE32 (R176): its next micro-step. -/
def execWrite32 (inst : Nat) (off val : Word) (s : State) : Out State :=
  match s.seq.pos with
  | .idle => tryDo (accessStart inst off .write32 s) fun t => .next t
  | .write32 => tryDo (regWrite off.toNat val s) fun t => .next (t.finish .ok)
  | _ => .refused .sequencerBusy

end Sys2Proof.Machine
end

