-- ==== Sys2Proof/Machine/Timing.lean ====
section
/-! DEFINITION. The bit-timing configurator (40_bit_timing.md): the calculation of R105 to R113, the CBT
word of R91, the timing write of R114 and R115, and CALC_TIMING (R116). -/

namespace Sys2Proof.Machine

open Config (PrescalerRule)

/-- sq of R106: qpb * sp / 100 rounded to the nearest, a half up. -/
def sampleQuanta (qpb sp : Nat) : Nat := (2 * qpb * sp + 100) / 200

/-- ps2 = ps1 of R107. -/
def phaseSeg (qpb sp : Nat) : Int := (qpb : Int) - (sampleQuanta qpb sp : Int)

/-- prop of R108, negative where no propagation segment is left. -/
def propSeg (qpb sp : Nat) : Int := (qpb : Int) - phaseSeg qpb sp - phaseSeg qpb sp - 1

/-- rjw of R109. -/
def resyncWidth (qpb sp : Nat) : Int := min (phaseSeg qpb sp - 1) (Config.rjwCap : Int)

/-- f of R110, an unbounded natural. -/
def serialClock (qpb nbr : Nat) : Nat := qpb * nbr

/-- presdiv under the two rules (R111, R112); the division is floor division. -/
def prescaler (rule : PrescalerRule) (fclk f : Nat) : Int :=
  match rule with
  | .source => 1 - ((fclk / f : Nat) : Int)
  | .conventional => ((fclk / f : Nat) : Int) - 1

/-- Conditions 1 to 7 of R113 all fail. -/
def segmentsFeasible (qpb sp nbr : Nat) : Bool :=
  decide (Config.qpbMin ≤ qpb) && decide (sp ≤ 100) && decide (nbr ≠ 0) &&
    decide (1 ≤ phaseSeg qpb sp) && decide (0 ≤ propSeg qpb sp) && decide (phaseSeg qpb sp ≤ 31) &&
    decide (propSeg qpb sp ≤ 63)

/-- Condition 8 of R113 fails: under CONVENTIONAL the prescaler fits its 10-bit field. -/
def prescalerFits (rule : PrescalerRule) (presdiv : Int) : Bool :=
  match rule with
  | .source => true
  | .conventional => decide (0 ≤ presdiv) && decide (presdiv ≤ 1023)

/-- timing(qpb, sp, nbr, fCLK) of R113; `none` is Infeasible. -/
def timing (rule : PrescalerRule) (qpb sp nbr fclk : Nat) : Option Timing :=
  if segmentsFeasible qpb sp nbr then
    if prescalerFits rule (prescaler rule fclk (serialClock qpb nbr)) then
      some
        { presdiv := prescaler rule fclk (serialClock qpb nbr)
          rjw := (resyncWidth qpb sp).toNat
          prop := (propSeg qpb sp).toNat
          ps1 := (phaseSeg qpb sp).toNat
          ps2 := (phaseSeg qpb sp).toNat }
    else none
  else none

/-- cbtWord of R91: BTF, then the five fields, each masked to its width. -/
def cbtWord (r : Timing) : Word :=
  1#1 ++ BitVec.ofInt 10 r.presdiv ++ BitVec.ofNat 5 r.rjw ++ BitVec.ofNat 6 r.prop ++
    BitVec.ofNat 5 r.ps1 ++ BitVec.ofNat 5 r.ps2

/-- The calculation with the parameters of the machine and the clock that CTRL1 selects (R90, R105). -/
def timingFor (p : Config.Params) (clk : ClkSrc) (qpb sp : Nat) (nbr : Word) : Option Timing :=
  timing p.prescalerRule qpb sp nbr.toNat (clockOf p clk)

/-- Micro-step 0 of CALC_TIMING: INST, which has no other effect (R88 item 5), then the reserved bits of
TPAR (R85), which set seq.attempts to 0 as every operation that starts does (DEDUCED, log 28). -/
def calcStart (inst : Nat) (tpar : Tpar) (s : State) : State :=
  if inst ≠ Config.modelledInst then s.finish .notOk
  else if tpar.rsv ≠ 0 then s.startNotOk
  else s.start (.calcTiming .readMcr)

/-- A block write that also finishes the operation with OK. -/
def writeAndFinish (off : Nat) (v : Word) (s : State) : Out State :=
  tryDo (regWrite off v s) fun t => .next (t.finish .ok)

/-- Micro-steps 1 to 5 of CALC_TIMING (R116). -/
def calcMicro (tpar : Tpar) (nbr : Word) (p : CalcPos) (s : State) : Out State :=
  match p with
  | .readMcr =>
    tryDo (regRead offMcr s) fun m =>
      .next (s.goto (.calcTiming (if fdEn m then .fdCbt else .readCtrl1)))
  | .fdCbt => writeStep offCbt s.params.fdCbtWord (.calcTiming .fdFdcbt) s
  | .fdFdcbt => writeAndFinish offFdcbt s.params.fdFdcbtWord s
  | .readCtrl1 =>
    tryDo (regRead offCtrl1 s) fun c =>
      match timingFor s.params (clkSrcOf c) tpar.qpb tpar.sp nbr with
      | none => .next (s.finish .notOk)
      | some r => .next (s.goto (.calcTiming (.writeCbt r)))
  | .writeCbt r => writeAndFinish offCbt (cbtWord r) s

/-- CALC_TIMING (R116): its next micro-step. -/
def execCalcTiming (inst : Nat) (tpar : Tpar) (nbr : Word) (s : State) : Out State :=
  match s.seq.pos with
  | .idle => .next (calcStart inst tpar s)
  | .calcTiming p => calcMicro tpar nbr p s
  | _ => .refused .sequencerBusy

end Sys2Proof.Machine
end

