-- ==== Sys2Proof/Machine/Init.lean ====
section
/-! DEFINITION. INIT, the controller bring-up (41_init.md, R122 to R146). -/

namespace Sys2Proof.Machine

/-- R124: the input is invalid. The timing inputs are checked for CAN 2.0 only. -/
def initInvalid (p : Config.Params) (inst : Nat) (cfg : Cfg) (nbr : Word) : Bool :=
  decide (inst ≠ Config.modelledInst) || decide (cfg.rsvHigh ≠ 0) || decide (cfg.rsvLow ≠ 0) ||
    decide (100 < cfg.sp) ||
    (cfg.proto == .can20 && (timingFor p cfg.clk cfg.qpb cfg.sp nbr).isNone)

/-- Micro-step 0 of INIT: INST, which has no other effect (R88 item 5), then validation, which touches no
block state (R124) and leaves seq.attempts at 0 as every operation that starts does (DEDUCED, log 28). -/
def initStart (inst : Nat) (cfg : Cfg) (nbr : Word) (s : State) : State :=
  if inst ≠ Config.modelledInst then s.finish .notOk
  else if initInvalid s.params inst cfg nbr then s.startNotOk
  else s.start (.init .clearValid)

/-- A field write of INIT, its two micro-steps (R72). -/
def initField (off : Nat) (mask v : Word) (t : Option Word) (here : Option Word → InitPos)
    (next : InitPos) (s : State) : Out State :=
  fieldStep off mask v t (fun w => .init (here w)) (.init next) s

/-- A poll of INIT; when a bounded poll expires, R144 runs. -/
def initPoll (c : Word → Bool) (next : InitPos) (s : State) : Out State :=
  pollStep offMcr c (.init next) (.init (.timeoutDisable none)) s

/-- The fields MDIS, FRZ and HALT of MCR (R27). -/
def mdisMask : Word := fieldMask 31 31
def frzHaltMask : Word := fieldMask 30 30 ||| fieldMask 28 28

/-- The fields FDRATE and MBDSR0 of FDCTRL with the values BRS and PCLASS (R131). -/
def fdctrlValue (cfg : Cfg) : Word :=
  flagAt cfg.brs 31 ||| BitVec.ofNat 32 (pclassToBits cfg.pclass * 2 ^ 16)

/-- Step 7's FDEN value, PROTO (R131, R133). -/
def fdEnValue (cfg : Cfg) : Word := flagAt (cfg.proto == .canFd) 11

/-- The tag of buffer i (R138). -/
def tagOf (c : PClass) (i : Nat) : Word := if i < rxBuffers c then tagRxEmpty else tagTxInactive

/-- The position after element `i` of a loop over `0 .. n-1`. -/
def initNext (i n : Nat) (again : Nat → InitPos) (after : InitPos) : Pos :=
  .init (if i + 1 < n then again (i + 1) else after)

/-- Step 8's session part (R132). -/
def initSession (cfg : Cfg) (s : State) : State :=
  { s with sess := { s.sess with cls := some (initClass cfg), idType := some cfg.idt } }

/-- Micro-steps 1 to 19 of INIT (R123) and its timeout (R144). Line 10 clears the requests of the buffers
below N by the writes of their CS words (R136) and the others, which R146 wants 0 too, with its last word
(DEDUCED, log 29). -/
def initMicro (cfg : Cfg) (nbr rxid : Word) (p : InitPos) (s : State) : Out State :=
  let c := initClass cfg
  match p with
  | .clearValid =>
    .next ({ s with sess := { s.sess with valid := false } }.goto (.init (.disable none)))
  | .disable t => initField offMcr mdisMask (flagAt true 31) t .disable .pollDisabled s
  | .pollDisabled => initPoll (fun m => lpmAck m) (.clkSrc none) s
  | .clkSrc t =>
    initField offCtrl1 ctrl1Clk (flagAt (cfg.clk == .bus) 13) t .clkSrc (.enable none) s
  | .enable t => initField offMcr (mdisMask ||| frzHaltMask) frzHaltMask t .enable .pollEnabled s
  | .pollEnabled => initPoll (fun m => !lpmAck m) .pollFrozen s
  | .pollFrozen => initPoll (fun m => frzAck m) (.fdEn none) s
  | .fdEn t =>
    initField offMcr (fieldMask 11 11) (fdEnValue cfg) t .fdEn
      (match cfg.proto with
        | .canFd => .fdCtrl none
        | .can20 => .session) s
  | .fdCtrl t => initField offFdctrl fdctrlFreeze (fdctrlValue cfg) t .fdCtrl .session s
  | .session => .next ((initSession cfg s).goto (.init (.maxMb none)))
  | .maxMb t =>
    initField offMcr (fieldMask 6 0) (BitVec.ofNat 32 (poolSize c - 1)) t .maxMb .timingMcr s
  | .timingMcr =>
    tryDo (regRead offMcr s) fun m =>
      .next (s.goto (.init (if fdEn m then .timingFdCbt else .timingCtrl1)))
  | .timingFdCbt => writeStep offCbt s.params.fdCbtWord (.init .timingFdFdcbt) s
  | .timingFdFdcbt => writeStep offFdcbt s.params.fdFdcbtWord (.init (.zeroRam 0)) s
  | .timingCtrl1 =>
    tryDo (regRead offCtrl1 s) fun w =>
      match timingFor s.params (clkSrcOf w) cfg.qpb cfg.sp nbr with
      | none => .next (s.finish .notOk)
      | some r => .next (s.goto (.init (.timingCbt r)))
  | .timingCbt r => writeStep offCbt (cbtWord r) (.init (.zeroRam 0)) s
  | .zeroRam k =>
    if k + 1 < Config.ramWords then writeStep (offRam k) 0#32 (.init (.zeroRam (k + 1))) s
    else tryDo (regWrite (offRam k) 0#32 s) fun t => .next (t.dropRequests.goto (.init (.mask 0)))
  | .mask i => writeStep (offRximr i) acceptAll (initNext i (poolSize c) .mask (.tag 0)) s
  | .tag i =>
    writeStep (offRam (csIndex c i)) (tagOf c i) (initNext i (poolSize c) .tag (.findTag 0)) s
  | .findTag i =>
    tryDo (regRead (offRam (csIndex c i)) s) fun w =>
      if w = tagRxEmpty then .next (s.goto (.init (.rxId i)))
      else if i + 1 < poolSize c then .next (s.goto (.init (.findTag (i + 1))))
      else .refused .tagScanExhausted
  | .rxId j =>
    writeStep (offRam (idIndex c j)) (rxIdWord cfg.idt rxid) (.init (.loopBack none)) s
  | .loopBack t =>
    initField offCtrl1 ctrl1Lpb (flagAt (cfg.mode == .loopBack) 12) t .loopBack (.exitFreeze none) s
  | .exitFreeze t => initField offMcr frzHaltMask 0#32 t .exitFreeze .pollUnfrozen s
  | .pollUnfrozen => initPoll (fun m => !frzAck m) .pollReady s
  | .pollReady => initPoll (fun m => !notRdy m) .complete s
  | .complete => .next ({ s with sess := { s.sess with valid := true } }.finish .ok)
  | .timeoutDisable t =>
    initField offMcr mdisMask (flagAt true 31) t .timeoutDisable .timeoutFinish s
  | .timeoutFinish => .next (s.finish .timeout)

/-- INIT (R123): its next micro-step. `_dbr` and `_txid` are carried and read by no rule (R80). -/
def execInit (inst : Nat) (cfg : Cfg) (nbr _dbr _txid rxid : Word) (s : State) : Out State :=
  match s.seq.pos with
  | .idle => .next (initStart inst cfg nbr s)
  | .init p => initMicro cfg nbr rxid p s
  | _ => .refused .sequencerBusy

end Sys2Proof.Machine
end

