-- ==== Sys2Proof/Machine/Receive.lean ====
section
/-! DEFINITION. RECEIVE (43_receive.md, R161 to R171). -/

namespace Sys2Proof.Machine

/-- n = min(LEN, P) of R161: the bytes RECEIVE hands over. -/
def receiveBytes (c : PClass) (len : Nat) : Nat := min len (payloadBytes c)

/-- Micro-step 0 of RECEIVE: INST (R88 item 5), then the preconditions in the order of R162. -/
def receiveStart (inst len : Nat) (dst : Word) (s : State) : Except Fault State :=
  thenDo (check (decide (inst = Config.modelledInst)) .badInstance) fun _ =>
    thenDo (check s.sess.valid .notInitialized) fun _ =>
      thenDo (sessClass s) fun c =>
        thenDo (check (hostRangeOk s.params dst (receiveBytes c len)) .hostRange) fun _ =>
          .ok (s.start (.receive (.scan 0)))

/-- A pass without a set flag: one failed poll attempt; the next pass starts at 0, or RECEIVE ends with
TIMEOUT (R163, R169, R226). The finish falls in the last read of the pass, since R169 has no cleanup write
(DEDUCED, log 13). -/
def receivePassFailed (s : State) : State :=
  (s.goto (.receive (.scan 0))).pollFailed fun t => t.finish .timeout

/-- Micro-steps 1 to 5 of RECEIVE (R161), under the session's geometry `c`. -/
def receiveMicro (c : PClass) (len : Nat) (dst : Word) (p : RxPos) (s : State) : Out State :=
  match p with
  | .scan i =>
    tryDo (regRead offIflag1 s) fun f =>
      .next
        (if f.getLsbD i then s.pollDone (.receive (.readData i 0 []))
        else if i + 1 < poolSize c then s.goto (.receive (.scan (i + 1)))
        else receivePassFailed s)
  | .readData j k w =>
    tryDo (regRead (offRam (dataIndex c j k)) s) fun v =>
      .next
        (s.goto
          (.receive (if k + 1 < dataWords c then .readData j (k + 1) (w ++ [v]) else .copy j (w ++ [v]))))
  | .copy j w =>
    tryDo (hostWriteAll dst.toNat (unpackAt w) s (List.range (receiveBytes c len))) fun t =>
      .next (t.goto (.receive (.release j)))
  | .release j => writeStep offIflag1 (bitWord j) (.receive .complete) s
  | .complete => .next (s.finish .ok)

/-- RECEIVE (R161): its next micro-step. -/
def execReceive (inst len : Nat) (dst : Word) (s : State) : Out State :=
  match s.seq.pos with
  | .idle => tryDo (receiveStart inst len dst s) fun t => .next t
  | .receive p => tryDo (sessClass s) fun c => receiveMicro c len dst p s
  | _ => .refused .sequencerBusy

end Sys2Proof.Machine
end

