-- ==== Sys2Proof/Machine/Transmit.lean ====
section
/-! DEFINITION. TRANSMIT (42_transmit.md, R147 to R160). -/

namespace Sys2Proof.Machine

/-- Micro-step 0 of TRANSMIT: INST (R88 item 5), then the preconditions in the order of R148. -/
def transmitStart (inst len : Nat) (src : Word) (s : State) : Except Fault State :=
  thenDo (check (decide (inst = Config.modelledInst)) .badInstance) fun _ =>
    thenDo (check s.sess.valid .notInitialized) fun _ =>
      thenDo (sessClass s) fun c =>
        thenDo (check (decide (len = payloadBytes c)) .payloadLength) fun _ =>
          thenDo (check (hostRangeOk s.params src len) .hostRange) fun _ =>
            .ok (s.start (.transmit (.scan 0)))

/-- The extended encoding is in force for this session (R147, R151). The session's identifier type is
read only under FOLLOW_CONFIG. -/
def sessExtended (s : State) : Except Fault Bool :=
  match s.params.txIdMode with
  | .alwaysStandard => .ok false
  | .followConfig => thenDo (needed s.sess.idType) fun t => .ok (txExtended .followConfig t)

/-- pack(b)[k] with b[n] = HostRead(SRC + n): the four bytes of word k (R152, log 19). -/
def packFrom (src : Word) (k : Nat) (s : State) : Except Fault Word :=
  thenDo (hostRead s (src.toNat + 4 * k)) fun b0 =>
    thenDo (hostRead s (src.toNat + (4 * k + 1))) fun b1 =>
      thenDo (hostRead s (src.toNat + (4 * k + 2))) fun b2 =>
        thenDo (hostRead s (src.toNat + (4 * k + 3))) fun b3 => .ok (packWord b0 b1 b2 b3)

/-- The word at a RAM index, as the host writes it in a micro-step that then goes on. The word is made before
it is written, so where a poison host byte and a failing write meet, the fault is ReadPoison (DEDUCED,
log 19). -/
def transmitPut (k : Nat) (v : Except Fault Word) (next : TxPos) (s : State) : Out State :=
  tryDo v fun w => writeStep (offRam k) w (.transmit next) s

/-- Micro-steps 1 to 7 of TRANSMIT (R147) and its timeout (R155), under the session's geometry `c`. -/
def transmitMicro (c : PClass) (id src : Word) (p : TxPos) (s : State) : Out State :=
  match p with
  | .scan i =>
    tryDo (regRead (offRam (csIndex c i)) s) fun w =>
      if txFree s.params.txFreeMatch w then .next (s.goto (.transmit (.writeId i)))
      else if i + 1 < poolSize c then .next (s.goto (.transmit (.scan (i + 1))))
      else raise .noFreeTxBuffer
  | .writeId j =>
    transmitPut (idIndex c j) (thenDo (sessExtended s) fun x => .ok (txIdWord x id)) (.writeData j 0) s
  | .writeData j k =>
    transmitPut (dataIndex c j k) (packFrom src k s)
      (if k + 1 < dataWords c then .writeData j (k + 1) else .writeCs j) s
  | .writeCs j =>
    transmitPut (csIndex c j) (thenDo (sessExtended s) fun x => .ok (txCs x c)) (.request j) s
  | .request j => writeStep offIflag1 (bitWord j) (.transmit (.poll j)) s
  | .poll j =>
    pollStep offIflag1 (fun f => f.getLsbD j) (.transmit .complete) (.transmit (.revoke j)) s
  | .complete => .next (s.finish .ok)
  | .revoke j => transmitPut (csIndex c j) (.ok tagTxInactive) .timeoutFinish s
  | .timeoutFinish => .next (s.finish .timeout)

/-- TRANSMIT (R147): its next micro-step. -/
def execTransmit (inst len : Nat) (id src : Word) (s : State) : Out State :=
  match s.seq.pos with
  | .idle => tryDo (transmitStart inst len src s) fun t => .next t
  | .transmit p => tryDo (sessClass s) fun c => transmitMicro c id src p s
  | _ => .refused .sequencerBusy

end Sys2Proof.Machine
end

