-- ==== Sys2Proof/Machine/Dispatch.lean ====
section
/-! DEFINITION. One arm per instruction: the next micro-step of that operation. -/

namespace Sys2Proof.Machine

def exec (i : Instr) (s : State) : Host.Outcome State Fault Refusal :=
  match i with
  | .init inst cfg nbr dbr txid rxid => Sys2Proof.Machine.execInit inst cfg nbr dbr txid rxid s
  | .transmit inst len id src => Sys2Proof.Machine.execTransmit inst len id src s
  | .receive inst len dst => Sys2Proof.Machine.execReceive inst len dst s
  | .calcTiming inst tpar nbr => Sys2Proof.Machine.execCalcTiming inst tpar nbr s
  | .read32 inst off => Sys2Proof.Machine.execRead32 inst off s
  | .write32 inst off val => Sys2Proof.Machine.execWrite32 inst off val s

end Sys2Proof.Machine
end

