-- ==== Sys2Proof/Machine/Schedule.lean ====
section
/-! DEFINITION. Taking a descriptor (R22 10_state.md, R88 30_encoding.md) and choosing the agent that
steps (R12 00_scope.md, R66 20_memory.md, R198 45_hardware_agents.md). -/

namespace Sys2Proof.Machine

/-- The fault of a refused descriptor (R88 items 1 to 4). -/
def faultOf : DecodeError → Fault
  | .illegalOp => .illegalOp
  | .truncated => .truncated

/-- The descriptor HOST works on: between operations the next one of the program, which it takes (R22);
inside an operation the one in seq.desc. The words are taken into seq.desc before INST is looked at, so a
descriptor refused for its INST is the one last taken (DEDUCED, log 28). -/
def fetch (s : State) : Except Fault (Instr × State) :=
  match s.seq.pos with
  | .idle =>
    match decode s.prog with
    | .error e => .error (faultOf e)
    | .ok (i, rest) =>
      .ok (i, { s with prog := rest, seq := { s.seq with desc := some (s.prog.take (descWords i)) } })
  | _ =>
    thenDo (needed s.seq.desc) fun ws =>
      match decode ws with
      | .error e => .error (faultOf e)
      | .ok (i, _) => .ok (i, s)

/-- HOST's next micro-step. -/
def hostStep (s : State) : Out State :=
  match fetch s with
  | .error r => raise r
  | .ok (i, t) => exec i t

/-- Whether a move's step is enabled. HOST has a step unless it is idle with no descriptor left. -/
def moveOn (s : State) : Move → Bool
  | .host => !(s.seq.pos == .idle) || !s.prog.isEmpty
  | .lpmEnter => lpmEnterOn s.mcr
  | .lpmExit => lpmExitOn s.mcr
  | .frzEnter => frzEnterOn s.mcr
  | .frzExit => frzExitOn s.mcr
  | .ready => readyOn s.mcr
  | .tx i => txOn i s
  | .rxFrame => rxFrameOn s

/-- Every step an agent may ever have. -/
def allMoves : List Move :=
  [.host, .lpmEnter, .lpmExit, .frzEnter, .frzExit, .ready] ++
    (List.range Config.mbMax).map .tx ++ [.rxFrame]

/-- The enabled steps. -/
def enabledMoves (s : State) : List Move := allMoves.filter (moveOn s)

/-- Runs one move. -/
def runMove (m : Move) (s : State) : Out State :=
  match m with
  | .host => hostStep s
  | .lpmEnter => .next (lpmEnter s)
  | .lpmExit => .next (lpmExit s)
  | .frzEnter => .next (frzEnter s)
  | .frzExit => .next (frzExit s)
  | .ready => .next (ready s)
  | .tx i => tryDo (txStep i s) fun t => .next t
  | .rxFrame => tryDo (rxFrameStep s) fun t => .next t

/-- A free choice among enabled moves (R66): the only one, or the one the free value picks (log 4). -/
def freePick (m : Move) (ms : List Move) (s : State) : Move × State :=
  match ms with
  | [] => (m, s)
  | _ :: _ =>
    ((m :: ms).getD (Config.freeChoice s.choices % (ms.length + 1)) m,
      { s with choices := s.choices + 1 })

/-- The move the machine takes and the state it takes it in: the head of the agenda where that is
enabled, else a free choice; `none` when no agent has a step. -/
def pickMove (s : State) : Option (Move × State) :=
  match enabledMoves s with
  | [] => none
  | m :: ms =>
    match s.agenda with
    | [] => some (freePick m ms s)
    | a :: rest =>
      if a ∈ m :: ms then some (a, { s with agenda := rest })
      else some (freePick m ms { s with agenda := rest })

/-- The schedule HW_PROMPT of R239 for the next step: an enabled CTRL or TX(i) step if there is one, else
HOST. -/
def promptMove (s : State) : Move :=
  ((enabledMoves s).find? fun m => !(m == .host) && !(m == .rxFrame)).getD .host

/-- The state with HW_PROMPT's next move on its agenda. -/
def State.prompted (s : State) : State := { s with agenda := [promptMove s] }

/-- One step of the machine: one atomic step of one agent (R66). With no enabled step the machine stays
as it is (R216, R238, log 17). -/
def stepOnce (s : State) : Out State :=
  match pickMove s with
  | none => .next s
  | some (m, t) => runMove m t

/-- The state with a descriptor placed as the program, HOST between operations, and HOST next. -/
def placeDescriptor (s : State) (ws : List Word) : State :=
  { s with
    prog := ws
    seq := { s.seq with pos := .idle }
    agenda := [.host] }

end Sys2Proof.Machine
end

