-- ==== Sys2Proof/Machine/Step.lean ====
section
/-! DEFINITION. The step of the machine, and the placing of one instruction where the step takes it. -/

namespace Sys2Proof.Machine

/-- One step: one atomic step of one agent (R66). -/
def step (s : State) : Host.Outcome State Fault Refusal := stepOnce s

/-- The state whose very next step takes and starts the instruction with these bits (log 15, 27). -/
def State.withFetchWord (s : State) (nbits w : Nat) : State := placeDescriptor s (tableWords nbits w)

end Sys2Proof.Machine
end

