-- ==== Sys2Proof/Safety.lean ====
section
/-! DEFINITION. The terms claims are made in: the views seq.op and seq.step of R22 (10_state.md), the
contents of block space, runs of one operation, the invariants of the machine, the end of a run (R238
70_reset_and_hazards.md) and the premises of R239. -/

namespace Sys2Proof.Machine

/-! ## The sequencer as R22 names it -/

/-- seq.op. -/
def opOfPos : Pos → OpName
  | .idle => .idle
  | .init _ => .init
  | .transmit _ => .transmit
  | .receive _ => .receive
  | .calcTiming _ => .calcTiming
  | .read32 => .read32
  | .write32 => .write32

/-- The operation of an instruction (R79). -/
def opOf : Instr → OpName
  | .init _ _ _ _ _ _ => .init
  | .transmit _ _ _ _ => .transmit
  | .receive _ _ _ => .receive
  | .calcTiming _ _ _ => .calcTiming
  | .read32 _ _ => .read32
  | .write32 _ _ _ => .write32

/-- The line of R123 a position of INIT stands at; R144's two items come after line 19. -/
def initLine : InitPos → Nat
  | .clearValid => 1
  | .disable _ => 1
  | .pollDisabled => 2
  | .clkSrc _ => 3
  | .enable _ => 4
  | .pollEnabled => 5
  | .pollFrozen => 6
  | .fdEn _ => 7
  | .fdCtrl _ => 7
  | .session => 8
  | .maxMb _ => 8
  | .timingMcr => 9
  | .timingFdCbt => 9
  | .timingFdFdcbt => 9
  | .timingCtrl1 => 9
  | .timingCbt _ => 9
  | .zeroRam _ => 10
  | .mask _ => 11
  | .tag _ => 12
  | .findTag _ => 13
  | .rxId _ => 14
  | .loopBack _ => 15
  | .exitFreeze _ => 16
  | .pollUnfrozen => 17
  | .pollReady => 18
  | .complete => 19
  | .timeoutDisable _ => 20
  | .timeoutFinish => 21

/-- The line of R147 a position of TRANSMIT stands at; R155's two items come after line 7. -/
def txLine : TxPos → Nat
  | .scan _ => 1
  | .writeId _ => 2
  | .writeData _ _ => 3
  | .writeCs _ => 4
  | .request _ => 5
  | .poll _ => 6
  | .complete => 7
  | .revoke _ => 8
  | .timeoutFinish => 9

/-- The line of R161 a position of RECEIVE stands at. -/
def rxLine : RxPos → Nat
  | .scan _ => 1
  | .readData _ _ _ => 2
  | .copy _ _ => 3
  | .release _ => 4
  | .complete => 5

/-- The line of R116 a position of CALC_TIMING stands at. -/
def calcLine : CalcPos → Nat
  | .readMcr => 1
  | .fdCbt => 2
  | .fdFdcbt => 3
  | .readCtrl1 => 4
  | .writeCbt _ => 5

/-- seq.step, the line of the next micro-step; none while no operation is in progress. -/
def seqStep : Pos → Option Nat
  | .idle => none
  | .init p => some (initLine p)
  | .transmit p => some (txLine p)
  | .receive p => some (rxLine p)
  | .calcTiming p => some (calcLine p)
  | .read32 => some 1
  | .write32 => some 1

/-! ## What block space holds -/

/-- The offsets of the map of R54. -/
def offsetMapped (off : Nat) : Bool :=
  decide (off = 0x000) || decide (off = 0x004) || decide (off = 0x030) || decide (off = 0x050) ||
    decide (off = 0xC00) || decide (off = 0xC04) ||
    (decide (off % 4 = 0) &&
      ((decide (0x080 ≤ off) && decide (off ≤ 0x27C)) || (decide (0x880 ≤ off) && decide (off ≤ 0x8FC))))

/-- The readable words of block space by offset (R54, R65): the word at `off` is `v`. -/
def BlockHolds (s : State) (off : Nat) (v : Word) : Prop :=
  (off = 0x000 ∧ v = s.mcr) ∨ (off = 0x004 ∧ v = s.ctrl1) ∨ (off = 0x030 ∧ v = s.iflag) ∨
    (off = 0x050 ∧ v = s.cbt) ∨ (off = 0xC00 ∧ v = s.fdctrl) ∨ (off = 0xC04 ∧ v = s.fdcbt) ∨
    (lpmAck s.mcr = false ∧ ∃ k, k < 128 ∧ off = 0x080 + 4 * k ∧ cellRead s.ram k = some v) ∨
    (lpmAck s.mcr = false ∧ ∃ i, i < 32 ∧ off = 0x880 + 4 * i ∧ cellRead s.rximr i = some v)

/-- HOST owns buffer i (R62): the controller is not operational, or CODE(i) is neither RX_EMPTY nor a
requested TX_DATA. -/
def HostOwns (s : State) (i : Nat) : Prop :=
  operational s = false ∨
    ∃ w, hwCs s i = some w ∧ codeOf w ≠ codeRxEmpty ∧
      ¬ (codeOf w = codeTxData ∧ s.txPending.getLsbD i = true)

/-- ENGINE owns buffer i (R62). -/
def EngineOwns (s : State) (i : Nat) : Prop :=
  operational s = true ∧
    ∃ w, hwCs s i = some w ∧
      (codeOf w = codeRxEmpty ∨ (codeOf w = codeTxData ∧ s.txPending.getLsbD i = true))

/-- The fields of MCR a host write can set, the acknowledge bits of `old` and its not-modelled bits
(R27, R28). -/
def McrIs (m old : Word) (md fz hl fd : Bool) (mx : Nat) : Prop :=
  mdis m = md ∧ frz m = fz ∧ halt m = hl ∧ fdEn m = fd ∧ maxMb m = mx ∧
    lpmAck m = lpmAck old ∧ frzAck m = frzAck old ∧ notRdy m = notRdy old ∧
    m &&& mcrNm = old &&& mcrNm

/-- A host range of R57: `a + len - 1` at most 2^32 - 1 and no byte of it in the register window; a range
of length 0 is never checked. -/
def HostRangeFits (p : Config.Params) (a len : Nat) : Prop :=
  len = 0 ∨
    (a + len - 1 ≤ 4294967295 ∧
      ¬ (a ≤ p.canBase.toNat + 0xFFF ∧ p.canBase.toNat ≤ a + len - 1))

/-! ## What one micro-step writes -/

/-- The word of block space a micro-step of CALC_TIMING writes (R116). -/
def calcTarget : CalcPos → Option BlockWord
  | .fdCbt => some .cbt
  | .fdFdcbt => some .fdcbt
  | .writeCbt _ => some .cbt
  | .readMcr => none
  | .readCtrl1 => none

/-- The word of block space a micro-step of TRANSMIT writes under the session's class (R147, R155). -/
def txTarget (c : PClass) : TxPos → Option BlockWord
  | .writeId j => some (.ram (idIndex c j))
  | .writeData j k => some (.ram (dataIndex c j k))
  | .writeCs j => some (.ram (csIndex c j))
  | .request _ => some .iflag1
  | .revoke j => some (.ram (csIndex c j))
  | .scan _ => none
  | .poll _ => none
  | .complete => none
  | .timeoutFinish => none

/-- The word of block space a micro-step of RECEIVE writes (R161). -/
def rxTarget : RxPos → Option BlockWord
  | .release _ => some .iflag1
  | .scan _ => none
  | .readData _ _ _ => none
  | .copy _ _ => none
  | .complete => none

/-- The word of block space a micro-step of INIT writes under the class it applies (R123, R144); a field
write writes at its second micro-step. -/
def initTarget (c : PClass) : InitPos → Option BlockWord
  | .disable (some _) => some .mcr
  | .clkSrc (some _) => some .ctrl1
  | .enable (some _) => some .mcr
  | .fdEn (some _) => some .mcr
  | .fdCtrl (some _) => some .fdctrl
  | .maxMb (some _) => some .mcr
  | .timingFdCbt => some .cbt
  | .timingFdFdcbt => some .fdcbt
  | .timingCbt _ => some .cbt
  | .zeroRam k => some (.ram k)
  | .mask i => some (.rximr i)
  | .tag i => some (.ram (csIndex c i))
  | .rxId j => some (.ram (idIndex c j))
  | .loopBack (some _) => some .ctrl1
  | .exitFreeze (some _) => some .mcr
  | .timeoutDisable (some _) => some .mcr
  | _ => none

/-- Block space between two states when at most the word `target` was written, with the value `flags`
where that word is IFLAG1: every other word is as before, but for the side effects of R61. -/
structure BlockFrame (target : Option BlockWord) (flags : Word) (s t : State) : Prop where
  mcr : target ≠ some .mcr → t.mcr = s.mcr
  /-- The acknowledge bits and the not-modelled bits of MCR (R27, R28). -/
  mcrKept : t.mcr &&& ~~~mcrWritable = s.mcr &&& ~~~mcrWritable
  ctrl1 : target ≠ some .ctrl1 → t.ctrl1 = s.ctrl1
  cbt : target ≠ some .cbt → t.cbt = s.cbt
  fdcbt : target ≠ some .fdcbt → t.fdcbt = s.fdcbt
  fdctrl : target ≠ some .fdctrl → t.fdctrl = s.fdctrl
  iflag : ∀ b, (target = some .iflag1 → flags.getLsbD b = false) →
    t.iflag.getLsbD b = s.iflag.getLsbD b
  rximr : ∀ i, target ≠ some (.rximr i) → cellRead t.rximr i = cellRead s.rximr i
  /-- A RAM word changes when it is written, or when it is the CS word of a full buffer released. -/
  ram : ∀ k, target ≠ some (.ram k) →
    (target = some .iflag1 →
      ¬ ∃ i, i < poolSize (hwClass s) ∧ k = csIndex (hwClass s) i ∧ flags.getLsbD i = true ∧
        hwCodeIs s codeRxFull i = true) →
    cellRead t.ram k = cellRead s.ram k
  /-- A request changes when its CS word is written, or when it is made. -/
  txPending : ∀ b,
    (target = some .iflag1 →
      ¬ (b < poolSize (hwClass s) ∧ flags.getLsbD b = true ∧ hwCodeIs s codeTxData b = true)) →
    (target = some (.ram (csIndex (hwClass s) b)) → poolSize (hwClass s) ≤ b) →
    t.txPending.getLsbD b = s.txPending.getLsbD b

/-- What no micro-step of a host operation touches: the parameters, the program, the descriptor, the
schedule and the draws; the statuses only grow. -/
structure HostFrame (s t : State) : Prop where
  params : t.params = s.params
  prog : t.prog = s.prog
  desc : t.seq.desc = s.seq.desc
  agenda : t.agenda = s.agenda
  choices : t.choices = s.choices
  draws : t.draws = s.draws
  statuses : ∃ l, t.statuses = s.statuses ++ l

/-! ## Runs of one operation -/

/-- `n` consecutive micro-steps of one operation with no other agent stepping between them. -/
def runExec (i : Instr) : Nat → State → Out State
  | 0, s => .next s
  | n + 1, s =>
    match exec i s with
    | .next t => runExec i n t
    | .fault r => .fault r
    | .refused r => .refused r

/-- The moves of a list lead from one state to another, one step each, each move an enabled step of the
state it is taken in. -/
def RunsTo : List Move → State → State → Prop
  | [], s, t => t = s
  | m :: ms, s, t => m ∈ enabledMoves s ∧ ∃ u, runMove m s = .next u ∧ RunsTo ms u t

/-- HOST is the agent that steps next, in the state `t`: it heads the agenda, or it is the only agent
with a step. -/
def HostNext (s t : State) : Prop :=
  (∃ ag, s.agenda = .host :: ag ∧ t = { s with agenda := ag }) ∨
    (s.agenda = [] ∧ enabledMoves s = [.host] ∧ t = s)

/-- The order of steps of R221: INIT from the reset state with CTRL's four steps where they are needed,
for the class INIT applies. -/
def initSchedule (cfg : Cfg) : List Move :=
  List.replicate 9 .host ++ [.lpmExit, .frzEnter] ++
    List.replicate
      ((if cfg.proto = .canFd then 6 else 4) + 6 + 128 + 2 * poolSize (initClass cfg) + 6) .host ++
    [.frzExit, .ready] ++ List.replicate 3 .host

/-! ## Invariants -/

/-- The arrays are in canonical form. -/
def cellsCanonical (s : State) : Bool := ramWf s.ram && rximrWf s.rximr && Memory.wf s.hostMem

/-- The not-modelled bits hold their reset values (R75). -/
def nmAtReset (s : State) : Bool :=
  s.mcr &&& mcrNm == 0x00800000#32 && s.ctrl1 &&& ctrl1Nm == 0#32 && s.fdcbt &&& fdcbtNm == 0#32 &&
    s.fdctrl &&& fdctrlNm == s.params.fdctrlReset &&& fdctrlNm

/-- The acknowledge bits agree (R187's table): a disabled controller is not frozen, and a disabled or
frozen one is not ready. -/
def acksAgree (s : State) : Bool :=
  (!lpmAck s.mcr || (!frzAck s.mcr && notRdy s.mcr)) && (!frzAck s.mcr || notRdy s.mcr)

/-- A position of INIT is in the ranges of R123. -/
def initPosFits (c : PClass) : InitPos → Bool
  | .zeroRam k => decide (k < Config.ramWords)
  | .mask i => decide (i < poolSize c)
  | .tag i => decide (i < poolSize c)
  | .findTag i => decide (i < poolSize c)
  | .rxId j => decide (j < poolSize c)
  | _ => true

/-- A position of TRANSMIT is in the ranges of R147. -/
def txPosFits (c : PClass) : TxPos → Bool
  | .scan i => decide (i < poolSize c)
  | .writeId j => decide (j < poolSize c)
  | .writeData j k => decide (j < poolSize c) && decide (k < dataWords c)
  | .writeCs j => decide (j < poolSize c)
  | .request j => decide (j < poolSize c)
  | .poll j => decide (j < poolSize c)
  | .revoke j => decide (j < poolSize c)
  | .complete => true
  | .timeoutFinish => true

/-- A position of RECEIVE is in the ranges of R161, with as many words read as its loop says. -/
def rxPosFits (c : PClass) : RxPos → Bool
  | .scan i => decide (i < poolSize c)
  | .readData j k w => decide (j < poolSize c) && decide (k < dataWords c) && decide (w.length = k)
  | .copy j w => decide (j < poolSize c) && decide (w.length = dataWords c)
  | .release j => decide (j < poolSize c)
  | .complete => true

/-- The sequencer stands at a micro-step of instruction `i`, inside its loops. -/
def posFits (i : Instr) (sess : Session) (p : Pos) : Bool :=
  match p with
  | .idle => true
  | .init q =>
    match i with
    | .init _ cfg _ _ _ _ => initPosFits (initClass cfg) q
    | _ => false
  | .transmit q =>
    match i, sess.cls with
    | .transmit _ _ _ _, some c => txPosFits c q
    | _, _ => false
  | .receive q =>
    match i, sess.cls with
    | .receive _ _ _, some c => rxPosFits c q
    | _, _ => false
  | .calcTiming _ =>
    match i with
    | .calcTiming _ _ _ => true
    | _ => false
  | .read32 =>
    match i with
    | .read32 _ _ => true
    | _ => false
  | .write32 =>
    match i with
    | .write32 _ _ _ => true
    | _ => false

/-- The sequencer agrees with the descriptor it works on (R22). -/
def coherent (s : State) : Bool :=
  match s.seq.pos with
  | .idle => true
  | p =>
    match s.seq.desc with
    | none => false
    | some ws =>
      match decode ws with
      | .error _ => false
      | .ok (i, _) => posFits i s.sess p

/-! ## The end of a run (R238) -/

/-- HOST has finished the last descriptor of the program and is idle. -/
def Final (s : State) : Prop := s.seq.pos = .idle ∧ s.prog = []

/-- Faulted(r): the next step raises the fault, and the state stays this one (R200). -/
def Faulted (s : State) (r : Fault) : Prop := step s = .fault r

/-- HOST is at a `poll c` (R226) and c fails in this state; for RECEIVE, no flag of the pool is set
(R163). -/
def pollFails (s : State) : Bool :=
  match s.seq.pos with
  | .init .pollDisabled => !lpmAck s.mcr
  | .init .pollEnabled => lpmAck s.mcr
  | .init .pollFrozen => !frzAck s.mcr
  | .init .pollUnfrozen => frzAck s.mcr
  | .init .pollReady => notRdy s.mcr
  | .transmit (.poll j) => !s.iflag.getLsbD j
  | .receive (.scan _) =>
    match s.sess.cls with
    | some c => (List.range (poolSize c)).all fun i => !s.iflag.getLsbD i
    | none => false
  | _ => false

/-- HOST is at a `poll c` (R226). -/
def inPoll (s : State) : Bool :=
  match s.seq.pos with
  | .init .pollDisabled => true
  | .init .pollEnabled => true
  | .init .pollFrozen => true
  | .init .pollUnfrozen => true
  | .init .pollReady => true
  | .transmit (.poll _) => true
  | .receive (.scan _) => true
  | _ => false

/-- HOST waits in a poll without a limit whose condition fails, and no other agent can step. A failed
attempt is HOST's only step, and R226 lets a model take it as not enabled. -/
def NoneCanStep (s : State) : Prop :=
  s.params.pollLimit = none ∧ pollFails s = true ∧ ∀ m ∈ enabledMoves s, m = .host

/-- A run given by its states and its moves: each move is an enabled step that leads to the next state. The
run ends, with no move, at its first final state, since later hardware steps are not part of it (R238); it
may end where no agent can step, and ends where an enabled step has no next state and is the one taken. -/
structure IsRun (state : Nat → State) (move : Nat → Option Move) : Prop where
  step : ∀ n m, move n = some m →
    m ∈ enabledMoves (state n) ∧ runMove m (state n) = .next (state (n + 1))
  final : ∀ n, Final (state n) → move n = none
  ends : ∀ n, move n = none →
    state (n + 1) = state n ∧ move (n + 1) = none ∧
      (Final (state n) ∨ NoneCanStep (state n) ∨
        ∃ m ∈ enabledMoves (state n), ∀ t, runMove m (state n) ≠ .next t)

/-- The run is final at its `n`-th state, the first final one. The observation is that state, which holds
the sequence of statuses (R205) and the host memory. -/
def FinalAt (state : Nat → State) (n : Nat) : Prop :=
  Final (state n) ∧ ∀ k, k < n → ¬ Final (state k)

/-- The run reaches Faulted(r) at its `n`-th state, which is the state that stands (R200). -/
def FaultedAt (state : Nat → State) (move : Nat → Option Move) (n : Nat) (r : Fault) : Prop :=
  move n = none ∧ ¬ Final (state n) ∧ ∃ m ∈ enabledMoves (state n), runMove m (state n) = .fault r

/-- HOST waits for ever, from the `n`-th state on, in one poll without a limit. -/
def WaitsForEver (state : Nat → State) (n : Nat) : Prop :=
  (state n).params.pollLimit = none ∧
    ∀ k, n ≤ k → inPoll (state k) = true ∧
      opOfPos (state k).seq.pos = opOfPos (state n).seq.pos ∧
      seqStep (state k).seq.pos = seqStep (state n).seq.pos

/-- Agents other than HOST keep stepping. -/
def OthersKeepStepping (move : Nat → Option Move) : Prop :=
  ∀ k, ∃ l m, k ≤ l ∧ move l = some m ∧ m ≠ .host

/-- A hang: HOST waits for ever while other agents keep stepping. -/
def Hung (state : Nat → State) (move : Nat → Option Move) : Prop :=
  (∃ n, WaitsForEver state n) ∧ OthersKeepStepping move

/-- Stuck: HOST waits for ever and from some point on no other agent steps, because none can (95, Y8) or
because none does (95, V2; R198). -/
def Stuck (state : Nat → State) (move : Nat → Option Move) : Prop :=
  (∃ n, WaitsForEver state n) ∧ ∃ k, ∀ l m, k ≤ l → move l = some m → m = .host

/-! ## Premises on runs (R198, R239) -/

/-- A CTRL step or a TX(i) step. -/
def Move.answers : Move → Bool
  | .host => false
  | .rxFrame => false
  | _ => true

/-- HW_FAIR of R198: a CTRL or TX(i) step that stays enabled is taken at last, unless the run ends. -/
def HwFair (state : Nat → State) (move : Nat → Option Move) : Prop :=
  ∀ (m : Move) (n : Nat), m.answers = true →
    ∃ k, n ≤ k ∧ (move k = none ∨ move k = some m ∨ m ∉ enabledMoves (state k))

/-- No CTRL step and no TX(i) step is enabled. -/
def Answered (s : State) : Prop := ∀ m ∈ enabledMoves s, m.answers = false

/-- HW_PROMPT of R239: HOST moves only where CTRL and ENGINE have answered, and they do step until they
have, unless the run ends. BUS steps stay free. -/
structure HwPrompt (state : Nat → State) (move : Nat → Option Move) : Prop where
  waits : ∀ n, move n = some .host → Answered (state n)
  answers : ∀ n, ∃ k, n ≤ k ∧ (move k = none ∨ Answered (state k))

end Sys2Proof.Machine
end

