-- ==== Sys2Proof/Certificates/Slice0/Obligations.lean ====
section
/-! DEFINITION. The statements about the model, from the numbered rules of spec/. A statement about one
operation speaks of `exec`, the operation's next micro-step at the sequencer's position; what a step adds
around it is `Obligations.StepRunsTheTakenDescriptor`. -/

open Sys2Proof Sys2Proof.Machine

/-! ## Descriptors (30_encoding.md) -/

/-- Descriptor words written out from the field tables of R77, R81 and R85 decode to the operations they
stand for. -/
def Obligations.DescriptorWordsDecode : Prop :=
  decode [0x00000001#32, 0x4B100002#32, 500000#32, 0#32, 0#32, 0x00000123#32] =
      .ok (.init 0
        { rsvHigh := 0, sp := 75, qpb := 16, rsvLow := 0, idt := .standard, pclass := .b8, brs := false,
          clk := .osc, proto := .can20, mode := .loopBack } 500000#32 0#32 0#32 0x00000123#32, []) ∧
    decode [0x00000001#32, 0x501401F8#32, 250000#32, 2000000#32, 7#32, 0x1ABCDEF0#32] =
      .ok (.init 0
        { rsvHigh := 0, sp := 80, qpb := 20, rsvLow := 0, idt := .extended, pclass := .b64, brs := true,
          clk := .bus, proto := .canFd, mode := .normal } 250000#32 2000000#32 7#32 0x1ABCDEF0#32, []) ∧
    decode [0x00080002#32, 0x00000123#32, 0x20000000#32] =
      .ok (.transmit 0 8 0x00000123#32 0x20000000#32, []) ∧
    decode [0x00400003#32, 0x20000100#32] = .ok (.receive 0 64 0x20000100#32, []) ∧
    decode [0x00000004#32, 0x00004B10#32, 500000#32] =
      .ok (.calcTiming 0 { rsv := 0, sp := 75, qpb := 16 } 500000#32, []) ∧
    decode [0x00000035#32, 0x00000C00#32] = .ok (.read32 3 0x00000C00#32, []) ∧
    decode [0x00000006#32, 0x00000000#32, 0x5080001F#32] =
      .ok (.write32 0 0x00000000#32 0x5080001F#32, [])

/-- R76 to R87: decoding the words of any well-formed operation gives that operation back, with every
operand at every value its field admits, and leaves the words after it. -/
def Obligations.DecodeReturnsEncodedInstruction : Prop :=
  ∀ (i : Instr) (rest : List Word), WellFormed i = true → decode (encode i ++ rest) = .ok (i, rest)

/-- R76 to R87, the other way: whatever decodes is a well-formed operation, and the words read are exactly
its encoding, so no two descriptors mean the same and no bit is ignored. -/
def Obligations.DecodedInstructionEncodesBack : Prop :=
  ∀ (ws rest : List Word) (i : Instr), decode ws = .ok (i, rest) →
    WellFormed i = true ∧ ws = encode i ++ rest

/-- R88: the checks of a command word when HOST takes the descriptor, in their order. That seq.desc takes the
words of a descriptor refused for its INST is the model's deduction (log 28). -/
def Obligations.CommandWordIsCheckedInOrder : Prop :=
  ∀ (s : State) (cmd : Word) (ws : List Word) (op n : Nat), s.seq.pos = .idle → s.prog = cmd :: ws →
    op = bits cmd 3 0 → n = (if op = 1 then 5 else if op = 3 ∨ op = 5 then 1 else 2) →
    (op = 0 ∨ 7 ≤ op → hostStep s = .fault .illegalOp) ∧
      (1 ≤ op → op ≤ 6 → bits cmd 15 8 ≠ 0 → hostStep s = .fault .illegalOp) ∧
      (op = 1 ∨ op = 4 ∨ op = 5 ∨ op = 6 → bits cmd 15 8 = 0 → bits cmd 31 16 ≠ 0 →
        hostStep s = .fault .illegalOp) ∧
      (1 ≤ op → op ≤ 6 → bits cmd 15 8 = 0 → (op = 2 ∨ op = 3 ∨ bits cmd 31 16 = 0) →
        (ws.length < n → hostStep s = .fault .truncated) ∧
          (n ≤ ws.length → bits cmd 7 4 ≠ 0 →
            (op = 1 ∨ op = 4 →
              hostStep s =
                .next
                  ({ s with
                      prog := ws.drop n
                      seq := { s.seq with desc := some (cmd :: ws.take n) } }.finish .notOk)) ∧
              (op = 2 ∨ op = 3 ∨ op = 5 ∨ op = 6 → hostStep s = .fault .badInstance)))

/-! ## Steps and reset -/

/-- R22: when HOST steps next, the step runs the operation of the descriptor it takes, or of the one in
progress. Taking a descriptor removes its words from the program and holds them in seq.desc. -/
def Obligations.StepRunsTheTakenDescriptor : Prop :=
  ∀ (s t : State) (i : Instr) (rest : List Word), HostNext s t →
    (s.seq.pos = .idle → decode s.prog = .ok (i, rest) →
        step s =
          exec i
            { t with
              prog := rest
              seq := { t.seq with desc := some (s.prog.take (descWords i)) } }) ∧
      (s.seq.pos ≠ .idle → ∀ ws, s.seq.desc = some ws → decode ws = .ok (i, rest) →
        step s = exec i t)

/-- R66: a step is one enabled step of one agent, and any enabled step may be the next one. A machine with
no enabled step stays as it is; that is the model's choice (log 17). -/
def Obligations.StepTakesAnEnabledMove : Prop :=
  (∀ s : State, enabledMoves s = [] → step s = .next s) ∧
    (∀ s : State, enabledMoves s ≠ [] →
      ∃ m ch, m ∈ enabledMoves s ∧ (ch = s.choices ∨ ch = s.choices + 1) ∧
        step s = runMove m { s with agenda := s.agenda.tail, choices := ch }) ∧
    ∀ (s : State) (m : Move) (ag : List Move), m ∈ enabledMoves s →
      step { s with agenda := m :: ag } = runMove m { s with agenda := ag }

/-- R219: the value of every element of the reset state, row by row of R40; a poison element is `none`. -/
def Obligations.ResetHoldsTheStatedValues : Prop :=
  ∀ (p : Config.Params) (prog : List Word) (mem : Memory) (s : State), s = State.launch p prog mem →
    s.mcr = 0xD890000F#32 ∧ s.ctrl1 = 0#32 ∧ s.cbt = 0#32 ∧ s.fdcbt = 0#32 ∧ s.iflag = 0#32 ∧
      s.fdctrl = p.fdctrlReset ∧ (∀ k, cellRead s.ram k = none) ∧ (∀ i, cellRead s.rximr i = none) ∧
      s.sess.cls = none ∧ s.sess.idType = none ∧ (∀ i, s.txPending.getLsbD i = false) ∧
      s.sess.valid = false ∧ opOfPos s.seq.pos = .idle ∧ s.seq.attempts = 0 ∧
      seqStep s.seq.pos = none ∧ s.seq.desc = none ∧ s.seq.status = none ∧ s.seq.value = none ∧
      s.hostMem = mem ∧ s.prog = prog ∧ s.params = p ∧
      State.reset = State.launch Config.params [] []

/-- R216: in the reset state no agent but HOST has a step. HOST has none without a program: that is the
model's deduction from R22 (log 15). -/
def Obligations.OnlyHostMovesAfterReset : Prop :=
  ∀ (p : Config.Params) (prog : List Word) (mem : Memory),
    (∀ m ∈ enabledMoves (State.launch p prog mem), m = .host) ∧
      enabledMoves (State.launch p [] mem) = []

/-- The reset state meets the invariants that every step keeps. -/
def Obligations.ResetMeetsTheInvariants : Prop :=
  cellsCanonical State.reset = true ∧ nmAtReset State.reset = true ∧ acksAgree State.reset = true ∧
    coherent State.reset = true

/-! ## READ32 and WRITE32 (44_register_access.md) -/

/-- R173: the offset checks of READ32 and WRITE32, the first two before the operation starts and the third
at the access. -/
def Obligations.RegisterOffsetsAreChecked : Prop :=
  ∀ (inst : Nat) (off v : Word) (s : State),
    (s.seq.pos = .idle → inst ≠ 0 →
        exec (.read32 inst off) s = .fault .badInstance ∧
          exec (.write32 inst off v) s = .fault .badInstance) ∧
      (s.seq.pos = .idle → inst = 0 → off.toNat % 4 ≠ 0 →
        exec (.read32 inst off) s = .fault .misaligned ∧
          exec (.write32 inst off v) s = .fault .misaligned) ∧
      (s.seq.pos = .idle → inst = 0 → off.toNat % 4 = 0 → offsetMapped off.toNat = false →
        exec (.read32 inst off) s = .fault .unmapped ∧
          exec (.write32 inst off v) s = .fault .unmapped) ∧
      (s.seq.pos = .idle → inst = 0 → offsetMapped off.toNat = true →
        exec (.read32 inst off) s = .next (s.start .read32) ∧
          exec (.write32 inst off v) s = .next (s.start .write32)) ∧
      (lpmAck s.mcr = true →
        ((∃ k, k < 128 ∧ off.toNat = 0x080 + 4 * k) ∨ ∃ i, i < 32 ∧ off.toNat = 0x880 + 4 * i) →
        (s.seq.pos = .read32 → exec (.read32 inst off) s = .fault .moduleDisabled) ∧
          (s.seq.pos = .write32 → exec (.write32 inst off v) s = .fault .moduleDisabled))

/-- R172, R174, R175: READ32 answers the word of block space at its offset and finishes OK; a poison RAM
word or receive mask is a fault; it changes nothing but the sequencer and the statuses. -/
def Obligations.Read32ReturnsTheWord : Prop :=
  (∀ (inst : Nat) (off v : Word) (s : State), s.seq.pos = .read32 → BlockHolds s off.toNat v →
      exec (.read32 inst off) s =
        .next
          { s with
            seq := { s.seq with pos := .idle, status := some .ok, value := some v }
            statuses := s.statuses ++ [.ok] }) ∧
    (∀ (inst : Nat) (off : Word) (s : State), s.seq.pos = .read32 → lpmAck s.mcr = false →
      ((∃ k, k < 128 ∧ off.toNat = 0x080 + 4 * k ∧ cellRead s.ram k = none) ∨
        ∃ i, i < 32 ∧ off.toNat = 0x880 + 4 * i ∧ cellRead s.rximr i = none) →
      exec (.read32 inst off) s = .fault .readPoison) ∧
    ∀ (inst : Nat) (off : Word) (s t : State), exec (.read32 inst off) s = .next t →
      t = { s with seq := t.seq, statuses := t.statuses } ∧ HostFrame s t

/-- R28, R178: a WRITE32 to MCR sets the requests and the freeze fields as written and leaves the
acknowledge bits. -/
def Obligations.Write32SetsMcrRequests : Prop :=
  ∀ (inst : Nat) (v : Word) (s : State), s.seq.pos = .write32 → v &&& mcrNm = s.mcr &&& mcrNm →
    (frzAck s.mcr = true ∨ (fdEn v = fdEn s.mcr ∧ maxMb v = maxMb s.mcr)) →
    ∃ m, exec (.write32 inst 0x000#32 v) s = .next ({ s with mcr := m }.finish .ok) ∧
      McrIs m s.mcr (mdis v) (frz v) (halt v) (fdEn v) (maxMb v)

/-- R176, R64, R75: a WRITE32 to CTRL1, CBT, FDCBT, FDCTRL or a receive mask stores the word, inside the
window of the fields it changes. -/
def Obligations.Write32StoresConfigurationWords : Prop :=
  ∀ (inst : Nat) (v : Word) (s : State), s.seq.pos = .write32 →
    (v &&& ctrl1Nm = s.ctrl1 &&& ctrl1Nm → (frzAck s.mcr = true ∨ lpb v = lpb s.ctrl1) →
        (lpmAck s.mcr = true ∨ v.getLsbD 13 = s.ctrl1.getLsbD 13) →
        exec (.write32 inst 0x004#32 v) s = .next ({ s with ctrl1 := v }.finish .ok)) ∧
      ((frzAck s.mcr = true ∨ v = s.cbt) →
        exec (.write32 inst 0x050#32 v) s = .next ({ s with cbt := v }.finish .ok)) ∧
      (v &&& fdcbtNm = s.fdcbt &&& fdcbtNm → (frzAck s.mcr = true ∨ v = s.fdcbt) →
        exec (.write32 inst 0xC04#32 v) s = .next ({ s with fdcbt := v }.finish .ok)) ∧
      (v &&& fdctrlNm = s.fdctrl &&& fdctrlNm → (frzAck s.mcr = true ∨ v = s.fdctrl) →
        exec (.write32 inst 0xC00#32 v) s = .next ({ s with fdctrl := v }.finish .ok)) ∧
      ∀ (i : Nat) (off : Word), i < 32 → off.toNat = 0x880 + 4 * i → lpmAck s.mcr = false →
        (frzAck s.mcr = true ∨ cellRead s.rximr i = some v) →
        exec (.write32 inst off v) s =
          .next ({ s with rximr := cellWrite s.rximr i v }.finish .ok)

/-- R61 item 2, R179, R180: a WRITE32 stores any word of a buffer HOST owns, and a CS word loses its
transmit request; a word beyond the pool takes any value. -/
def Obligations.Write32StoresRamWords : Prop :=
  ∀ (inst k i : Nat) (off v : Word) (s : State), s.seq.pos = .write32 → lpmAck s.mcr = false →
    k < 128 → off.toNat = 0x080 + 4 * k → i = k / bufWords (hwClass s) →
    (i < poolSize (hwClass s) → HostOwns s i → k = csIndex (hwClass s) i →
        codeDefined (codeOf v) = true →
        exec (.write32 inst off v) s =
          .next ({ s with
                    ram := cellWrite s.ram k v
                    txPending := clearBit s.txPending i }.finish .ok)) ∧
      (i < poolSize (hwClass s) → HostOwns s i → k ≠ csIndex (hwClass s) i →
        exec (.write32 inst off v) s = .next ({ s with ram := cellWrite s.ram k v }.finish .ok)) ∧
      (poolSize (hwClass s) ≤ i →
        exec (.write32 inst off v) s = .next ({ s with ram := cellWrite s.ram k v }.finish .ok))

/-- R34 with R61 item 1: a write to IFLAG1 clears the flags of its set bits, latches the transmit requests
of TX_DATA buffers and releases RX_FULL buffers; a poison control word of a set bit is a fault. -/
def Obligations.IflagWriteClearsRequestsAndReleases : Prop :=
  ∀ (inst : Nat) (v : Word) (s : State), s.seq.pos = .write32 →
    (regRead 0x030 s = .ok s.iflag) ∧
      ((∃ i, i < poolSize (hwClass s) ∧ v.getLsbD i = true ∧ hwCs s i = none) →
        exec (.write32 inst 0x030#32 v) s = .fault .readPoison) ∧
      ((∀ i, i < poolSize (hwClass s) → v.getLsbD i = true → hwCs s i ≠ none) →
        ∃ fl pe ra,
          exec (.write32 inst 0x030#32 v) s =
              .next ({ s with iflag := fl, txPending := pe, ram := ra }.finish .ok) ∧
            (∀ b, fl.getLsbD b = (s.iflag.getLsbD b && !v.getLsbD b)) ∧
            (∀ b, pe.getLsbD b = true ↔
              s.txPending.getLsbD b = true ∨
                (v.getLsbD b = true ∧ b < poolSize (hwClass s) ∧ hwCodeIs s codeTxData b = true)) ∧
            (∀ i w, i < poolSize (hwClass s) → v.getLsbD i = true → hwCs s i = some w →
              codeOf w = codeRxFull →
              ∃ u, cellRead ra (csIndex (hwClass s) i) = some u ∧ codeOf u = codeRxEmpty ∧
                ∀ b, (b < 24 ∨ 28 ≤ b) → u.getLsbD b = w.getLsbD b) ∧
            ∀ k, (¬ ∃ i, i < poolSize (hwClass s) ∧ k = csIndex (hwClass s) i ∧ v.getLsbD i = true ∧
                hwCodeIs s codeRxFull i = true) → cellRead ra k = cellRead s.ram k)

/-- R64: a block write that changes a windowed field outside its window is a ConfigWindow fault (where no
not-modelled bit changes, which R177 checks first), and one that changes no windowed field is made. That a
write over a poison mask changes it is the model's deduction (log 9). -/
def Obligations.WindowedFieldsNeedTheirWindow : Prop :=
  ∀ (v : Word) (s : State),
    (frzAck s.mcr = false →
        (v &&& mcrNm = s.mcr &&& mcrNm → (fdEn v ≠ fdEn s.mcr ∨ maxMb v ≠ maxMb s.mcr) →
            regWrite 0x000 v s = .error .configWindow) ∧
          (v &&& ctrl1Nm = s.ctrl1 &&& ctrl1Nm → lpb v ≠ lpb s.ctrl1 →
            regWrite 0x004 v s = .error .configWindow) ∧
          (v ≠ s.cbt → regWrite 0x050 v s = .error .configWindow) ∧
          (v &&& fdcbtNm = s.fdcbt &&& fdcbtNm → v ≠ s.fdcbt →
            regWrite 0xC04 v s = .error .configWindow) ∧
          (v &&& fdctrlNm = s.fdctrl &&& fdctrlNm → v ≠ s.fdctrl →
            regWrite 0xC00 v s = .error .configWindow) ∧
          ∀ i, i < 32 → lpmAck s.mcr = false → cellRead s.rximr i ≠ some v →
            regWrite (0x880 + 4 * i) v s = .error .configWindow) ∧
      (lpmAck s.mcr = false → v &&& ctrl1Nm = s.ctrl1 &&& ctrl1Nm →
        v.getLsbD 13 ≠ s.ctrl1.getLsbD 13 → regWrite 0x004 v s = .error .configWindow) ∧
      (v &&& mcrNm = s.mcr &&& mcrNm → fdEn v = fdEn s.mcr → maxMb v = maxMb s.mcr →
        ∃ t, regWrite 0x000 v s = .ok t ∧ mdis t.mcr = mdis v ∧ frz t.mcr = frz v ∧
          halt t.mcr = halt v) ∧
      regWrite 0x004 s.ctrl1 s = .ok s ∧ regWrite 0x050 s.cbt s = .ok s ∧
      regWrite 0xC04 s.fdcbt s = .ok s ∧ regWrite 0xC00 s.fdctrl s = .ok s ∧
      ∀ i, i < 32 → lpmAck s.mcr = false → cellRead s.rximr i = some v →
        ∃ t, regWrite (0x880 + 4 * i) v s = .ok t ∧ ∀ a, cellRead t.rximr a = cellRead s.rximr a

/-- R75: a block write that would change a not-modelled bit is an UnmodelledField fault, whatever else it
would change. -/
def Obligations.NotModelledBitsMayNotChange : Prop :=
  ∀ (v : Word) (s : State),
    (v &&& mcrNm ≠ s.mcr &&& mcrNm → regWrite 0x000 v s = .error .unmodelledField) ∧
      (v &&& ctrl1Nm ≠ s.ctrl1 &&& ctrl1Nm → regWrite 0x004 v s = .error .unmodelledField) ∧
      (v &&& fdcbtNm ≠ s.fdcbt &&& fdcbtNm → regWrite 0xC04 v s = .error .unmodelledField) ∧
      (v &&& fdctrlNm ≠ s.fdctrl &&& fdctrlNm → regWrite 0xC00 v s = .error .unmodelledField)

/-- R63: HOST may not write a word of an ENGINE-owned buffer, but for the revocation, which returns the
buffer to HOST and is never transmitted; it may read one. -/
def Obligations.EngineOwnedWordsAreProtected : Prop :=
  ∀ (k i : Nat) (v w : Word) (s : State), i = k / bufWords (hwClass s) →
    i < poolSize (hwClass s) → EngineOwns s i → hwCs s i = some w →
    (¬ (k = csIndex (hwClass s) i ∧ codeOf w = codeTxData ∧ s.txPending.getLsbD i = true ∧
          codeOf v = codeTxInactive) →
        regWrite (0x080 + 4 * k) v s = .error .ownershipViolation) ∧
      (k = csIndex (hwClass s) i → codeOf w = codeTxData → s.txPending.getLsbD i = true →
        codeOf v = codeTxInactive →
        ∃ t, regWrite (0x080 + 4 * k) v s = .ok t ∧ cellRead t.ram k = some v ∧
          t.txPending.getLsbD i = false ∧ HostOwns t i ∧ txOn i t = false) ∧
      ∀ u, cellRead s.ram k = some u → regRead (0x080 + 4 * k) s = .ok u

/-- R74: a reserved code may not be written to a CS word; no other RAM word is checked for a code. The
buffer is one HOST owns, since ownership is checked first (R177). -/
def Obligations.ReservedCodesAreRefused : Prop :=
  ∀ (k i : Nat) (v : Word) (s : State), i = k / bufWords (hwClass s) → k < 128 →
    lpmAck s.mcr = false →
    (i < poolSize (hwClass s) → HostOwns s i → k = csIndex (hwClass s) i →
        (codeOf v ≠ 0#4 ∧ codeOf v ≠ 4#4 ∧ codeOf v ≠ 2#4 ∧ codeOf v ≠ 8#4 ∧ codeOf v ≠ 12#4) →
        regWrite (0x080 + 4 * k) v s = .error .reservedCode) ∧
      (i < poolSize (hwClass s) → HostOwns s i → k ≠ csIndex (hwClass s) i →
        regWrite (0x080 + 4 * k) v s = .ok { s with ram := cellWrite s.ram k v }) ∧
      (poolSize (hwClass s) ≤ i →
        regWrite (0x080 + 4 * k) v s = .ok { s with ram := cellWrite s.ram k v })

/-- WRITE32's frame: the word at its offset, the side effects of R61 and nothing else. -/
def Obligations.Write32LeavesTheRest : Prop :=
  ∀ (inst : Nat) (off v : Word) (s t : State) (w : BlockWord), blockWord off.toNat = .ok w →
    exec (.write32 inst off v) s = .next t →
    BlockFrame (some w) v s t ∧ HostFrame s t ∧ t.sess = s.sess ∧ t.hostMem = s.hostMem ∧
      t.seq.value = s.seq.value

/-! ## The bit-timing calculator (40_bit_timing.md) -/

/-- R106: the sample quanta are qpb * sp / 100 rounded to the nearest, a half up. -/
def Obligations.SampleQuantaRoundHalfUp : Prop :=
  (∀ qpb sp : Nat, (sampleQuanta qpb sp : Int) = ⌊((qpb : ℚ) * sp / 100 + 1 / 2)⌋) ∧
    (∀ qpb sp : Nat, sampleQuanta qpb sp = (2 * qpb * sp + 100) / 200) ∧ sampleQuanta 10 85 = 9

/-- R107 to R109, R112, R113: when the timing is infeasible, and the values of a feasible one. -/
def Obligations.TimingIsInfeasibleExactly : Prop :=
  ∀ (rule : Config.PrescalerRule) (qpb sp nbr fclk : Nat) (ps prop pd : Int),
    ps = (qpb : Int) - ((2 * qpb * sp + 100) / 200 : Nat) → prop = (qpb : Int) - ps - ps - 1 →
    pd = (match rule with
      | .source => 1 - ((fclk / (qpb * nbr) : Nat) : Int)
      | .conventional => ((fclk / (qpb * nbr) : Nat) : Int) - 1) →
    (timing rule qpb sp nbr fclk = none ↔
        qpb < 2 ∨ 100 < sp ∨ nbr = 0 ∨ ps < 1 ∨ prop < 0 ∨ 31 < ps ∨ 63 < prop ∨
          (rule = .conventional ∧ (pd < 0 ∨ 1023 < pd))) ∧
      ∀ r, timing rule qpb sp nbr fclk = some r →
        (r.ps2 : Int) = ps ∧ r.ps1 = r.ps2 ∧ (r.prop : Int) = prop ∧ (r.rjw : Int) = min (ps - 1) 3 ∧
          r.rjw ≤ 3 ∧ r.presdiv = pd

/-- R117: the laws of every feasible timing. -/
def Obligations.FeasibleTimingLaws : Prop :=
  ∀ (rule : Config.PrescalerRule) (qpb sp nbr fclk : Nat) (r : Timing),
    timing rule qpb sp nbr fclk = some r →
    1 + r.prop + r.ps1 + r.ps2 = qpb ∧ 1 ≤ r.ps2 ∧ 0 ≤ r.prop ∧ r.rjw = min (r.ps2 - 1) 3 ∧
      0 ≤ r.rjw ∧ r.rjw ≤ 3 ∧ r.rjw < r.ps2 ∧ 1 + r.prop + r.ps1 = sampleQuanta qpb sp

/-- R91: the fields of the CBT word, each masked to its width; for a feasible timing only the prescaler can
be reduced, and only under SOURCE. -/
def Obligations.CbtWordFieldsReadBack : Prop :=
  (∀ r : Timing,
      bits (cbtWord r) 31 31 = 1 ∧ (bits (cbtWord r) 30 21 : Int) = r.presdiv % 1024 ∧
        bits (cbtWord r) 20 16 = r.rjw % 32 ∧ bits (cbtWord r) 15 10 = r.prop % 64 ∧
        bits (cbtWord r) 9 5 = r.ps1 % 32 ∧ bits (cbtWord r) 4 0 = r.ps2 % 32) ∧
    ∀ (rule : Config.PrescalerRule) (qpb sp nbr fclk : Nat) (r : Timing),
      timing rule qpb sp nbr fclk = some r →
      r.rjw < 32 ∧ r.prop < 64 ∧ r.ps1 < 32 ∧ r.ps2 < 32 ∧
        (rule = .conventional → 0 ≤ r.presdiv ∧ r.presdiv < 1024)

/-- R114, R116: with FDEN = 0, CALC_TIMING writes the CBT word of a feasible timing and finishes OK; the
four micro-steps in a row, and the write alone. -/
def Obligations.CalcTimingWritesCbt : Prop :=
  ∀ (inst : Nat) (tpar : Tpar) (nbr : Word) (s : State) (r : Timing),
    (frzAck s.mcr = true ∨ cbtWord r = s.cbt) →
    (s.seq.pos = .calcTiming (.writeCbt r) →
        exec (.calcTiming inst tpar nbr) s = .next ({ s with cbt := cbtWord r }.finish .ok)) ∧
      (s.seq.pos = .idle → inst = 0 → tpar.rsv = 0 → fdEn s.mcr = false →
        timing s.params.prescalerRule tpar.qpb tpar.sp nbr.toNat
            (if s.ctrl1.getLsbD 13 then s.params.fClkBus else s.params.fClkOsc) = some r →
        runExec (.calcTiming inst tpar nbr) 4 s =
          .next ({ s with cbt := cbtWord r, seq := { s.seq with attempts := 0 } }.finish .ok))

/-- R115, R116: with FDEN = 1, CALC_TIMING writes the two literals and finishes OK, whatever its
operands. -/
def Obligations.CalcTimingWritesFdLiterals : Prop :=
  ∀ (inst : Nat) (tpar : Tpar) (nbr : Word) (s : State), frzAck s.mcr = true →
    s.params.fdFdcbtWord &&& fdcbtNm = s.fdcbt &&& fdcbtNm →
    (s.seq.pos = .calcTiming .fdFdcbt →
        exec (.calcTiming inst tpar nbr) s =
          .next ({ s with fdcbt := s.params.fdFdcbtWord }.finish .ok)) ∧
      (s.seq.pos = .idle → inst = 0 → tpar.rsv = 0 → fdEn s.mcr = true →
        runExec (.calcTiming inst tpar nbr) 4 s =
          .next ({ s with
                    cbt := s.params.fdCbtWord
                    fdcbt := s.params.fdFdcbtWord
                    seq := { s.seq with attempts := 0 } }.finish .ok))

/-- R85, R88 item 5, R113, R116: CALC_TIMING finishes NOT_OK and writes nothing on a bad instance, reserved
bits or an infeasible timing; a CBT write outside freeze that changes CBT is a fault. That reserved bits set
seq.attempts to 0, as every operation that starts does (R22), and a bad instance does not, is the model's
deduction (log 28). -/
def Obligations.CalcTimingRefusesBadInput : Prop :=
  ∀ (inst : Nat) (tpar : Tpar) (nbr : Word) (s : State),
    (s.seq.pos = .idle → inst ≠ 0 →
        exec (.calcTiming inst tpar nbr) s = .next (s.finish .notOk)) ∧
      (s.seq.pos = .idle → inst = 0 → tpar.rsv ≠ 0 →
        exec (.calcTiming inst tpar nbr) s =
          .next ({ s with seq := { s.seq with attempts := 0 } }.finish .notOk)) ∧
      (s.seq.pos = .calcTiming .readCtrl1 →
        timing s.params.prescalerRule tpar.qpb tpar.sp nbr.toNat
            (if s.ctrl1.getLsbD 13 then s.params.fClkBus else s.params.fClkOsc) = none →
        exec (.calcTiming inst tpar nbr) s = .next (s.finish .notOk)) ∧
      ∀ r, s.seq.pos = .calcTiming (.writeCbt r) → frzAck s.mcr = false → cbtWord r ≠ s.cbt →
        exec (.calcTiming inst tpar nbr) s = .fault .configWindow

/-- CALC_TIMING's frame: CBT or FDCBT in the micro-step that writes it, the sequencer and the statuses. -/
def Obligations.CalcTimingLeavesTheRest : Prop :=
  ∀ (inst : Nat) (tpar : Tpar) (nbr : Word) (s t : State),
    exec (.calcTiming inst tpar nbr) s = .next t →
    t = { s with cbt := t.cbt, fdcbt := t.fdcbt, seq := t.seq, statuses := t.statuses } ∧
      HostFrame s t ∧ t.seq.value = s.seq.value ∧
      ((∀ p, s.seq.pos = .calcTiming p → calcTarget p ≠ some .cbt) → t.cbt = s.cbt) ∧
      ((∀ p, s.seq.pos = .calcTiming p → calcTarget p ≠ some .fdcbt) → t.fdcbt = s.fdcbt)

/-! ## TRANSMIT (42_transmit.md) -/

/-- R148: the preconditions of TRANSMIT in their order, with the instance check of R88 item 5 before them
and the poison of R20 where the session's class is read. -/
def Obligations.TransmitChecksPreconditions : Prop :=
  ∀ (inst len : Nat) (id src : Word) (s : State), s.seq.pos = .idle →
    (inst ≠ 0 → exec (.transmit inst len id src) s = .fault .badInstance) ∧
      (inst = 0 → s.sess.valid = false → exec (.transmit inst len id src) s = .fault .notInitialized) ∧
      (inst = 0 → s.sess.valid = true → s.sess.cls = none →
        exec (.transmit inst len id src) s = .fault .readPoison) ∧
      ∀ c, inst = 0 → s.sess.valid = true → s.sess.cls = some c →
        (len ≠ payloadBytes c → exec (.transmit inst len id src) s = .fault .payloadLength) ∧
          (len = payloadBytes c → ¬ HostRangeFits s.params src.toNat len →
            exec (.transmit inst len id src) s = .fault .hostRange) ∧
          (len = payloadBytes c → HostRangeFits s.params src.toNat len →
            exec (.transmit inst len id src) s = .next (s.start (.transmit (.scan 0))))

/-- R149, R150: the scan claims the first free buffer of the pool, one read per micro-step from buffer 0,
and faults NoFreeTxBuffer where there is none. That the fault falls in the last read's own micro-step is the
model's deduction (log 13). -/
def Obligations.TransmitClaimsFirstFreeBuffer : Prop :=
  ∀ (inst len : Nat) (id src : Word) (s : State) (c : PClass) (cs : Nat → Word) (free : Word → Prop),
    s.seq.pos = .transmit (.scan 0) → s.sess.cls = some c → lpmAck s.mcr = false →
    (∀ i, i < poolSize c → cellRead s.ram (csIndex c i) = some (cs i)) →
    (∀ w, free w ↔
      (s.params.txFreeMatch = .codeField ∧ codeOf w = codeTxInactive) ∨
        (s.params.txFreeMatch = .wholeWord ∧ w = 0x08000000#32)) →
    (∀ j, j < poolSize c → free (cs j) → (∀ i, i < j → ¬ free (cs i)) →
        runExec (.transmit inst len id src) (j + 1) s = .next (s.goto (.transmit (.writeId j)))) ∧
      ((∀ i, i < poolSize c → ¬ free (cs i)) →
        runExec (.transmit inst len id src) (poolSize c) s = .fault .noFreeTxBuffer)

/-- R151, R152: in a buffer HOST owns, under one geometry, TRANSMIT writes the identifier word, the packed
payload words and the control word, one per micro-step. A poison host byte of a payload word is a fault
(R57, R20). Whatever the hardware's geometry, the word goes to the offset the session's gives (R159), with
the outcome of that block write. That a data micro-step reads the bytes of its own word only is the model's
deduction, and so is that ReadPoison is the fault where the write would fail too (log 19). -/
def Obligations.TransmitWritesItsBuffer : Prop :=
  ∀ (inst len j : Nat) (id src : Word) (s : State) (c : PClass) (ext : Bool) (idw csw : Word)
    (i : Instr), i = .transmit inst len id src → s.sess.cls = some c → j < poolSize c →
    ((s.params.txIdMode = .alwaysStandard ∧ ext = false) ∨
      (s.params.txIdMode = .followConfig ∧
        ((s.sess.idType = some .standard ∧ ext = false) ∨
          (s.sess.idType = some .extended ∧ ext = true)))) →
    idw = (if ext then id else id <<< 18) →
    csw = (if ext then 0x00600000#32 else 0#32) |||
      (match c with
        | .b8 => 0x0C080000#32
        | .b16 => 0x0C0A0000#32
        | .b32 => 0x0C0D0000#32
        | .b64 => 0x0C0F0000#32) →
    (hwClass s = c → lpmAck s.mcr = false → HostOwns s j →
        (s.seq.pos = .transmit (.writeId j) →
            exec i s =
              .next ({ s with ram := cellWrite s.ram (csIndex c j + 1) idw }.goto
                (.transmit (.writeData j 0)))) ∧
          (∀ k b0 b1 b2 b3, s.seq.pos = .transmit (.writeData j k) → k < dataWords c →
            cellRead s.hostMem (src.toNat + 4 * k) = some b0 →
            cellRead s.hostMem (src.toNat + 4 * k + 1) = some b1 →
            cellRead s.hostMem (src.toNat + 4 * k + 2) = some b2 →
            cellRead s.hostMem (src.toNat + 4 * k + 3) = some b3 →
            exec i s =
              .next ({ s with ram := cellWrite s.ram (csIndex c j + 2 + k) (b0 ++ b1 ++ b2 ++ b3) }.goto
                (.transmit (if k + 1 < dataWords c then .writeData j (k + 1) else .writeCs j)))) ∧
          (s.seq.pos = .transmit (.writeCs j) →
            exec i s =
              .next ({ s with
                        ram := cellWrite s.ram (csIndex c j) csw
                        txPending := clearBit s.txPending j }.goto (.transmit (.request j))))) ∧
      (∀ k m, s.seq.pos = .transmit (.writeData j k) → k < dataWords c → m < 4 →
        cellRead s.hostMem (src.toNat + 4 * k + m) = none → exec i s = .fault .readPoison) ∧
      ∀ p q x w, s.seq.pos = .transmit p →
        ((p = .writeId j ∧ x = csIndex c j + 1 ∧ w = idw ∧ q = .writeData j 0) ∨
          (∃ k b0 b1 b2 b3, p = .writeData j k ∧ k < dataWords c ∧ x = csIndex c j + 2 + k ∧
            cellRead s.hostMem (src.toNat + 4 * k) = some b0 ∧
            cellRead s.hostMem (src.toNat + 4 * k + 1) = some b1 ∧
            cellRead s.hostMem (src.toNat + 4 * k + 2) = some b2 ∧
            cellRead s.hostMem (src.toNat + 4 * k + 3) = some b3 ∧ w = b0 ++ b1 ++ b2 ++ b3 ∧
            q = if k + 1 < dataWords c then .writeData j (k + 1) else .writeCs j) ∨
          (p = .writeCs j ∧ x = csIndex c j ∧ w = csw ∧ q = .request j)) →
        (∀ u, regWrite (0x080 + 4 * x) w s = .ok u → exec i s = .next (u.goto (.transmit q))) ∧
          ∀ r, regWrite (0x080 + 4 * x) w s = .error r → exec i s = .fault r

/-- R152 to R154, R226: TRANSMIT makes the request, polls its flag and finishes OK. -/
def Obligations.TransmitRequestsAndWaits : Prop :=
  ∀ (inst len j : Nat) (id src : Word) (s : State) (c : PClass),
    s.sess.cls = some c → j < poolSize c →
    (∀ w, s.seq.pos = .transmit (.request j) → hwClass s = c → hwCs s j = some w →
        codeOf w = codeTxData →
        ∃ t, exec (.transmit inst len id src) s = .next t ∧
          t = { s with iflag := t.iflag, txPending := t.txPending, ram := t.ram }.goto
            (.transmit (.poll j)) ∧
          (∀ b, t.iflag.getLsbD b = (s.iflag.getLsbD b && !decide (b = j))) ∧
          (∀ b, t.txPending.getLsbD b = (s.txPending.getLsbD b || decide (b = j))) ∧
          (∀ k, cellRead t.ram k = cellRead s.ram k) ∧ (operational s = true → EngineOwns t j)) ∧
      (s.seq.pos = .transmit (.poll j) →
        (s.iflag.getLsbD j = true →
            exec (.transmit inst len id src) s = .next (s.start (.transmit .complete))) ∧
          (s.iflag.getLsbD j = false → s.params.pollLimit = none →
            exec (.transmit inst len id src) s = .next s) ∧
          ∀ n, s.iflag.getLsbD j = false → s.params.pollLimit = some n →
            exec (.transmit inst len id src) s =
              .next
                { s with
                  seq :=
                    { s.seq with
                      attempts := s.seq.attempts + 1
                      pos :=
                        if s.seq.attempts + 1 = n then .transmit (.revoke j)
                        else .transmit (.poll j) } }) ∧
      (s.seq.pos = .transmit .complete →
        exec (.transmit inst len id src) s = .next (s.finish .ok))

/-- R155: a TRANSMIT that timed out revokes its request, whether or not ENGINE still holds it, and finishes
with TIMEOUT; the buffer is TX_INACTIVE and HOST owns it. -/
def Obligations.TransmitTimeoutRevokes : Prop :=
  ∀ (inst len j : Nat) (id src : Word) (s : State) (c : PClass), s.sess.cls = some c →
    (s.seq.pos = .transmit (.revoke j) → j < poolSize c → hwClass s = c → lpmAck s.mcr = false →
        (HostOwns s j ∨ hwCodeIs s codeTxData j = true) →
        ∃ t, exec (.transmit inst len id src) s = .next t ∧
          t = { s with
                  ram := cellWrite s.ram (csIndex c j) 0x08000000#32
                  txPending := clearBit s.txPending j }.goto (.transmit .timeoutFinish) ∧
          hwCs t j = some 0x08000000#32 ∧ t.txPending.getLsbD j = false ∧ HostOwns t j) ∧
      (s.seq.pos = .transmit .timeoutFinish →
        exec (.transmit inst len id src) s = .next (s.finish .timeout))

/-- TRANSMIT's frame, at a position of its pseudocode: the word its micro-step writes with the side effects
of R61, the sequencer and the statuses. -/
def Obligations.TransmitLeavesTheRest : Prop :=
  ∀ (inst len : Nat) (id src : Word) (s t : State),
    posFits (.transmit inst len id src) s.sess s.seq.pos = true →
    exec (.transmit inst len id src) s = .next t →
    HostFrame s t ∧ t.sess = s.sess ∧ t.hostMem = s.hostMem ∧ t.seq.value = s.seq.value ∧
      (s.seq.pos = .idle → BlockFrame none 0#32 s t) ∧
      ∀ c p, s.sess.cls = some c → s.seq.pos = .transmit p →
        ∃ flags, (∀ j, p = .request j → ∀ b, flags.getLsbD b = decide (b = j)) ∧
          BlockFrame (txTarget c p) flags s t

/-- R55: the payload packing, most significant byte first, and that unpacking undoes it. -/
def Obligations.PayloadUnpacksToItself : Prop :=
  (∀ b0 b1 b2 b3 : Byte,
      (packWord b0 b1 b2 b3).toNat =
        b0.toNat * 2 ^ 24 + b1.toNat * 2 ^ 16 + b2.toNat * 2 ^ 8 + b3.toNat) ∧
    (∀ (w : Word) (j : Nat), j < 4 → (unpackByte w j).toNat = w.toNat / 2 ^ (24 - 8 * j) % 256) ∧
    ∀ (b : Nat → Byte) (n m : Nat), m < 4 * n →
      unpackAt
          ((List.range n).map fun k =>
            packWord (b (4 * k)) (b (4 * k + 1)) (b (4 * k + 2)) (b (4 * k + 3))) m = b m

/-! ## RECEIVE (43_receive.md) -/

/-- R162: the preconditions of RECEIVE in their order, with the instance check of R88 item 5 before them. -/
def Obligations.ReceiveChecksPreconditions : Prop :=
  ∀ (inst len : Nat) (dst : Word) (s : State), s.seq.pos = .idle →
    (inst ≠ 0 → exec (.receive inst len dst) s = .fault .badInstance) ∧
      (inst = 0 → s.sess.valid = false → exec (.receive inst len dst) s = .fault .notInitialized) ∧
      (inst = 0 → s.sess.valid = true → s.sess.cls = none →
        exec (.receive inst len dst) s = .fault .readPoison) ∧
      ∀ c, inst = 0 → s.sess.valid = true → s.sess.cls = some c →
        (¬ HostRangeFits s.params dst.toNat (min len (payloadBytes c)) →
            exec (.receive inst len dst) s = .fault .hostRange) ∧
          (HostRangeFits s.params dst.toNat (min len (payloadBytes c)) →
            exec (.receive inst len dst) s = .next (s.start (.receive (.scan 0))))

/-- R163, R169, R226: a pass reads IFLAG1 once per buffer from buffer 0 and stops at the first set bit; a
pass without one is one failed attempt, and RECEIVE starts again at 0 or ends with TIMEOUT. That the
finish falls in the last read is the model's deduction (log 13). -/
def Obligations.ReceiveScansFlags : Prop :=
  ∀ (inst len : Nat) (dst : Word) (s : State) (c : PClass),
    s.sess.cls = some c → s.seq.pos = .receive (.scan 0) →
    (∀ j, j < poolSize c → s.iflag.getLsbD j = true → (∀ i, i < j → s.iflag.getLsbD i = false) →
        runExec (.receive inst len dst) (j + 1) s = .next (s.start (.receive (.readData j 0 [])))) ∧
      ((∀ i, i < poolSize c → s.iflag.getLsbD i = false) →
        (s.params.pollLimit = none → runExec (.receive inst len dst) (poolSize c) s = .next s) ∧
          ∀ n, s.params.pollLimit = some n →
            (s.seq.attempts + 1 ≠ n →
                runExec (.receive inst len dst) (poolSize c) s =
                  .next { s with seq := { s.seq with attempts := s.seq.attempts + 1 } }) ∧
              (s.seq.attempts + 1 = n →
                runExec (.receive inst len dst) (poolSize c) s =
                  .next
                    ({ s with seq := { s.seq with attempts := s.seq.attempts + 1 } }.finish .timeout)))

/-- R164, R165: RECEIVE reads every data word of the buffer, then writes min(LEN, P) bytes to the caller in
one micro-step, and no other byte. -/
def Obligations.ReceiveReadsAndCopies : Prop :=
  ∀ (inst len j : Nat) (dst : Word) (s : State) (c : PClass),
    s.sess.cls = some c → j < poolSize c →
    (∀ k v ws, s.seq.pos = .receive (.readData j k ws) → k < dataWords c → lpmAck s.mcr = false →
        cellRead s.ram (csIndex c j + 2 + k) = some v →
        exec (.receive inst len dst) s =
          .next
            (s.goto
              (.receive
                (if k + 1 < dataWords c then .readData j (k + 1) (ws ++ [v])
                  else .copy j (ws ++ [v]))))) ∧
      ∀ ws n, s.seq.pos = .receive (.copy j ws) → n = min len (payloadBytes c) →
        HostRangeFits s.params dst.toNat n →
        ∃ mem, exec (.receive inst len dst) s =
            .next ({ s with hostMem := mem }.goto (.receive (.release j))) ∧
          (∀ m, m < n →
            cellRead mem (dst.toNat + m) =
              some (((ws.getD (m / 4) 0#32) >>> (24 - 8 * (m % 4))).setWidth 8)) ∧
          ∀ a, (a < dst.toNat ∨ dst.toNat + n ≤ a) → cellRead mem a = cellRead s.hostMem a

/-- R166 to R168: the release clears the flag and makes an RX_FULL buffer RX_EMPTY with its other bits as
they were, or requests a TX_DATA buffer; then RECEIVE finishes OK. -/
def Obligations.ReceiveReleasesAndFinishes : Prop :=
  ∀ (inst len j : Nat) (dst : Word) (s : State) (c : PClass), s.sess.cls = some c →
    (∀ w, s.seq.pos = .receive (.release j) → j < poolSize c → hwClass s = c → hwCs s j = some w →
        ∃ t, exec (.receive inst len dst) s = .next t ∧
          t = { s with iflag := t.iflag, txPending := t.txPending, ram := t.ram }.goto
            (.receive .complete) ∧
          (∀ b, t.iflag.getLsbD b = (s.iflag.getLsbD b && !decide (b = j))) ∧
          (codeOf w = codeRxFull →
            ∃ u, hwCs t j = some u ∧ codeOf u = codeRxEmpty ∧
              (∀ b, (b < 24 ∨ 28 ≤ b) → u.getLsbD b = w.getLsbD b) ∧
              (operational s = true → EngineOwns t j)) ∧
          (codeOf w ≠ codeRxFull → hwCs t j = some w) ∧
          (∀ b, t.txPending.getLsbD b = (s.txPending.getLsbD b || decide (b = j ∧ codeOf w = codeTxData))) ∧
          ∀ k, k ≠ csIndex c j → cellRead t.ram k = cellRead s.ram k) ∧
      (s.seq.pos = .receive .complete → exec (.receive inst len dst) s = .next (s.finish .ok))

/-- RECEIVE's frame, at a position of its pseudocode: host memory in the copy, the flag write with the side
effects of R61 in the release, the sequencer and the statuses. -/
def Obligations.ReceiveLeavesTheRest : Prop :=
  ∀ (inst len : Nat) (dst : Word) (s t : State),
    posFits (.receive inst len dst) s.sess s.seq.pos = true →
    exec (.receive inst len dst) s = .next t →
    HostFrame s t ∧ t.sess = s.sess ∧ t.seq.value = s.seq.value ∧
      (s.seq.pos = .idle → BlockFrame none 0#32 s t ∧ t.hostMem = s.hostMem) ∧
      ∀ c p, s.sess.cls = some c → s.seq.pos = .receive p →
        (∃ flags, (∀ j, p = .release j → ∀ b, flags.getLsbD b = decide (b = j)) ∧
            BlockFrame (rxTarget p) flags s t) ∧
          ((∀ j ws, p ≠ .copy j ws) → t.hostMem = s.hostMem) ∧
          ∀ a, (a < dst.toNat ∨ dst.toNat + min len (payloadBytes c) ≤ a) →
            cellRead t.hostMem a = cellRead s.hostMem a

/-! ## INIT (41_init.md) -/

/-- R124: INIT's validation, which finishes NOT_OK exactly on these inputs and touches no block state. A bad
instance has no other effect (R88 item 5). That the other invalid inputs set seq.attempts to 0, as every
operation that starts does (R22), is the model's deduction (log 28). -/
def Obligations.InitValidatesItsInput : Prop :=
  ∀ (inst : Nat) (cfg : Cfg) (nbr dbr txid rxid : Word) (s : State) (bad : Prop), s.seq.pos = .idle →
    (bad ↔
      inst ≠ 0 ∨ cfg.rsvHigh ≠ 0 ∨ cfg.rsvLow ≠ 0 ∨ 100 < cfg.sp ∨
        (cfg.proto = .can20 ∧
          timing s.params.prescalerRule cfg.qpb cfg.sp nbr.toNat
            (if cfg.clk = .bus then s.params.fClkBus else s.params.fClkOsc) = none)) →
    (inst ≠ 0 → exec (.init inst cfg nbr dbr txid rxid) s = .next (s.finish .notOk)) ∧
      (inst = 0 → bad →
        exec (.init inst cfg nbr dbr txid rxid) s =
          .next ({ s with seq := { s.seq with attempts := 0 } }.finish .notOk)) ∧
      (¬ bad → exec (.init inst cfg nbr dbr txid rxid) s = .next (s.start (.init .clearValid)))

/-- R125, R128, R141, R144 item 1: INIT's writes of the requests MDIS, FRZ and HALT, each a read and a
write micro-step; every other field of MCR keeps its value. That line 1 clears sess.valid in a micro-step of
its own, three in all, is the model's deduction (log 13). -/
def Obligations.InitRequestsModes : Prop :=
  ∀ (inst : Nat) (cfg : Cfg) (nbr dbr txid rxid : Word) (s : State) (i : Instr),
    i = .init inst cfg nbr dbr txid rxid →
    (s.seq.pos = .init .clearValid →
        ∃ m, runExec i 3 s =
            .next ({ s with mcr := m, sess := { s.sess with valid := false } }.goto
              (.init .pollDisabled)) ∧
          McrIs m s.mcr true (frz s.mcr) (halt s.mcr) (fdEn s.mcr) (maxMb s.mcr)) ∧
      (s.seq.pos = .init (.enable none) →
        ∃ m, runExec i 2 s = .next ({ s with mcr := m }.goto (.init .pollEnabled)) ∧
          McrIs m s.mcr false true true (fdEn s.mcr) (maxMb s.mcr)) ∧
      (s.seq.pos = .init (.exitFreeze none) →
        ∃ m, runExec i 2 s = .next ({ s with mcr := m }.goto (.init .pollUnfrozen)) ∧
          McrIs m s.mcr (mdis s.mcr) false false (fdEn s.mcr) (maxMb s.mcr)) ∧
      (s.seq.pos = .init (.timeoutDisable none) →
        ∃ m, runExec i 2 s = .next ({ s with mcr := m }.goto (.init .timeoutFinish)) ∧
          McrIs m s.mcr true (frz s.mcr) (halt s.mcr) (fdEn s.mcr) (maxMb s.mcr))

/-- R127, R131 to R133, R140: INIT's configuration writes, each inside its window: CLKSRC, FDEN, FDRATE and
MBDSR0, the session and MAXMB, LPB. -/
def Obligations.InitSetsConfiguration : Prop :=
  ∀ (inst : Nat) (cfg : Cfg) (nbr dbr txid rxid : Word) (s : State) (i : Instr) (c : PClass),
    i = .init inst cfg nbr dbr txid rxid →
    c = (match cfg.proto with
      | .canFd => cfg.pclass
      | .can20 => .b8) →
    (s.seq.pos = .init (.clkSrc none) → lpmAck s.mcr = true →
        ∃ w, runExec i 2 s = .next ({ s with ctrl1 := w }.goto (.init (.enable none))) ∧
          ∀ b, w.getLsbD b = if b = 13 then decide (cfg.clk = .bus) else s.ctrl1.getLsbD b) ∧
      (s.seq.pos = .init (.fdEn none) → frzAck s.mcr = true →
        ∃ m, runExec i 2 s =
            .next ({ s with mcr := m }.goto
              (.init (if cfg.proto = Proto.canFd then .fdCtrl none else .session))) ∧
          McrIs m s.mcr (mdis s.mcr) (frz s.mcr) (halt s.mcr) (decide (cfg.proto = Proto.canFd))
            (maxMb s.mcr)) ∧
      (s.seq.pos = .init (.fdCtrl none) → frzAck s.mcr = true →
        ∃ w, runExec i 2 s = .next ({ s with fdctrl := w }.goto (.init .session)) ∧
          w.getLsbD 31 = cfg.brs ∧ pclassOfBits (bits w 17 16) = cfg.pclass ∧
          w &&& fdctrlNm = s.fdctrl &&& fdctrlNm) ∧
      (s.seq.pos = .init .session → frzAck s.mcr = true →
        ∃ m, runExec i 3 s =
            .next ({ s with
                      mcr := m
                      sess := { s.sess with cls := some c, idType := some cfg.idt } }.goto
              (.init .timingMcr)) ∧
          McrIs m s.mcr (mdis s.mcr) (frz s.mcr) (halt s.mcr) (fdEn s.mcr) (poolSize c - 1)) ∧
      (s.seq.pos = .init (.loopBack none) → frzAck s.mcr = true →
        ∃ w, runExec i 2 s = .next ({ s with ctrl1 := w }.goto (.init (.exitFreeze none))) ∧
          ∀ b, w.getLsbD b = if b = 12 then decide (cfg.mode = .loopBack) else s.ctrl1.getLsbD b)

/-- R126, R129, R130, R141 to R144, R226: INIT's five polls, its success and its timeout. -/
def Obligations.InitWaitsAndFinishes : Prop :=
  ∀ (inst : Nat) (cfg : Cfg) (nbr dbr txid rxid : Word) (s : State) (i : Instr),
    i = .init inst cfg nbr dbr txid rxid →
    (∀ (p q : InitPos) (c : Bool), s.seq.pos = .init p →
        (p, q, c) ∈
          [(.pollDisabled, .clkSrc none, lpmAck s.mcr), (.pollEnabled, .pollFrozen, !lpmAck s.mcr),
            (.pollFrozen, .fdEn none, frzAck s.mcr), (.pollUnfrozen, .pollReady, !frzAck s.mcr),
            (.pollReady, .complete, !notRdy s.mcr)] →
        (c = true → exec i s = .next (s.start (.init q))) ∧
          (c = false → s.params.pollLimit = none → exec i s = .next s) ∧
          ∀ n, c = false → s.params.pollLimit = some n →
            exec i s =
              .next
                { s with
                  seq :=
                    { s.seq with
                      attempts := s.seq.attempts + 1
                      pos :=
                        if s.seq.attempts + 1 = n then .init (.timeoutDisable none)
                        else .init p } }) ∧
      (s.seq.pos = .init .complete →
        exec i s = .next ({ s with sess := { s.sess with valid := true } }.finish .ok)) ∧
      (s.seq.pos = .init .timeoutFinish → exec i s = .next (s.finish .timeout))

/-- R135 with R114 and R115: INIT's bit-timing step, frozen: the literals with FDEN = 1, else the CBT word
of the feasible timing. -/
def Obligations.InitWritesTiming : Prop :=
  ∀ (inst : Nat) (cfg : Cfg) (nbr dbr txid rxid : Word) (s : State) (i : Instr),
    i = .init inst cfg nbr dbr txid rxid → s.seq.pos = .init .timingMcr → frzAck s.mcr = true →
    (fdEn s.mcr = true → s.params.fdFdcbtWord &&& fdcbtNm = s.fdcbt &&& fdcbtNm →
        runExec i 3 s =
          .next ({ s with cbt := s.params.fdCbtWord, fdcbt := s.params.fdFdcbtWord }.goto
            (.init (.zeroRam 0)))) ∧
      ∀ r, fdEn s.mcr = false →
        timing s.params.prescalerRule cfg.qpb cfg.sp nbr.toNat
            (if s.ctrl1.getLsbD 13 then s.params.fClkBus else s.params.fClkOsc) = some r →
        runExec i 3 s = .next ({ s with cbt := cbtWord r }.goto (.init (.zeroRam 0)))

/-- R136, R146: in freeze, micro-step 10 is 128 micro-steps that zero every RAM word and clear every transmit
request. That those of the buffers beyond the pool are cleared in these micro-steps is the model's deduction
(log 29). -/
def Obligations.InitZeroesRam : Prop :=
  ∀ (inst : Nat) (cfg : Cfg) (nbr dbr txid rxid : Word) (s : State),
    s.seq.pos = .init (.zeroRam 0) → frzAck s.mcr = true → lpmAck s.mcr = false →
    ∃ t, runExec (.init inst cfg nbr dbr txid rxid) 128 s = .next t ∧
      t = { s with ram := t.ram, txPending := t.txPending }.goto (.init (.mask 0)) ∧
      (∀ k, k < 128 → cellRead t.ram k = some 0#32) ∧
      (∀ k, 128 ≤ k → cellRead t.ram k = cellRead s.ram k) ∧
      ∀ b, t.txPending.getLsbD b = false

/-- R137 to R139: in freeze and under one geometry, INIT accepts every identifier in the N masks, tags the
first NRX buffers RX_EMPTY and the others TX_INACTIVE, and writes the receive identifier to buffer 0. -/
def Obligations.InitPartitionsThePool : Prop :=
  ∀ (inst : Nat) (cfg : Cfg) (nbr dbr txid rxid : Word) (s : State) (i : Instr) (c : PClass),
    i = .init inst cfg nbr dbr txid rxid → c = initClass cfg → hwClass s = c →
    frzAck s.mcr = true → lpmAck s.mcr = false →
    (s.seq.pos = .init (.mask 0) →
        ∃ t, runExec i (poolSize c) s = .next t ∧
          t = { s with rximr := t.rximr }.goto (.init (.tag 0)) ∧
          (∀ a, a < poolSize c → cellRead t.rximr a = some 0#32) ∧
          ∀ a, poolSize c ≤ a → cellRead t.rximr a = cellRead s.rximr a) ∧
      (s.seq.pos = .init (.tag 0) →
        ∃ t, runExec i (poolSize c) s = .next t ∧
          t = { s with ram := t.ram, txPending := t.txPending }.goto (.init (.findTag 0)) ∧
          (∀ a, a < poolSize c / 2 → cellRead t.ram (csIndex c a) = some 0x04000000#32) ∧
          (∀ a, poolSize c / 2 ≤ a → a < poolSize c →
            cellRead t.ram (csIndex c a) = some 0x08000000#32) ∧
          (∀ k, (∀ a, a < poolSize c → k ≠ csIndex c a) → cellRead t.ram k = cellRead s.ram k) ∧
          ∀ b, t.txPending.getLsbD b = (s.txPending.getLsbD b && decide (poolSize c ≤ b))) ∧
      (s.seq.pos = .init (.findTag 0) → cellRead s.ram 0 = some 0x04000000#32 →
        runExec i 2 s =
          .next ({ s with
                    ram := cellWrite s.ram 1 (if cfg.idt = IdType.standard then rxid <<< 18 else rxid) }.goto
            (.init (.loopBack none))))

/-- INIT's frame, at a position of its pseudocode: the word its micro-step writes with the side effects of
R61, the session in the session's micro-steps, the sequencer and the statuses. The zeroing of the last RAM
word also clears every transmit request (R146; log 29). INIT writes no flag and no host memory (R145). -/
def Obligations.InitLeavesTheRest : Prop :=
  ∀ (inst : Nat) (cfg : Cfg) (nbr dbr txid rxid : Word) (s t : State),
    posFits (.init inst cfg nbr dbr txid rxid) s.sess s.seq.pos = true →
    exec (.init inst cfg nbr dbr txid rxid) s = .next t →
    HostFrame s t ∧ t.hostMem = s.hostMem ∧ t.iflag = s.iflag ∧ t.seq.value = s.seq.value ∧
      (s.seq.pos = .idle → BlockFrame none 0#32 s t ∧ t.sess = s.sess) ∧
      ∀ p, s.seq.pos = .init p →
        (p ≠ .zeroRam 127 → BlockFrame (initTarget (initClass cfg) p) 0#32 s t) ∧
          (p = .zeroRam 127 →
            BlockFrame (some (.ram 127)) 0#32 s { t with txPending := s.txPending } ∧
              ∀ b, t.txPending.getLsbD b = false) ∧
          (p ≠ .session → t.sess.cls = s.sess.cls ∧ t.sess.idType = s.sess.idType) ∧
          (p ≠ .clearValid → p ≠ .complete → t.sess.valid = s.sess.valid)

/-- R146, R221: from the reset state, with CTRL answering as R221 orders, an INIT whose input is valid
finishes OK with the controller operational and the pool partitioned, for every class, clock and mode. Each
move is an enabled step. The number of HOST's micro-steps rests on the model's deduction of log 13. -/
def Obligations.InitFromResetBringsControllerUp : Prop :=
  ∀ (p : Config.Params) (cfg : Cfg) (nbr dbr txid rxid : Word) (mem : Memory) (c : PClass),
    p.wf = true → WellFormed (.init 0 cfg nbr dbr txid rxid) = true → c = initClass cfg →
    initInvalid p 0 cfg nbr = false →
    ∃ t, RunsTo (initSchedule cfg)
          (State.launch p (encode (.init 0 cfg nbr dbr txid rxid)) mem) t ∧
      Final t ∧ t.statuses = [.ok] ∧ operational t = true ∧ hwClass t = c ∧
      t.sess = { valid := true, cls := some c, idType := some cfg.idt } ∧
      maxMb t.mcr = poolSize c - 1 ∧ lpb t.ctrl1 = decide (cfg.mode = .loopBack) ∧
      clkSrcOf t.ctrl1 = cfg.clk ∧ t.txPending = 0#32 ∧ t.iflag = 0#32 ∧ t.hostMem = mem ∧
      (∀ a, a < poolSize c → cellRead t.rximr a = some 0#32) ∧
      (∀ a, a < poolSize c / 2 → cellRead t.ram (csIndex c a) = some 0x04000000#32) ∧
      (∀ a, poolSize c / 2 ≤ a → a < poolSize c →
        cellRead t.ram (csIndex c a) = some 0x08000000#32) ∧
      cellRead t.ram 1 = some (rxIdWord cfg.idt rxid) ∧
      ∀ k, k < 128 → k ≠ 1 → (∀ a, a < poolSize c → k ≠ csIndex c a) →
        cellRead t.ram k = some 0#32

/-! ## The hardware agents (45_hardware_agents.md) -/

/-- R182 to R186: the guard and the effect of each CTRL step; nothing but the acknowledge bits changes. -/
def Obligations.CtrlStepsAnswerRequests : Prop :=
  ∀ (s : State) (mv : Move) (on l f n : Bool),
    (mv, on, l, f, n) ∈
      [(.lpmEnter, mdis s.mcr && !lpmAck s.mcr, true, false, true),
        (.lpmExit, !mdis s.mcr && lpmAck s.mcr, false, frzAck s.mcr, notRdy s.mcr),
        (.frzEnter, !mdis s.mcr && !lpmAck s.mcr && frz s.mcr && halt s.mcr && !frzAck s.mcr,
          lpmAck s.mcr, true, true),
        (.frzExit, !lpmAck s.mcr && frzAck s.mcr && !(frz s.mcr && halt s.mcr), lpmAck s.mcr, false,
          notRdy s.mcr),
        (.ready, !mdis s.mcr && !lpmAck s.mcr && !frzAck s.mcr && !(frz s.mcr && halt s.mcr) &&
          notRdy s.mcr, lpmAck s.mcr, frzAck s.mcr, false)] →
    (mv ∈ enabledMoves s ↔ on = true) ∧
      ∃ m, runMove mv s = .next { s with mcr := m } ∧ lpmAck m = l ∧ frzAck m = f ∧ notRdy m = n ∧
        m &&& ~~~mcrReadOnly = s.mcr &&& ~~~mcrReadOnly

/-- R187: once CTRL has no step left, the acknowledge bits are those of its table, from every state in which
they agree with each other. -/
def Obligations.CtrlSettlesInTheTable : Prop :=
  ∀ s : State, acksAgree s = true →
    (∀ m ∈ enabledMoves s,
      m ≠ .lpmEnter ∧ m ≠ .lpmExit ∧ m ≠ .frzEnter ∧ m ≠ .frzExit ∧ m ≠ .ready) →
    (mdis s.mcr = true →
        lpmAck s.mcr = true ∧ frzAck s.mcr = false ∧ notRdy s.mcr = true ∧ operational s = false) ∧
      (mdis s.mcr = false → (frz s.mcr && halt s.mcr) = true →
        lpmAck s.mcr = false ∧ frzAck s.mcr = true ∧ notRdy s.mcr = true ∧ operational s = false) ∧
      (mdis s.mcr = false → (frz s.mcr && halt s.mcr) = false →
        lpmAck s.mcr = false ∧ frzAck s.mcr = false ∧ notRdy s.mcr = false ∧ operational s = true)

/-- R189, R190: when TX(i) is enabled, and what it does in normal mode: the code becomes TX_INACTIVE, the
timestamp is a draw, the request is cleared and the flag set. That TX(i) of a requested buffer is there over
a poison control word, and faults, is the model's deduction from R20 (log 23), and the number of the draw is
the model's choice (log 5). -/
def Obligations.EngineCompletesATransmission : Prop :=
  ∀ (i : Nat) (s : State),
    (.tx i ∈ enabledMoves s ↔
        operational s = true ∧ i < poolSize (hwClass s) ∧ i ≤ maxMb s.mcr ∧
          (hwCodeIs s codeTxData i = true ∨ hwCs s i = none) ∧ s.txPending.getLsbD i = true) ∧
      (hwCs s i = none → runMove (.tx i) s = .fault .readPoison) ∧
      ∀ cs idw, i < poolSize (hwClass s) → hwCs s i = some cs →
        cellRead s.ram (csIndex (hwClass s) i + 1) = some idw →
        (∀ k, k < dataWords (hwClass s) → cellRead s.ram (csIndex (hwClass s) i + 2 + k) ≠ none) →
        lpb s.ctrl1 = false →
        ∃ t u, runMove (.tx i) s = .next t ∧
          t = { s with
                  ram := t.ram
                  iflag := setBit s.iflag i
                  txPending := clearBit s.txPending i
                  draws := s.draws + 1 } ∧
          hwCs t i = some u ∧ codeOf u = codeTxInactive ∧
          (∀ b, b < 16 → u.getLsbD b = (Config.freeWord s.draws).getLsbD b) ∧
          (∀ b, (16 ≤ b ∧ b < 24) ∨ 28 ≤ b → u.getLsbD b = cs.getLsbD b) ∧
          ∀ k, k ≠ csIndex (hwClass s) i → cellRead t.ram k = cellRead s.ram k

/-- R194: a frame goes to the lowest usable buffer that is RX_EMPTY and matches, and is dropped where there
is none; reading a poison mask on the way is a fault. The number of the draw is the model's choice (log 5). -/
def Obligations.DeliveryTakesTheLowestMatch : Prop :=
  ∀ (f : Frame) (s : State) (c : PClass) (cs idw mask : Nat → Word) (takes : Nat → Prop),
    c = hwClass s → f.data.length = dataWords c →
    (∀ j, usable s j = true → hwCs s j = some (cs j)) →
    (∀ j, usable s j = true → codeOf (cs j) = codeRxEmpty →
      cellRead s.ram (csIndex c j + 1) = some (idw j)) →
    (∀ j, takes j ↔
      j < poolSize c ∧ j ≤ maxMb s.mcr ∧ codeOf (cs j) = codeRxEmpty ∧
        (f.idw ^^^ idw j) &&& mask j &&& 0x1FFFFFFF#32 = 0#32) →
    (∀ j, takes j → (∀ i, i < j → ¬ takes i) →
        (∀ i, i ≤ j → usable s i = true → codeOf (cs i) = codeRxEmpty →
          cellRead s.rximr i = some (mask i)) →
        ∃ t u, deliver f s = .ok t ∧
          t = { s with ram := t.ram, iflag := setBit s.iflag j, draws := s.draws + 1 } ∧
          cellRead t.ram (csIndex c j + 1) = some f.idw ∧
          (∀ k, k < dataWords c → cellRead t.ram (csIndex c j + 2 + k) = f.data[k]?) ∧
          cellRead t.ram (csIndex c j) = some u ∧ codeOf u = codeRxFull ∧ dlcOf u = f.dlc ∧
          (∀ b, b < 16 ∨ (20 ≤ b ∧ b < 24) ∨ 28 ≤ b →
            u.getLsbD b = (Config.freeWord s.draws).getLsbD b) ∧
          ∀ k, (k < csIndex c j ∨ csIndex c j + bufWords c ≤ k) →
            cellRead t.ram k = cellRead s.ram k) ∧
      ((∀ j, ¬ takes j) →
        (∀ i, usable s i = true → codeOf (cs i) = codeRxEmpty → cellRead s.rximr i = some (mask i)) →
        deliver f s = .ok s) ∧
      ∀ j, usable s j = true → codeOf (cs j) = codeRxEmpty → cellRead s.rximr j = none →
        (∀ i, i < j → ¬ takes i) →
        (∀ i, i < j → usable s i = true → codeOf (cs i) = codeRxEmpty →
          cellRead s.rximr i = some (mask i)) →
        deliver f s = .error .readPoison

/-- R190, R191, R196: in loop-back TX(i) delivers its own frame, the identifier word, the data words and the
DLC of buffer i, in the same step as the completion; outside it BUS offers frames of draws. That BUS has no
step in loop-back follows R191 and R196; the parameter loopBackBus is the model's own, for the other reading
of decision D21 (log 22). The numbers of the draws are the model's choice (log 5). -/
def Obligations.FramesComeFromLoopBackOrBus : Prop :=
  ∀ (i : Nat) (s : State),
    (∀ cs f, i < poolSize (hwClass s) → hwCs s i = some cs →
        cellRead s.ram (csIndex (hwClass s) i + 1) = some f.idw →
        f.data.length = dataWords (hwClass s) →
        (∀ k, k < dataWords (hwClass s) →
          cellRead s.ram (csIndex (hwClass s) i + 2 + k) = f.data[k]?) →
        f.dlc = dlcOf cs → lpb s.ctrl1 = true →
        ∃ u, txStep i { s with ctrl1 := 0#32 } = .ok { u with ctrl1 := 0#32 } ∧ u.ctrl1 = s.ctrl1 ∧
          ∀ t, runMove (.tx i) s = .next t ↔ deliver f u = .ok t) ∧
      (.rxFrame ∈ enabledMoves s ↔
        operational s = true ∧ (lpb s.ctrl1 = false ∨ s.params.loopBackBus = true)) ∧
      ∀ t, runMove .rxFrame s = .next t ↔
        ∃ f : Frame, f.idw = Config.freeWord s.draws ∧ f.data.length = dataWords (hwClass s) ∧
          (∀ k, k < dataWords (hwClass s) → f.data[k]? = some (Config.freeWord (s.draws + 1 + k))) ∧
          f.dlc = (Config.freeWord (s.draws + 1 + dataWords (hwClass s))).setWidth 4 ∧
          deliver f { s with draws := s.draws + dataWords (hwClass s) + 2 } = .ok t

/-- R160, and the source's round-trip property: in loop-back under one geometry, a TRANSMIT that claims
buffer j, the TX(j) step and a RECEIVE finish OK, and the caller's buffer holds the payload sent, where r < j
is the lowest RX_EMPTY buffer, its mask accepts every identifier and no lower flag is set. The number of
HOST's micro-steps rests on the model's deduction of log 13. -/
def Obligations.LoopBackReturnsThePayload : Prop :=
  ∀ (s : State) (c : PClass) (len j r : Nat) (id src dst : Word) (ext : Bool) (cs : Nat → Word)
    (b : Nat → Byte) (free : Word → Prop) (tx rx : Instr),
    tx = .transmit 0 len id src → rx = .receive 0 len dst →
    s.seq.pos = .idle → operational s = true → lpb s.ctrl1 = true → s.sess.valid = true →
    s.sess.cls = some c → hwClass s = c → len = payloadBytes c →
    HostRangeFits s.params src.toNat len → HostRangeFits s.params dst.toNat len →
    (∀ m, m < len → cellRead s.hostMem (src.toNat + m) = some (b m)) →
    ((s.params.txIdMode = .alwaysStandard ∧ ext = false) ∨
      (s.params.txIdMode = .followConfig ∧
        ((s.sess.idType = some .standard ∧ ext = false) ∨
          (s.sess.idType = some .extended ∧ ext = true)))) →
    (∀ w, free w ↔
      (s.params.txFreeMatch = .codeField ∧ codeOf w = codeTxInactive) ∨
        (s.params.txFreeMatch = .wholeWord ∧ w = 0x08000000#32)) →
    (∀ i, i < poolSize c → cellRead s.ram (csIndex c i) = some (cs i)) →
    j < poolSize c → j ≤ maxMb s.mcr → free (cs j) → (∀ i, i < j → ¬ free (cs i)) →
    r < j → codeOf (cs r) = codeRxEmpty → (∀ i, i < r → codeOf (cs i) ≠ codeRxEmpty) →
    cellRead s.ram (csIndex c r + 1) ≠ none → cellRead s.rximr r = some 0#32 →
    (∀ i, i < r → s.iflag.getLsbD i = false) →
    ∃ t1 t2 t3 t4,
      runExec tx (j + dataWords c + 5) s = .next t1 ∧ .tx j ∈ enabledMoves t1 ∧
        runMove (.tx j) t1 = .next t2 ∧ runExec tx 2 t2 = .next t3 ∧
        runExec rx (r + dataWords c + 5) t3 = .next t4 ∧
        t4.seq.pos = .idle ∧ t4.statuses = s.statuses ++ [.ok, .ok] ∧
        cellRead t4.ram (csIndex c r + 1) = some (if ext then id else id <<< 18) ∧
        (∀ m, m < len → cellRead t4.hostMem (dst.toNat + m) = some (b m)) ∧
        ∀ a, (a < dst.toNat ∨ dst.toNat + len ≤ a) → cellRead t4.hostMem a = cellRead s.hostMem a

/-! ## Whole-machine rules and invariants -/

/-- R62, R193: in any step a word of a buffer changes only by the agent that owns the buffer, but for HOST's
revocation of its own request. -/
def Obligations.EveryBufferHasOneWriter : Prop :=
  ∀ (s t : State) (m : Move) (i k : Nat), m ∈ enabledMoves s →
    runMove m s = .next t → i < poolSize (hwClass s) → csIndex (hwClass s) i ≤ k →
    k < csIndex (hwClass s) i + bufWords (hwClass s) → cellRead t.ram k ≠ cellRead s.ram k →
    (m = .host →
        HostOwns s i ∨
          (k = csIndex (hwClass s) i ∧ hwCodeIs s codeTxData i = true ∧
            hwCodeIs t codeTxInactive i = true)) ∧
      (m ≠ .host → EngineOwns s i)

/-- R28, R33, R57: only CTRL writes the acknowledge bits, only ENGINE and BUS steps set a flag, and only of
a buffer below N_hw, and only RECEIVE's copy writes host memory. -/
def Obligations.EachStatusBitHasOneWriter : Prop :=
  ∀ (s t : State) (m : Move), runMove m s = .next t →
    (lpmAck t.mcr ≠ lpmAck s.mcr ∨ frzAck t.mcr ≠ frzAck s.mcr ∨ notRdy t.mcr ≠ notRdy s.mcr →
        m = .lpmEnter ∨ m = .lpmExit ∨ m = .frzEnter ∨ m = .frzExit ∨ m = .ready) ∧
      (∀ b, m ∈ enabledMoves s → t.iflag.getLsbD b = true → s.iflag.getLsbD b = false →
        (m = .rxFrame ∨ ∃ i, m = .tx i) ∧ b < poolSize (hwClass s)) ∧
      (t.hostMem ≠ s.hostMem → m = .host ∧ ∃ j ws, s.seq.pos = .receive (.copy j ws))

/-- Every step keeps RAM, masks and host memory in canonical form. -/
def Obligations.StepKeepsCellsCanonical : Prop :=
  ∀ s t : State, cellsCanonical s = true → step s = .next t → cellsCanonical t = true

/-- R75, R187: every step keeps the not-modelled bits at their reset values and the acknowledge bits in
agreement. -/
def Obligations.StepKeepsRegisterInvariants : Prop :=
  ∀ s t : State, step s = .next t →
    (nmAtReset s = true → nmAtReset t = true) ∧ (acksAgree s = true → acksAgree t = true) ∧
      t.params = s.params

/-- R22: every step keeps the sequencer at a micro-step of the descriptor it holds, inside that operation's
loops; and from such a state no step is refused because another operation is in progress. -/
def Obligations.StepKeepsSequencerCoherent : Prop :=
  ∀ s : State, coherent s = true →
    (∀ t, step s = .next t → coherent t = true) ∧ step s ≠ .refused .sequencerBusy
end

