-- ==== Sys2Proof/Laws/Bits.lean ====
section
/-! SUPPORT. The bits of merged words, flag words and MCR, and the fields of control words. -/

namespace Sys2Proof.Machine

/-! ## Merging under a mask (R72) -/

theorem getLsbD_mergeBits (m a b : Word) (i : Nat) :
    (mergeBits m a b).getLsbD i = if m.getLsbD i then b.getLsbD i else a.getLsbD i := by
  by_cases hi : i < 32
  · simp only [mergeBits, BitVec.getLsbD_or, BitVec.getLsbD_and, BitVec.getLsbD_not, hi, decide_true,
      Bool.true_and]
    cases m.getLsbD i <;> simp
  · have hi : 32 ≤ i := by omega
    rw [BitVec.getLsbD_of_ge _ _ hi, BitVec.getLsbD_of_ge m _ hi, BitVec.getLsbD_of_ge a _ hi]
    rfl

/-- Two words are equal when their 32 bits are. -/
theorem word_ext {a b : Word} (h : ∀ i, i < 32 → a.getLsbD i = b.getLsbD i) : a = b :=
  BitVec.eq_of_getLsbD_eq h

/-- Under the mask a merge has the new bits. -/
theorem mergeBits_and_mask (m a b : Word) : mergeBits m a b &&& m = b &&& m := by
  apply word_ext
  intro i _
  rw [BitVec.getLsbD_and, getLsbD_mergeBits, BitVec.getLsbD_and]
  cases m.getLsbD i <;> simp

/-- Outside the mask a merge has the old bits. -/
theorem mergeBits_and_of_disjoint {m n : Word} (a b : Word) (h : m &&& n = 0#32) :
    mergeBits m a b &&& n = a &&& n := by
  apply word_ext
  intro i _
  have hi : (m &&& n).getLsbD i = false := by rw [h]; simp
  rw [BitVec.getLsbD_and] at hi
  rw [BitVec.getLsbD_and, getLsbD_mergeBits, BitVec.getLsbD_and]
  cases hm : m.getLsbD i
  · simp
  · rw [hm, Bool.true_and] at hi
    simp [hi]

/-! ## Single bits -/

theorem getLsbD_bitWord (i j : Nat) : (bitWord i).getLsbD j = (decide (j = i) && decide (j < 32)) := by
  unfold bitWord
  rw [BitVec.getLsbD_ofNat, Nat.testBit_two_pow]
  by_cases h : i = j <;> by_cases h' : j < 32 <;> simp [h, h', eq_comm]

theorem getLsbD_setBit (w : BitVec 32) (i j : Nat) :
    (setBit w i).getLsbD j = (w.getLsbD j || (decide (j = i) && decide (j < 32))) := by
  rw [setBit, BitVec.getLsbD_or, getLsbD_bitWord]

theorem getLsbD_clearBit (w : BitVec 32) (i j : Nat) :
    (clearBit w i).getLsbD j = (w.getLsbD j && !(decide (j = i))) := by
  by_cases hj : j < 32
  · rw [clearBit, BitVec.getLsbD_and, BitVec.getLsbD_not, getLsbD_bitWord]
    simp [hj]
  · rw [BitVec.getLsbD_of_ge _ _ (by omega), BitVec.getLsbD_of_ge w _ (by omega)]
    rfl

theorem getLsbD_maskOf (p : Nat → Bool) (n j : Nat) :
    (maskOf p n).getLsbD j = (p j && decide (j < n) && decide (j < 32)) := by
  induction n with
  | zero => simp [maskOf]
  | succ n ih =>
    unfold maskOf
    split
    · rename_i hp
      rw [getLsbD_setBit, ih]
      by_cases h : j = n
      · subst h; simp [hp]
      · have : (decide (j < n + 1)) = decide (j < n) := decide_eq_decide.mpr (by omega)
        simp only [this, h, decide_false, Bool.false_and, Bool.or_false]
    · rename_i hp
      rw [ih]
      by_cases h : j = n
      · subst h; simp [hp]
      · have : (decide (j < n + 1)) = decide (j < n) := decide_eq_decide.mpr (by omega)
        rw [this]

theorem getLsbD_w1c (f v : Word) (i : Nat) : (w1c f v).getLsbD i = (f.getLsbD i && !v.getLsbD i) := by
  by_cases hi : i < 32
  · simp [w1c, hi]
  · simp [BitVec.getLsbD_of_ge f i (by omega), BitVec.getLsbD_of_ge (w1c f v) i (by omega)]

theorem getLsbD_flagAt (b : Bool) (lo i : Nat) :
    (flagAt b lo).getLsbD i = (b && decide (i = lo) && decide (i < 32)) := by
  cases b
  · simp [flagAt]
  · simp [flagAt, getLsbD_bitWord]

/-! ## The acknowledge bits CTRL drives (R182 to R186) -/

theorem getLsbD_withAcks (m : Word) (a b c : Bool) (i : Nat) :
    (withAcks m a b c).getLsbD i =
      if i = 20 then a else if i = 24 then b else if i = 27 then c else m.getLsbD i := by
  have hro : mcrReadOnly = bitWord 20 ||| bitWord 24 ||| bitWord 27 := by decide
  rw [withAcks, getLsbD_mergeBits, hro]
  simp only [BitVec.getLsbD_or, getLsbD_bitWord, getLsbD_flagAt]
  by_cases h20 : i = 20
  · subst h20; simp
  · by_cases h24 : i = 24
    · subst h24; simp
    · by_cases h27 : i = 27
      · subst h27; simp
      · simp [h20, h24, h27]

@[simp] theorem lpmAck_withAcks (m : Word) (a b c : Bool) : lpmAck (withAcks m a b c) = a := by
  rw [lpmAck, getLsbD_withAcks]; rfl

@[simp] theorem frzAck_withAcks (m : Word) (a b c : Bool) : frzAck (withAcks m a b c) = b := by
  rw [frzAck, getLsbD_withAcks]; rfl

@[simp] theorem notRdy_withAcks (m : Word) (a b c : Bool) : notRdy (withAcks m a b c) = c := by
  rw [notRdy, getLsbD_withAcks]; rfl

@[simp] theorem mdis_withAcks (m : Word) (a b c : Bool) : mdis (withAcks m a b c) = mdis m := by
  rw [mdis, mdis, getLsbD_withAcks]; rfl

@[simp] theorem frz_withAcks (m : Word) (a b c : Bool) : frz (withAcks m a b c) = frz m := by
  rw [frz, frz, getLsbD_withAcks]; rfl

@[simp] theorem halt_withAcks (m : Word) (a b c : Bool) : halt (withAcks m a b c) = halt m := by
  rw [halt, halt, getLsbD_withAcks]; rfl

@[simp] theorem fdEn_withAcks (m : Word) (a b c : Bool) : fdEn (withAcks m a b c) = fdEn m := by
  rw [fdEn, fdEn, getLsbD_withAcks]; rfl

/-- The acknowledge bits do not touch the not-modelled bits. -/
theorem withAcks_and_nm (m : Word) (a b c : Bool) : withAcks m a b c &&& mcrNm = m &&& mcrNm :=
  mergeBits_and_of_disjoint _ _ (by decide)

/-! ## Host writes to MCR (R28) -/

/-- A host write to MCR leaves the acknowledge bits alone. -/
theorem acks_of_host_write (old new : Word) :
    lpmAck (mergeBits mcrWritable old new) = lpmAck old ∧
      frzAck (mergeBits mcrWritable old new) = frzAck old ∧
      notRdy (mergeBits mcrWritable old new) = notRdy old := by
  refine ⟨?_, ?_, ?_⟩
  · have h : mcrWritable.getLsbD 20 = false := by decide
    rw [lpmAck, lpmAck, getLsbD_mergeBits, h]; rfl
  · have h : mcrWritable.getLsbD 24 = false := by decide
    rw [frzAck, frzAck, getLsbD_mergeBits, h]; rfl
  · have h : mcrWritable.getLsbD 27 = false := by decide
    rw [notRdy, notRdy, getLsbD_mergeBits, h]; rfl

/-! ## Control words (R96 to R100, R190, R194) -/

theorem getLsbD_codeOf (w : Word) (i : Nat) : (codeOf w).getLsbD i = (decide (i < 4) && w.getLsbD (24 + i)) := by
  simp [codeOf, BitVec.getLsbD_extractLsb']

theorem getLsbD_dlcOf (w : Word) (i : Nat) : (dlcOf w).getLsbD i = (decide (i < 4) && w.getLsbD (16 + i)) := by
  simp [dlcOf, BitVec.getLsbD_extractLsb']

theorem getLsbD_codeAt (c : BitVec 4) (i : Nat) :
    (codeAt c).getLsbD i = (decide (24 ≤ i) && decide (i < 28) && c.getLsbD (i - 24)) := by
  rw [codeAt, BitVec.getLsbD_shiftLeft, BitVec.getLsbD_setWidth]
  by_cases h : i < 32
  · by_cases h' : i < 28
    · by_cases h'' : 24 ≤ i
      · have e1 : (decide (i - 24 < 32)) = true := by simp; omega
        simp [h, h', h'', e1]
      · simp [h'']
    · rw [BitVec.getLsbD_of_ge c _ (by omega)]
      simp
  · rw [BitVec.getLsbD_of_ge c _ (by omega)]
    simp

theorem getLsbD_dlcAt (c : BitVec 4) (i : Nat) :
    (dlcAt c).getLsbD i = (decide (16 ≤ i) && decide (i < 20) && c.getLsbD (i - 16)) := by
  rw [dlcAt, BitVec.getLsbD_shiftLeft, BitVec.getLsbD_setWidth]
  by_cases h' : i < 20
  · by_cases h'' : 16 ≤ i
    · have e1 : (decide (i - 16 < 32)) = true := by simp; omega
      have e2 : (decide (i < 32)) = true := by simp; omega
      simp [h', h'', e1, e2]
    · simp [h'']
  · rw [BitVec.getLsbD_of_ge c _ (by omega)]
    simp

/-- A mask written as a table of 32 bits: which bits `fieldMask 27 24` has. -/
theorem getLsbD_codeMask (i : Nat) : (fieldMask 27 24).getLsbD i = (decide (24 ≤ i) && decide (i < 28)) := by
  by_cases hi : i < 32
  · have h : ∀ j : Fin 32, (fieldMask 27 24).getLsbD j.val = (decide (24 ≤ j.val) && decide (j.val < 28)) := by
      decide
    exact h ⟨i, hi⟩
  · rw [BitVec.getLsbD_of_ge _ _ (by omega)]
    simp; omega

theorem getLsbD_dlcMask (i : Nat) : (fieldMask 19 16).getLsbD i = (decide (16 ≤ i) && decide (i < 20)) := by
  by_cases hi : i < 32
  · have h : ∀ j : Fin 32, (fieldMask 19 16).getLsbD j.val = (decide (16 ≤ j.val) && decide (j.val < 20)) := by
      decide
    exact h ⟨i, hi⟩
  · rw [BitVec.getLsbD_of_ge _ _ (by omega)]
    simp; omega

theorem getLsbD_stampMask (i : Nat) : (fieldMask 15 0).getLsbD i = decide (i < 16) := by
  by_cases hi : i < 32
  · have h : ∀ j : Fin 32, (fieldMask 15 0).getLsbD j.val = decide (j.val < 16) := by decide
    exact h ⟨i, hi⟩
  · rw [BitVec.getLsbD_of_ge _ _ (by omega)]
    simp; omega

/-- The bits of a word whose code was replaced. -/
theorem getLsbD_withCode (w : Word) (c : BitVec 4) (i : Nat) :
    (withCode w c).getLsbD i = if 24 ≤ i ∧ i < 28 then c.getLsbD (i - 24) else w.getLsbD i := by
  rw [withCode, getLsbD_mergeBits, getLsbD_codeMask, getLsbD_codeAt]
  by_cases h : 24 ≤ i <;> by_cases h' : i < 28 <;> simp [h, h']

@[simp] theorem codeOf_withCode (w : Word) (c : BitVec 4) : codeOf (withCode w c) = c := by
  apply BitVec.eq_of_getLsbD_eq
  intro i hi
  rw [getLsbD_codeOf, getLsbD_withCode]
  have : 24 ≤ 24 + i ∧ 24 + i < 28 := by omega
  simp [this, hi]

@[simp] theorem codeOf_sentCs (w d : Word) : codeOf (sentCs w d) = codeTxInactive := by
  have h : codeOf (sentCs w d) = codeOf (withCode w codeTxInactive) := by
    apply BitVec.eq_of_getLsbD_eq
    intro i hi
    rw [getLsbD_codeOf, getLsbD_codeOf, sentCs, getLsbD_mergeBits, getLsbD_stampMask]
    have : ¬ (24 + i < 16) := by omega
    simp [this]
  rw [h, codeOf_withCode]

@[simp] theorem codeOf_deliveredCs (w : Word) (d : BitVec 4) : codeOf (deliveredCs w d) = codeRxFull := by
  have h : codeOf (deliveredCs w d) = codeOf (withCode w codeRxFull) := by
    apply BitVec.eq_of_getLsbD_eq
    intro i hi
    rw [getLsbD_codeOf, getLsbD_codeOf, deliveredCs, getLsbD_mergeBits, getLsbD_dlcMask]
    have : ¬ (24 + i < 20) := by omega
    simp [this]
  rw [h, codeOf_withCode]

@[simp] theorem dlcOf_deliveredCs (w : Word) (d : BitVec 4) : dlcOf (deliveredCs w d) = d := by
  apply BitVec.eq_of_getLsbD_eq
  intro i hi
  rw [getLsbD_dlcOf, deliveredCs, getLsbD_mergeBits, getLsbD_dlcMask, getLsbD_dlcAt]
  have h1 : (decide (16 ≤ 16 + i)) = true := by simp
  have h2 : (decide (16 + i < 20)) = true := by simp; omega
  simp [h2, hi]

end Sys2Proof.Machine
end

