-- ==== Sys2Proof/Laws/Cells.lean ====
section
/-! SUPPORT. Sparse arrays with poison: read after write, and the canonical form that every operation
keeps. -/

namespace Sys2Proof.Machine

variable {α : Type}

@[simp] theorem cellRead_nil (a : Nat) : cellRead ([] : List (Nat × α)) a = none := rfl

/-- A read after a write to the same key gives the value written. -/
@[simp] theorem cellRead_cellWrite_same (m : List (Nat × α)) (a : Nat) (v : α) :
    cellRead (cellWrite m a v) a = some v := by
  induction m with
  | nil => simp [cellWrite, cellRead]
  | cons c rest ih =>
    obtain ⟨b, w⟩ := c
    simp only [cellWrite]
    split
    · simp [cellRead]
    · split
      · simp [cellRead]
      · rename_i _ h
        simp [cellRead, h, ih]

/-- A write leaves every other key alone. -/
theorem cellRead_cellWrite_other (m : List (Nat × α)) {a b : Nat} (v : α) (h : b ≠ a) :
    cellRead (cellWrite m a v) b = cellRead m b := by
  induction m with
  | nil => simp [cellWrite, cellRead, h]
  | cons c rest ih =>
    obtain ⟨d, w⟩ := c
    simp only [cellWrite]
    split
    · simp [cellRead, h]
    · split
      · rename_i _ hd
        subst hd
        simp [cellRead, h]
      · simp [cellRead, ih]

/-- Read after write, both cases. -/
theorem cellRead_cellWrite (m : List (Nat × α)) (a b : Nat) (v : α) :
    cellRead (cellWrite m a v) b = if b = a then some v else cellRead m b := by
  split
  · rename_i h; subst h; simp
  · rename_i h; exact cellRead_cellWrite_other m v h

/-- Changing every listed value changes what is read, and poison stays poison. -/
@[simp] theorem cellRead_cellMap (f : Nat → α → α) (m : List (Nat × α)) (a : Nat) :
    cellRead (cellMap f m) a = (cellRead m a).map (f a) := by
  induction m with
  | nil => rfl
  | cons c rest ih =>
    obtain ⟨b, w⟩ := c
    simp only [cellMap, List.map_cons, cellRead] at ih ⊢
    split
    · rename_i h; simp [h]
    · exact ih

/-- The canonical form from a higher bound holds from a lower one. -/
theorem cellsFrom_mono {lo lo' bound : Nat} {m : List (Nat × α)} (h : cellsFrom lo bound m = true)
    (hl : lo' ≤ lo) : cellsFrom lo' bound m = true := by
  cases m with
  | nil => rfl
  | cons c rest =>
    obtain ⟨a, v⟩ := c
    simp only [cellsFrom, Bool.and_eq_true, decide_eq_true_eq] at h ⊢
    exact ⟨⟨by omega, h.1.2⟩, h.2⟩

/-- A write of a key in range keeps the canonical form. -/
theorem cellsFrom_cellWrite {lo bound a : Nat} {m : List (Nat × α)} (v : α)
    (h : cellsFrom lo bound m = true) (hlo : lo ≤ a) (hb : a < bound) :
    cellsFrom lo bound (cellWrite m a v) = true := by
  induction m generalizing lo with
  | nil => simp [cellWrite, cellsFrom, hlo, hb]
  | cons c rest ih =>
    obtain ⟨b, w⟩ := c
    simp only [cellsFrom, Bool.and_eq_true, decide_eq_true_eq] at h
    obtain ⟨⟨h1, h2⟩, h3⟩ := h
    simp only [cellWrite]
    split
    · rename_i hab
      simp only [cellsFrom, Bool.and_eq_true, decide_eq_true_eq]
      exact ⟨⟨hlo, hb⟩, ⟨⟨hab, h2⟩, h3⟩⟩
    · split
      · rename_i _ hab
        subst hab
        simp only [cellsFrom, Bool.and_eq_true, decide_eq_true_eq]
        exact ⟨⟨hlo, hb⟩, h3⟩
      · simp only [cellsFrom, Bool.and_eq_true, decide_eq_true_eq]
        exact ⟨⟨h1, h2⟩, ih h3 (by omega)⟩

/-- Changing values keeps the canonical form. -/
@[simp] theorem cellsFrom_cellMap (f : Nat → α → α) (lo bound : Nat) (m : List (Nat × α)) :
    cellsFrom lo bound (cellMap f m) = cellsFrom lo bound m := by
  induction m generalizing lo with
  | nil => rfl
  | cons c rest ih =>
    obtain ⟨a, v⟩ := c
    simp only [cellMap, List.map_cons, cellsFrom] at ih ⊢
    rw [ih]

/-- Host memory keeps its canonical form under HostWrite. -/
theorem hostWrite_memory_wf {a : Nat} {v : Byte} {s t : State} (h : hostWrite a v s = .ok t)
    (hm : Memory.wf s.hostMem = true) : Memory.wf t.hostMem = true := by
  unfold hostWrite at h
  split at h
  · cases h
    rename_i hlt
    exact cellsFrom_cellWrite v hm (Nat.zero_le _) hlt
  · cases h

/-- A RAM store below 128 keeps the RAM's canonical form. -/
theorem putRam_ramWf {k : Nat} (v : Word) {s : State} (hk : k < Config.ramWords)
    (h : ramWf s.ram = true) : ramWf (s.putRam k v).ram = true :=
  cellsFrom_cellWrite v h (Nat.zero_le _) hk

/-- The reset state's arrays list nothing and are in canonical form. -/
theorem reset_cells_wf :
    Memory.wf State.reset.hostMem = true ∧ ramWf State.reset.ram = true ∧
      rximrWf State.reset.rximr = true := ⟨rfl, rfl, rfl⟩

end Sys2Proof.Machine
end

