-- ==== Sys2Proof/Laws/State.lean ====
section
/-! SUPPORT. What each update of the state does to each field: one lemma per field, true by `rfl`, so that
no proof unfolds a record update. -/

namespace Sys2Proof.Machine

/-! ## Moving the sequencer -/

@[simp] theorem State.goto_params (s : State) (p : Pos) : (s.goto p).params = s.params := rfl

@[simp] theorem State.goto_mcr (s : State) (p : Pos) : (s.goto p).mcr = s.mcr := rfl

@[simp] theorem State.goto_ctrl1 (s : State) (p : Pos) : (s.goto p).ctrl1 = s.ctrl1 := rfl

@[simp] theorem State.goto_cbt (s : State) (p : Pos) : (s.goto p).cbt = s.cbt := rfl

@[simp] theorem State.goto_fdcbt (s : State) (p : Pos) : (s.goto p).fdcbt = s.fdcbt := rfl

@[simp] theorem State.goto_fdctrl (s : State) (p : Pos) : (s.goto p).fdctrl = s.fdctrl := rfl

@[simp] theorem State.goto_iflag (s : State) (p : Pos) : (s.goto p).iflag = s.iflag := rfl

@[simp] theorem State.goto_rximr (s : State) (p : Pos) : (s.goto p).rximr = s.rximr := rfl

@[simp] theorem State.goto_ram (s : State) (p : Pos) : (s.goto p).ram = s.ram := rfl

@[simp] theorem State.goto_txPending (s : State) (p : Pos) : (s.goto p).txPending = s.txPending := rfl

@[simp] theorem State.goto_sess (s : State) (p : Pos) : (s.goto p).sess = s.sess := rfl

@[simp] theorem State.goto_pos (s : State) (p : Pos) :
    (s.goto p).seq.pos = p := rfl

@[simp] theorem State.goto_desc (s : State) (p : Pos) :
    (s.goto p).seq.desc = s.seq.desc := rfl

@[simp] theorem State.goto_attempts (s : State) (p : Pos) :
    (s.goto p).seq.attempts = s.seq.attempts := rfl

@[simp] theorem State.goto_status (s : State) (p : Pos) :
    (s.goto p).seq.status = s.seq.status := rfl

@[simp] theorem State.goto_value (s : State) (p : Pos) :
    (s.goto p).seq.value = s.seq.value := rfl

@[simp] theorem State.goto_hostMem (s : State) (p : Pos) : (s.goto p).hostMem = s.hostMem := rfl

@[simp] theorem State.goto_prog (s : State) (p : Pos) : (s.goto p).prog = s.prog := rfl

@[simp] theorem State.goto_statuses (s : State) (p : Pos) : (s.goto p).statuses = s.statuses := rfl

@[simp] theorem State.goto_agenda (s : State) (p : Pos) : (s.goto p).agenda = s.agenda := rfl

@[simp] theorem State.goto_choices (s : State) (p : Pos) : (s.goto p).choices = s.choices := rfl

@[simp] theorem State.goto_draws (s : State) (p : Pos) : (s.goto p).draws = s.draws := rfl

/-! ## Starting an operation -/

@[simp] theorem State.start_params (s : State) (p : Pos) : (s.start p).params = s.params := rfl

@[simp] theorem State.start_mcr (s : State) (p : Pos) : (s.start p).mcr = s.mcr := rfl

@[simp] theorem State.start_ctrl1 (s : State) (p : Pos) : (s.start p).ctrl1 = s.ctrl1 := rfl

@[simp] theorem State.start_cbt (s : State) (p : Pos) : (s.start p).cbt = s.cbt := rfl

@[simp] theorem State.start_fdcbt (s : State) (p : Pos) : (s.start p).fdcbt = s.fdcbt := rfl

@[simp] theorem State.start_fdctrl (s : State) (p : Pos) : (s.start p).fdctrl = s.fdctrl := rfl

@[simp] theorem State.start_iflag (s : State) (p : Pos) : (s.start p).iflag = s.iflag := rfl

@[simp] theorem State.start_rximr (s : State) (p : Pos) : (s.start p).rximr = s.rximr := rfl

@[simp] theorem State.start_ram (s : State) (p : Pos) : (s.start p).ram = s.ram := rfl

@[simp] theorem State.start_txPending (s : State) (p : Pos) : (s.start p).txPending = s.txPending := rfl

@[simp] theorem State.start_sess (s : State) (p : Pos) : (s.start p).sess = s.sess := rfl

@[simp] theorem State.start_pos (s : State) (p : Pos) :
    (s.start p).seq.pos = p := rfl

@[simp] theorem State.start_desc (s : State) (p : Pos) :
    (s.start p).seq.desc = s.seq.desc := rfl

@[simp] theorem State.start_attempts (s : State) (p : Pos) :
    (s.start p).seq.attempts = 0 := rfl

@[simp] theorem State.start_status (s : State) (p : Pos) :
    (s.start p).seq.status = s.seq.status := rfl

@[simp] theorem State.start_value (s : State) (p : Pos) :
    (s.start p).seq.value = s.seq.value := rfl

@[simp] theorem State.start_hostMem (s : State) (p : Pos) : (s.start p).hostMem = s.hostMem := rfl

@[simp] theorem State.start_prog (s : State) (p : Pos) : (s.start p).prog = s.prog := rfl

@[simp] theorem State.start_statuses (s : State) (p : Pos) : (s.start p).statuses = s.statuses := rfl

@[simp] theorem State.start_agenda (s : State) (p : Pos) : (s.start p).agenda = s.agenda := rfl

@[simp] theorem State.start_choices (s : State) (p : Pos) : (s.start p).choices = s.choices := rfl

@[simp] theorem State.start_draws (s : State) (p : Pos) : (s.start p).draws = s.draws := rfl

/-! ## Clearing the attempts -/

@[simp] theorem State.clearAttempts_params (s : State) : s.clearAttempts.params = s.params := rfl

@[simp] theorem State.clearAttempts_mcr (s : State) : s.clearAttempts.mcr = s.mcr := rfl

@[simp] theorem State.clearAttempts_ctrl1 (s : State) : s.clearAttempts.ctrl1 = s.ctrl1 := rfl

@[simp] theorem State.clearAttempts_cbt (s : State) : s.clearAttempts.cbt = s.cbt := rfl

@[simp] theorem State.clearAttempts_fdcbt (s : State) : s.clearAttempts.fdcbt = s.fdcbt := rfl

@[simp] theorem State.clearAttempts_fdctrl (s : State) : s.clearAttempts.fdctrl = s.fdctrl := rfl

@[simp] theorem State.clearAttempts_iflag (s : State) : s.clearAttempts.iflag = s.iflag := rfl

@[simp] theorem State.clearAttempts_rximr (s : State) : s.clearAttempts.rximr = s.rximr := rfl

@[simp] theorem State.clearAttempts_ram (s : State) : s.clearAttempts.ram = s.ram := rfl

@[simp] theorem State.clearAttempts_txPending (s : State) : s.clearAttempts.txPending = s.txPending := rfl

@[simp] theorem State.clearAttempts_sess (s : State) : s.clearAttempts.sess = s.sess := rfl

@[simp] theorem State.clearAttempts_pos (s : State) : s.clearAttempts.seq.pos = s.seq.pos := rfl

@[simp] theorem State.clearAttempts_desc (s : State) : s.clearAttempts.seq.desc = s.seq.desc := rfl

@[simp] theorem State.clearAttempts_attempts (s : State) : s.clearAttempts.seq.attempts = 0 := rfl

@[simp] theorem State.clearAttempts_status (s : State) : s.clearAttempts.seq.status = s.seq.status := rfl

@[simp] theorem State.clearAttempts_value (s : State) : s.clearAttempts.seq.value = s.seq.value := rfl

@[simp] theorem State.clearAttempts_hostMem (s : State) : s.clearAttempts.hostMem = s.hostMem := rfl

@[simp] theorem State.clearAttempts_prog (s : State) : s.clearAttempts.prog = s.prog := rfl

@[simp] theorem State.clearAttempts_statuses (s : State) : s.clearAttempts.statuses = s.statuses := rfl

@[simp] theorem State.clearAttempts_agenda (s : State) : s.clearAttempts.agenda = s.agenda := rfl

@[simp] theorem State.clearAttempts_choices (s : State) : s.clearAttempts.choices = s.choices := rfl

@[simp] theorem State.clearAttempts_draws (s : State) : s.clearAttempts.draws = s.draws := rfl

/-! ## Dropping every transmit request -/

@[simp] theorem State.dropRequests_params (s : State) : s.dropRequests.params = s.params := rfl

@[simp] theorem State.dropRequests_mcr (s : State) : s.dropRequests.mcr = s.mcr := rfl

@[simp] theorem State.dropRequests_ctrl1 (s : State) : s.dropRequests.ctrl1 = s.ctrl1 := rfl

@[simp] theorem State.dropRequests_cbt (s : State) : s.dropRequests.cbt = s.cbt := rfl

@[simp] theorem State.dropRequests_fdcbt (s : State) : s.dropRequests.fdcbt = s.fdcbt := rfl

@[simp] theorem State.dropRequests_fdctrl (s : State) : s.dropRequests.fdctrl = s.fdctrl := rfl

@[simp] theorem State.dropRequests_iflag (s : State) : s.dropRequests.iflag = s.iflag := rfl

@[simp] theorem State.dropRequests_rximr (s : State) : s.dropRequests.rximr = s.rximr := rfl

@[simp] theorem State.dropRequests_ram (s : State) : s.dropRequests.ram = s.ram := rfl

@[simp] theorem State.dropRequests_txPending (s : State) : s.dropRequests.txPending = 0#32 := rfl

@[simp] theorem State.dropRequests_sess (s : State) : s.dropRequests.sess = s.sess := rfl

@[simp] theorem State.dropRequests_seq (s : State) : s.dropRequests.seq = s.seq := rfl

@[simp] theorem State.dropRequests_hostMem (s : State) : s.dropRequests.hostMem = s.hostMem := rfl

@[simp] theorem State.dropRequests_prog (s : State) : s.dropRequests.prog = s.prog := rfl

@[simp] theorem State.dropRequests_statuses (s : State) : s.dropRequests.statuses = s.statuses := rfl

@[simp] theorem State.dropRequests_agenda (s : State) : s.dropRequests.agenda = s.agenda := rfl

@[simp] theorem State.dropRequests_choices (s : State) : s.dropRequests.choices = s.choices := rfl

@[simp] theorem State.dropRequests_draws (s : State) : s.dropRequests.draws = s.draws := rfl

/-! ## Finishing an operation -/

@[simp] theorem State.finish_params (s : State) (st : Status) : (s.finish st).params = s.params := rfl

@[simp] theorem State.finish_mcr (s : State) (st : Status) : (s.finish st).mcr = s.mcr := rfl

@[simp] theorem State.finish_ctrl1 (s : State) (st : Status) : (s.finish st).ctrl1 = s.ctrl1 := rfl

@[simp] theorem State.finish_cbt (s : State) (st : Status) : (s.finish st).cbt = s.cbt := rfl

@[simp] theorem State.finish_fdcbt (s : State) (st : Status) : (s.finish st).fdcbt = s.fdcbt := rfl

@[simp] theorem State.finish_fdctrl (s : State) (st : Status) : (s.finish st).fdctrl = s.fdctrl := rfl

@[simp] theorem State.finish_iflag (s : State) (st : Status) : (s.finish st).iflag = s.iflag := rfl

@[simp] theorem State.finish_rximr (s : State) (st : Status) : (s.finish st).rximr = s.rximr := rfl

@[simp] theorem State.finish_ram (s : State) (st : Status) : (s.finish st).ram = s.ram := rfl

@[simp] theorem State.finish_txPending (s : State) (st : Status) : (s.finish st).txPending = s.txPending := rfl

@[simp] theorem State.finish_sess (s : State) (st : Status) : (s.finish st).sess = s.sess := rfl

@[simp] theorem State.finish_pos (s : State) (st : Status) :
    (s.finish st).seq.pos = .idle := rfl

@[simp] theorem State.finish_desc (s : State) (st : Status) :
    (s.finish st).seq.desc = s.seq.desc := rfl

@[simp] theorem State.finish_attempts (s : State) (st : Status) :
    (s.finish st).seq.attempts = s.seq.attempts := rfl

@[simp] theorem State.finish_status (s : State) (st : Status) :
    (s.finish st).seq.status = some st := rfl

@[simp] theorem State.finish_value (s : State) (st : Status) :
    (s.finish st).seq.value = s.seq.value := rfl

@[simp] theorem State.finish_hostMem (s : State) (st : Status) : (s.finish st).hostMem = s.hostMem := rfl

@[simp] theorem State.finish_prog (s : State) (st : Status) : (s.finish st).prog = s.prog := rfl

@[simp] theorem State.finish_statuses (s : State) (st : Status) :
    (s.finish st).statuses = s.statuses ++ [st] := rfl

@[simp] theorem State.finish_agenda (s : State) (st : Status) : (s.finish st).agenda = s.agenda := rfl

@[simp] theorem State.finish_choices (s : State) (st : Status) : (s.finish st).choices = s.choices := rfl

@[simp] theorem State.finish_draws (s : State) (st : Status) : (s.finish st).draws = s.draws := rfl

/-! ## Storing a RAM word -/

@[simp] theorem State.putRam_params (s : State) (k : Nat) (v : Word) : (s.putRam k v).params = s.params := rfl

@[simp] theorem State.putRam_mcr (s : State) (k : Nat) (v : Word) : (s.putRam k v).mcr = s.mcr := rfl

@[simp] theorem State.putRam_ctrl1 (s : State) (k : Nat) (v : Word) : (s.putRam k v).ctrl1 = s.ctrl1 := rfl

@[simp] theorem State.putRam_cbt (s : State) (k : Nat) (v : Word) : (s.putRam k v).cbt = s.cbt := rfl

@[simp] theorem State.putRam_fdcbt (s : State) (k : Nat) (v : Word) : (s.putRam k v).fdcbt = s.fdcbt := rfl

@[simp] theorem State.putRam_fdctrl (s : State) (k : Nat) (v : Word) : (s.putRam k v).fdctrl = s.fdctrl := rfl

@[simp] theorem State.putRam_iflag (s : State) (k : Nat) (v : Word) : (s.putRam k v).iflag = s.iflag := rfl

@[simp] theorem State.putRam_rximr (s : State) (k : Nat) (v : Word) : (s.putRam k v).rximr = s.rximr := rfl

@[simp] theorem State.putRam_ram (s : State) (k : Nat) (v : Word) :
    (s.putRam k v).ram = cellWrite s.ram k v := rfl

@[simp] theorem State.putRam_txPending (s : State) (k : Nat) (v : Word) : (s.putRam k v).txPending = s.txPending := rfl

@[simp] theorem State.putRam_sess (s : State) (k : Nat) (v : Word) : (s.putRam k v).sess = s.sess := rfl

@[simp] theorem State.putRam_seq (s : State) (k : Nat) (v : Word) : (s.putRam k v).seq = s.seq := rfl

@[simp] theorem State.putRam_hostMem (s : State) (k : Nat) (v : Word) : (s.putRam k v).hostMem = s.hostMem := rfl

@[simp] theorem State.putRam_prog (s : State) (k : Nat) (v : Word) : (s.putRam k v).prog = s.prog := rfl

@[simp] theorem State.putRam_statuses (s : State) (k : Nat) (v : Word) : (s.putRam k v).statuses = s.statuses := rfl

@[simp] theorem State.putRam_agenda (s : State) (k : Nat) (v : Word) : (s.putRam k v).agenda = s.agenda := rfl

@[simp] theorem State.putRam_choices (s : State) (k : Nat) (v : Word) : (s.putRam k v).choices = s.choices := rfl

@[simp] theorem State.putRam_draws (s : State) (k : Nat) (v : Word) : (s.putRam k v).draws = s.draws := rfl

/-! ## Making draws -/

@[simp] theorem State.drew_params (s : State) (n : Nat) : (s.drew n).params = s.params := rfl

@[simp] theorem State.drew_mcr (s : State) (n : Nat) : (s.drew n).mcr = s.mcr := rfl

@[simp] theorem State.drew_ctrl1 (s : State) (n : Nat) : (s.drew n).ctrl1 = s.ctrl1 := rfl

@[simp] theorem State.drew_cbt (s : State) (n : Nat) : (s.drew n).cbt = s.cbt := rfl

@[simp] theorem State.drew_fdcbt (s : State) (n : Nat) : (s.drew n).fdcbt = s.fdcbt := rfl

@[simp] theorem State.drew_fdctrl (s : State) (n : Nat) : (s.drew n).fdctrl = s.fdctrl := rfl

@[simp] theorem State.drew_iflag (s : State) (n : Nat) : (s.drew n).iflag = s.iflag := rfl

@[simp] theorem State.drew_rximr (s : State) (n : Nat) : (s.drew n).rximr = s.rximr := rfl

@[simp] theorem State.drew_ram (s : State) (n : Nat) : (s.drew n).ram = s.ram := rfl

@[simp] theorem State.drew_txPending (s : State) (n : Nat) : (s.drew n).txPending = s.txPending := rfl

@[simp] theorem State.drew_sess (s : State) (n : Nat) : (s.drew n).sess = s.sess := rfl

@[simp] theorem State.drew_seq (s : State) (n : Nat) : (s.drew n).seq = s.seq := rfl

@[simp] theorem State.drew_hostMem (s : State) (n : Nat) : (s.drew n).hostMem = s.hostMem := rfl

@[simp] theorem State.drew_prog (s : State) (n : Nat) : (s.drew n).prog = s.prog := rfl

@[simp] theorem State.drew_statuses (s : State) (n : Nat) : (s.drew n).statuses = s.statuses := rfl

@[simp] theorem State.drew_agenda (s : State) (n : Nat) : (s.drew n).agenda = s.agenda := rfl

@[simp] theorem State.drew_choices (s : State) (n : Nat) : (s.drew n).choices = s.choices := rfl

@[simp] theorem State.drew_draws (s : State) (n : Nat) :
    (s.drew n).draws = s.draws + n := rfl

/-! ## The CTRL step lpmEnter -/

@[simp] theorem lpmEnter_params (s : State) : (lpmEnter s).params = s.params := rfl

@[simp] theorem lpmEnter_mcr (s : State) :
    (lpmEnter s).mcr = withAcks s.mcr true false true := rfl

@[simp] theorem lpmEnter_ctrl1 (s : State) : (lpmEnter s).ctrl1 = s.ctrl1 := rfl

@[simp] theorem lpmEnter_cbt (s : State) : (lpmEnter s).cbt = s.cbt := rfl

@[simp] theorem lpmEnter_fdcbt (s : State) : (lpmEnter s).fdcbt = s.fdcbt := rfl

@[simp] theorem lpmEnter_fdctrl (s : State) : (lpmEnter s).fdctrl = s.fdctrl := rfl

@[simp] theorem lpmEnter_iflag (s : State) : (lpmEnter s).iflag = s.iflag := rfl

@[simp] theorem lpmEnter_rximr (s : State) : (lpmEnter s).rximr = s.rximr := rfl

@[simp] theorem lpmEnter_ram (s : State) : (lpmEnter s).ram = s.ram := rfl

@[simp] theorem lpmEnter_txPending (s : State) : (lpmEnter s).txPending = s.txPending := rfl

@[simp] theorem lpmEnter_sess (s : State) : (lpmEnter s).sess = s.sess := rfl

@[simp] theorem lpmEnter_seq (s : State) : (lpmEnter s).seq = s.seq := rfl

@[simp] theorem lpmEnter_hostMem (s : State) : (lpmEnter s).hostMem = s.hostMem := rfl

@[simp] theorem lpmEnter_prog (s : State) : (lpmEnter s).prog = s.prog := rfl

@[simp] theorem lpmEnter_statuses (s : State) : (lpmEnter s).statuses = s.statuses := rfl

@[simp] theorem lpmEnter_agenda (s : State) : (lpmEnter s).agenda = s.agenda := rfl

@[simp] theorem lpmEnter_choices (s : State) : (lpmEnter s).choices = s.choices := rfl

@[simp] theorem lpmEnter_draws (s : State) : (lpmEnter s).draws = s.draws := rfl

/-! ## The CTRL step lpmExit -/

@[simp] theorem lpmExit_params (s : State) : (lpmExit s).params = s.params := rfl

@[simp] theorem lpmExit_mcr (s : State) :
    (lpmExit s).mcr = withAcks s.mcr false (frzAck s.mcr) (notRdy s.mcr) := rfl

@[simp] theorem lpmExit_ctrl1 (s : State) : (lpmExit s).ctrl1 = s.ctrl1 := rfl

@[simp] theorem lpmExit_cbt (s : State) : (lpmExit s).cbt = s.cbt := rfl

@[simp] theorem lpmExit_fdcbt (s : State) : (lpmExit s).fdcbt = s.fdcbt := rfl

@[simp] theorem lpmExit_fdctrl (s : State) : (lpmExit s).fdctrl = s.fdctrl := rfl

@[simp] theorem lpmExit_iflag (s : State) : (lpmExit s).iflag = s.iflag := rfl

@[simp] theorem lpmExit_rximr (s : State) : (lpmExit s).rximr = s.rximr := rfl

@[simp] theorem lpmExit_ram (s : State) : (lpmExit s).ram = s.ram := rfl

@[simp] theorem lpmExit_txPending (s : State) : (lpmExit s).txPending = s.txPending := rfl

@[simp] theorem lpmExit_sess (s : State) : (lpmExit s).sess = s.sess := rfl

@[simp] theorem lpmExit_seq (s : State) : (lpmExit s).seq = s.seq := rfl

@[simp] theorem lpmExit_hostMem (s : State) : (lpmExit s).hostMem = s.hostMem := rfl

@[simp] theorem lpmExit_prog (s : State) : (lpmExit s).prog = s.prog := rfl

@[simp] theorem lpmExit_statuses (s : State) : (lpmExit s).statuses = s.statuses := rfl

@[simp] theorem lpmExit_agenda (s : State) : (lpmExit s).agenda = s.agenda := rfl

@[simp] theorem lpmExit_choices (s : State) : (lpmExit s).choices = s.choices := rfl

@[simp] theorem lpmExit_draws (s : State) : (lpmExit s).draws = s.draws := rfl

/-! ## The CTRL step frzEnter -/

@[simp] theorem frzEnter_params (s : State) : (frzEnter s).params = s.params := rfl

@[simp] theorem frzEnter_mcr (s : State) :
    (frzEnter s).mcr = withAcks s.mcr (lpmAck s.mcr) true true := rfl

@[simp] theorem frzEnter_ctrl1 (s : State) : (frzEnter s).ctrl1 = s.ctrl1 := rfl

@[simp] theorem frzEnter_cbt (s : State) : (frzEnter s).cbt = s.cbt := rfl

@[simp] theorem frzEnter_fdcbt (s : State) : (frzEnter s).fdcbt = s.fdcbt := rfl

@[simp] theorem frzEnter_fdctrl (s : State) : (frzEnter s).fdctrl = s.fdctrl := rfl

@[simp] theorem frzEnter_iflag (s : State) : (frzEnter s).iflag = s.iflag := rfl

@[simp] theorem frzEnter_rximr (s : State) : (frzEnter s).rximr = s.rximr := rfl

@[simp] theorem frzEnter_ram (s : State) : (frzEnter s).ram = s.ram := rfl

@[simp] theorem frzEnter_txPending (s : State) : (frzEnter s).txPending = s.txPending := rfl

@[simp] theorem frzEnter_sess (s : State) : (frzEnter s).sess = s.sess := rfl

@[simp] theorem frzEnter_seq (s : State) : (frzEnter s).seq = s.seq := rfl

@[simp] theorem frzEnter_hostMem (s : State) : (frzEnter s).hostMem = s.hostMem := rfl

@[simp] theorem frzEnter_prog (s : State) : (frzEnter s).prog = s.prog := rfl

@[simp] theorem frzEnter_statuses (s : State) : (frzEnter s).statuses = s.statuses := rfl

@[simp] theorem frzEnter_agenda (s : State) : (frzEnter s).agenda = s.agenda := rfl

@[simp] theorem frzEnter_choices (s : State) : (frzEnter s).choices = s.choices := rfl

@[simp] theorem frzEnter_draws (s : State) : (frzEnter s).draws = s.draws := rfl

/-! ## The CTRL step frzExit -/

@[simp] theorem frzExit_params (s : State) : (frzExit s).params = s.params := rfl

@[simp] theorem frzExit_mcr (s : State) :
    (frzExit s).mcr = withAcks s.mcr (lpmAck s.mcr) false (notRdy s.mcr) := rfl

@[simp] theorem frzExit_ctrl1 (s : State) : (frzExit s).ctrl1 = s.ctrl1 := rfl

@[simp] theorem frzExit_cbt (s : State) : (frzExit s).cbt = s.cbt := rfl

@[simp] theorem frzExit_fdcbt (s : State) : (frzExit s).fdcbt = s.fdcbt := rfl

@[simp] theorem frzExit_fdctrl (s : State) : (frzExit s).fdctrl = s.fdctrl := rfl

@[simp] theorem frzExit_iflag (s : State) : (frzExit s).iflag = s.iflag := rfl

@[simp] theorem frzExit_rximr (s : State) : (frzExit s).rximr = s.rximr := rfl

@[simp] theorem frzExit_ram (s : State) : (frzExit s).ram = s.ram := rfl

@[simp] theorem frzExit_txPending (s : State) : (frzExit s).txPending = s.txPending := rfl

@[simp] theorem frzExit_sess (s : State) : (frzExit s).sess = s.sess := rfl

@[simp] theorem frzExit_seq (s : State) : (frzExit s).seq = s.seq := rfl

@[simp] theorem frzExit_hostMem (s : State) : (frzExit s).hostMem = s.hostMem := rfl

@[simp] theorem frzExit_prog (s : State) : (frzExit s).prog = s.prog := rfl

@[simp] theorem frzExit_statuses (s : State) : (frzExit s).statuses = s.statuses := rfl

@[simp] theorem frzExit_agenda (s : State) : (frzExit s).agenda = s.agenda := rfl

@[simp] theorem frzExit_choices (s : State) : (frzExit s).choices = s.choices := rfl

@[simp] theorem frzExit_draws (s : State) : (frzExit s).draws = s.draws := rfl

/-! ## The CTRL step ready -/

@[simp] theorem ready_params (s : State) : (ready s).params = s.params := rfl

@[simp] theorem ready_mcr (s : State) :
    (ready s).mcr = withAcks s.mcr (lpmAck s.mcr) (frzAck s.mcr) false := rfl

@[simp] theorem ready_ctrl1 (s : State) : (ready s).ctrl1 = s.ctrl1 := rfl

@[simp] theorem ready_cbt (s : State) : (ready s).cbt = s.cbt := rfl

@[simp] theorem ready_fdcbt (s : State) : (ready s).fdcbt = s.fdcbt := rfl

@[simp] theorem ready_fdctrl (s : State) : (ready s).fdctrl = s.fdctrl := rfl

@[simp] theorem ready_iflag (s : State) : (ready s).iflag = s.iflag := rfl

@[simp] theorem ready_rximr (s : State) : (ready s).rximr = s.rximr := rfl

@[simp] theorem ready_ram (s : State) : (ready s).ram = s.ram := rfl

@[simp] theorem ready_txPending (s : State) : (ready s).txPending = s.txPending := rfl

@[simp] theorem ready_sess (s : State) : (ready s).sess = s.sess := rfl

@[simp] theorem ready_seq (s : State) : (ready s).seq = s.seq := rfl

@[simp] theorem ready_hostMem (s : State) : (ready s).hostMem = s.hostMem := rfl

@[simp] theorem ready_prog (s : State) : (ready s).prog = s.prog := rfl

@[simp] theorem ready_statuses (s : State) : (ready s).statuses = s.statuses := rfl

@[simp] theorem ready_agenda (s : State) : (ready s).agenda = s.agenda := rfl

@[simp] theorem ready_choices (s : State) : (ready s).choices = s.choices := rfl

@[simp] theorem ready_draws (s : State) : (ready s).draws = s.draws := rfl

/-! ## Views that an update of the sequencer leaves alone -/

@[simp] theorem hwClass_goto (s : State) (p : Pos) : hwClass (s.goto p) = hwClass s := rfl

@[simp] theorem operational_goto (s : State) (p : Pos) : operational (s.goto p) = operational s := rfl

@[simp] theorem sessClass_goto (s : State) (p : Pos) : sessClass (s.goto p) = sessClass s := rfl

@[simp] theorem hwClass_start (s : State) (p : Pos) : hwClass (s.start p) = hwClass s := rfl

@[simp] theorem operational_start (s : State) (p : Pos) : operational (s.start p) = operational s := rfl

@[simp] theorem sessClass_start (s : State) (p : Pos) : sessClass (s.start p) = sessClass s := rfl

@[simp] theorem hwClass_finish (s : State) (st : Status) : hwClass (s.finish st) = hwClass s := rfl

@[simp] theorem operational_finish (s : State) (st : Status) : operational (s.finish st) = operational s := rfl

@[simp] theorem sessClass_finish (s : State) (st : Status) : sessClass (s.finish st) = sessClass s := rfl

@[simp] theorem operational_putRam (s : State) (k : Nat) (w : Word) : operational (s.putRam k w) = operational s := rfl

@[simp] theorem operational_drew (s : State) (n : Nat) : operational (s.drew n) = operational s := rfl

@[simp] theorem sessClass_putRam (s : State) (k : Nat) (w : Word) : sessClass (s.putRam k w) = sessClass s := rfl

@[simp] theorem sessClass_drew (s : State) (n : Nat) : sessClass (s.drew n) = sessClass s := rfl

@[simp] theorem hwClass_putRam (s : State) (k : Nat) (w : Word) : hwClass (s.putRam k w) = hwClass s := rfl

@[simp] theorem hwClass_drew (s : State) (n : Nat) : hwClass (s.drew n) = hwClass s := rfl

end Sys2Proof.Machine
end

