-- ==== Sys2Proof/Laws/Ops.lean ====
section
/-! SUPPORT. What each shared operation can do: the ways `tryDo`, `thenDo`, `check` and `needed` answer, the
offsets of block space, reads and writes of block space, and the parts of the state they leave alone. -/

namespace Sys2Proof.Machine

/-! ## Operations that may raise a fault -/

@[simp] theorem tryDo_ok {α : Type} (a : α) (k : α → Out State) : tryDo (.ok a) k = k a := rfl

@[simp] theorem tryDo_error {α : Type} (r : Fault) (k : α → Out State) :
    tryDo (.error r) k = .fault r := rfl

@[simp] theorem thenDo_ok {α β : Type} (a : α) (k : α → Except Fault β) : thenDo (.ok a) k = k a := rfl

@[simp] theorem thenDo_error {α β : Type} (r : Fault) (k : α → Except Fault β) :
    thenDo (.error r) k = .error r := rfl

/-- An operation goes on to a next state exactly through a value it got. -/
theorem tryDo_eq_next {α : Type} {x : Except Fault α} {k : α → Out State} {t : State} :
    tryDo x k = .next t ↔ ∃ a, x = .ok a ∧ k a = .next t := by
  cases x <;> simp [tryDo, raise]

/-- An operation refuses exactly through a value it got. -/
theorem tryDo_eq_refused {α : Type} {x : Except Fault α} {k : α → Out State} {r : Refusal} :
    tryDo x k = .refused r ↔ ∃ a, x = .ok a ∧ k a = .refused r := by
  cases x <;> simp [tryDo, raise]

theorem thenDo_eq_ok {α β : Type} {x : Except Fault α} {k : α → Except Fault β} {b : β} :
    thenDo x k = .ok b ↔ ∃ a, x = .ok a ∧ k a = .ok b := by
  cases x <;> simp [thenDo]

theorem check_eq_ok {c : Bool} {r : Fault} {u : Unit} : check c r = .ok u ↔ c = true := by
  cases c <;> simp [check]

@[simp] theorem check_true (r : Fault) : check true r = .ok () := rfl

@[simp] theorem check_false (r : Fault) : check false r = .error r := rfl

theorem needed_eq_ok {α : Type} {x : Option α} {a : α} : needed x = .ok a ↔ x = some a := by
  cases x <;> simp [needed]

@[simp] theorem needed_some {α : Type} (a : α) : needed (some a) = .ok a := rfl

@[simp] theorem needed_none {α : Type} : needed (none : Option α) = .error .readPoison := rfl

/-! ## Offsets (R54) -/

@[simp] theorem blockWord_mcr : blockWord offMcr = .ok .mcr := rfl

@[simp] theorem blockWord_ctrl1 : blockWord offCtrl1 = .ok .ctrl1 := rfl

@[simp] theorem blockWord_iflag1 : blockWord offIflag1 = .ok .iflag1 := rfl

@[simp] theorem blockWord_cbt : blockWord offCbt = .ok .cbt := rfl

@[simp] theorem blockWord_fdctrl : blockWord offFdctrl = .ok .fdctrl := rfl

@[simp] theorem blockWord_fdcbt : blockWord offFdcbt = .ok .fdcbt := rfl

theorem blockWord_ram {k : Nat} (h : k < Config.ramWords) : blockWord (offRam k) = .ok (.ram k) := by
  simp only [Config.ramWords] at h
  have h4 : (0x080 + 4 * k) % 4 = 0 := by omega
  have hk : (0x080 + 4 * k - 0x080) / 4 = k := by omega
  simp only [blockWord, offRam, offMcr, offCtrl1, offIflag1, offCbt, offFdctrl, offFdcbt, h4, hk]
  repeat (rw [if_neg (by omega)])
  rw [if_pos (by omega)]

theorem blockWord_rximr {i : Nat} (h : i < Config.mbMax) :
    blockWord (offRximr i) = .ok (.rximr i) := by
  simp only [Config.mbMax] at h
  have h4 : (0x880 + 4 * i) % 4 = 0 := by omega
  have hk : (0x880 + 4 * i - 0x880) / 4 = i := by omega
  simp only [blockWord, offRximr, offMcr, offCtrl1, offIflag1, offCbt, offFdctrl, offFdcbt, h4, hk]
  repeat (rw [if_neg (by omega)])
  rw [if_pos (by omega)]

/-- A RAM word has an index below 128 and stands at its offset. -/
theorem blockWord_eq_ram {off k : Nat} (h : blockWord off = .ok (.ram k)) :
    k < Config.ramWords ∧ off = offRam k := by
  unfold blockWord at h
  repeat (rw [ite_eq_iff] at h; obtain ⟨_, h⟩ | ⟨_, h⟩ := h; · cases h)
  rw [ite_eq_iff] at h
  obtain ⟨_, h⟩ | ⟨_, h⟩ := h
  · cases h
    simp only [Config.ramWords, offRam]
    omega
  · rw [ite_eq_iff] at h
    obtain ⟨_, h⟩ | ⟨_, h⟩ := h <;> cases h

/-- A receive mask has an index below 32 and stands at its offset. -/
theorem blockWord_eq_rximr {off i : Nat} (h : blockWord off = .ok (.rximr i)) :
    i < Config.mbMax ∧ off = offRximr i := by
  unfold blockWord at h
  repeat (rw [ite_eq_iff] at h; obtain ⟨_, h⟩ | ⟨_, h⟩ := h; · cases h)
  rw [ite_eq_iff] at h
  obtain ⟨_, h⟩ | ⟨_, h⟩ := h
  · cases h
    simp only [Config.mbMax, offRximr]
    omega
  · cases h

/-! ## Geometry (R24) -/

/-- Every word of a buffer of the pool is a RAM word. -/
theorem csIndex_lt {c : PClass} {i : Nat} (h : i < poolSize c) :
    csIndex c i + bufWords c ≤ Config.ramWords := by
  cases c <;> simp only [poolSize, csIndex, bufWords, Config.ramWords] at h ⊢ <;> omega

theorem bufWords_eq (c : PClass) : bufWords c = dataWords c + 2 := by cases c <;> rfl

theorem dataWords_pos (c : PClass) : 0 < dataWords c := by cases c <;> decide

theorem poolSize_pos (c : PClass) : 0 < poolSize c := by cases c <;> decide

theorem poolSize_le (c : PClass) : poolSize c ≤ Config.mbMax := by cases c <;> decide

/-- A word of buffer `i` lies in buffer `i`. -/
theorem index_div {c : PClass} {i m : Nat} (h : m < bufWords c) :
    (i * bufWords c + m) / bufWords c = i := by
  cases c <;> simp only [bufWords] at h ⊢ <;> omega

/-- Only the first word of a buffer is a CS word. -/
theorem index_mod {c : PClass} {i m : Nat} (h : m < bufWords c) :
    (i * bufWords c + m) % bufWords c = m := by
  cases c <;> simp only [bufWords] at h ⊢ <;> omega

/-! ## What block writes leave alone -/

/-- The parts of the state that no write to block space touches. -/
structure SameOutside (s t : State) : Prop where
  params : t.params = s.params
  sess : t.sess = s.sess
  seq : t.seq = s.seq
  hostMem : t.hostMem = s.hostMem
  prog : t.prog = s.prog
  statuses : t.statuses = s.statuses
  agenda : t.agenda = s.agenda
  choices : t.choices = s.choices
  draws : t.draws = s.draws

theorem SameOutside.refl (s : State) : SameOutside s s := ⟨rfl, rfl, rfl, rfl, rfl, rfl, rfl, rfl, rfl⟩

/-- What a write to MCR leaves: the writable fields of the word, nothing else (R28). -/
theorem writeMcr_spec {v : Word} {s t : State} (h : writeMcr v s = .ok t) :
    t = { s with mcr := mergeBits mcrWritable s.mcr v } := by
  simp only [writeMcr, thenDo_eq_ok] at h
  obtain ⟨_, _, _, _, h⟩ := h
  exact (Except.ok.inj h).symm

/-- What a write to CTRL1 needs and leaves (R29, R64, R75). -/
theorem writeCtrl1_spec {v : Word} {s t : State} (h : writeCtrl1 v s = .ok t) :
    changes ctrl1Nm s.ctrl1 v = false ∧ (frzAck s.mcr || !changes ctrl1Lpb s.ctrl1 v) = true ∧
      (lpmAck s.mcr || !changes ctrl1Clk s.ctrl1 v) = true ∧ t = { s with ctrl1 := v } := by
  simp only [writeCtrl1, thenDo_eq_ok, keepsNm, inWindow, check_eq_ok] at h
  obtain ⟨_, h1, _, h2, _, h3, h⟩ := h
  exact ⟨by simpa using h1, h2, h3, (Except.ok.inj h).symm⟩

theorem writeCbt_spec {v : Word} {s t : State} (h : writeCbt v s = .ok t) :
    t = { s with cbt := v } := by
  simp only [writeCbt, thenDo_eq_ok] at h
  obtain ⟨_, _, h⟩ := h
  exact (Except.ok.inj h).symm

theorem writeFdcbt_spec {v : Word} {s t : State} (h : writeFdcbt v s = .ok t) :
    changes fdcbtNm s.fdcbt v = false ∧ t = { s with fdcbt := v } := by
  simp only [writeFdcbt, thenDo_eq_ok, keepsNm, check_eq_ok] at h
  obtain ⟨_, h1, _, _, h⟩ := h
  exact ⟨by simpa using h1, (Except.ok.inj h).symm⟩

theorem writeFdctrl_spec {v : Word} {s t : State} (h : writeFdctrl v s = .ok t) :
    changes fdctrlNm s.fdctrl v = false ∧ t = { s with fdctrl := v } := by
  simp only [writeFdctrl, thenDo_eq_ok, keepsNm, check_eq_ok] at h
  obtain ⟨_, h1, _, _, h⟩ := h
  exact ⟨by simpa using h1, (Except.ok.inj h).symm⟩

theorem writeRximr_spec {i : Nat} {v : Word} {s t : State} (h : writeRximr i v s = .ok t) :
    t = { s with rximr := cellWrite s.rximr i v } := by
  simp only [writeRximr, thenDo_eq_ok] at h
  obtain ⟨_, _, h⟩ := h
  exact (Except.ok.inj h).symm

/-- What a write to IFLAG1 needs and leaves (R61 item 1). -/
theorem writeIflag_spec {v : Word} {s t : State} (h : writeIflag v s = .ok t) :
    flagsReadable v s = true ∧
      t = { s with
            iflag := w1c s.iflag v
            txPending := s.txPending ||| requestMask v s
            ram := cellMap (releasedWord v (hwClass s)) s.ram } := by
  simp only [writeIflag, thenDo_eq_ok, check_eq_ok] at h
  obtain ⟨_, h1, h⟩ := h
  exact ⟨h1, (Except.ok.inj h).symm⟩

/-- Everything a write to RAM[k] can do (R61 item 2, R63, R74): the word is stored, and a CS word loses its
transmit request; for a word of the pool, HOST may write it and a CS word has a defined code. -/
theorem writeRam_spec {k : Nat} {v : Word} {s t : State} (h : writeRam k v s = .ok t) :
    (k / bufWords (hwClass s) < poolSize (hwClass s) →
        hostMayWrite k (k / bufWords (hwClass s)) v s = .ok ()) ∧
      ((isCsWord k s = true ∧ codeDefined (codeOf v) = true ∧
          t = { s.putRam k v with txPending := clearBit s.txPending (k / bufWords (hwClass s)) }) ∨
        (isCsWord k s = false ∧ t = s.putRam k v)) := by
  simp only [writeRam] at h
  split at h
  · rename_i hi
    rw [thenDo_eq_ok] at h
    obtain ⟨_, hw, h⟩ := h
    refine ⟨fun _ => hw, ?_⟩
    split at h
    · rename_i hc
      rw [thenDo_eq_ok] at h
      obtain ⟨_, hd, h⟩ := h
      exact .inl ⟨hc, check_eq_ok.mp hd, (Except.ok.inj h).symm⟩
    · rename_i hc
      exact .inr ⟨by simpa using hc, (Except.ok.inj h).symm⟩
  · rename_i hi
    refine ⟨fun hi' => absurd hi' hi, .inr ⟨?_, (Except.ok.inj h).symm⟩⟩
    simp [isCsWord, hi]

/-- A block write is the write of one word of the map; RAM and RXIMR need the module enabled. -/
theorem regWrite_spec {off : Nat} {v : Word} {s t : State} (h : regWrite off v s = .ok t) :
    ∃ w, blockWord off = .ok w ∧
      match w with
      | .mcr => writeMcr v s = .ok t
      | .ctrl1 => writeCtrl1 v s = .ok t
      | .iflag1 => writeIflag v s = .ok t
      | .cbt => writeCbt v s = .ok t
      | .fdctrl => writeFdctrl v s = .ok t
      | .fdcbt => writeFdcbt v s = .ok t
      | .ram k => lpmAck s.mcr = false ∧ writeRam k v s = .ok t
      | .rximr i => lpmAck s.mcr = false ∧ writeRximr i v s = .ok t := by
  rw [regWrite, thenDo_eq_ok] at h
  obtain ⟨w, hw, h⟩ := h
  refine ⟨w, hw, ?_⟩
  cases w <;> simp only [writeWord] at h ⊢ <;> try exact h
  all_goals
    rw [thenDo_eq_ok] at h
    obtain ⟨_, h1, h⟩ := h
    rw [moduleEnabled, check_eq_ok] at h1
    exact ⟨by simpa using h1, h⟩

/-- No block write touches anything outside block space. -/
theorem regWrite_outside {off : Nat} {v : Word} {s t : State} (h : regWrite off v s = .ok t) :
    SameOutside s t := by
  obtain ⟨w, _, hw⟩ := regWrite_spec h
  cases w with
  | mcr => rw [writeMcr_spec hw]; exact ⟨rfl, rfl, rfl, rfl, rfl, rfl, rfl, rfl, rfl⟩
  | ctrl1 => rw [(writeCtrl1_spec hw).2.2.2]; exact ⟨rfl, rfl, rfl, rfl, rfl, rfl, rfl, rfl, rfl⟩
  | iflag1 => rw [(writeIflag_spec hw).2]; exact ⟨rfl, rfl, rfl, rfl, rfl, rfl, rfl, rfl, rfl⟩
  | cbt => rw [writeCbt_spec hw]; exact ⟨rfl, rfl, rfl, rfl, rfl, rfl, rfl, rfl, rfl⟩
  | fdctrl => rw [(writeFdctrl_spec hw).2]; exact ⟨rfl, rfl, rfl, rfl, rfl, rfl, rfl, rfl, rfl⟩
  | fdcbt => rw [(writeFdcbt_spec hw).2]; exact ⟨rfl, rfl, rfl, rfl, rfl, rfl, rfl, rfl, rfl⟩
  | ram k =>
    obtain ⟨_, ⟨_, _, h⟩ | ⟨_, h⟩⟩ := writeRam_spec hw.2 <;> rw [h] <;>
      exact ⟨rfl, rfl, rfl, rfl, rfl, rfl, rfl, rfl, rfl⟩
  | rximr i => rw [writeRximr_spec hw.2]; exact ⟨rfl, rfl, rfl, rfl, rfl, rfl, rfl, rfl, rfl⟩

/-- A block read answers the word of the map it names, RAM and RXIMR only while the module is enabled. -/
theorem regRead_spec {off : Nat} {v : Word} {s : State} (h : regRead off s = .ok v) :
    ∃ w, blockWord off = .ok w ∧
      match w with
      | .mcr => v = s.mcr
      | .ctrl1 => v = s.ctrl1
      | .iflag1 => v = s.iflag
      | .cbt => v = s.cbt
      | .fdctrl => v = s.fdctrl
      | .fdcbt => v = s.fdcbt
      | .ram k => lpmAck s.mcr = false ∧ cellRead s.ram k = some v
      | .rximr i => lpmAck s.mcr = false ∧ cellRead s.rximr i = some v := by
  rw [regRead, thenDo_eq_ok] at h
  obtain ⟨w, hw, h⟩ := h
  refine ⟨w, hw, ?_⟩
  cases w <;> simp only [readWord] at h ⊢ <;> try exact (Except.ok.inj h).symm
  all_goals
    rw [thenDo_eq_ok] at h
    obtain ⟨_, h1, h⟩ := h
    rw [moduleEnabled, check_eq_ok] at h1
    exact ⟨by simpa using h1, needed_eq_ok.mp h⟩

@[simp] theorem regRead_mcr (s : State) : regRead offMcr s = .ok s.mcr := rfl

@[simp] theorem regRead_ctrl1 (s : State) : regRead offCtrl1 s = .ok s.ctrl1 := rfl

@[simp] theorem regRead_iflag1 (s : State) : regRead offIflag1 s = .ok s.iflag := rfl

@[simp] theorem regRead_cbt (s : State) : regRead offCbt s = .ok s.cbt := rfl

@[simp] theorem regRead_fdctrl (s : State) : regRead offFdctrl s = .ok s.fdctrl := rfl

@[simp] theorem regRead_fdcbt (s : State) : regRead offFdcbt s = .ok s.fdcbt := rfl

/-- A read of a RAM word. -/
theorem regRead_ram {k : Nat} (s : State) (hk : k < Config.ramWords) (hl : lpmAck s.mcr = false) :
    regRead (offRam k) s = needed (cellRead s.ram k) := by
  simp [regRead, blockWord_ram hk, readWord, moduleEnabled, hl]

/-! ## What a changed bit is -/

/-- A write changes nothing under a mask exactly when the masked words agree. -/
theorem changes_eq_false {mask old new : Word} :
    changes mask old new = false ↔ old &&& mask = new &&& mask := by
  rw [changes, bne_eq_false_iff_eq]
  constructor
  · intro h
    apply word_ext
    intro i hi
    have := congrArg (fun w : Word => w.getLsbD i) h
    simp only [BitVec.getLsbD_and, BitVec.getLsbD_xor, BitVec.getLsbD_zero] at this
    rw [BitVec.getLsbD_and, BitVec.getLsbD_and]
    revert this
    cases old.getLsbD i <;> cases new.getLsbD i <;> cases mask.getLsbD i <;> simp
  · intro h
    apply word_ext
    intro i hi
    have := congrArg (fun w : Word => w.getLsbD i) h
    simp only [BitVec.getLsbD_and] at this
    simp only [BitVec.getLsbD_and, BitVec.getLsbD_xor, BitVec.getLsbD_zero]
    revert this
    cases old.getLsbD i <;> cases new.getLsbD i <;> cases mask.getLsbD i <;> simp

/-! ## Micro-steps that several operations take -/

/-- A write micro-step that goes on made its write and moved the sequencer. -/
theorem writeStep_eq_next {off : Nat} {v : Word} {p : Pos} {s t : State} :
    writeStep off v p s = .next t ↔ ∃ u, regWrite off v s = .ok u ∧ t = u.goto p := by
  rw [writeStep, tryDo_eq_next]
  constructor
  · rintro ⟨u, h, h'⟩
    cases h'
    exact ⟨u, h, rfl⟩
  · rintro ⟨u, h, rfl⟩
    exact ⟨u, h, rfl⟩

/-- A field write: its read moves the sequencer only, its write is a block write (R72). -/
theorem fieldStep_eq_next {off : Nat} {mask v : Word} {w : Option Word} {here : Option Word → Pos}
    {p : Pos} {s t : State} (h : fieldStep off mask v w here p s = .next t) :
    (w = none ∧ ∃ x, regRead off s = .ok x ∧ t = s.goto (here (some x))) ∨
      ∃ x u, w = some x ∧ regWrite off (mergeBits mask x v) s = .ok u ∧ t = u.goto p := by
  cases w with
  | none =>
    simp only [fieldStep, tryDo_eq_next] at h
    obtain ⟨x, hx, h⟩ := h
    cases h
    exact .inl ⟨rfl, x, hx, rfl⟩
  | some x =>
    obtain ⟨u, hu, ht⟩ := writeStep_eq_next.mp h
    exact .inr ⟨x, u, rfl, hu, ht⟩

/-- One poll attempt (R226): done, or failed without a limit, short of it, or at it. -/
theorem pollStep_eq_next {off : Nat} {c : Word → Bool} {p q : Pos} {s t : State}
    (h : pollStep off c p q s = .next t) :
    ∃ w, regRead off s = .ok w ∧
      ((c w = true ∧ t = s.start p) ∨
        (c w = false ∧ s.params.pollLimit = none ∧ t = s) ∨
        ∃ n, c w = false ∧ s.params.pollLimit = some n ∧
          ((s.seq.attempts + 1 = n ∧
              t = { s with seq := { s.seq with attempts := s.seq.attempts + 1, pos := q } }) ∨
            (s.seq.attempts + 1 ≠ n ∧
              t = { s with seq := { s.seq with attempts := s.seq.attempts + 1 } }))) := by
  rw [pollStep, tryDo_eq_next] at h
  obtain ⟨w, hw, h⟩ := h
  refine ⟨w, hw, ?_⟩
  have h := Host.Outcome.next.inj h
  subst h
  cases hc : c w
  · right
    cases hp : s.params.pollLimit with
    | none => left; simp [State.pollFailed, hp]
    | some n =>
      right
      refine ⟨n, rfl, rfl, ?_⟩
      by_cases hn : s.seq.attempts + 1 = n
      · left; simp [State.pollFailed, hp, hn, State.goto]
      · right; simp [State.pollFailed, hp, hn]
  · left; simp [State.pollDone]

/-! ## Writes to host memory (R57, R165) -/

/-- A host byte write, and what it leaves alone. -/
theorem hostWrite_spec {a : Nat} {v : Byte} {s t : State} (h : hostWrite a v s = .ok t) :
    a < Config.hostBytes ∧ t = { s with hostMem := cellWrite s.hostMem a v } := by
  unfold hostWrite at h
  split at h
  · rename_i ha
    exact ⟨ha, (Except.ok.inj h).symm⟩
  · cases h

/-- A run of host byte writes touches host memory only. -/
theorem hostWriteAll_outside {a : Nat} {f : Nat → Byte} {ms : List Nat} {s t : State}
    (h : hostWriteAll a f s ms = .ok t) : t = { s with hostMem := t.hostMem } := by
  induction ms generalizing s with
  | nil =>
    simp only [hostWriteAll] at h
    cases h
    rfl
  | cons m ms ih =>
    simp only [hostWriteAll, thenDo_eq_ok] at h
    obtain ⟨u, hu, h⟩ := h
    obtain ⟨_, rfl⟩ := hostWrite_spec hu
    rw [ih h]

/-- A run of host byte writes keeps the canonical form. -/
theorem hostWriteAll_wf {a : Nat} {f : Nat → Byte} {ms : List Nat} {s t : State}
    (h : hostWriteAll a f s ms = .ok t) (hm : Memory.wf s.hostMem = true) :
    Memory.wf t.hostMem = true := by
  induction ms generalizing s with
  | nil =>
    simp only [hostWriteAll] at h
    cases h
    exact hm
  | cons m ms ih =>
    simp only [hostWriteAll, thenDo_eq_ok] at h
    obtain ⟨u, hu, h⟩ := h
    exact ih h (hostWrite_memory_wf hu hm)

end Sys2Proof.Machine
end

