-- ==== Sys2Proof/Laws/Agents.lean ====
section
/-! SUPPORT. What the hardware agents' shared operations can do: storing a run of words, choosing a receive
buffer, delivering a frame, completing a transmission (R190, R194). -/

namespace Sys2Proof.Machine

/-! ## A run of RAM words -/

/-- Storing a run of words touches the RAM only. -/
theorem putWords_eq (a : Nat) (ws : List Word) (s : State) :
    putWords a ws s = { s with ram := (putWords a ws s).ram } := by
  induction ws generalizing a s with
  | nil => rfl
  | cons w ws ih =>
    simp only [putWords]
    rw [ih]
    rfl

/-- What a run of stored words reads as. -/
theorem cellRead_putWords (a : Nat) (ws : List Word) (s : State) (k : Nat) :
    cellRead (putWords a ws s).ram k =
      if a ≤ k ∧ k < a + ws.length then ws[k - a]? else cellRead s.ram k := by
  induction ws generalizing a s with
  | nil =>
    simp only [putWords, List.length_nil]
    rw [if_neg (by omega)]
  | cons w ws ih =>
    simp only [putWords, List.length_cons]
    rw [ih]
    by_cases h1 : k = a
    · subst h1
      rw [if_neg (by omega), if_pos (by omega), Nat.sub_self]
      simp [State.putRam]
    · by_cases h2 : a + 1 ≤ k ∧ k < a + 1 + ws.length
      · rw [if_pos h2, if_pos (by omega)]
        have : k - a = (k - (a + 1)) + 1 := by omega
        rw [this, List.getElem?_cons_succ]
      · rw [if_neg h2, if_neg (by omega)]
        exact cellRead_cellWrite_other _ _ h1

/-- A run of words below 128 keeps the RAM's canonical form. -/
theorem putWords_ramWf {a : Nat} {ws : List Word} {s : State} (h : ramWf s.ram = true)
    (hb : a + ws.length ≤ Config.ramWords) : ramWf (putWords a ws s).ram = true := by
  induction ws generalizing a s with
  | nil => exact h
  | cons w ws ih =>
    simp only [List.length_cons] at hb
    exact ih (putRam_ramWf w (by omega) h) (by omega)

/-! ## Choosing a receive buffer (R194) -/

/-- The buffer chosen is in the list, usable, RX_EMPTY and matching. -/
theorem findRx_some {f : Word} {s : State} {js : List Nat} {j : Nat}
    (h : findRx f s js = .ok (some j)) :
    j ∈ js ∧ usable s j = true ∧
      ∃ cs idw mask, hwCs s j = some cs ∧ codeOf cs = codeRxEmpty ∧
        cellRead s.ram (idIndex (hwClass s) j) = some idw ∧ cellRead s.rximr j = some mask ∧
        idMatches f idw mask = true := by
  induction js with
  | nil => simp [findRx] at h
  | cons a js ih =>
    simp only [findRx] at h
    have skip : findRx f s js = .ok (some j) → _ := fun h => by
      obtain ⟨h1, h2⟩ := ih h
      exact (⟨List.mem_cons_of_mem _ h1, h2⟩ : j ∈ a :: js ∧ usable s j = true ∧
        ∃ cs idw mask, hwCs s j = some cs ∧ codeOf cs = codeRxEmpty ∧
          cellRead s.ram (idIndex (hwClass s) j) = some idw ∧ cellRead s.rximr j = some mask ∧
          idMatches f idw mask = true)
    split at h
    · rename_i hu
      rw [thenDo_eq_ok] at h
      obtain ⟨cs, hcs, h⟩ := h
      rw [needed_eq_ok] at hcs
      split at h
      · rename_i hc
        rw [thenDo_eq_ok] at h
        obtain ⟨idw, hid, h⟩ := h
        rw [thenDo_eq_ok] at h
        obtain ⟨mask, hm, h⟩ := h
        rw [needed_eq_ok] at hid hm
        split at h
        · rename_i hmatch
          cases h
          exact ⟨List.mem_cons_self, hu, cs, idw, mask, hcs, hc, hid, hm, hmatch⟩
        · exact skip h
      · exact skip h
    · exact skip h

/-- Buffers that are not usable, not RX_EMPTY or not matching are passed over. -/
theorem findRx_skip (f : Word) (s : State) (js ks : List Nat)
    (h : ∀ j ∈ js, usable s j = true →
      ∃ cs, hwCs s j = some cs ∧
        (codeOf cs = codeRxEmpty →
          ∃ idw mask, cellRead s.ram (idIndex (hwClass s) j) = some idw ∧
            cellRead s.rximr j = some mask ∧ idMatches f idw mask = false)) :
    findRx f s (js ++ ks) = findRx f s ks := by
  induction js with
  | nil => rfl
  | cons j js ih =>
    simp only [List.cons_append, findRx]
    rw [ih fun j hj => h j (List.mem_cons_of_mem _ hj)]
    split
    · rename_i hu
      obtain ⟨cs, h1, h2⟩ := h j List.mem_cons_self hu
      rw [h1, needed_some, thenDo_ok]
      split
      · rename_i hc
        obtain ⟨idw, mask, h3, h4, h5⟩ := h2 hc
        simp [h3, h4, h5]
      · rfl
    · rfl

/-! ## Reading a frame (R190) -/

/-- What reading the data words of a buffer answers. -/
theorem readData_eq_ok (s : State) (i : Nat) (ks : List Nat) (ws : List Word) :
    readData s i ks = .ok ws ↔
      ws.length = ks.length ∧
        ∀ n (h : n < ks.length), cellRead s.ram (dataIndex (hwClass s) i ks[n]) = ws[n]? := by
  induction ks generalizing ws with
  | nil =>
    simp only [readData, Except.ok.injEq, List.length_nil]
    constructor
    · rintro rfl
      exact ⟨rfl, fun n h => absurd h (Nat.not_lt_zero n)⟩
    · rintro ⟨h, _⟩
      exact (List.eq_nil_of_length_eq_zero h).symm
  | cons k ks ih =>
    simp only [readData, thenDo_eq_ok, needed_eq_ok, List.length_cons]
    constructor
    · rintro ⟨w, hw, ws', h, h2⟩
      cases h2
      rw [ih] at h
      refine ⟨by simp [h.1], ?_⟩
      rintro (_ | n) hn
      · exact hw
      · exact h.2 n (by omega)
    · rintro ⟨h1, h2⟩
      cases ws with
      | nil => simp at h1
      | cons w ws =>
        refine ⟨w, h2 0 (by omega), ws, ?_, rfl⟩
        rw [ih]
        exact ⟨by simpa using h1, fun n hn => h2 (n + 1) (by omega)⟩

/-! ## Delivery and completion -/

/-- A delivery touches RAM, flags and the count of draws only. -/
theorem deliverInto_eq (f : Frame) (j : Nat) (s : State) :
    deliverInto f j s =
      { s with
        ram := (deliverInto f j s).ram
        iflag := setBit s.iflag j
        draws := s.draws + 1 } := by
  simp only [deliverInto]
  rw [putWords_eq]
  rfl

/-- A delivered frame goes to one buffer, or nowhere. -/
theorem deliver_spec {f : Frame} {s t : State} (h : deliver f s = .ok t) :
    (∃ j, findRx f.idw s (List.range Config.mbMax) = .ok (some j) ∧ t = deliverInto f j s) ∨
      (findRx f.idw s (List.range Config.mbMax) = .ok none ∧ t = s) := by
  rw [deliver, thenDo_eq_ok] at h
  obtain ⟨r, hr, h⟩ := h
  cases r with
  | none => exact .inr ⟨hr, (Except.ok.inj h).symm⟩
  | some j => exact .inl ⟨j, hr, (Except.ok.inj h).symm⟩

/-- A delivery touches RAM, flags and the count of draws only. -/
theorem deliver_frame {f : Frame} {s t : State} (h : deliver f s = .ok t) :
    t = { s with ram := t.ram, iflag := t.iflag, draws := t.draws } := by
  obtain ⟨j, _, rfl⟩ | ⟨_, rfl⟩ := deliver_spec h
  · conv_lhs => rw [deliverInto_eq]
    conv_rhs => rw [deliverInto_eq]
  · rfl

/-- A TX(i) step touches RAM, flags, requests and the count of draws only. -/
theorem txStep_frame {i : Nat} {s t : State} (h : txStep i s = .ok t) :
    t = { s with ram := t.ram, iflag := t.iflag, txPending := t.txPending, draws := t.draws } := by
  simp only [txStep, thenDo_eq_ok] at h
  obtain ⟨cs, _, f, _, h⟩ := h
  split at h
  · rw [deliver_frame h]
    rfl
  · cases h
    rfl

/-- A RX-FRAME step touches RAM, flags and the count of draws only. -/
theorem rxFrameStep_frame {s t : State} (h : rxFrameStep s = .ok t) :
    t = { s with ram := t.ram, iflag := t.iflag, draws := t.draws } := by
  rw [deliver_frame h]
  rfl

end Sys2Proof.Machine
end

