-- ==== Sys2Proof/Laws/Encoding.lean ====
section
/-! SUPPORT. The fields of encoded words: what the decoder's `bits` read from the command, CFG and TPAR words
(R77, R81, R85). -/

namespace Sys2Proof

theorem bits_ofNat (n hi lo : Nat) :
    bits (BitVec.ofNat 32 n) hi lo = n % 4294967296 / 2 ^ lo % 2 ^ (hi - lo + 1) := by
  simp [bits, BitVec.toNat_ofNat]

/-! ## The command word (R77) -/

theorem bits_commandWord_op {op inst len : Nat} (ho : op < 16) :
    bits (commandWord op inst len) 3 0 = op := by
  rw [commandWord, bits_ofNat]; omega

theorem bits_commandWord_inst {op inst len : Nat} (ho : op < 16) (hi : inst < 16) :
    bits (commandWord op inst len) 7 4 = inst := by
  rw [commandWord, bits_ofNat]; omega

theorem bits_commandWord_reserved {op inst len : Nat} (ho : op < 16) (hi : inst < 16) :
    bits (commandWord op inst len) 15 8 = 0 := by
  rw [commandWord, bits_ofNat]; omega

theorem bits_commandWord_len {op inst len : Nat} (ho : op < 16) (hi : inst < 16) (hl : len < 65536) :
    bits (commandWord op inst len) 31 16 = len := by
  rw [commandWord, bits_ofNat]; omega

/-- A command word built from fields that fit passes R88 items 1 to 3. -/
theorem commandWord_accepted {op inst len : Nat} (ho : 1 ≤ op ∧ op ≤ 6) (hi : inst < 16)
    (hl : len < 65536) (h : op = 2 ∨ op = 3 ∨ len = 0) :
    commandKnown (commandWord op inst len) = true ∧
      commandClean (commandWord op inst len) = true := by
  have h16 : op < 16 := by omega
  simp only [commandKnown, commandClean, bits_commandWord_op h16,
    bits_commandWord_reserved h16 hi, bits_commandWord_len h16 hi hl, Bool.and_eq_true,
    Bool.or_eq_true, decide_eq_true_eq]
  exact ⟨ho, trivial, or_assoc.mpr h⟩

/-! ## The coded fields (R81) -/

@[simp] theorem modeOfBits_toBits (m : Mode) : modeOfBits (modeToBits m) = m := by cases m <;> rfl

@[simp] theorem pclassOfBits_toBits (c : PClass) : pclassOfBits (pclassToBits c) = c := by
  cases c <;> rfl

@[simp] theorem protoOfBits_toBits (p : Proto) : protoOfBits (protoToBits p) = p := by cases p <;> rfl

@[simp] theorem clkOfBits_toBits (c : ClkSrc) : clkOfBits (clkToBits c) = c := by cases c <;> rfl

@[simp] theorem idTypeOfBits_toBits (t : IdType) : idTypeOfBits (idTypeToBits t) = t := by
  cases t <;> rfl

theorem modeToBits_lt (m : Mode) : modeToBits m < 8 := by cases m <;> decide

theorem pclassToBits_lt (c : PClass) : pclassToBits c < 4 := by cases c <;> decide

theorem protoToBits_lt (p : Proto) : protoToBits p < 2 := by cases p <;> decide

theorem clkToBits_lt (c : ClkSrc) : clkToBits c < 2 := by cases c <;> decide

theorem idTypeToBits_lt (t : IdType) : idTypeToBits t < 2 := by cases t <;> decide

theorem modeToBits_ofBits {n : Nat} (h : n < 8) : modeToBits (modeOfBits n) = n := by
  revert h n; decide

theorem pclassToBits_ofBits {n : Nat} (h : n < 4) : pclassToBits (pclassOfBits n) = n := by
  revert h n; decide

theorem protoToBits_ofBits {n : Nat} (h : n < 2) : protoToBits (protoOfBits n) = n := by
  revert h n; decide

theorem clkToBits_ofBits {n : Nat} (h : n < 2) : clkToBits (clkOfBits n) = n := by
  revert h n; decide

theorem idTypeToBits_ofBits {n : Nat} (h : n < 2) : idTypeToBits (idTypeOfBits n) = n := by
  revert h n; decide

end Sys2Proof
end

