-- ==== Sys2Proof/Laws/Writes.lean ====
section
/-! SUPPORT. Block writes whose checks pass, and the frame of every block write: what it stores, what its
side effects are (R61 to R65, R74, R75), and the words it leaves alone. -/

namespace Sys2Proof.Machine

/-! ## Which bits a write changes -/

theorem changes_false_of {mask old new : Word} (h : new &&& mask = old &&& mask) :
    changes mask old new = false :=
  changes_eq_false.mpr h.symm

theorem changes_true_of {mask old new : Word} (h : new &&& mask ≠ old &&& mask) :
    changes mask old new = true := by
  cases hc : changes mask old new
  · exact absurd (changes_eq_false.mp hc).symm h
  · rfl

/-- A changed bit under the mask is a change. -/
theorem changes_of_bit {mask old new : Word} (j : Nat) (hm : mask.getLsbD j = true)
    (h : new.getLsbD j ≠ old.getLsbD j) : changes mask old new = true := by
  apply changes_true_of
  intro he
  have := congrArg (fun w : Word => w.getLsbD j) he
  simp only [BitVec.getLsbD_and, hm, Bool.and_true] at this
  exact h this

/-- Under a one-bit mask an equal bit is no change. -/
theorem changes_bit_false {mask old new : Word} (j : Nat) (hm : mask = bitWord j)
    (h : new.getLsbD j = old.getLsbD j) : changes mask old new = false := by
  apply changes_false_of
  apply word_ext
  intro i _
  rw [BitVec.getLsbD_and, BitVec.getLsbD_and, hm, getLsbD_bitWord]
  by_cases hi : i = j
  · subst hi; rw [h]
  · simp [hi]

/-- Where two masks cover the word, words that differ and agree under one differ under the other. -/
theorem changes_of_cover {m n old new : Word} (hc : m ||| n = ~~~0#32)
    (h1 : new &&& n = old &&& n) (h : new ≠ old) : changes m old new = true := by
  apply changes_true_of
  intro he
  apply h
  apply word_ext
  intro i hi
  have a := congrArg (fun w : Word => w.getLsbD i) he
  have b := congrArg (fun w : Word => w.getLsbD i) h1
  have c := congrArg (fun w : Word => w.getLsbD i) hc
  simp only [BitVec.getLsbD_and, BitVec.getLsbD_or, BitVec.getLsbD_not, BitVec.getLsbD_zero, hi] at a b c
  revert a b c
  cases m.getLsbD i <;> cases n.getLsbD i <;> simp

/-! ## The freeze fields of MCR -/

theorem maxMb_congr {a b : Word} (h : ∀ i, i ≤ 6 → a.getLsbD i = b.getLsbD i) : maxMb a = maxMb b := by
  unfold maxMb bits
  apply Nat.eq_of_testBit_eq
  intro i
  rw [Nat.testBit_mod_two_pow, Nat.testBit_mod_two_pow, Nat.testBit_div_two_pow,
    Nat.testBit_div_two_pow]
  by_cases hi : i < 7
  · have := h i (by omega)
    simp only [BitVec.getLsbD] at this
    simp [hi, this]
  · simp [hi]

theorem maxMb_bits {a b : Word} (h : maxMb a = maxMb b) (i : Nat) (hi : i ≤ 6) :
    a.getLsbD i = b.getLsbD i := by
  unfold maxMb bits at h
  have := congrArg (fun n => n.testBit i) h
  simp only [Nat.testBit_mod_two_pow, Nat.testBit_div_two_pow] at this
  have h7 : i < 6 - 0 + 1 := by omega
  simp only [h7, decide_true, Bool.true_and, Nat.add_zero] at this
  exact this

theorem getLsbD_mcrFreeze (i : Nat) : mcrFreeze.getLsbD i = (decide (i ≤ 6) || decide (i = 11)) := by
  by_cases hi : i < 32
  · have h : ∀ j : Fin 32, mcrFreeze.getLsbD j.val = (decide (j.val ≤ 6) || decide (j.val = 11)) := by
      decide
    exact h ⟨i, hi⟩
  · rw [BitVec.getLsbD_of_ge _ _ (by omega)]
    simp; omega

/-- The freeze fields of two MCR words agree exactly when FDEN and MAXMB do. -/
theorem and_mcrFreeze_eq_iff {a b : Word} :
    a &&& mcrFreeze = b &&& mcrFreeze ↔ fdEn a = fdEn b ∧ maxMb a = maxMb b := by
  constructor
  · intro he
    have key : ∀ i, mcrFreeze.getLsbD i = true → a.getLsbD i = b.getLsbD i := by
      intro i hi
      have := congrArg (fun w : Word => w.getLsbD i) he
      simp only [BitVec.getLsbD_and, hi, Bool.and_true] at this
      exact this
    exact ⟨key 11 (by decide), maxMb_congr fun i hi => key i (by rw [getLsbD_mcrFreeze]; simp [hi])⟩
  · rintro ⟨h1, h2⟩
    apply word_ext
    intro i _
    rw [BitVec.getLsbD_and, BitVec.getLsbD_and, getLsbD_mcrFreeze]
    by_cases h : i ≤ 6
    · rw [maxMb_bits h2 i h]
    · by_cases h' : i = 11
      · subst h'
        unfold fdEn at h1
        rw [h1]
      · simp [h, h']

/-- The MCR word after a host write (R28). -/
theorem mcrIs_hostWrite (old v : Word) :
    McrIs (mergeBits mcrWritable old v) old (mdis v) (frz v) (halt v) (fdEn v) (maxMb v) := by
  have ha := acks_of_host_write old v
  refine ⟨?_, ?_, ?_, ?_, ?_, ha.1, ha.2.1, ha.2.2, mergeBits_and_of_disjoint _ _ (by decide)⟩
  · unfold mdis; rw [getLsbD_mergeBits, if_pos (by decide)]
  · unfold frz; rw [getLsbD_mergeBits, if_pos (by decide)]
  · unfold halt; rw [getLsbD_mergeBits, if_pos (by decide)]
  · unfold fdEn; rw [getLsbD_mergeBits, if_pos (by decide)]
  · apply maxMb_congr
    intro i hi
    rw [getLsbD_mergeBits, if_pos]
    have h : ∀ j : Fin 7, mcrWritable.getLsbD j.val = true := by decide
    exact h ⟨i, by omega⟩

/-! ## Offsets -/

theorem blockWord_unmapped {off : Nat} (h4 : off % 4 = 0) (h : offsetMapped off = false) :
    blockWord off = .error .unmapped := by
  simp only [offsetMapped, Bool.or_eq_false_iff, Bool.and_eq_false_iff, decide_eq_false_iff_not] at h
  unfold blockWord offMcr offCtrl1 offIflag1 offCbt offFdctrl offFdcbt
  repeat (rw [if_neg (by omega)])

theorem blockWord_mapped {off : Nat} (h : offsetMapped off = true) : ∃ w, blockWord off = .ok w := by
  simp only [offsetMapped, Bool.or_eq_true, Bool.and_eq_true, decide_eq_true_eq] at h
  obtain (((((h | h) | h) | h) | h) | h) | ⟨h4, h | h⟩ := h
  · subst h; exact ⟨_, rfl⟩
  · subst h; exact ⟨_, rfl⟩
  · subst h; exact ⟨_, rfl⟩
  · subst h; exact ⟨_, rfl⟩
  · subst h; exact ⟨_, rfl⟩
  · subst h; exact ⟨_, rfl⟩
  · have : off = offRam ((off - 0x80) / 4) := by unfold offRam; omega
    rw [this, blockWord_ram (by unfold Config.ramWords; omega)]
    exact ⟨_, rfl⟩
  · have : off = offRximr ((off - 0x880) / 4) := by unfold offRximr; omega
    rw [this, blockWord_rximr (by unfold Config.mbMax; omega)]
    exact ⟨_, rfl⟩

/-- A write to a RAM word of an enabled module. -/
theorem regWrite_ram {k : Nat} {s : State} (v : Word) (hk : k < Config.ramWords)
    (hl : lpmAck s.mcr = false) : regWrite (offRam k) v s = writeRam k v s := by
  simp [regWrite, blockWord_ram hk, writeWord, moduleEnabled, hl]

/-- A write to a receive mask of an enabled module. -/
theorem regWrite_rximr {i : Nat} {s : State} (v : Word) (hi : i < Config.mbMax)
    (hl : lpmAck s.mcr = false) : regWrite (offRximr i) v s = writeRximr i v s := by
  simp [regWrite, blockWord_rximr hi, writeWord, moduleEnabled, hl]

/-! ## Ownership (R62, R63) -/

theorem engineOwns_of_hostOwns {s : State} {i : Nat} (h : HostOwns s i) : engineOwns s i = .ok false := by
  obtain h | ⟨w, hw, h1, h2⟩ := h
  · simp [engineOwns, h]
  · unfold engineOwns
    split
    · rw [hw]; simp [h1]; simpa using h2
    · rfl

theorem engineOwns_of_engineOwns {s : State} {i : Nat} (h : EngineOwns s i) :
    engineOwns s i = .ok true := by
  obtain ⟨h, w, hw, h1⟩ := h
  simp only [engineOwns, h, if_true, hw, needed_some, thenDo_ok]
  obtain h1 | h1 := h1 <;> simp [h1]

theorem hostOwns_of_engineOwns {s : State} {i : Nat} (h : engineOwns s i = .ok false) :
    HostOwns s i := by
  unfold engineOwns at h
  split at h
  · rw [thenDo_eq_ok] at h
    obtain ⟨w, hw, h⟩ := h
    have h := Except.ok.inj h
    rw [Bool.or_eq_false_iff, beq_eq_false_iff_ne] at h
    refine .inr ⟨w, needed_eq_ok.mp hw, h.1, ?_⟩
    rintro ⟨h1, h2⟩
    simp [h1, h2] at h
  · rename_i ho
    exact .inl (by simpa using ho)

/-- In freeze and while disabled HOST owns every buffer. -/
theorem hostOwns_of_frozen {s : State} (i : Nat) (h : frzAck s.mcr = true) : HostOwns s i :=
  .inl (by simp [operational, operationalMcr, h])

/-- What lets a host write of a RAM word of buffer `i` pass: HOST owns it, or it is a revocation. -/
theorem hostMayWrite_spec {k i : Nat} {v : Word} {s : State} (h : hostMayWrite k i v s = .ok ()) :
    HostOwns s i ∨ isRevocation k i v s = true := by
  rw [hostMayWrite, thenDo_eq_ok] at h
  obtain ⟨o, ho, h⟩ := h
  rw [check_eq_ok, Bool.or_eq_true] at h
  obtain h | h := h
  · left
    apply hostOwns_of_engineOwns
    rw [ho]
    simpa using h
  · exact .inr h

/-! ## RAM writes -/

/-- The CS word of a pool buffer is its first word. -/
theorem isCsWord_eq {s : State} {k i : Nat} (hi : i = k / bufWords (hwClass s))
    (hp : i < poolSize (hwClass s)) : isCsWord k s = decide (k = csIndex (hwClass s) i) := by
  subst hi
  simp only [isCsWord, hp, decide_true, Bool.and_true, csIndex]
  apply decide_eq_decide.mpr
  cases hwClass s <;> simp only [bufWords] <;> omega

/-- A word of the pool is a RAM word. -/
theorem ram_of_pool {c : PClass} {k : Nat} (h : k / bufWords c < poolSize c) : k < Config.ramWords := by
  cases c <;> simp only [bufWords, poolSize, Config.ramWords] at h ⊢ <;> omega

theorem writeRam_cs {s : State} {k i : Nat} {v : Word} (hi : i = k / bufWords (hwClass s))
    (hp : i < poolSize (hwClass s)) (ho : HostOwns s i) (hk : k = csIndex (hwClass s) i)
    (hd : codeDefined (codeOf v) = true) :
    writeRam k v s =
      .ok { s with ram := cellWrite s.ram k v, txPending := clearBit s.txPending i } := by
  have hc : isCsWord k s = true := by rw [isCsWord_eq hi hp, hk]; simp
  simp only [writeRam, ← hi, hp, if_true, hostMayWrite, engineOwns_of_hostOwns ho, thenDo_ok,
    Bool.not_false, Bool.true_or, check_true, hc, hd]
  rfl

theorem writeRam_other {s : State} {k i : Nat} {v : Word} (hi : i = k / bufWords (hwClass s))
    (hp : i < poolSize (hwClass s)) (ho : HostOwns s i) (hk : k ≠ csIndex (hwClass s) i) :
    writeRam k v s = .ok { s with ram := cellWrite s.ram k v } := by
  have hc : isCsWord k s = false := by rw [isCsWord_eq hi hp]; simp [hk]
  simp only [writeRam, ← hi, hp, if_true, hostMayWrite, engineOwns_of_hostOwns ho, thenDo_ok,
    Bool.not_false, Bool.true_or, check_true, hc]
  rfl

theorem writeRam_beyond {s : State} {k i : Nat} {v : Word} (hi : i = k / bufWords (hwClass s))
    (hp : poolSize (hwClass s) ≤ i) :
    writeRam k v s = .ok { s with ram := cellWrite s.ram k v } := by
  have : ¬ i < poolSize (hwClass s) := by omega
  simp only [writeRam, ← hi, this, if_false]
  rfl

/-- A revocation passes although ENGINE owns the buffer (R63). -/
theorem writeRam_revocation {s : State} {k i : Nat} {v : Word} (hi : i = k / bufWords (hwClass s))
    (hp : i < poolSize (hwClass s)) (hk : k = csIndex (hwClass s) i)
    (ho : ∃ b, engineOwns s i = .ok b) (hr : isRevocation k i v s = true) :
    writeRam k v s =
      .ok { s with ram := cellWrite s.ram k v, txPending := clearBit s.txPending i } := by
  have hc : isCsWord k s = true := by rw [isCsWord_eq hi hp, hk]; simp
  have hd : codeDefined (codeOf v) = true := by
    simp only [isRevocation, Bool.and_eq_true, beq_iff_eq] at hr
    rw [hr.2]; rfl
  obtain ⟨b, ho⟩ := ho
  simp only [writeRam, ← hi, hp, if_true, hostMayWrite, ho, thenDo_ok, hr, Bool.or_true, check_true,
    hc, hd]
  rfl

/-! ## Writes to the words of a buffer, and to the timing registers -/

theorem csIndex_lt_ram {c : PClass} {i : Nat} (h : i < poolSize c) : csIndex c i < Config.ramWords := by
  have h1 := csIndex_lt h
  have h2 := bufWords_eq c
  omega

theorem csIndex_div {c : PClass} (i : Nat) : csIndex c i / bufWords c = i := by
  have h : 0 < bufWords c := by rw [bufWords_eq]; omega
  exact Nat.mul_div_cancel _ h

/-- A word of a buffer HOST owns that is not its CS word. -/
theorem regWrite_bufferWord {s : State} {c : PClass} {j m : Nat} (v : Word) (hc : hwClass s = c)
    (hl : lpmAck s.mcr = false) (hj : j < poolSize c) (ho : HostOwns s j) (hm : m < bufWords c)
    (h0 : m ≠ 0) :
    regWrite (offRam (csIndex c j + m)) v s =
      .ok { s with ram := cellWrite s.ram (csIndex c j + m) v } := by
  have hlt := csIndex_lt hj
  rw [regWrite_ram v (by omega) hl]
  refine writeRam_other (i := j) ?_ ?_ ho ?_
  · rw [hc]; exact (index_div hm).symm
  · rw [hc]; exact hj
  · rw [hc]; omega

/-- The CS word of a buffer HOST owns. -/
theorem regWrite_csWord {s : State} {c : PClass} {j : Nat} (v : Word) (hc : hwClass s = c)
    (hl : lpmAck s.mcr = false) (hj : j < poolSize c) (ho : HostOwns s j)
    (hd : codeDefined (codeOf v) = true) :
    regWrite (offRam (csIndex c j)) v s =
      .ok { s with ram := cellWrite s.ram (csIndex c j) v, txPending := clearBit s.txPending j } := by
  rw [regWrite_ram v (csIndex_lt_ram hj) hl]
  refine writeRam_cs (i := j) ?_ ?_ ho ?_ hd
  · rw [hc, csIndex_div]
  · rw [hc]; exact hj
  · rw [hc]

theorem regWrite_cbt {v : Word} {s : State} (h : frzAck s.mcr = true ∨ v = s.cbt) :
    regWrite offCbt v s = .ok { s with cbt := v } := by
  show writeCbt v s = _
  have h2 : (frzAck s.mcr || !changes (~~~0#32) s.cbt v) = true := by
    obtain hf | rfl := h
    · simp [hf]
    · rw [changes_false_of rfl]; simp
  simp only [writeCbt, inWindow, h2]
  rfl

theorem regWrite_fdcbt {v : Word} {s : State} (hn : v &&& fdcbtNm = s.fdcbt &&& fdcbtNm)
    (h : frzAck s.mcr = true ∨ v = s.fdcbt) : regWrite offFdcbt v s = .ok { s with fdcbt := v } := by
  show writeFdcbt v s = _
  have h2 : (frzAck s.mcr || !changes (~~~fdcbtNm) s.fdcbt v) = true := by
    obtain hf | rfl := h
    · simp [hf]
    · rw [changes_false_of rfl]; simp
  simp only [writeFdcbt, keepsNm, changes_false_of hn, inWindow, h2]
  rfl

theorem regWrite_mcr {v : Word} {s : State} (hn : v &&& mcrNm = s.mcr &&& mcrNm)
    (h : frzAck s.mcr = true ∨ (fdEn v = fdEn s.mcr ∧ maxMb v = maxMb s.mcr)) :
    regWrite offMcr v s = .ok { s with mcr := mergeBits mcrWritable s.mcr v } := by
  show writeMcr v s = _
  have h2 : (frzAck s.mcr || !changes mcrFreeze s.mcr v) = true := by
    obtain hf | hf := h
    · simp [hf]
    · rw [changes_false_of (and_mcrFreeze_eq_iff.mpr hf)]; simp
  simp only [writeMcr, keepsNm, changes_false_of hn, inWindow, h2]
  rfl

theorem regWrite_ctrl1 {v : Word} {s : State} (hn : v &&& ctrl1Nm = s.ctrl1 &&& ctrl1Nm)
    (hf : frzAck s.mcr = true ∨ v.getLsbD 12 = s.ctrl1.getLsbD 12)
    (hl : lpmAck s.mcr = true ∨ v.getLsbD 13 = s.ctrl1.getLsbD 13) :
    regWrite offCtrl1 v s = .ok { s with ctrl1 := v } := by
  show writeCtrl1 v s = _
  have h2 : (frzAck s.mcr || !changes ctrl1Lpb s.ctrl1 v) = true := by
    obtain hf | hf := hf
    · simp [hf]
    · rw [changes_bit_false 12 (by decide) hf]; simp
  have h3 : (lpmAck s.mcr || !changes ctrl1Clk s.ctrl1 v) = true := by
    obtain hl | hl := hl
    · simp [hl]
    · rw [changes_bit_false 13 (by decide) hl]; simp
  simp only [writeCtrl1, keepsNm, changes_false_of hn, inWindow, h2, h3]
  rfl

theorem regWrite_fdctrl {v : Word} {s : State} (hn : v &&& fdctrlNm = s.fdctrl &&& fdctrlNm)
    (h : frzAck s.mcr = true ∨ v = s.fdctrl) :
    regWrite offFdctrl v s = .ok { s with fdctrl := v } := by
  show writeFdctrl v s = _
  have h2 : (frzAck s.mcr || !changes fdctrlFreeze s.fdctrl v) = true := by
    obtain hf | rfl := h
    · simp [hf]
    · rw [changes_false_of rfl]; simp
  simp only [writeFdctrl, keepsNm, changes_false_of hn, inWindow, h2]
  rfl

/-- A write of one flag bit is made where that buffer's control word is not poison. -/
theorem regWrite_flag {s : State} {j : Nat} {w : Word} (hw : hwCs s j = some w) :
    regWrite offIflag1 (bitWord j) s =
      .ok { s with
            iflag := w1c s.iflag (bitWord j)
            txPending := s.txPending ||| requestMask (bitWord j) s
            ram := cellMap (releasedWord (bitWord j) (hwClass s)) s.ram } := by
  have h : flagsReadable (bitWord j) s = true := by
    simp only [flagsReadable, List.all_eq_true, List.mem_range]
    intro i _
    rw [getLsbD_bitWord]
    by_cases h : i = j
    · subst h; simp [hw]
    · simp [h]
  show writeIflag _ _ = _
  simp only [writeIflag, h]
  rfl

/-- The host range check of R57. -/
theorem hostRangeOk_iff {p : Config.Params} {a : Word} {len : Nat} :
    hostRangeOk p a len = true ↔ HostRangeFits p a.toNat len := by
  simp only [hostRangeOk, HostRangeFits, Bool.or_eq_true, Bool.and_eq_true, decide_eq_true_eq]
  unfold Config.hostBytes Config.windowBytes
  omega

/-! ## The frame of a block write -/

theorem getLsbD_requestMask (v : Word) (s : State) (b : Nat) :
    (requestMask v s).getLsbD b =
      (v.getLsbD b && decide (b < poolSize (hwClass s)) && hwCodeIs s codeTxData b) := by
  rw [requestMask, getLsbD_maskOf]
  by_cases h : b < poolSize (hwClass s)
  · have := poolSize_le (hwClass s)
    simp only [Config.mbMax] at this
    have h32 : b < 32 := by omega
    simp [h32]
  · simp [h]

/-- A word that a flag write does not release stays. -/
theorem releasedWord_of_not {v : Word} {s : State} {k : Nat} {w : Word}
    (hw : cellRead s.ram k = some w)
    (h : ¬ ∃ i, i < poolSize (hwClass s) ∧ k = csIndex (hwClass s) i ∧ v.getLsbD i = true ∧
      hwCodeIs s codeRxFull i = true) : releasedWord v (hwClass s) k w = w := by
  unfold releasedWord
  rw [if_neg]
  rintro ⟨h1, h2, h3, h4⟩
  apply h
  have hk : k = csIndex (hwClass s) (k / bufWords (hwClass s)) := by
    simp only [csIndex]
    revert h1
    cases hwClass s <;> simp only [bufWords] <;> omega
  refine ⟨_, h2, hk, h3, ?_⟩
  simp only [hwCodeIs, hwCs, ← hk, hw]
  simp [h4]

/-- Every block write changes at most the word it names, with the side effects of R61. -/
theorem regWrite_frame {off : Nat} {v : Word} {s t : State} {w : BlockWord}
    (hw : blockWord off = .ok w) (h : regWrite off v s = .ok t) : BlockFrame (some w) v s t := by
  obtain ⟨w', hw', h⟩ := regWrite_spec h
  rw [hw] at hw'
  cases hw'
  have keep : ∀ x, mergeBits mcrWritable s.mcr x &&& ~~~mcrWritable = s.mcr &&& ~~~mcrWritable :=
    fun x => mergeBits_and_of_disjoint _ _ (by decide)
  cases w with
  | mcr =>
    rw [writeMcr_spec h]
    exact ⟨fun h => absurd rfl h, keep v, fun _ => rfl, fun _ => rfl, fun _ => rfl, fun _ => rfl,
      fun _ _ => rfl, fun _ _ => rfl, fun _ _ _ => rfl, fun _ _ _ => rfl⟩
  | ctrl1 =>
    rw [(writeCtrl1_spec h).2.2.2]
    exact ⟨fun _ => rfl, rfl, fun h => absurd rfl h, fun _ => rfl, fun _ => rfl, fun _ => rfl,
      fun _ _ => rfl, fun _ _ => rfl, fun _ _ _ => rfl, fun _ _ _ => rfl⟩
  | cbt =>
    rw [writeCbt_spec h]
    exact ⟨fun _ => rfl, rfl, fun _ => rfl, fun h => absurd rfl h, fun _ => rfl, fun _ => rfl,
      fun _ _ => rfl, fun _ _ => rfl, fun _ _ _ => rfl, fun _ _ _ => rfl⟩
  | fdcbt =>
    rw [(writeFdcbt_spec h).2]
    exact ⟨fun _ => rfl, rfl, fun _ => rfl, fun _ => rfl, fun h => absurd rfl h, fun _ => rfl,
      fun _ _ => rfl, fun _ _ => rfl, fun _ _ _ => rfl, fun _ _ _ => rfl⟩
  | fdctrl =>
    rw [(writeFdctrl_spec h).2]
    exact ⟨fun _ => rfl, rfl, fun _ => rfl, fun _ => rfl, fun _ => rfl, fun h => absurd rfl h,
      fun _ _ => rfl, fun _ _ => rfl, fun _ _ _ => rfl, fun _ _ _ => rfl⟩
  | rximr i =>
    rw [writeRximr_spec h.2]
    refine ⟨fun _ => rfl, rfl, fun _ => rfl, fun _ => rfl, fun _ => rfl, fun _ => rfl,
      fun _ _ => rfl, ?_, fun _ _ _ => rfl, fun _ _ _ => rfl⟩
    intro j hj
    exact cellRead_cellWrite_other _ _ fun e => hj (by rw [e])
  | iflag1 =>
    rw [(writeIflag_spec h).2]
    refine ⟨fun _ => rfl, rfl, fun _ => rfl, fun _ => rfl, fun _ => rfl, fun _ => rfl, ?_,
      fun _ _ => rfl, ?_, ?_⟩
    · intro b hb
      show (w1c s.iflag v).getLsbD b = _
      rw [getLsbD_w1c, hb rfl]
      simp
    · intro k _ hk
      show cellRead (cellMap _ s.ram) k = _
      rw [cellRead_cellMap]
      cases hr : cellRead s.ram k with
      | none => rfl
      | some x => rw [Option.map_some, releasedWord_of_not hr (hk rfl)]
    · intro b hb _
      show (s.txPending ||| requestMask v s).getLsbD b = _
      have hb := hb rfl
      rw [BitVec.getLsbD_or, getLsbD_requestMask]
      cases hv : v.getLsbD b <;> cases hc : hwCodeIs s codeTxData b <;>
        by_cases hp : b < poolSize (hwClass s) <;> simp_all
  | ram k =>
    have hr : ∀ j x, (some (BlockWord.ram k) ≠ some (.ram j)) →
        cellRead (cellWrite s.ram k x) j = cellRead s.ram j := by
      intro j x hj
      exact cellRead_cellWrite_other _ _ fun e => hj (by rw [e])
    obtain ⟨_, ⟨hc, _, ht⟩ | ⟨hc, ht⟩⟩ := writeRam_spec h.2
    · rw [ht]
      refine ⟨fun _ => rfl, rfl, fun _ => rfl, fun _ => rfl, fun _ => rfl, fun _ => rfl,
        fun _ _ => rfl, fun _ _ => rfl, fun j hj _ => hr j v hj, ?_⟩
      intro b _ hb
      show (clearBit s.txPending _).getLsbD b = _
      rw [getLsbD_clearBit]
      by_cases he : b = k / bufWords (hwClass s)
      · exfalso
        simp only [isCsWord, Bool.and_eq_true, decide_eq_true_eq] at hc
        have hk : k = csIndex (hwClass s) b := by
          rw [he]
          simp only [csIndex]
          have h1 := hc.1
          revert h1
          cases hwClass s <;> simp only [bufWords] <;> omega
        have := hb (by rw [← hk])
        omega
      · simp [he]
    · rw [ht]
      exact ⟨fun _ => rfl, rfl, fun _ => rfl, fun _ => rfl, fun _ => rfl, fun _ => rfl,
        fun _ _ => rfl, fun _ _ => rfl, fun j hj _ => hr j v hj, fun _ _ _ => rfl⟩

/-- A state that differs in the sequencer and the statuses only is inside every frame. -/
theorem BlockFrame.of_block_eq {target : Option BlockWord} {flags : Word} {s t : State}
    (h : t = { s with seq := t.seq, statuses := t.statuses }) : BlockFrame target flags s t := by
  rw [h]
  exact ⟨fun _ => rfl, rfl, fun _ => rfl, fun _ => rfl, fun _ => rfl, fun _ => rfl,
    fun _ _ => rfl, fun _ _ => rfl, fun _ _ _ => rfl, fun _ _ _ => rfl⟩

end Sys2Proof.Machine
end

