-- ==== Sys2Proof/Laws/Run.lean ====
section
/-! SUPPORT. Runs of one operation (`runExec`) and of a list of moves (`RunsTo`): one step at a time, two
runs in a row, and a loop whose micro-step is known. -/

namespace Sys2Proof.Machine

@[simp] theorem runExec_zero (i : Instr) (s : State) : runExec i 0 s = .next s := rfl

/-- A run whose first micro-step is known. -/
theorem runExec_step {i : Instr} {s t : State} (n : Nat) (h : exec i s = .next t) :
    runExec i (n + 1) s = runExec i n t := by
  simp only [runExec, h]

theorem runExec_fault {i : Instr} {s : State} {r : Fault} (n : Nat) (h : exec i s = .fault r) :
    runExec i (n + 1) s = .fault r := by
  simp only [runExec, h]

/-- Two runs in a row. -/
theorem runExec_add {i : Instr} {s t : State} {m : Nat} (n : Nat) (h : runExec i m s = .next t) :
    runExec i (m + n) s = runExec i n t := by
  induction m generalizing s with
  | zero =>
    simp only [runExec_zero, Host.Outcome.next.injEq] at h
    rw [h, Nat.zero_add]
  | succ m ih =>
    rw [Nat.add_right_comm]
    simp only [runExec] at h ⊢
    cases he : exec i s with
    | next u => rw [he] at h; exact ih h
    | fault r => rw [he] at h; cases h
    | refused r => rw [he] at h; cases h

/-- A run of one micro-step. -/
theorem runExec_one {i : Instr} {s t : State} (h : exec i s = .next t) : runExec i 1 s = .next t := by
  rw [show (1 : Nat) = 0 + 1 from rfl, runExec_step 0 h, runExec_zero]

/-- A loop: where every micro-step from the `k`-th state of a sequence leads to the next state, `n`
micro-steps lead to the `n`-th. -/
theorem runExec_loop {i : Instr} (f : Nat → State) (n : Nat)
    (h : ∀ k, k < n → exec i (f k) = .next (f (k + 1))) : runExec i n (f 0) = .next (f n) := by
  induction n with
  | zero => rfl
  | succ n ih =>
    rw [runExec_add 1 (ih fun k hk => h k (by omega))]
    exact runExec_one (h n (by omega))

/-- A loop with an invariant: where every micro-step from a state the invariant describes leads to one it
describes for the next count, `n` micro-steps end in one it describes for `n`. -/
theorem runExec_inv {i : Instr} (P : Nat → State → Prop) (n : Nat) (s : State) (h0 : P 0 s)
    (h : ∀ k u, k < n → P k u → ∃ v, exec i u = .next v ∧ P (k + 1) v) :
    ∃ t, runExec i n s = .next t ∧ P n t := by
  induction n with
  | zero => exact ⟨s, rfl, h0⟩
  | succ n ih =>
    obtain ⟨t, h1, h2⟩ := ih fun k u hk => h k u (by omega)
    obtain ⟨v, h3, h4⟩ := h n t (by omega) h2
    exact ⟨v, by rw [runExec_add 1 h1]; exact runExec_one h3, h4⟩

@[simp] theorem RunsTo_nil (s t : State) : RunsTo [] s t ↔ t = s := Iff.rfl

/-- A run whose first move is known. -/
theorem RunsTo_cons {m : Move} {ms : List Move} {s t u : State} (hm : m ∈ enabledMoves s)
    (h : runMove m s = .next u) : RunsTo (m :: ms) s t ↔ RunsTo ms u t := by
  simp only [RunsTo, hm, h, Host.Outcome.next.injEq, exists_eq_left', true_and]

/-- Two runs in a row. -/
theorem RunsTo_append {ms ns : List Move} {s t : State} :
    RunsTo (ms ++ ns) s t ↔ ∃ u, RunsTo ms s u ∧ RunsTo ns u t := by
  induction ms generalizing s with
  | nil => simp only [List.nil_append, RunsTo_nil, exists_eq_left]
  | cons m ms ih =>
    simp only [List.cons_append, RunsTo, ih]
    constructor
    · rintro ⟨hm, v, hv, u, h1, h2⟩
      exact ⟨u, ⟨hm, v, hv, h1⟩, h2⟩
    · rintro ⟨u, ⟨hm, v, hv, h1⟩, h2⟩
      exact ⟨hm, v, hv, u, h1, h2⟩

/-- HOST has a step inside an operation. -/
theorem host_enabled {s : State} (h : s.seq.pos ≠ .idle) : .host ∈ enabledMoves s := by
  refine List.mem_filter.mpr ⟨by simp [allMoves], ?_⟩
  simp [moveOn, h]

/-- Inside an operation HOST's step runs the descriptor in seq.desc. -/
theorem hostStep_inside {i : Instr} {ws rest : List Word} {s : State} (hd : decode ws = .ok (i, rest))
    (hp : s.seq.pos ≠ .idle) (hs : s.seq.desc = some ws) : hostStep s = exec i s := by
  have hf : fetch s = .ok (i, s) := by
    unfold fetch
    split
    · rename_i he
      exact absurd he hp
    · rw [hs, needed_some, thenDo_ok, hd]
  simp only [hostStep, hf]

/-- HOST's moves inside an operation whose descriptor decodes run that operation, as long as every state
on the way is inside it and keeps the descriptor. -/
theorem RunsTo_host {i : Instr} {ws rest : List Word} (hd : decode ws = .ok (i, rest)) (n : Nat)
    {s t : State} (h : runExec i n s = .next t)
    (hp : ∀ k u, k < n → runExec i k s = .next u → u.seq.pos ≠ .idle ∧ u.seq.desc = some ws) :
    RunsTo (List.replicate n .host) s t := by
  induction n generalizing s with
  | zero => simpa using h.symm
  | succ n ih =>
    obtain ⟨h1, h2⟩ := hp 0 s (by omega) rfl
    have hs : runMove .host s = exec i s := hostStep_inside hd h1 h2
    simp only [runExec] at h
    cases he : exec i s with
    | next u =>
      rw [he] at h hs
      rw [List.replicate_succ, RunsTo_cons (host_enabled h1) hs]
      refine ih h fun k v hk hv => hp (k + 1) v (by omega) ?_
      rw [runExec_step k he]
      exact hv
    | fault r => rw [he] at h; cases h
    | refused r => rw [he] at h; cases h

end Sys2Proof.Machine
end

