-- ==== Sys2Proof/Laws/Ends.lean ====
section
/-! SUPPORT. The end of a run (R238): a run ends at its first final state, one in which HOST waits for ever
is hung or stuck, and a machine in which no agent can step stays so. The premises of R239: HW_PROMPT implies HW_FAIR, and the schedule `promptMove` waits. -/

namespace Sys2Proof.Machine

@[simp] theorem pollFailed_unlimited {s : State} (h : s.params.pollLimit = none) (f : State → State) :
    s.pollFailed f = s := by
  simp [State.pollFailed, h]

/-- A failed attempt without a limit: the register is read, the condition fails, nothing changes (R226). -/
theorem pollStep_fails {off : Nat} {c : Word → Bool} {p q : Pos} {s : State} {w : Word}
    (hl : s.params.pollLimit = none) (hr : regRead off s = .ok w) (hc : c w = false) :
    pollStep off c p q s = .next s := by
  simp [pollStep, hr, hc, hl]

/-- A poll that fails is a poll. -/
theorem pollFails_inPoll {s : State} (h : pollFails s = true) : inPoll s = true := by
  unfold pollFails at h
  unfold inPoll
  split at h <;> simp_all

theorem inPoll_pos {s : State} (h : inPoll s = true) : s.seq.pos ≠ .idle := by
  intro hp
  simp [inPoll, hp] at h

/-- The descriptor of an operation in progress, in a coherent state. -/
theorem coherent_desc {s : State} (h : coherent s = true) (hp : s.seq.pos ≠ .idle) :
    ∃ ws i rest, s.seq.desc = some ws ∧ decode ws = .ok (i, rest) ∧ posFits i s.sess s.seq.pos = true := by
  unfold coherent at h
  split at h
  · rename_i he
    exact absurd he hp
  · split at h
    · cases h
    · rename_i ws hd
      split at h
      · cases h
      · rename_i i rest hi
        exact ⟨ws, i, rest, hd, hi, h⟩

/-- A failed attempt of a poll without a limit changes at most the sequencer's place in RECEIVE's pass, and
the poll goes on failing. -/
theorem exec_pollFails {i : Instr} {s : State} (hl : s.params.pollLimit = none)
    (hf : pollFails s = true) (hp : posFits i s.sess s.seq.pos = true) :
    ∃ p, exec i s = .next (s.goto p) ∧ pollFails (s.goto p) = true := by
  have stays : ∀ {x : Out State}, x = .next s → ∃ p, x = .next (s.goto p) ∧ pollFails (s.goto p) = true :=
    fun hx => ⟨s.seq.pos, hx, hf⟩
  cases hpos : s.seq.pos with
  | idle => simp [pollFails, hpos] at hf
  | calcTiming q => simp [pollFails, hpos] at hf
  | read32 => simp [pollFails, hpos] at hf
  | write32 => simp [pollFails, hpos] at hf
  | init q =>
    cases i <;> simp only [posFits, hpos, Bool.false_eq_true] at hp
    apply stays
    simp only [exec, execInit, hpos]
    cases q <;> simp only [pollFails, hpos, Bool.false_eq_true] at hf <;>
      simp only [initMicro, initPoll] <;> refine pollStep_fails hl (regRead_mcr s) ?_ <;> simpa using hf
  | transmit q =>
    cases i <;> simp only [posFits, hpos, Bool.false_eq_true] at hp
    cases hc : s.sess.cls with
    | none => simp [hc] at hp
    | some c =>
      apply stays
      simp only [exec, execTransmit, hpos, sessClass, hc, needed_some, tryDo_ok]
      cases q <;> simp only [pollFails, hpos, Bool.false_eq_true] at hf
      exact pollStep_fails hl (regRead_iflag1 s) (by simpa using hf)
  | receive q =>
    cases i <;> simp only [posFits, hpos, Bool.false_eq_true] at hp
    cases hc : s.sess.cls with
    | none => simp [hc] at hp
    | some c =>
      cases q <;> simp only [pollFails, hpos, hc, Bool.false_eq_true] at hf
      rename_i n
      have hn : s.iflag.getLsbD n = false := by
        rw [hc] at hp
        simp only [rxPosFits, decide_eq_true_eq] at hp
        simpa using List.all_eq_true.mp hf n (List.mem_range.mpr hp)
      refine ⟨.receive (.scan (if n + 1 < poolSize c then n + 1 else 0)), ?_, ?_⟩
      · simp only [exec, execReceive, hpos, sessClass, hc, needed_some, tryDo_ok, receiveMicro,
          regRead_iflag1, hn, Bool.false_eq_true, if_false, receivePassFailed]
        split
        · rfl
        · rw [pollFailed_unlimited (s := s.goto (.receive (.scan 0))) hl]
      · simpa [pollFails, hc] using hf

/-- Where HOST alone has a step, the machine takes it. -/
theorem pickMove_host {s : State} (he : .host ∈ enabledMoves s) (ha : ∀ m ∈ enabledMoves s, m = .host) :
    ∃ ag ch, pickMove s = some (.host, { s with agenda := ag, choices := ch }) := by
  have pick : ∀ m ms u, enabledMoves s = m :: ms → ∃ ch, freePick m ms u = (.host, { u with choices := ch }) := by
    intro m ms u h
    rw [h] at ha
    cases ms with
    | nil => exact ⟨u.choices, by rw [freePick, ha m (by simp)]⟩
    | cons m' ms =>
      refine ⟨u.choices + 1, ?_⟩
      rw [freePick]
      congr 1
      have hlt : Config.freeChoice u.choices % ((m' :: ms).length + 1) < (m :: m' :: ms).length :=
        Nat.mod_lt _ (by simp)
      rw [List.getD_eq_getElem _ _ hlt]
      exact ha _ (List.getElem_mem hlt)
  unfold pickMove
  split
  · rename_i h
    simp [h] at he
  · rename_i m ms h
    split
    · obtain ⟨ch, hp⟩ := pick m ms s h
      exact ⟨s.agenda, ch, by rw [hp]⟩
    · rename_i a rest hag
      split
      · rename_i hm
        rw [← h] at hm
        exact ⟨rest, s.choices, by rw [ha a hm]⟩
      · obtain ⟨ch, hp⟩ := pick m ms { s with agenda := rest } h
        exact ⟨rest, ch, by rw [hp]⟩

/-- The steps that are enabled rest on nothing but the block, the program and whether HOST is idle. -/
theorem enabledMoves_goto {s : State} {p : Pos} (hs : s.seq.pos ≠ .idle) (hp : p ≠ .idle) (ag : List Move)
    (ch : Nat) : enabledMoves ({ s with agenda := ag, choices := ch }.goto p) = enabledMoves s := by
  refine List.filter_congr fun m _ => ?_
  cases m <;> first | rfl | simp [moveOn, beq_eq_false_iff_ne.mpr hs, beq_eq_false_iff_ne.mpr hp]

/-- Where no agent can step, none ever can: the step is HOST's failed attempt, and only the schedule and RECEIVE's
place in its pass change. -/
theorem noneCanStep_step {s : State} (hc : coherent s = true) (hs : NoneCanStep s) :
    ∃ p ag ch, step s = .next ({ s with agenda := ag, choices := ch }.goto p) ∧
      NoneCanStep ({ s with agenda := ag, choices := ch }.goto p) := by
  obtain ⟨hl, hf, hm⟩ := hs
  have hp := inPoll_pos (pollFails_inPoll hf)
  obtain ⟨ag, ch, hpick⟩ := pickMove_host (host_enabled hp) hm
  obtain ⟨ws, i, rest, hd, hi, hfit⟩ := coherent_desc hc hp
  obtain ⟨p, he, hfp⟩ := exec_pollFails (s := { s with agenda := ag, choices := ch }) hl hf hfit
  refine ⟨p, ag, ch, ?_, hl, hfp, ?_⟩
  · simp only [step, stepOnce, hpick, runMove]
    exact (hostStep_inside (s := { s with agenda := ag, choices := ch }) hi hp hd).trans he
  · rw [enabledMoves_goto hp (p := p) (inPoll_pos (pollFails_inPoll hfp))]
    exact hm

/-- A state in which no agent has a step is final (R238). -/
theorem final_of_no_step {s : State} (h : enabledMoves s = []) : Final s := by
  have hh : moveOn s .host = false := by
    cases hb : moveOn s .host with
    | false => rfl
    | true =>
      have : Move.host ∈ enabledMoves s := List.mem_filter.mpr ⟨by simp [allMoves], hb⟩
      simp [h] at this
  simpa [moveOn, Final] using hh

/-- A run that ended stays in its last state. -/
theorem IsRun_ended {state : Nat → State} {move : Nat → Option Move} (h : IsRun state move) {n : Nat}
    (hn : move n = none) (k : Nat) : state (n + k) = state n ∧ move (n + k) = none := by
  induction k with
  | zero => exact ⟨rfl, hn⟩
  | succ k ih =>
    obtain ⟨hs, hm, -⟩ := h.ends (n + k) ih.2
    exact ⟨hs.trans ih.1, hm⟩

/-- A run is final at one state at most, and that state is its last (R238). -/
theorem finalAt_last {state : Nat → State} {move : Nat → Option Move} (h : IsRun state move) {n : Nat}
    (hf : FinalAt state n) (k : Nat) : state (n + k) = state n :=
  (IsRun_ended h (h.final n hf.1) k).1

/-- HOST waiting for ever is a hang or stuck (R238). -/
theorem hung_or_stuck {state : Nat → State} {move : Nat → Option Move} {n : Nat}
    (h : WaitsForEver state n) : Hung state move ∨ Stuck state move := by
  by_cases ho : OthersKeepStepping move
  · exact .inl ⟨⟨n, h⟩, ho⟩
  · simp only [OthersKeepStepping, not_forall, not_exists] at ho
    obtain ⟨k, hk⟩ := ho
    exact .inr ⟨⟨n, h⟩, k, fun l m hl hm => by_contra fun hne => hk l m ⟨hl, hm, hne⟩⟩

/-- It is not both. -/
theorem not_hung_and_stuck {state : Nat → State} {move : Nat → Option Move} :
    ¬ (Hung state move ∧ Stuck state move) := by
  rintro ⟨⟨-, ho⟩, -, k, hk⟩
  obtain ⟨l, m, hl, hm, hne⟩ := ho k
  exact hne (hk l m hl hm)

/-- A run that ended where no agent can step is stuck. -/
theorem stuck_of_noneCanStep {state : Nat → State} {move : Nat → Option Move} (h : IsRun state move)
    {n : Nat} (hn : move n = none) (hs : NoneCanStep (state n)) : Stuck state move := by
  refine ⟨⟨n, hs.1, fun k hk => ?_⟩, n, fun l m hl hm => ?_⟩
  · obtain ⟨d, rfl⟩ := Nat.exists_eq_add_of_le hk
    rw [(IsRun_ended h hn d).1]
    exact ⟨pollFails_inPoll hs.2.1, rfl, rfl⟩
  · obtain ⟨d, rfl⟩ := Nat.exists_eq_add_of_le hl
    rw [(IsRun_ended h hn d).2] at hm
    cases hm

/-- HW_PROMPT implies HW_FAIR (R239). -/
theorem hwFair_of_hwPrompt {state : Nat → State} {move : Nat → Option Move} (h : HwPrompt state move) :
    HwFair state move := by
  intro m n ha
  obtain ⟨k, hk, he | he⟩ := h.answers n
  · exact ⟨k, hk, .inl he⟩
  · exact ⟨k, hk, .inr (.inr fun hm => by simp [he m hm] at ha)⟩

/-- The schedule of `promptMove` lets HOST move only where CTRL and ENGINE have answered. -/
theorem promptMove_waits {s : State} (h : promptMove s = .host) : Answered s := by
  intro m hm
  unfold promptMove at h
  cases hf : (enabledMoves s).find? fun m => !(m == .host) && !(m == .rxFrame) with
  | some a =>
    rw [hf] at h
    have := List.find?_some hf
    simp at h
    simp [h] at this
  | none =>
    have := List.find?_eq_none.mp hf m hm
    cases m <;> simp_all [Move.answers]

end Sys2Proof.Machine
end

