-- ==== Sys2Proof/Laws/Frames.lean ====
section
/-! SUPPORT. The frames of micro-steps that only move the sequencer, of a block write that then moves it, and
of the copy to host memory. -/

namespace Sys2Proof.Machine

/-- A micro-step that changes the sequencer and the statuses only is inside the host frame. -/
theorem HostFrame.of_seq {s t : State} (h : t = { s with seq := t.seq, statuses := t.statuses })
    (hd : t.seq.desc = s.seq.desc) (hl : ∃ l, t.statuses = s.statuses ++ l) : HostFrame s t := by
  rw [h]
  exact ⟨rfl, rfl, hd, rfl, rfl, rfl, hl⟩

/-- A failed poll attempt changes the sequencer and the statuses only, where its timeout rule does. -/
theorem pollFailed_frame {s : State} {f : State → State}
    (hf : ∀ u : State,
      f u = { u with seq := (f u).seq, statuses := (f u).statuses } ∧ (f u).seq.desc = u.seq.desc ∧
        (f u).seq.value = u.seq.value ∧ ∃ l, (f u).statuses = u.statuses ++ l) :
    s.pollFailed f =
        { s with seq := (s.pollFailed f).seq, statuses := (s.pollFailed f).statuses } ∧
      (s.pollFailed f).seq.desc = s.seq.desc ∧ (s.pollFailed f).seq.value = s.seq.value ∧
      ∃ l, (s.pollFailed f).statuses = s.statuses ++ l := by
  unfold State.pollFailed
  cases s.params.pollLimit with
  | none => exact ⟨rfl, rfl, rfl, [], by simp⟩
  | some n =>
    dsimp only
    split
    · obtain ⟨h1, h2, h3, h4⟩ := hf { s with seq := { s.seq with attempts := s.seq.attempts + 1 } }
      refine ⟨?_, h2, h3, h4⟩
      rw [h1]
    · exact ⟨rfl, rfl, rfl, [], by simp⟩

/-- Moving the sequencer keeps a block frame. -/
theorem BlockFrame.goto {target : Option BlockWord} {flags : Word} {s t : State}
    (h : BlockFrame target flags s t) (p : Pos) : BlockFrame target flags s (t.goto p) :=
  ⟨h.mcr, h.mcrKept, h.ctrl1, h.cbt, h.fdcbt, h.fdctrl, h.iflag, h.rximr, h.ram, h.txPending⟩

/-- The flag value of a frame matters only for a write of IFLAG1. -/
theorem BlockFrame.of_not_flags {w : BlockWord} {v v' : Word} {s t : State}
    (h : BlockFrame (some w) v s t) (hne : w ≠ .iflag1) : BlockFrame (some w) v' s t :=
  ⟨h.mcr, h.mcrKept, h.ctrl1, h.cbt, h.fdcbt, h.fdctrl,
    fun b _ => h.iflag b fun h => absurd (Option.some.inj h) hne, h.rximr,
    fun k hk _ => h.ram k hk fun h => absurd (Option.some.inj h) hne,
    fun b _ hb => h.txPending b (fun h => absurd (Option.some.inj h) hne) hb⟩

/-- A block write that then moves the sequencer: its frame, and what lies outside block space. -/
theorem regWrite_goto_frame {off : Nat} {v : Word} {w : BlockWord} {s u : State} (p : Pos)
    (hw : blockWord off = .ok w) (h : regWrite off v s = .ok u) :
    HostFrame s (u.goto p) ∧ (u.goto p).sess = s.sess ∧ (u.goto p).hostMem = s.hostMem ∧
      (u.goto p).seq.value = s.seq.value ∧ BlockFrame (some w) v s (u.goto p) := by
  have o := regWrite_outside h
  exact ⟨⟨o.params, o.prog, by simp [o.seq], o.agenda, o.choices, o.draws, [], by simp [o.statuses]⟩,
    o.sess, o.hostMem, by simp [o.seq, State.goto], (regWrite_frame hw h).goto p⟩

/-- The flag written for buffer `j` is bit `j` alone. -/
theorem getLsbD_flagWord {j : Nat} (h : j < Config.mbMax) (b : Nat) :
    (bitWord j).getLsbD b = decide (b = j) := by
  unfold Config.mbMax at h
  rw [getLsbD_bitWord]
  by_cases hb : b = j
  · subst hb; simp [h]
  · simp [hb]

/-- What a run of host byte writes inside the address space leaves in host memory. -/
theorem hostWriteAll_ok (a : Nat) (f : Nat → Byte) (n : Nat) (hb : a + n ≤ Config.hostBytes)
    (ms : List Nat) (hm : ∀ m ∈ ms, m < n) (s : State) :
    ∃ mem, hostWriteAll a f s ms = .ok { s with hostMem := mem } ∧
      ∀ x, cellRead mem x =
        if a ≤ x ∧ x - a ∈ ms then some (f (x - a)) else cellRead s.hostMem x := by
  induction ms generalizing s with
  | nil => exact ⟨s.hostMem, rfl, by simp⟩
  | cons m ms ih =>
    have h := hm m List.mem_cons_self
    have hw : hostWrite (a + m) (f m) s =
        .ok { s with hostMem := cellWrite s.hostMem (a + m) (f m) } := by
      unfold hostWrite
      rw [if_pos (by omega)]
    obtain ⟨mem, h1, h2⟩ := ih (fun x hx => hm x (List.mem_cons_of_mem _ hx))
      { s with hostMem := cellWrite s.hostMem (a + m) (f m) }
    refine ⟨mem, by simp only [hostWriteAll, hw, thenDo_ok, h1], ?_⟩
    intro x
    rw [h2]
    by_cases h3 : a ≤ x ∧ x - a ∈ ms
    · rw [if_pos h3, if_pos ⟨h3.1, by simp [h3.2]⟩]
    · rw [if_neg h3]
      show cellRead (cellWrite s.hostMem (a + m) (f m)) x = _
      rw [cellRead_cellWrite]
      by_cases h4 : x = a + m
      · rw [if_pos h4, if_pos ⟨by omega, by simp; left; omega⟩]
        congr 2; omega
      · rw [if_neg h4, if_neg]
        rintro ⟨h5, h6⟩
        simp only [List.mem_cons] at h6
        obtain h6 | h6 := h6
        · omega
        · exact h3 ⟨h5, h6⟩

end Sys2Proof.Machine
end

