-- ==== Sys2Proof/Laws/Fields.lean ====
section
/-! SUPPORT. Field writes of INIT (R72): their two micro-steps in a row, and the MCR word they leave. -/

namespace Sys2Proof.Machine

/-- The field write of MCR that a read-modify-write makes: only the fields under the mask change. -/
theorem regWrite_mcrField {s : State} {mask v : Word} (hd : mask &&& mcrNm = 0#32)
    (hf : frzAck s.mcr = true ∨ mask &&& mcrFreeze = 0#32) :
    regWrite offMcr (mergeBits mask s.mcr v) s =
      .ok { s with mcr := mergeBits mcrWritable s.mcr (mergeBits mask s.mcr v) } := by
  apply regWrite_mcr (mergeBits_and_of_disjoint _ _ hd)
  obtain h | h := hf
  · exact .inl h
  · right
    rw [← and_mcrFreeze_eq_iff]
    exact mergeBits_and_of_disjoint _ _ h

/-- The MCR word a field write leaves, given the fields of the merged word. -/
theorem mcrIs_field (old mask v : Word) {md fz hl fd : Bool} {mx : Nat}
    (h1 : mdis (mergeBits mask old v) = md) (h2 : frz (mergeBits mask old v) = fz)
    (h3 : halt (mergeBits mask old v) = hl) (h4 : fdEn (mergeBits mask old v) = fd)
    (h5 : maxMb (mergeBits mask old v) = mx) :
    McrIs (mergeBits mcrWritable old (mergeBits mask old v)) old md fz hl fd mx := by
  have h := mcrIs_hostWrite old (mergeBits mask old v)
  rw [h1, h2, h3, h4, h5] at h
  exact h

/-- A field write outside bits 6:0 keeps MAXMB. -/
theorem maxMb_mergeBits {mask old v : Word} (h : mask &&& 0x7F#32 = 0#32) :
    maxMb (mergeBits mask old v) = maxMb old := by
  apply maxMb_congr
  intro i hi
  have h2 : mask.getLsbD i = false := by
    have h' := congrArg (fun w : Word => w.getLsbD i) h
    have h3 : ∀ j : Fin 7, (0x7F#32).getLsbD j.val = true := by decide
    simp only [BitVec.getLsbD_and, h3 ⟨i, by omega⟩, BitVec.getLsbD_zero, Bool.and_true] at h'
    exact h'
  rw [getLsbD_mergeBits, h2]
  rfl

/-- The two micro-steps of a field write of INIT in a row. -/
theorem runExec_field {s u : State} {off : Nat} {mask v w : Word} {here : Option Word → InitPos}
    {next : InitPos} {i : Instr} (h1 : exec i s = initField off mask v none here next s)
    (hr : regRead off s = .ok w)
    (h2 : exec i (s.goto (.init (here (some w)))) =
      initField off mask v (some w) here next (s.goto (.init (here (some w)))))
    (hw : regWrite off (mergeBits mask w v) (s.goto (.init (here (some w)))) = .ok u) :
    runExec i 2 s = .next (u.goto (.init next)) := by
  rw [runExec_step 1 (t := s.goto (.init (here (some w))))]
  · apply runExec_one
    rw [h2]
    simp [initField, fieldStep, writeStep, hw]
  · rw [h1]
    simp [initField, fieldStep, hr]

end Sys2Proof.Machine
end

