-- ==== Sys2Proof/Laws/PerInstr.lean ====
section
/-! SUPPORT. One fact for every instruction, per constructor: its descriptor has the length of its
operation (R78), and its command word passes R88 items 1 to 3 with the operation code of R79. -/

namespace Sys2Proof.Laws.Encoding

/-- The operation codes (R79). -/
def opCode : Instr → Nat
  | .init _ _ _ _ _ _ => 1
  | .transmit _ _ _ _ => 2
  | .receive _ _ _ => 3
  | .calcTiming _ _ _ => 4
  | .read32 _ _ => 5
  | .write32 _ _ _ => 6

/-- A well-formed instruction's descriptor has its operation's length and a command word the decoder
accepts, with its operation code. -/
def Statement (i : Instr) : Prop :=
  WellFormed i = true →
    (encode i).length = descWords i ∧
      ∃ cmd ws, encode i = cmd :: ws ∧ commandKnown cmd = true ∧ commandClean cmd = true ∧
        bits cmd 3 0 = opCode i

theorem init (inst : Nat) (cfg : Cfg) (nbr dbr txid rxid : Word) :
    Statement (.init inst cfg nbr dbr txid rxid) := by
  intro h
  simp only [WellFormed, instFits, Bool.and_eq_true, decide_eq_true_eq] at h
  obtain ⟨h1, h2⟩ := commandWord_accepted (op := 1) (len := 0) (by omega) h.1 (by omega) (by simp)
  exact ⟨rfl, _, _, rfl, h1, h2, bits_commandWord_op (by omega)⟩

theorem transmit (inst len : Nat) (id src : Word) : Statement (.transmit inst len id src) := by
  intro h
  simp only [WellFormed, instFits, lenFits, Bool.and_eq_true, decide_eq_true_eq] at h
  obtain ⟨h1, h2⟩ := commandWord_accepted (op := 2) (by omega) h.1 h.2 (by simp)
  exact ⟨rfl, _, _, rfl, h1, h2, bits_commandWord_op (by omega)⟩

theorem receive (inst len : Nat) (dst : Word) : Statement (.receive inst len dst) := by
  intro h
  simp only [WellFormed, instFits, lenFits, Bool.and_eq_true, decide_eq_true_eq] at h
  obtain ⟨h1, h2⟩ := commandWord_accepted (op := 3) (by omega) h.1 h.2 (by simp)
  exact ⟨rfl, _, _, rfl, h1, h2, bits_commandWord_op (by omega)⟩

theorem calcTiming (inst : Nat) (tpar : Tpar) (nbr : Word) : Statement (.calcTiming inst tpar nbr) := by
  intro h
  simp only [WellFormed, instFits, Bool.and_eq_true, decide_eq_true_eq] at h
  obtain ⟨h1, h2⟩ := commandWord_accepted (op := 4) (len := 0) (by omega) h.1 (by omega) (by simp)
  exact ⟨rfl, _, _, rfl, h1, h2, bits_commandWord_op (by omega)⟩

theorem read32 (inst : Nat) (off : Word) : Statement (.read32 inst off) := by
  intro h
  simp only [WellFormed, instFits, decide_eq_true_eq] at h
  obtain ⟨h1, h2⟩ := commandWord_accepted (op := 5) (len := 0) (by omega) h (by omega) (by simp)
  exact ⟨rfl, _, _, rfl, h1, h2, bits_commandWord_op (by omega)⟩

theorem write32 (inst : Nat) (off val : Word) : Statement (.write32 inst off val) := by
  intro h
  simp only [WellFormed, instFits, decide_eq_true_eq] at h
  obtain ⟨h1, h2⟩ := commandWord_accepted (op := 6) (len := 0) (by omega) h (by omega) (by simp)
  exact ⟨rfl, _, _, rfl, h1, h2, bits_commandWord_op (by omega)⟩

end Sys2Proof.Laws.Encoding
end

