-- ==== Sys2Proof/Laws/Timing.lean ====
section
/-! SUPPORT. When a bit timing is feasible, and the fields of the CBT word (R91, R113). -/

namespace Sys2Proof.Machine

theorem segmentsFeasible_iff {qpb sp nbr : Nat} :
    segmentsFeasible qpb sp nbr = true ↔
      2 ≤ qpb ∧ sp ≤ 100 ∧ nbr ≠ 0 ∧ 1 ≤ phaseSeg qpb sp ∧ 0 ≤ propSeg qpb sp ∧
        phaseSeg qpb sp ≤ 31 ∧ propSeg qpb sp ≤ 63 := by
  unfold segmentsFeasible
  rw [show Config.qpbMin = 2 from rfl]
  simp only [Bool.and_eq_true, decide_eq_true_eq, and_assoc]

theorem prescalerFits_iff {rule : Config.PrescalerRule} {p : Int} :
    prescalerFits rule p = true ↔ (rule = .conventional → 0 ≤ p ∧ p ≤ 1023) := by
  cases rule with
  | source => exact ⟨fun _ h => (nomatch h), fun _ => rfl⟩
  | conventional =>
    rw [show prescalerFits .conventional p = (decide (0 ≤ p) && decide (p ≤ 1023)) from rfl]
    simp only [Bool.and_eq_true, decide_eq_true_eq, true_imp_iff]

/-- A feasible timing passed every check of R113, and has the values of R106 to R112. -/
theorem timing_eq_some {rule : Config.PrescalerRule} {qpb sp nbr fclk : Nat} {r : Timing} :
    timing rule qpb sp nbr fclk = some r ↔
      segmentsFeasible qpb sp nbr = true ∧
        prescalerFits rule (prescaler rule fclk (serialClock qpb nbr)) = true ∧
        r =
          { presdiv := prescaler rule fclk (serialClock qpb nbr)
            rjw := (resyncWidth qpb sp).toNat
            prop := (propSeg qpb sp).toNat
            ps1 := (phaseSeg qpb sp).toNat
            ps2 := (phaseSeg qpb sp).toNat } := by
  unfold timing
  by_cases h1 : segmentsFeasible qpb sp nbr = true
  · by_cases h2 : prescalerFits rule (prescaler rule fclk (serialClock qpb nbr)) = true
    · rw [if_pos h1, if_pos h2, Option.some.injEq]
      exact ⟨fun h => ⟨h1, h2, h.symm⟩, fun h => h.2.2.symm⟩
    · rw [if_pos h1, if_neg h2]
      exact ⟨fun h => (nomatch h), fun h => absurd h.2.1 h2⟩
  · rw [if_neg h1]
    exact ⟨fun h => (nomatch h), fun h => absurd h.1 h1⟩

/-- A timing is infeasible exactly when a check of R113 fails. -/
theorem timing_eq_none {rule : Config.PrescalerRule} {qpb sp nbr fclk : Nat} :
    timing rule qpb sp nbr fclk = none ↔
      ¬ (segmentsFeasible qpb sp nbr = true ∧
        prescalerFits rule (prescaler rule fclk (serialClock qpb nbr)) = true) := by
  rw [← not_iff_not, not_not, ← ne_eq, ← Option.isSome_iff_ne_none, Option.isSome_iff_exists]
  constructor
  · rintro ⟨r, hr⟩
    rw [timing_eq_some] at hr
    exact ⟨hr.1, hr.2.1⟩
  · rintro ⟨h1, h2⟩
    exact ⟨_, timing_eq_some.mpr ⟨h1, h2, rfl⟩⟩

/-- The number of a concatenation. -/
theorem toNat_concat {a b : Nat} (x : BitVec a) (y : BitVec b) :
    (x ++ y).toNat = x.toNat * 2 ^ b + y.toNat := by
  rw [BitVec.toNat_append, Nat.shiftLeft_eq, Nat.mul_comm, ← Nat.two_pow_add_eq_or_of_lt y.isLt]

/-- The CBT word as a number. -/
theorem toNat_cbtWord (r : Timing) :
    (cbtWord r).toNat =
      2 ^ 31 + (r.presdiv % 1024).toNat * 2 ^ 21 + (r.rjw % 32) * 2 ^ 16 + (r.prop % 64) * 2 ^ 10 +
        (r.ps1 % 32) * 2 ^ 5 + r.ps2 % 32 := by
  unfold cbtWord
  simp only [toNat_concat, BitVec.toNat_ofNat, BitVec.toNat_ofInt]
  norm_num
  ring

end Sys2Proof.Machine
end

