-- ==== Sys2Proof/Tests/Slice0.lean ====
section
/-! SUPPORT. Tests: what WellFormed refuses, descriptor words written out from the encodings of spec/, one
micro-step of each operation and one step of each agent against the vectors of 95_test_vectors.md, and for
every statement with hypotheses a state and operands that meet them. -/

namespace Sys2Proof.Tests

set_option Elab.async false

open Sys2Proof Sys2Proof.Machine

/-! ## WellFormed refuses a term that fits no descriptor -/

/-- A CFG word in range (95, 2.5). -/
def cfgOk : Cfg where
  rsvHigh := 0
  sp := 75
  qpb := 16
  rsvLow := 0
  idt := .standard
  pclass := .b8
  brs := false
  clk := .osc
  proto := .can20
  mode := .loopBack

/-- A TPAR word in range (95, 2.5). -/
def tparOk : Tpar := { rsv := 0, sp := 75, qpb := 16 }

theorem test_wellFormed_ok :
    WellFormed (.init 15 cfgOk 0 0 0 0) = true ∧ WellFormed (.transmit 15 65535 0 0) = true ∧
      WellFormed (.receive 15 65535 0) = true ∧ WellFormed (.calcTiming 15 tparOk 0) = true ∧
      WellFormed (.read32 15 0) = true ∧ WellFormed (.write32 15 0 0) = true := by decide

theorem test_wellFormed_inst :
    WellFormed (.init 16 cfgOk 0 0 0 0) = false ∧ WellFormed (.transmit 16 8 0 0) = false ∧
      WellFormed (.receive 16 8 0) = false ∧ WellFormed (.calcTiming 16 tparOk 0) = false ∧
      WellFormed (.read32 16 0) = false ∧ WellFormed (.write32 16 0 0) = false := by decide

theorem test_wellFormed_len :
    WellFormed (.transmit 0 65536 0 0) = false ∧ WellFormed (.receive 0 65536 0) = false := by decide

theorem test_wellFormed_cfg :
    WellFormed (.init 0 { cfgOk with rsvHigh := 2 } 0 0 0 0) = false ∧
      WellFormed (.init 0 { cfgOk with sp := 128 } 0 0 0 0) = false ∧
      WellFormed (.init 0 { cfgOk with qpb := 256 } 0 0 0 0) = false ∧
      WellFormed (.init 0 { cfgOk with rsvLow := 128 } 0 0 0 0) = false := by decide

theorem test_wellFormed_tpar :
    WellFormed (.calcTiming 0 { tparOk with rsv := 131072 } 0) = false ∧
      WellFormed (.calcTiming 0 { tparOk with sp := 128 } 0) = false ∧
      WellFormed (.calcTiming 0 { tparOk with qpb := 256 } 0) = false := by decide

/-! ## Decoding (R77 to R88), words bit by bit -/

/-- R80, R81: SP = 80, QPB = 20, PCLASS = 3, BRS = CLK = PROTO = 1, MODE = 2 (95, 2.5). -/
theorem test_decode_init :
    decode [0b00000000000000000000000000000001#32, 0b01010000000101000000000011111010#32,
        500000#32, 2000000#32, 5#32, 0x7FF#32] =
      .ok (.init 0
        { rsvHigh := 0, sp := 80, qpb := 20, rsvLow := 0, idt := .standard, pclass := .b64, brs := true,
          clk := .bus, proto := .canFd, mode := .loopBack } 500000#32 2000000#32 5#32 0x7FF#32, []) := by
  decide

/-- Every field of the CFG word of R81 at a value with one bit set in it. -/
theorem test_decodeCfg_fields :
    decodeCfg 0b10000001000000010000001100000000#32 =
        { rsvHigh := 1, sp := 1, qpb := 1, rsvLow := 1, idt := .extended, pclass := .b8, brs := false,
          clk := .osc, proto := .can20, mode := .normal } ∧
      decodeCfg 0b00000000000000000000000001101011#32 =
        { rsvHigh := 0, sp := 0, qpb := 0, rsvLow := 0, idt := .standard, pclass := .b16, brs := true,
          clk := .osc, proto := .canFd, mode := .listenOnly } := by decide

theorem test_decode_transmit :
    decode [0b00000000000010000000000000010010#32, 0x123#32, 0x20000000#32] =
      .ok (.transmit 1 8 0x123#32 0x20000000#32, []) := by decide

theorem test_decode_receive :
    decode [0b11111111111111110000000000000011#32, 0x20000100#32, 7#32] =
      .ok (.receive 0 65535 0x20000100#32, [7#32]) := by decide

theorem test_decode_calcTiming :
    decode [0b00000000000000000000000011110100#32, 0b00000000000000001100101100010000#32, 500000#32] =
      .ok (.calcTiming 15 { rsv := 1, sp := 75, qpb := 16 } 500000#32, []) := by decide

theorem test_decode_read32 :
    decode [0b00000000000000000000000000000101#32, 0x50#32] = .ok (.read32 0 0x50#32, []) := by decide

theorem test_decode_write32 :
    decode [0b00000000000000000000000000000110#32, 0x30#32, 0x10000#32] =
      .ok (.write32 0 0x30#32 0x10000#32, []) := by decide

/-- 95, 2.5: reserved OP, bits 15:8, LEN. -/
theorem test_decode_illegal :
    decode [0#32, 0#32] = .error .illegalOp ∧ decode [7#32] = .error .illegalOp ∧
      decode [15#32, 0#32, 0#32] = .error .illegalOp ∧ decode [0x105#32] = .error .illegalOp ∧
      decode [0x00040001#32, 0#32, 0#32, 0#32, 0#32, 0#32] = .error .illegalOp ∧
      decode [0x00010005#32, 0#32] = .error .illegalOp := by decide

/-- 95, 2.5: the program ends inside the descriptor. -/
theorem test_decode_truncated :
    decode [] = .error .truncated ∧ decode [5#32] = .error .truncated ∧
      decode [1#32, 0#32, 0#32] = .error .truncated ∧
      decode [0x11#32, 0#32, 0#32] = .error .truncated := by decide

/-- 95, program 1 and program 2: the words of their descriptors. -/
theorem test_encode_words :
    encode (.init 0 cfgOk 500000#32 0#32 0#32 0x123#32) =
        [0x00000001#32, 0x4B100002#32, 0x0007A120#32, 0#32, 0#32, 0x00000123#32] ∧
      encode (.transmit 0 8 0x123#32 0x20000000#32) = [0x00080002#32, 0x123#32, 0x20000000#32] ∧
      encode (.receive 0 12 0x20000200#32) = [0x000C0003#32, 0x20000200#32] ∧
      encode (.calcTiming 1 tparOk 500000#32) = [0x00000014#32, 0x00004B10#32, 0x0007A120#32] ∧
      encode (.read32 0 0x84#32) = [0x00000005#32, 0x00000084#32] ∧
      encode (.write32 0 0#32 0x5090000F#32) = [0x00000006#32, 0#32, 0x5090000F#32] := by decide

/-- The numbering of spec/opcode_table.json: the first word alone, and with an operand word above it. -/
theorem test_decodeTableWord :
    decodeTableWord 32 0x00080002 = some (.transmit 0 8 0#32 0#32) ∧
      decodeTableWord 64 0x0000005000000005 = some (.read32 0 0x50#32) ∧
      decodeTableWord 32 0x00000007 = none := by decide

/-! ## States of the vectors -/

/-- The parameters of 95, section 0. -/
def params : Config.Params where
  canBase := 0x40024000#32
  fClkOsc := 8000000
  fClkBus := 40000000
  prescalerRule := .source
  fdCbtWord := 0x80A51C84#32
  fdFdcbtWord := 0x00131CA3#32
  txFreeMatch := .codeField
  txIdMode := .alwaysStandard
  pollLimit := none
  fdctrlReset := 0x80000100#32
  loopBackBus := false

/-- LAUNCH_RESET under these parameters. -/
def rst : State := State.launch params [] []

/-- The RAM INIT leaves in the 8-byte class, with the receive identifier 0x123 (95, program 1). -/
def pool8 : WordCells :=
  (List.range 128).map fun k =>
    (k, if k % 4 = 0 then (if k < 64 then 0x04000000#32 else 0x08000000#32)
      else if k = 1 then 0x048C0000#32 else 0#32)

/-- The state after program 1's INIT (95). -/
def up : State :=
  { rst with
    mcr := 0x0080001F#32
    ctrl1 := 0x00001000#32
    cbt := 0x80031C84#32
    rximr := (List.range 32).map fun i => (i, 0#32)
    ram := pool8
    sess := { valid := true, cls := some .b8, idType := some .standard }
    hostMem := (List.range 8).map fun n => (0x20000000 + n, BitVec.ofNat 8 (n + 1)) }

/-- The same, frozen (95, Z23). -/
def frozen : State := { up with mcr := 0x5980001F#32 }

/-- Operational in the 16-byte class, whose words 126 and 127 belong to no buffer (95, 2.6). -/
def up16 : State := { up with mcr := 0x00800814#32, fdctrl := 0x00010100#32 }

/-- After program 2's first descriptor: frozen, with poison RAM and masks. -/
def frozenPoison : State := { rst with mcr := 0x5980000F#32 }

/-- Buffer 16 requested, buffer 0 full (95, X1 and F1). -/
def busy : State :=
  { up with
    ram := cellWrite (cellWrite pool8 64 0x0C080000#32) 0 0x02080000#32
    iflag := 0x00000001#32
    txPending := 0x00010000#32 }

/-- With POLL_LIMIT = n. -/
def limited (s : State) (n : Nat) : State := { s with params := { s.params with pollLimit := some n } }

/-- After an operation that ended with three failed attempts. -/
def tired : State := { rst with seq := { rst.seq with attempts := 3 } }

/-- Frozen in the 16-byte class with a request of buffer 31, made in the 8-byte class before. -/
def stale : State := { up16 with mcr := 0x59800814#32, txPending := 0x80000000#32 }

/-- INIT at its step 5 with CTRL silent (95, V1, V2). -/
def silent : State :=
  { rst with
    mcr := 0x5890000F#32
    ctrl1 := 0x00002000#32
    seq := { rst.seq with
      pos := .init .pollEnabled
      desc := some [0x00000001#32, 0x4B100012#32, 0x0007A120#32, 0#32, 0#32, 0x00000123#32] } }

/-- RECEIVE waits without a limit, no flag is set and BUS offers nothing in loop-back (95, Y8). -/
def waiting : State :=
  { up with
    seq := { up.seq with pos := .receive (.scan 31), desc := some [0x00040003#32, 0x20000300#32] } }

/-- An outcome is a next state the predicate accepts. -/
def gives (o : Out State) (p : State → Bool) : Bool :=
  match o with
  | .next t => p t
  | _ => false

/-- An outcome is this fault. -/
def faults (o : Out State) (r : Fault) : Bool :=
  match o with
  | .fault q => q == r
  | _ => false

/-! ## One micro-step of each operation -/

/-- 95, 2.6: INIT validation refuses SP = 101 and bit 31, and accepts program 1's CFG. -/
theorem test_init_validation :
    gives (exec (.init 0 { cfgOk with sp := 101 } 500000#32 0#32 0#32 0#32) rst)
        (fun t => t.seq.status == some .notOk && t.seq.pos == .idle) = true ∧
      gives (exec (.init 0 { cfgOk with rsvHigh := 1 } 500000#32 0#32 0#32 0#32) rst)
        (fun t => t.seq.status == some .notOk) = true ∧
      gives (exec (.init 0 cfgOk 500000#32 0#32 0#32 0#32) rst)
        (fun t => t.seq.pos == .init .clearValid) = true := by decide +kernel

/-- 95, program 1: step 4 writes MCR = 0x5890_000F. -/
theorem test_init_enable :
    gives (exec (.init 0 cfgOk 500000#32 0#32 0#32 0#32)
        (rst.goto (.init (.enable (some 0xD890000F#32)))))
      (fun t => t.mcr == 0x5890000F#32 && t.seq.pos == .init .pollEnabled) = true := by decide +kernel

/-- 95, X10 and X11: HostRange. -/
theorem test_transmit_hostRange :
    faults (exec (.transmit 0 8 0x123#32 0x40024000#32) up) .hostRange = true ∧
      faults (exec (.transmit 0 8 0x123#32 0xFFFFFFFC#32) up) .hostRange = true ∧
      faults (exec (.transmit 0 4 0x123#32 0x20000000#32) up) .payloadLength = true := by decide +kernel

/-- 95, X1: ID(16) = 0x048C_0000 and DATA(16,1) = 0x0506_0708. -/
theorem test_transmit_words :
    gives (exec (.transmit 0 8 0x123#32 0x20000000#32) (up.goto (.transmit (.writeId 16))))
        (fun t => cellRead t.ram 65 == some 0x048C0000#32) = true ∧
      gives (exec (.transmit 0 8 0x123#32 0x20000000#32) (up.goto (.transmit (.writeData 16 1))))
        (fun t => cellRead t.ram 67 == some 0x05060708#32 && t.seq.pos == .transmit (.writeCs 16)) =
          true := by decide +kernel

/-- 95, Y2: four bytes of the payload, the byte after them as it was. -/
theorem test_receive_truncates :
    gives (exec (.receive 0 4 0x20000004#32)
        (up.goto (.receive (.copy 0 [0x01020304#32, 0x05060708#32]))))
      (fun t => cellRead t.hostMem 0x20000004 == some 1#8 && cellRead t.hostMem 0x20000007 == some 4#8 &&
        cellRead t.hostMem 0x20000003 == some 4#8 && cellRead t.hostMem 0x20000008 == none) = true := by
  decide +kernel

/-- 95, F1: the release of buffer 0 leaves its other bits. -/
theorem test_receive_release :
    gives (exec (.receive 0 8 0x20000100#32) (busy.goto (.receive (.release 0))))
      (fun t => cellRead t.ram 0 == some 0x04080000#32 && t.iflag == 0#32 &&
        t.txPending == 0x00010000#32) = true := by decide +kernel

/-- 95, 2.1 rows T2, T4, T8 and T11: the CBT word, or Infeasible. -/
theorem test_timing_rows :
    (timing .source 16 75 500000 80000000).map cbtWord = some 0xFEE31C84#32 ∧
      (timing .conventional 16 75 500000 80000000).map cbtWord = some 0x81231C84#32 ∧
      timing .conventional 16 75 500000 4000000 = none ∧
      timing .conventional 16 75 1 16400 = none ∧
      (timing .source 10 85 1000000 10000000).map cbtWord = some 0x80001C21#32 ∧
      timing .source 10 50 1000000 10000000 = none := by decide +kernel

/-- 95, program 2: qpb = 16, sp = 75, nbr = 500000 writes CBT = 0x8003_1C84, and 2.11: outside freeze
that is ConfigWindow. -/
theorem test_calcTiming_cbt :
    gives (runExec (.calcTiming 0 tparOk 500000#32) 4 frozenPoison)
        (fun t => t.cbt == 0x80031C84#32 && t.seq.status == some .ok) = true ∧
      faults (runExec (.calcTiming 0 tparOk 500000#32) 4 rst) .configWindow = true := by decide +kernel

/-- 95, Z1, Z4, Z6 and Z7. -/
theorem test_read32 :
    gives (exec (.read32 0 0#32) (rst.goto .read32)) (fun t => t.seq.value == some 0xD890000F#32) = true ∧
      faults (exec (.read32 0 0x80#32) (rst.goto .read32)) .moduleDisabled = true ∧
      faults (exec (.read32 0 2#32) rst) .misaligned = true ∧
      faults (exec (.read32 0 0x280#32) rst) .unmapped = true := by decide +kernel

/-- 95, Z8, Z14, Z16, Z17, Z19 and Z21. -/
theorem test_write32 :
    faults (exec (.write32 0 0x50#32 0x80031C84#32) (rst.goto .write32)) .configWindow = true ∧
      faults (exec (.write32 0 0#32 0xDA90000F#32) (rst.goto .write32)) .unmodelledField = true ∧
      gives (exec (.write32 0 0#32 0xC080000F#32) (rst.goto .write32)) (fun t => t.mcr == 0xC890000F#32) =
        true ∧
      faults (exec (.write32 0 0x80#32 0#32) (up.goto .write32)) .ownershipViolation = true ∧
      faults (exec (.write32 0 0x180#32 0x01000000#32) (up.goto .write32)) .reservedCode = true ∧
      faults (exec (.write32 0 0x30#32 1#32) (rst.goto .write32)) .readPoison = true := by decide +kernel

/-- R22, R88 item 5: an operation that starts and ends NOT_OK leaves no failed attempts, a bad instance has
no other effect. -/
theorem test_notOk_attempts :
    gives (exec (.calcTiming 0 { tparOk with rsv := 1 } 0#32) tired) (fun t => t.seq.attempts == 0) = true ∧
      gives (exec (.calcTiming 1 { tparOk with rsv := 1 } 0#32) tired) (fun t => t.seq.attempts == 3) = true ∧
      gives (exec (.init 0 { cfgOk with sp := 101 } 0#32 0#32 0#32 0#32) tired)
        (fun t => t.seq.attempts == 0) = true ∧
      gives (exec (.init 1 cfgOk 500000#32 0#32 0#32 0#32) tired) (fun t => t.seq.attempts == 3) = true := by
  decide +kernel

/-- R146: the last RAM word INIT zeroes takes every request with it, the buffers beyond N = 21 included; the
word before it takes none. -/
theorem test_init_requests :
    gives (exec (.init 0 cfgOk 500000#32 0#32 0#32 0#32) (stale.goto (.init (.zeroRam 127))))
        (fun t => t.txPending == 0#32 && t.seq.pos == .init (.mask 0)) = true ∧
      gives (exec (.init 0 cfgOk 500000#32 0#32 0#32 0#32) (stale.goto (.init (.zeroRam 126))))
        (fun t => t.txPending == 0x80000000#32 && t.seq.pos == .init (.zeroRam 127)) = true := by
  decide +kernel

/-- 95, X12: the first data micro-step with no launch bytes is ReadPoison. -/
theorem test_transmit_poison :
    faults (exec (.transmit 0 8 0x123#32 0x20000800#32) (up.goto (.transmit (.writeData 16 0)))) .readPoison =
      true := by decide +kernel

/-! ## Steps of the agents (95, 2.10) -/

/-- The rows of the CTRL table. -/
theorem test_ctrl_rows :
    enabledMoves rst = [] ∧
      enabledMoves { rst with mcr := 0x5890000F#32 } = [.lpmExit] ∧
      (lpmExit { rst with mcr := 0x5890000F#32 }).mcr = 0x5880000F#32 ∧
      enabledMoves { rst with mcr := 0x5880000F#32 } = [.frzEnter] ∧
      (frzEnter { rst with mcr := 0x5880000F#32 }).mcr = 0x5980000F#32 ∧
      (frzExit { rst with mcr := 0x0980001F#32 }).mcr = 0x0880001F#32 ∧
      (ready { rst with mcr := 0x0880001F#32 }).mcr = 0x0080001F#32 ∧
      (lpmEnter { rst with mcr := 0x8080001F#32 }).mcr = 0x8890001F#32 ∧
      enabledMoves { rst with mcr := 0x9980001F#32 } = [.lpmEnter, .frzExit] := by decide +kernel

/-- E2: the transmission completes and is delivered to buffer 0 in the same step. -/
theorem test_engine_loopBack :
    enabledMoves { busy with ram := cellWrite busy.ram 0 0x04000000#32, iflag := 0#32 } = [.tx 16] ∧
      gives (runMove (.tx 16) { busy with ram := cellWrite busy.ram 0 0x04000000#32, iflag := 0#32 })
        (fun t => t.iflag == 0x00010001#32 && t.txPending == 0#32 &&
          cellRead t.ram 1 == some 0#32) = true := by decide +kernel

/-- R20, R189: a request whose control word is poison makes TX(16) fault; without the request it has no
step. -/
theorem test_engine_poison :
    enabledMoves { busy with ram := [] } = [.tx 16] ∧
      faults (runMove (.tx 16) { busy with ram := [] }) .readPoison = true ∧
      enabledMoves { up with ram := [] } = [] := by decide +kernel

/-- E3: the masked bits differ, so the frame goes to buffer 1. -/
theorem test_delivery_mask :
    (match findRx 0x11580000#32 { up with rximr := cellWrite up.rximr 0 0x1FFC0000#32 } (List.range 32) with
      | .ok r => r == some 1
      | .error _ => false) = true := by decide +kernel

/-! ## The hypotheses of the statements are met: descriptors and steps -/

/-- DecodeReturnsEncodedInstruction, at the largest value of every field. -/
theorem test_meets_encode :
    WellFormed (.init 15
        { rsvHigh := 1, sp := 127, qpb := 255, rsvLow := 127, idt := .extended, pclass := .b64, brs := true,
          clk := .bus, proto := .canFd, mode := .pretendedNetwork } 0#32 0#32 0#32 0xFFFFFFFF#32) = true ∧
      WellFormed (.calcTiming 15 { rsv := 131071, sp := 127, qpb := 255 } 0#32) = true := by decide

/-- DecodedInstructionEncodesBack. -/
theorem test_meets_decoded :
    decode [0xFFFF00F2#32, 1#32, 2#32, 3#32] = .ok (.transmit 15 65535 1#32 2#32, [3#32]) := by decide

/-- CommandWordIsCheckedInOrder: each check, at the edges of OP and with a short and a full descriptor. -/
theorem test_meets_commandWord :
    rst.seq.pos = .idle ∧ bits 0x00000000#32 3 0 = 0 ∧ bits 0x00000007#32 3 0 = 7 ∧
      bits 0x00000101#32 3 0 = 1 ∧ bits 0x00000101#32 15 8 ≠ 0 ∧
      bits 0x00010006#32 3 0 = 6 ∧ bits 0x00010006#32 15 8 = 0 ∧ bits 0x00010006#32 31 16 ≠ 0 ∧
      bits 0x00000011#32 15 8 = 0 ∧ bits 0x00000011#32 31 16 = 0 ∧ bits 0x00000011#32 7 4 ≠ 0 ∧
      [0#32, 0#32, 0#32, 0#32].length < 5 ∧ 5 ≤ [0#32, 0#32, 0#32, 0#32, 0#32].length ∧
      bits 0x00080012#32 3 0 = 2 ∧ bits 0x00080012#32 7 4 ≠ 0 := by decide

/-- StepRunsTheTakenDescriptor: HOST alone has a step, or it heads the agenda; between operations and
inside one. -/
theorem test_meets_hostNext :
    HostNext { rst with prog := [5#32, 0#32] } { rst with prog := [5#32, 0#32] } ∧
      decode [5#32, 0#32] = .ok (.read32 0 0#32, []) ∧
      HostNext { (up.goto .read32) with agenda := [.host] } { (up.goto .read32) with agenda := [] } ∧
      (up.goto .read32).seq.pos ≠ .idle :=
  ⟨.inr ⟨rfl, by decide +kernel, rfl⟩, by decide, .inl ⟨[], rfl, rfl⟩, by decide⟩

/-- StepTakesAnEnabledMove: no step, and two. -/
theorem test_meets_moves :
    enabledMoves rst = [] ∧ enabledMoves { rst with mcr := 0x9980001F#32 } ≠ [] ∧
      .frzExit ∈ enabledMoves { rst with mcr := 0x9980001F#32 } := by decide +kernel

/-- ResetHoldsTheStatedValues. -/
theorem test_meets_reset : State.reset = State.launch Config.params [] [] := rfl

/-! ## READ32 and WRITE32 -/

/-- RegisterOffsetsAreChecked: the clauses, at the ends of the two arrays. -/
theorem test_meets_offsets :
    (0x002#32).toNat % 4 ≠ 0 ∧ (0x280#32).toNat % 4 = 0 ∧ offsetMapped (0x280#32).toNat = false ∧
      offsetMapped (0x27C#32).toNat = true ∧ offsetMapped (0x07C#32).toNat = false ∧
      offsetMapped (0x8FC#32).toNat = true ∧ offsetMapped (0x900#32).toNat = false ∧
      lpmAck rst.mcr = true ∧ (0x27C#32).toNat = 0x080 + 4 * 127 ∧ (0x8FC#32).toNat = 0x880 + 4 * 31 ∧
      (rst.goto .read32).seq.pos = .read32 ∧ (rst.goto .write32).seq.pos = .write32 := by decide +kernel

/-- Read32ReturnsTheWord: a register, the last RAM word and the last mask. -/
theorem test_meets_read32 :
    (up.goto .read32).seq.pos = .read32 ∧ BlockHolds (up.goto .read32) (0xC04#32).toNat 0#32 ∧
      BlockHolds (up.goto .read32) (0x27C#32).toNat 0#32 ∧
      BlockHolds (up.goto .read32) (0x8FC#32).toNat 0#32 ∧
      gives (exec (.read32 0 0x27C#32) (up.goto .read32)) (fun _ => true) = true := by
  refine ⟨rfl, ?_, ?_, ?_, by decide +kernel⟩
  · exact .inr (.inr (.inr (.inr (.inr (.inl ⟨by decide, rfl⟩)))))
  · exact .inr (.inr (.inr (.inr (.inr (.inr (.inl
      ⟨by decide, 127, by decide, by decide, by decide +kernel⟩))))))
  · exact .inr (.inr (.inr (.inr (.inr (.inr (.inr
      ⟨by decide, 31, by decide, by decide, by decide +kernel⟩))))))

/-- Read32ReturnsTheWord, its poison clause: the last RAM word and the last mask. -/
theorem test_meets_readPoison :
    lpmAck frozenPoison.mcr = false ∧ (0x27C#32).toNat = 0x080 + 4 * 127 ∧
      cellRead frozenPoison.ram 127 = none ∧ (0x8FC#32).toNat = 0x880 + 4 * 31 ∧
      cellRead frozenPoison.rximr 31 = none := by decide

/-- Write32SetsMcrRequests: frozen with FDEN changed, and reset with the freeze fields kept. -/
theorem test_meets_writeMcr :
    0xD090087F#32 &&& mcrNm = frozen.mcr &&& mcrNm ∧ frzAck frozen.mcr = true ∧
      0x5090000F#32 &&& mcrNm = rst.mcr &&& mcrNm ∧ fdEn 0x5090000F#32 = fdEn rst.mcr ∧
      maxMb 0x5090000F#32 = maxMb rst.mcr := by decide

/-- Write32StoresConfigurationWords: CTRL1 in freeze and while disabled, the others in freeze and
unchanged. -/
theorem test_meets_writeConfig :
    0x00000000#32 &&& ctrl1Nm = frozen.ctrl1 &&& ctrl1Nm ∧ frzAck frozen.mcr = true ∧
      (0x00000000#32).getLsbD 13 = frozen.ctrl1.getLsbD 13 ∧
      0x00002000#32 &&& ctrl1Nm = rst.ctrl1 &&& ctrl1Nm ∧ lpmAck rst.mcr = true ∧
      lpb 0x00002000#32 = lpb rst.ctrl1 ∧ up.cbt = 0x80031C84#32 ∧
      0x00131CA3#32 &&& fdcbtNm = frozen.fdcbt &&& fdcbtNm ∧
      0x00030100#32 &&& fdctrlNm = frozen.fdctrl &&& fdctrlNm ∧
      (0x8FC#32).toNat = 0x880 + 4 * 31 ∧ lpmAck frozen.mcr = false ∧
      cellRead up.rximr 31 = some 0#32 := by decide +kernel

/-- Write32StoresRamWords: the last control word, the last word of the pool, and a word beyond the pool. -/
theorem test_meets_writeRam :
    lpmAck up.mcr = false ∧ (0x270#32).toNat = 0x080 + 4 * 124 ∧
      31 = 124 / bufWords (hwClass up) ∧ 31 < poolSize (hwClass up) ∧ 124 = csIndex (hwClass up) 31 ∧
      HostOwns up 31 ∧ codeDefined (codeOf 0x0C080000#32) = true ∧
      31 = 127 / bufWords (hwClass up) ∧ 127 ≠ csIndex (hwClass up) 31 ∧
      lpmAck up16.mcr = false ∧ (0x278#32).toNat = 0x080 + 4 * 126 ∧
      poolSize (hwClass up16) ≤ 126 / bufWords (hwClass up16) := by
  refine ⟨by decide, by decide, by decide +kernel, by decide +kernel, by decide +kernel,
    .inr ⟨0x08000000#32, by decide +kernel, by decide, by decide⟩, by decide, by decide +kernel,
    by decide +kernel, by decide, by decide, by decide +kernel⟩

/-- IflagWriteClearsRequestsAndReleases: a poison control word; a full buffer 0 and a TX_DATA buffer 16;
the last buffer. -/
theorem test_meets_iflag :
    (∃ i, i < poolSize (hwClass frozenPoison) ∧ (0x80000000#32).getLsbD i = true ∧
        hwCs frozenPoison i = none) ∧
      (∀ i, i < poolSize (hwClass busy) → (0x80010001#32).getLsbD i = true → hwCs busy i ≠ none) ∧
      hwCodeIs busy codeTxData 16 = true ∧ hwCs busy 0 = some 0x02080000#32 ∧
      codeOf 0x02080000#32 = codeRxFull ∧ 31 < poolSize (hwClass busy) ∧
      (0x80010001#32).getLsbD 31 = true ∧ (0x80010001#32).getLsbD 16 = true ∧
      (0x80010001#32).getLsbD 0 = true := by
  refine ⟨⟨31, by decide, by decide, by decide⟩, ?_⟩
  decide +kernel

/-- WindowedFieldsNeedTheirWindow: each windowed field outside its window, and the requests of MCR. -/
theorem test_meets_windows :
    frzAck up.mcr = false ∧ 0x0080001E#32 &&& mcrNm = up.mcr &&& mcrNm ∧ maxMb 0x0080001E#32 ≠ maxMb up.mcr ∧
      0x00000000#32 &&& ctrl1Nm = up.ctrl1 &&& ctrl1Nm ∧ lpb 0x00000000#32 ≠ lpb up.ctrl1 ∧
      0x00000000#32 ≠ up.cbt ∧ 0x00131CA3#32 &&& fdcbtNm = up.fdcbt &&& fdcbtNm ∧
      0x00131CA3#32 ≠ up.fdcbt ∧ 0x00030100#32 &&& fdctrlNm = up.fdctrl &&& fdctrlNm ∧
      0x00030100#32 ≠ up.fdctrl ∧ lpmAck up.mcr = false ∧ cellRead up.rximr 31 ≠ some 1#32 ∧
      0x00003000#32 &&& ctrl1Nm = up.ctrl1 &&& ctrl1Nm ∧
      (0x00003000#32).getLsbD 13 ≠ up.ctrl1.getLsbD 13 ∧
      0xD080001F#32 &&& mcrNm = up.mcr &&& mcrNm ∧ fdEn 0xD080001F#32 = fdEn up.mcr ∧
      maxMb 0xD080001F#32 = maxMb up.mcr ∧ cellRead up.rximr 31 = some 0#32 := by decide +kernel

/-- NotModelledBitsMayNotChange: SOFTRST of MCR (95, Z14), and bit 0 or 3 of the others. -/
theorem test_meets_notModelled :
    0xDA90000F#32 &&& mcrNm ≠ rst.mcr &&& mcrNm ∧ 0x00000001#32 &&& ctrl1Nm ≠ rst.ctrl1 &&& ctrl1Nm ∧
      0x00000008#32 &&& fdcbtNm ≠ rst.fdcbt &&& fdcbtNm ∧
      0x80000101#32 &&& fdctrlNm ≠ rst.fdctrl &&& fdctrlNm := by decide

/-- EngineOwnedWordsAreProtected: the last word of buffer 0 and its control word; the revocation of
buffer 16. -/
theorem test_meets_engineOwns :
    EngineOwns up 0 ∧ hwCs up 0 = some 0x04000000#32 ∧ 0 = 3 / bufWords (hwClass up) ∧
      0 < poolSize (hwClass up) ∧ 3 ≠ csIndex (hwClass up) 0 ∧ codeOf 0x04000000#32 ≠ codeTxData ∧
      cellRead up.ram 3 = some 0#32 ∧
      EngineOwns busy 16 ∧ hwCs busy 16 = some 0x0C080000#32 ∧ 16 = 64 / bufWords (hwClass busy) ∧
      64 = csIndex (hwClass busy) 16 ∧ codeOf 0x0C080000#32 = codeTxData ∧
      busy.txPending.getLsbD 16 = true ∧ codeOf 0x08000000#32 = codeTxInactive := by
  refine ⟨⟨by decide, 0x04000000#32, by decide +kernel, .inl (by decide)⟩, by decide +kernel,
    by decide +kernel, by decide +kernel, by decide +kernel, by decide, by decide +kernel,
    ⟨by decide, 0x0C080000#32, by decide +kernel, .inr ⟨by decide, by decide⟩⟩, ?_⟩
  decide +kernel

/-- ReservedCodesAreRefused: codes 1 and 15 in the last buffer, its last word, and a word beyond a pool. -/
theorem test_meets_reservedCodes :
    HostOwns up 31 ∧ 31 = 124 / bufWords (hwClass up) ∧ 124 = csIndex (hwClass up) 31 ∧
      (codeOf 0x01000000#32 ≠ 0#4 ∧ codeOf 0x01000000#32 ≠ 4#4 ∧ codeOf 0x01000000#32 ≠ 2#4 ∧
        codeOf 0x01000000#32 ≠ 8#4 ∧ codeOf 0x01000000#32 ≠ 12#4) ∧
      (codeOf 0x0F000000#32 ≠ 0#4 ∧ codeOf 0x0F000000#32 ≠ 12#4) ∧
      31 = 127 / bufWords (hwClass up) ∧ 127 ≠ csIndex (hwClass up) 31 ∧
      poolSize (hwClass up16) ≤ 127 / bufWords (hwClass up16) ∧ lpmAck up16.mcr = false := by
  refine ⟨.inr ⟨0x08000000#32, by decide +kernel, by decide, by decide⟩, ?_⟩
  decide +kernel

/-- Write32LeavesTheRest: a RAM word, IFLAG1 and MCR. -/
theorem test_meets_write32Frame :
    blockWord (0x180#32).toNat = .ok (.ram 64) ∧
      gives (exec (.write32 0 0x180#32 0x08000000#32) (up.goto .write32)) (fun _ => true) = true ∧
      blockWord (0x030#32).toNat = .ok .iflag1 ∧
      gives (exec (.write32 0 0x030#32 0x80000001#32) (busy.goto .write32)) (fun _ => true) = true ∧
      blockWord (0x000#32).toNat = .ok .mcr ∧
      gives (exec (.write32 0 0x000#32 0x5090000F#32) (rst.goto .write32)) (fun _ => true) = true := by
  decide +kernel

/-! ## The bit-timing calculator -/

/-- TimingIsInfeasibleExactly, FeasibleTimingLaws, CbtWordFieldsReadBack: an infeasible input and the
largest and smallest feasible ones (95, 2.2). -/
theorem test_meets_timing :
    timing .source 10 50 1000000 10000000 = none ∧
      timing .conventional 126 75 1 126 = some { presdiv := 0, rjw := 3, prop := 63, ps1 := 31, ps2 := 31 } ∧
      timing .source 3 50 1 3 = some { presdiv := 0, rjw := 0, prop := 0, ps1 := 1, ps2 := 1 } ∧
      timing .source 16 75 1 16384 = some { presdiv := -1023, rjw := 3, prop := 7, ps1 := 4, ps2 := 4 } := by
  decide +kernel

/-- CalcTimingWritesCbt: frozen, and with CBT unchanged outside freeze. -/
theorem test_meets_calcCbt :
    frzAck frozen.mcr = true ∧ fdEn frozen.mcr = false ∧ frozen.seq.pos = .idle ∧
      timing params.prescalerRule 16 75 500000 8000000 =
        some { presdiv := 0, rjw := 3, prop := 7, ps1 := 4, ps2 := 4 } ∧
      frzAck up.mcr = false ∧ cbtWord { presdiv := 0, rjw := 3, prop := 7, ps1 := 4, ps2 := 4 } = up.cbt := by
  decide +kernel

/-- CalcTimingWritesFdLiterals. -/
theorem test_meets_calcFd :
    frzAck 0x5980081F#32 = true ∧ fdEn 0x5980081F#32 = true ∧
      params.fdFdcbtWord &&& fdcbtNm = frozen.fdcbt &&& fdcbtNm ∧ frozen.seq.pos = .idle ∧
      tparOk.rsv = 0 := by decide

/-- CalcTimingRefusesBadInput: reserved bits, an infeasible timing, and a CBT write outside freeze. -/
theorem test_meets_calcBad :
    { tparOk with rsv := 131071 : Tpar }.rsv ≠ 0 ∧
      timing params.prescalerRule 10 50 1000000 8000000 = none ∧
      (rst.goto (.calcTiming .readCtrl1)).seq.pos = .calcTiming .readCtrl1 ∧ frzAck rst.mcr = false ∧
      cbtWord { presdiv := 0, rjw := 3, prop := 7, ps1 := 4, ps2 := 4 } ≠ rst.cbt := by decide +kernel

/-- CalcTimingLeavesTheRest. -/
theorem test_meets_calcFrame :
    gives (exec (.calcTiming 0 tparOk 500000#32) frozen) (fun _ => true) = true ∧
      gives (exec (.calcTiming 0 tparOk 500000#32) (frozen.goto (.calcTiming .fdCbt))) (fun _ => true) = true ∧
      calcTarget .fdCbt ≠ some .fdcbt ∧ calcTarget .fdFdcbt ≠ some .cbt := by decide +kernel

/-! ## TRANSMIT -/

/-- The last byte below the register window and the first above it fit, and so does the top of memory. -/
theorem test_meets_hostRange :
    HostRangeFits params (0x40023FF8#32).toNat 8 ∧ HostRangeFits params (0x40025000#32).toNat 8 ∧
      HostRangeFits params (0xFFFFFFF8#32).toNat 8 ∧ ¬ HostRangeFits params (0xFFFFFFF9#32).toNat 8 ∧
      ¬ HostRangeFits params (0x40024FFF#32).toNat 8 := by
  refine ⟨.inr ?_, .inr ?_, .inr ?_, ?_, ?_⟩ <;> simp [HostRangeFits, params]

/-- TransmitChecksPreconditions and ReceiveChecksPreconditions: not initialized, a poison class (valid = 1
with none), and a class. -/
theorem test_meets_preconditions :
    rst.seq.pos = .idle ∧ rst.sess.valid = false ∧ up.seq.pos = .idle ∧ up.sess.valid = true ∧
      up.sess.cls = some .b8 ∧ payloadBytes .b8 = 8 ∧
      { up with sess := { up.sess with cls := none } }.sess.cls = none := by decide

/-- TransmitClaimsFirstFreeBuffer: buffer 16 under CODE_FIELD, buffer 31 and none under WHOLE_WORD. -/
theorem test_meets_claim :
    lpmAck up.mcr = false ∧
      (∀ i, i < poolSize .b8 →
        cellRead up.ram (csIndex .b8 i) = some (if i < 16 then 0x04000000#32 else 0x08000000#32)) ∧
      params.txFreeMatch = .codeField ∧ codeOf 0x08000000#32 = codeTxInactive ∧
      codeOf 0x04000000#32 ≠ codeTxInactive ∧ 16 < poolSize .b8 ∧ 31 < poolSize .b8 ∧
      { params with txFreeMatch := .wholeWord }.txFreeMatch = .wholeWord ∧ 0x08080000#32 ≠ 0x08000000#32 := by
  decide +kernel

/-- TransmitWritesItsBuffer: the last buffer, its last data word, and the three cases of the identifier. -/
theorem test_meets_transmitWrites :
    up.sess.cls = some .b8 ∧ hwClass up = .b8 ∧ lpmAck up.mcr = false ∧ 31 < poolSize .b8 ∧ HostOwns up 31 ∧
      params.txIdMode = .alwaysStandard ∧ up.sess.idType = some .standard ∧ 1 < dataWords .b8 ∧
      cellRead up.hostMem ((0x20000000#32).toNat + 4 * 1) = some 5#8 ∧
      cellRead up.hostMem ((0x20000000#32).toNat + 4 * 1 + 1) = some 6#8 ∧
      cellRead up.hostMem ((0x20000000#32).toNat + 4 * 1 + 2) = some 7#8 ∧
      cellRead up.hostMem ((0x20000000#32).toNat + 4 * 1 + 3) = some 8#8 := by
  refine ⟨rfl, by decide, by decide, by decide,
    .inr ⟨0x08000000#32, by decide +kernel, by decide, by decide⟩, ?_⟩
  decide +kernel

/-- Its other clauses: a byte that is poison at the edge of a word, and a session of the 8-byte class on a
controller of the 16-byte class, whose block write is made for one word and faults for another. -/
theorem test_meets_transmitWrites_other :
    cellRead up.hostMem ((0x20000002#32).toNat + 4 * 1 + 1) = some 8#8 ∧
      cellRead up.hostMem ((0x20000002#32).toNat + 4 * 1 + 2) = none ∧
      up16.sess.cls = some .b8 ∧ hwClass up16 = .b16 ∧ csIndex .b8 31 + 1 = 125 ∧
      (match regWrite (0x080 + 4 * 125) 0x048C0000#32 up16 with
        | .ok _ => true
        | .error _ => false) = true ∧
      (match regWrite (0x080 + 4 * csIndex .b8 0) 0x0C080000#32 up16 with
        | .ok _ => false
        | .error r => r == .ownershipViolation) = true := by decide +kernel

/-- TransmitRequestsAndWaits: a TX_DATA buffer, a flag set and clear, and a limit reached and not. -/
theorem test_meets_request :
    busy.sess.cls = some .b8 ∧ hwClass busy = .b8 ∧ 16 < poolSize .b8 ∧ hwCs busy 16 = some 0x0C080000#32 ∧
      codeOf 0x0C080000#32 = codeTxData ∧ operational busy = true ∧ busy.iflag.getLsbD 0 = true ∧
      busy.iflag.getLsbD 16 = false ∧ busy.params.pollLimit = none ∧
      (limited busy 1).params.pollLimit = some 1 ∧ (limited busy 3).seq.attempts + 1 ≠ 3 := by
  decide +kernel

/-- TransmitTimeoutRevokes: buffer 16 still requested, and already HOST's (95, X13). -/
theorem test_meets_revoke :
    busy.sess.cls = some .b8 ∧ hwClass busy = .b8 ∧ lpmAck busy.mcr = false ∧
      hwCodeIs busy codeTxData 16 = true ∧ HostOwns frozen 16 ∧ 31 < poolSize .b8 := by
  refine ⟨rfl, by decide, by decide, by decide +kernel, .inl (by decide), by decide⟩

/-- TransmitLeavesTheRest: at the start, at a data word and at the request. -/
theorem test_meets_transmitFrame :
    posFits (.transmit 0 8 0#32 0x20000000#32) up.sess (.transmit (.writeData 31 1)) = true ∧
      gives (exec (.transmit 0 8 0#32 0x20000000#32) (up.goto (.transmit (.writeData 31 1))))
        (fun _ => true) = true ∧
      gives (exec (.transmit 0 8 0#32 0x20000000#32) (busy.goto (.transmit (.request 16))))
        (fun _ => true) = true ∧
      gives (exec (.transmit 0 8 0#32 0x20000000#32) up) (fun _ => true) = true := by decide +kernel

/-! ## RECEIVE -/

/-- ReceiveScansFlags: the first and the last flag, and none, with and without a limit. -/
theorem test_meets_scan :
    busy.sess.cls = some .b8 ∧ busy.iflag.getLsbD 0 = true ∧
      (0x80000000#32).getLsbD 31 = true ∧ (∀ i, i < 31 → (0x80000000#32).getLsbD i = false) ∧
      (∀ i, i < poolSize .b8 → up.iflag.getLsbD i = false) ∧ up.params.pollLimit = none ∧
      (limited up 1).seq.attempts + 1 = 1 ∧ (limited up 3).seq.attempts + 1 ≠ 3 := by decide +kernel

/-- ReceiveReadsAndCopies: the last data word of the last buffer; a copy of no byte and one of 8 at the top
of memory. -/
theorem test_meets_copy :
    up.sess.cls = some .b8 ∧ 31 < poolSize .b8 ∧ 1 < dataWords .b8 ∧ lpmAck up.mcr = false ∧
      cellRead up.ram (csIndex .b8 31 + 2 + 1) = some 0#32 ∧ min 0 (payloadBytes .b8) = 0 ∧
      min 65535 (payloadBytes .b8) = 8 ∧ HostRangeFits params (0xFFFFFFF8#32).toNat 8 := by
  refine ⟨rfl, by decide, by decide, by decide, by decide +kernel, by decide, by decide, .inr ?_⟩
  simp [params]

/-- ReceiveReleasesAndFinishes: a full buffer and one that is not full. -/
theorem test_meets_release :
    busy.sess.cls = some .b8 ∧ hwClass busy = .b8 ∧ hwCs busy 0 = some 0x02080000#32 ∧
      codeOf 0x02080000#32 = codeRxFull ∧ operational busy = true ∧ hwCs busy 31 = some 0x08000000#32 ∧
      codeOf 0x08000000#32 ≠ codeRxFull ∧ 31 < poolSize .b8 := by decide +kernel

/-- ReceiveLeavesTheRest: at the copy and at the release. -/
theorem test_meets_receiveFrame :
    posFits (.receive 0 8 0x20000100#32) busy.sess (.receive (.copy 31 [0#32, 0#32])) = true ∧
      gives (exec (.receive 0 8 0x20000100#32) (busy.goto (.receive (.copy 31 [0#32, 0#32]))))
        (fun _ => true) = true ∧
      posFits (.receive 0 8 0x20000100#32) busy.sess (.receive (.release 31)) = true ∧
      gives (exec (.receive 0 8 0x20000100#32) (busy.goto (.receive (.release 31)))) (fun _ => true) = true ∧
      gives (exec (.receive 0 8 0x20000100#32) busy) (fun _ => true) = true := by decide +kernel

/-! ## INIT -/

/-- InitValidatesItsInput: SP at 100 and 101, and the timing of each protocol; INST is free. -/
theorem test_meets_initBad :
    rst.seq.pos = .idle ∧ ¬ 100 < { cfgOk with sp := 100 : Cfg }.sp ∧
      100 < { cfgOk with sp := 101 : Cfg }.sp ∧ cfgOk.proto = .can20 ∧
      timing params.prescalerRule 16 75 (500000#32).toNat 8000000 ≠ none ∧
      timing params.prescalerRule 16 75 (0#32).toNat 8000000 = none := by decide +kernel

/-- InitRequestsModes: the four positions. -/
theorem test_meets_initModes :
    (rst.goto (.init .clearValid)).seq.pos = .init .clearValid ∧
      (rst.goto (.init (.enable none))).seq.pos = .init (.enable none) ∧
      (frozen.goto (.init (.exitFreeze none))).seq.pos = .init (.exitFreeze none) ∧
      (rst.goto (.init (.timeoutDisable none))).seq.pos = .init (.timeoutDisable none) := by decide

/-- InitSetsConfiguration: CLKSRC while disabled, the others in freeze. -/
theorem test_meets_initConfig :
    (rst.goto (.init (.clkSrc none))).seq.pos = .init (.clkSrc none) ∧ lpmAck rst.mcr = true ∧
      (frozen.goto (.init (.fdEn none))).seq.pos = .init (.fdEn none) ∧
      (frozen.goto (.init (.fdCtrl none))).seq.pos = .init (.fdCtrl none) ∧
      (frozen.goto (.init .session)).seq.pos = .init .session ∧
      (frozen.goto (.init (.loopBack none))).seq.pos = .init (.loopBack none) ∧
      frzAck frozen.mcr = true := by decide

/-- InitWaitsAndFinishes: each poll done and failed, with and without a limit. -/
theorem test_meets_initPolls :
    lpmAck rst.mcr = true ∧ lpmAck up.mcr = false ∧ frzAck frozen.mcr = true ∧ frzAck up.mcr = false ∧
      notRdy up.mcr = false ∧ notRdy frozen.mcr = true ∧ rst.params.pollLimit = none ∧
      (limited rst 1).seq.attempts + 1 = 1 ∧ (limited rst 2).seq.attempts + 1 ≠ 2 ∧
      (rst.goto (.init .complete)).seq.pos = .init .complete ∧
      (rst.goto (.init .timeoutFinish)).seq.pos = .init .timeoutFinish := by decide

/-- InitWritesTiming: both paths, under each clock. -/
theorem test_meets_initTiming :
    (frozen.goto (.init .timingMcr)).seq.pos = .init .timingMcr ∧ frzAck frozen.mcr = true ∧
      fdEn frozen.mcr = false ∧ timing params.prescalerRule 16 75 (500000#32).toNat 8000000 ≠ none ∧
      timing params.prescalerRule 16 75 (500000#32).toNat 40000000 ≠ none ∧ fdEn 0x5980081F#32 = true ∧
      frzAck 0x5980081F#32 = true ∧ params.fdFdcbtWord &&& fdcbtNm = frozen.fdcbt &&& fdcbtNm := by
  decide +kernel

/-- InitZeroesRam: in freeze with poison RAM. -/
theorem test_meets_zeroRam :
    (frozenPoison.goto (.init (.zeroRam 0))).seq.pos = .init (.zeroRam 0) ∧
      frzAck frozenPoison.mcr = true ∧ lpmAck frozenPoison.mcr = false := by decide

/-- InitPartitionsThePool: the 8-byte class and, with FDEN = 1, the 64-byte class. -/
theorem test_meets_partition :
    hwClass frozen = .b8 ∧ initClass cfgOk = .b8 ∧
      hwClass { frozen with mcr := 0x5980080F#32, fdctrl := 0x00030100#32 } = .b64 ∧
      initClass { cfgOk with proto := .canFd, pclass := .b64 } = .b64 ∧ frzAck 0x5980080F#32 = true ∧
      lpmAck 0x5980080F#32 = false ∧ frzAck frozen.mcr = true ∧ lpmAck frozen.mcr = false ∧
      cellRead frozen.ram 0 = some 0x04000000#32 := by decide +kernel

/-- InitLeavesTheRest: at the start and at the last element of each loop. -/
theorem test_meets_initFrame :
    posFits (.init 0 cfgOk 500000#32 0#32 0#32 0#32) rst.sess .idle = true ∧
      gives (exec (.init 0 cfgOk 500000#32 0#32 0#32 0#32) rst) (fun _ => true) = true ∧
      posFits (.init 0 cfgOk 500000#32 0#32 0#32 0#32) rst.sess (.init (.zeroRam 127)) = true ∧
      gives (exec (.init 0 cfgOk 500000#32 0#32 0#32 0#32) (frozen.goto (.init (.zeroRam 127))))
        (fun t => t.seq.pos == .init (.mask 0)) = true ∧
      posFits (.init 0 cfgOk 500000#32 0#32 0#32 0#32) rst.sess (.init (.tag 31)) = true ∧
      gives (exec (.init 0 cfgOk 500000#32 0#32 0#32 0#32) (frozen.goto (.init (.tag 31))))
        (fun t => t.seq.pos == .init (.findTag 0)) = true := by decide +kernel

/-- InitFromResetBringsControllerUp: CAN 2.0 and CAN-FD with 64 bytes, either clock. -/
theorem test_meets_bringUp :
    params.wf = true ∧ WellFormed (.init 0 cfgOk 500000#32 0#32 0#32 0x123#32) = true ∧
      initInvalid params 0 cfgOk 500000#32 = false ∧
      initInvalid params 0 { cfgOk with clk := .bus } 500000#32 = false ∧
      initInvalid params 0 { cfgOk with proto := .canFd, pclass := .b64, sp := 0, qpb := 0 } 0#32 = false := by
  decide +kernel

/-! ## The agents and the invariants -/

/-- CtrlStepsAnswerRequests has a row for each CTRL step; CtrlSettlesInTheTable: a disabled, a frozen and an
operational state in which CTRL has no step. -/
theorem test_meets_ctrl :
    acksAgree rst = true ∧ enabledMoves rst = [] ∧ mdis rst.mcr = true ∧ acksAgree frozen = true ∧
      enabledMoves frozen = [] ∧ (frz frozen.mcr && halt frozen.mcr) = true ∧ acksAgree up = true ∧
      enabledMoves up = [] ∧ mdis up.mcr = false ∧ (frz up.mcr && halt up.mcr) = false := by
  decide +kernel

/-- EngineCompletesATransmission: buffer 16 requested, in normal mode. -/
theorem test_meets_engine :
    16 < poolSize (hwClass busy) ∧ hwCs busy 16 = some 0x0C080000#32 ∧
      cellRead busy.ram (csIndex (hwClass busy) 16 + 1) = some 0#32 ∧
      (∀ k, k < dataWords (hwClass busy) →
        cellRead busy.ram (csIndex (hwClass busy) 16 + 2 + k) ≠ none) ∧
      lpb { busy with ctrl1 := 0#32 }.ctrl1 = false := by decide +kernel

/-- DeliveryTakesTheLowestMatch: every buffer usable and readable, buffer 0 takes the frame under masks of
0; under full masks none does; and a mask that is poison. -/
theorem test_meets_delivery :
    hwClass up = .b8 ∧ [1#32, 2#32].length = dataWords .b8 ∧
      (∀ j, j < 32 → usable up j = true →
        hwCs up j = some (if j < 16 then 0x04000000#32 else 0x08000000#32)) ∧
      (∀ j, j < 16 → cellRead up.ram (csIndex .b8 j + 1) =
        some (if j = 0 then 0x048C0000#32 else 0#32)) ∧
      (∀ j, j < 32 → cellRead up.rximr j = some 0#32) ∧ maxMb up.mcr = 31 ∧
      (0x11580000#32 ^^^ 0x048C0000#32) &&& 0#32 &&& 0x1FFFFFFF#32 = 0#32 ∧
      (0x11580000#32 ^^^ 0x048C0000#32) &&& 0xFFFFFFFF#32 &&& 0x1FFFFFFF#32 ≠ 0#32 ∧
      (0x11580000#32 ^^^ 0#32) &&& 0xFFFFFFFF#32 &&& 0x1FFFFFFF#32 ≠ 0#32 ∧
      cellRead { up with rximr := [] }.rximr 0 = none := by decide +kernel

/-- The same with the hypotheses as they stand, over every buffer number. -/
theorem test_meets_delivery_usable :
    (∀ j, usable up j = true → hwCs up j = some (if j < 16 then 0x04000000#32 else 0x08000000#32)) ∧
      (∀ j, usable up j = true →
        codeOf (if j < 16 then 0x04000000#32 else 0x08000000#32) = codeRxEmpty →
        cellRead up.ram (csIndex .b8 j + 1) = some (if j = 0 then 0x048C0000#32 else 0#32)) := by
  have key : ∀ j, j < 32 →
      hwCs up j = some (if j < 16 then 0x04000000#32 else 0x08000000#32) ∧
        cellRead up.ram (csIndex .b8 j + 1) = some (if j = 0 then 0x048C0000#32 else 0#32) := by
    decide +kernel
  have lt : ∀ j, usable up j = true → j < 32 := by
    intro j h
    simp only [usable, Bool.and_eq_true, decide_eq_true_eq] at h
    exact h.1
  exact ⟨fun j h => (key j (lt j h)).1, fun j h _ => (key j (lt j h)).2⟩

/-- FramesComeFromLoopBackOrBus: buffer 16 in loop-back. -/
theorem test_meets_frames :
    16 < poolSize (hwClass busy) ∧ hwCs busy 16 = some 0x0C080000#32 ∧
      cellRead busy.ram (csIndex (hwClass busy) 16 + 1) = some 0#32 ∧
      [0#32, 0#32].length = dataWords (hwClass busy) ∧
      (∀ k, k < dataWords (hwClass busy) →
        cellRead busy.ram (csIndex (hwClass busy) 16 + 2 + k) = [0#32, 0#32][k]?) ∧
      dlcOf 0x0C080000#32 = 8#4 ∧ lpb busy.ctrl1 = true := by decide +kernel

/-- LoopBackReturnsThePayload: after program 1's INIT, j = 16 and r = 0, or r = 1 with buffer 0 full. -/
theorem test_meets_loopBack :
    up.seq.pos = .idle ∧ operational up = true ∧ lpb up.ctrl1 = true ∧ up.sess.valid = true ∧
      up.sess.cls = some .b8 ∧ hwClass up = .b8 ∧ payloadBytes .b8 = 8 ∧
      (∀ m, m < 8 → cellRead up.hostMem ((0x20000000#32).toNat + m) = some (BitVec.ofNat 8 (m + 1))) ∧
      up.params.txIdMode = .alwaysStandard ∧ up.params.txFreeMatch = .codeField ∧
      (∀ i, i < poolSize .b8 →
        cellRead up.ram (csIndex .b8 i) = some (if i < 16 then 0x04000000#32 else 0x08000000#32)) ∧
      16 < poolSize .b8 ∧ 16 ≤ maxMb up.mcr ∧ codeOf 0x08000000#32 = codeTxInactive ∧
      codeOf 0x04000000#32 ≠ codeTxInactive ∧ codeOf 0x04000000#32 = codeRxEmpty ∧
      cellRead up.ram (csIndex .b8 0 + 1) ≠ none ∧ cellRead up.rximr 0 = some 0#32 ∧
      codeOf 0x02000000#32 ≠ codeRxEmpty ∧ codeOf 0x02000000#32 ≠ codeTxInactive ∧
      up.iflag.getLsbD 0 = false ∧ cellRead up.ram (csIndex .b8 1 + 1) ≠ none ∧
      cellRead up.rximr 1 = some 0#32 := by decide +kernel

/-- Its two host ranges. -/
theorem test_meets_loopBack_ranges :
    HostRangeFits up.params (0x20000000#32).toNat 8 ∧ HostRangeFits up.params (0x20000100#32).toNat 8 := by
  refine ⟨.inr ?_, .inr ?_⟩ <;> simp [up, rst, State.launch, params]

/-- EveryBufferHasOneWriter: HOST and ENGINE each change a control word. -/
theorem test_meets_writers :
    .host ∈ enabledMoves { (up.goto .write32) with seq := { (up.goto .write32).seq with
        desc := some [6#32, 0x180#32, 0x08010000#32] } } ∧
      gives (runMove .host { (up.goto .write32) with seq := { (up.goto .write32).seq with
          desc := some [6#32, 0x180#32, 0x08010000#32] } })
        (fun t => cellRead t.ram 64 != cellRead up.ram 64) = true ∧
      64 = csIndex (hwClass up) 16 ∧ .tx 16 ∈ enabledMoves busy := by decide +kernel

/-- EachStatusBitHasOneWriter: a CTRL step, a flag that ENGINE sets, and RECEIVE's copy. -/
theorem test_meets_statusWriters :
    gives (runMove .lpmExit { rst with mcr := 0x5890000F#32 }) (fun t => !lpmAck t.mcr) = true ∧
      gives (runMove .lpmExit rst) (fun t => lpmAck t.mcr != lpmAck rst.mcr) = true ∧
      .tx 16 ∈ enabledMoves busy ∧
      gives (runMove .host { busy with seq := { busy.seq with
          pos := .receive (.copy 0 [1#32, 2#32]), desc := some [0x00080003#32, 0x20000100#32] } })
        (fun t => t.hostMem != busy.hostMem) = true := by decide +kernel

/-- The invariants hold in a state with a program to run and in one inside an operation, and a step from
each is a next state. -/
theorem test_meets_invariants :
    cellsCanonical up = true ∧ nmAtReset up = true ∧ acksAgree up = true ∧ coherent up = true ∧
      coherent { (up.goto .read32) with seq := { (up.goto .read32).seq with
        desc := some [5#32, 0x180#32] } } = true ∧
      gives (step { up with prog := [5#32, 0#32] }) (fun _ => true) = true := by decide +kernel

/-- The invariants are not true of every state. -/
theorem test_invariants_refuse :
    cellsCanonical { up with ram := [(1, 0#32), (0, 0#32)] } = false ∧
      nmAtReset { up with mcr := 0#32 } = false ∧ acksAgree { up with mcr := 0x01000000#32 } = false ∧
      coherent (up.goto .read32) = false := by decide +kernel

/-- 95, Y8: HOST polls for ever and no agent can step; outside loop-back, and under the other reading of
decision D21, BUS can. -/
theorem test_noneCanStep :
    waiting.params.pollLimit = none ∧ pollFails waiting = true ∧ enabledMoves waiting = [.host] ∧
      coherent waiting = true ∧ waiting.seq.pos ≠ .idle ∧
      gives (step waiting) (fun t => t.seq.pos == .receive (.scan 0)) = true ∧
      enabledMoves { waiting with ctrl1 := 0#32 } = [.host, .rxFrame] ∧
      enabledMoves { waiting with params := { params with loopBackBus := true } } = [.host, .rxFrame] := by
  decide +kernel

/-- In `waiting` no agent can step. -/
theorem waiting_noneCanStep : NoneCanStep waiting :=
  ⟨rfl, test_noneCanStep.2.1, fun m hm => by
    rw [test_noneCanStep.2.2.1] at hm
    exact List.mem_singleton.mp hm⟩

/-- 95, V2: at INIT's step 5 CTRL could take LPM-EXIT, and HOST's attempt changes nothing. -/
theorem test_silent :
    enabledMoves silent = [.host, .lpmExit] ∧ runMove .host silent = .next silent :=
  ⟨by decide +kernel, rfl⟩

/-- 95, V2: the run in which CTRL never steps is a run, stuck and not final. -/
theorem silent_stuck :
    IsRun (fun _ => silent) (fun _ => some .host) ∧ Stuck (fun _ => silent) (fun _ => some .host) ∧
      ∀ n, ¬ FinalAt (fun _ => silent) n := by
  have nf : ¬ Final silent := fun h => by cases h.1
  refine ⟨⟨?_, fun _ h => absurd h nf, ?_⟩, ⟨⟨0, rfl, fun _ _ => ⟨rfl, rfl, rfl⟩⟩, 0, ?_⟩, fun _ h => nf h.1⟩
  · rintro n m ⟨⟩
    exact ⟨by rw [test_silent.1]; simp, test_silent.2⟩
  · rintro n ⟨⟩
  · rintro l m - ⟨⟩
    rfl

/-- The very next step after withFetchWord takes the instruction, in every row of the table. -/
theorem test_withFetchWord :
    gives (step (rst.withFetchWord 32 0x00000001)) (fun t => t.seq.desc.map List.length == some 6) = true ∧
      faults (step (rst.withFetchWord 32 0x00000002)) .notInitialized = true ∧
      faults (step (rst.withFetchWord 32 0x00000003)) .notInitialized = true ∧
      gives (step (rst.withFetchWord 32 0x00000004)) (fun t => t.seq.pos == .calcTiming .readMcr) = true ∧
      gives (step (rst.withFetchWord 32 0x00000005)) (fun t => t.seq.pos == .read32) = true ∧
      gives (step (rst.withFetchWord 32 0x00000006)) (fun t => t.seq.pos == .write32) = true := by
  decide +kernel

end Sys2Proof.Tests
end

section
/-! SUPPORT. A step as one enabled move of one agent (R66). -/

namespace Sys2Proof.Machine

/-! ## A step is one enabled move (R66) -/

/-- A free choice among enabled moves is one of them, and may count as a choice. -/
theorem freePick_spec (m : Move) (ms : List Move) (s : State) :
    ∃ m' ch, m' ∈ m :: ms ∧ (ch = s.choices ∨ ch = s.choices + 1) ∧
      freePick m ms s = (m', { s with choices := ch }) := by
  cases ms with
  | nil => exact ⟨m, s.choices, List.mem_singleton_self m, .inl rfl, rfl⟩
  | cons a ms =>
    refine ⟨_, s.choices + 1, ?_, .inr rfl, rfl⟩
    have hk : Config.freeChoice s.choices % ((a :: ms).length + 1) < (m :: a :: ms).length :=
      Nat.mod_lt _ (Nat.succ_pos _)
    rw [List.getD_eq_getElem _ _ hk]
    exact List.getElem_mem hk

/-- With an enabled move, the step runs one, in the state with the head of the agenda taken off. -/
theorem step_spec {s : State} (h : enabledMoves s ≠ []) :
    ∃ m ch, m ∈ enabledMoves s ∧ (ch = s.choices ∨ ch = s.choices + 1) ∧
      step s = runMove m { s with agenda := s.agenda.tail, choices := ch } := by
  obtain ⟨m, ms, hm⟩ := List.exists_cons_of_ne_nil h
  obtain ⟨m', ch, hmem, hch, hp⟩ := freePick_spec m ms { s with agenda := s.agenda.tail }
  rw [hm]
  unfold step stepOnce pickMove
  rw [hm]
  cases ha : s.agenda with
  | nil =>
    have hs : ({ s with agenda := s.agenda.tail } : State) = s := by rw [ha, List.tail_nil, ← ha]
    rw [hs] at hp hch
    exact ⟨m', ch, hmem, hch, by simp only [hp]; rw [List.tail_nil, ← ha]⟩
  | cons a rest =>
    rw [ha, List.tail_cons] at hp
    by_cases hin : a ∈ m :: ms
    · exact ⟨a, s.choices, hin, .inl rfl, by simp only [if_pos hin]; rfl⟩
    · exact ⟨m', ch, hmem, hch, by simp only [if_neg hin, hp]; rfl⟩

/-- The schedule does not decide which moves are enabled. -/
theorem enabledMoves_schedule (s : State) (ag : List Move) (ch : Nat) :
    enabledMoves { s with agenda := ag, choices := ch } = enabledMoves s :=
  List.filter_congr fun m _ => by cases m <;> rfl

/-- What every enabled move does in every state, whatever its schedule, every step does. -/
theorem step_of_moves {P : State → Prop} {Q : Out State → Prop} {s : State} (hs : P s)
    (hstay : ∀ s, P s → Q (.next s))
    (hagenda : ∀ s ag ch, P s → P { s with agenda := ag, choices := ch })
    (hmove : ∀ s m, P s → m ∈ enabledMoves s → Q (runMove m s)) : Q (step s) := by
  by_cases he : enabledMoves s = []
  · have : step s = .next s := by unfold step stepOnce pickMove; rw [he]
    rw [this]
    exact hstay s hs
  · obtain ⟨m, ch, hm, -, h⟩ := step_spec he
    rw [h]
    exact hmove _ m (hagenda s _ ch hs) (by rw [enabledMoves_schedule]; exact hm)

/-- TX(i)'s move is its step (R189). -/
theorem runMove_tx {i : Nat} {s t : State} : runMove (.tx i) s = .next t ↔ txStep i s = .ok t := by
  simp only [runMove, tryDo_eq_next, Host.Outcome.next.injEq, exists_eq_right]

/-- RX-FRAME's move is its step (R196). -/
theorem runMove_rxFrame {s t : State} : runMove .rxFrame s = .next t ↔ rxFrameStep s = .ok t := by
  simp only [runMove, tryDo_eq_next, Host.Outcome.next.injEq, exists_eq_right]

end Sys2Proof.Machine
end

section
/-! SUPPORT. HOST's micro-step: one effect outside the sequencer and one move of the sequencer, for every
instruction and position (R22, R72); what `exec` refuses; the descriptor HOST works on (R22, R88). -/

namespace Sys2Proof.Machine

/-! ## One micro-step of HOST (R22, R66, R72) -/

/-- What one micro-step of HOST does outside the sequencer and the statuses: nothing, a session part of INIT,
one block write (INIT's last zeroing also drops the requests), or RECEIVE's copy. -/
inductive HostEffect (s : State) : State → Prop
  | stay : HostEffect s s
  | session (p : InitPos) (x : Session) : s.seq.pos = .init p → HostEffect s { s with sess := x }
  | write (off : Nat) (v : Word) (u : State) : regWrite off v s = .ok u → HostEffect s u
  | lastZero (k : Nat) (u : State) : s.seq.pos = .init (.zeroRam k) →
      regWrite (offRam k) 0#32 s = .ok u → HostEffect s u.dropRequests
  | copy (j : Nat) (ws : List Word) (a : Nat) (f : Nat → Byte) (ms : List Nat) (u : State) :
      s.seq.pos = .receive (.copy j ws) → hostWriteAll a f s ms = .ok u → HostEffect s u

/-- `t` is `u` but for the sequencer, which keeps its descriptor, and the statuses. -/
def MovesSeq (u t : State) : Prop :=
  t = { u with seq := { t.seq with desc := u.seq.desc }, statuses := t.statuses }

theorem MovesSeq.mcr {u t : State} (h : MovesSeq u t) : t.mcr = u.mcr := by rw [h]

theorem MovesSeq.iflag {u t : State} (h : MovesSeq u t) : t.iflag = u.iflag := by rw [h]

theorem MovesSeq.sess {u t : State} (h : MovesSeq u t) : t.sess = u.sess := by rw [h]

theorem MovesSeq.hostMem {u t : State} (h : MovesSeq u t) : t.hostMem = u.hostMem := by rw [h]

theorem MovesSeq.desc {u t : State} (h : MovesSeq u t) : t.seq.desc = u.seq.desc := by rw [h]

/-- One micro-step of HOST from `s` to `t`: its effect, then a move to a position with the property. -/
def MicroStep (P : Pos → Prop) (s t : State) : Prop :=
  ∃ u, HostEffect s u ∧ MovesSeq u t ∧ P t.seq.pos

variable {P : Pos → Prop} {s t : State}

theorem microStep_goto {p : Pos} (hp : P p) : MicroStep P s (s.goto p) := ⟨s, .stay, rfl, hp⟩

theorem microStep_start {p : Pos} (hp : P p) : MicroStep P s (s.start p) := ⟨s, .stay, rfl, hp⟩

theorem microStep_finish (st : Status) (hp : P .idle) : MicroStep P s (s.finish st) :=
  ⟨s, .stay, rfl, hp⟩

/-- A failed poll attempt stays, or runs a timeout rule that moves the sequencer only (R226). -/
theorem pollFailed_movesSeq {f : State → State} (hstay : P s.seq.pos)
    (hf : ∀ u, MovesSeq u (f u) ∧ P (f u).seq.pos) :
    MovesSeq s (s.pollFailed f) ∧ P (s.pollFailed f).seq.pos := by
  unfold State.pollFailed
  split
  · exact ⟨rfl, hstay⟩
  · dsimp only
    split
    · exact hf { s with seq := { s.seq with attempts := s.seq.attempts + 1 } }
    · exact ⟨rfl, hstay⟩

theorem microStep_writeStep {off : Nat} {v : Word} {p : Pos} (h : writeStep off v p s = .next t)
    (hp : P p) : MicroStep P s t := by
  obtain ⟨u, hu, rfl⟩ := writeStep_eq_next.mp h
  exact ⟨u, .write off v u hu, rfl, hp⟩

theorem microStep_writeAndFinish {off : Nat} {v : Word} (h : writeAndFinish off v s = .next t)
    (hp : P .idle) : MicroStep P s t := by
  obtain ⟨u, hu, h⟩ := tryDo_eq_next.mp h
  cases h
  exact ⟨u, .write off v u hu, rfl, hp⟩

theorem microStep_fieldStep {off : Nat} {mask v : Word} {w : Option Word} {here : Option Word → Pos}
    {p : Pos} (h : fieldStep off mask v w here p s = .next t) (hhere : ∀ x, P (here x)) (hp : P p) :
    MicroStep P s t := by
  obtain ⟨-, x, -, rfl⟩ | ⟨x, u, -, hu, rfl⟩ := fieldStep_eq_next h
  · exact microStep_goto (hhere _)
  · exact ⟨u, .write off _ u hu, rfl, hp⟩

theorem microStep_pollStep {off : Nat} {c : Word → Bool} {p q : Pos} (h : pollStep off c p q s = .next t)
    (hstay : P s.seq.pos) (hp : P p) (hq : P q) : MicroStep P s t := by
  obtain ⟨w, -, h⟩ := tryDo_eq_next.mp h
  cases h
  split
  · exact microStep_start hp
  · exact ⟨s, .stay, pollFailed_movesSeq hstay fun u => ⟨rfl, hq⟩⟩

theorem microStep_transmitPut {k : Nat} {v : Except Fault Word} {p : TxPos}
    (h : transmitPut k v p s = .next t) (hp : P (.transmit p)) : MicroStep P s t := by
  obtain ⟨w, -, h⟩ := tryDo_eq_next.mp h
  exact microStep_writeStep h hp

/-! ## The micro-steps of each operation -/

/-- From a position in the operation's ranges the sequencer goes to another one, or the operation ends. -/
def StaysFit (i : Instr) (x : Session) (p q : Pos) : Prop := posFits i x p = true → posFits i x q = true

/-- The position after an element of one of INIT's loops is in the loop's range, or it is what follows. -/
theorem initNext_fits {i : Instr} {x : Session} {k n : Nat} {again : Nat → InitPos} {after : InitPos}
    (hagain : k + 1 < n → posFits i x (.init (again (k + 1))) = true)
    (hafter : posFits i x (.init after) = true) : posFits i x (initNext k n again after) = true := by
  unfold initNext
  split
  · exact hagain ‹_›
  · exact hafter

theorem initMicro_microStep {inst : Nat} {cfg : Cfg} {nbr dbr txid rxid : Word} {p : InitPos}
    (hpos : s.seq.pos = .init p) (h : initMicro cfg nbr rxid p s = .next t) :
    MicroStep (StaysFit (.init inst cfg nbr dbr txid rxid) s.sess (.init p)) s t := by
  have hstay : StaysFit (.init inst cfg nbr dbr txid rxid) s.sess (.init p) s.seq.pos := by
    rw [hpos]; exact fun hp => hp
  have hpool : decide (0 < poolSize (initClass cfg)) = true := decide_eq_true (poolSize_pos _)
  unfold initMicro initField initPoll at h
  cases p with
  | clearValid | session | complete => cases h; exact ⟨_, .session _ _ hpos, rfl, fun _ => rfl⟩
  | timeoutFinish => cases h; exact microStep_finish _ fun _ => rfl
  | disable w | clkSrc w | enable w | fdCtrl w | maxMb w | loopBack w | exitFreeze w | timeoutDisable w =>
    exact microStep_fieldStep h (fun _ _ => rfl) fun _ => rfl
  | fdEn w =>
    refine microStep_fieldStep h (fun _ _ => rfl) fun _ => ?_
    cases cfg.proto <;> rfl
  | pollDisabled | pollEnabled | pollFrozen | pollUnfrozen | pollReady =>
    exact microStep_pollStep h hstay (fun _ => rfl) fun _ => rfl
  | timingMcr =>
    obtain ⟨m, -, h⟩ := tryDo_eq_next.mp h
    cases h
    refine microStep_goto fun _ => ?_
    split <;> rfl
  | timingCtrl1 =>
    obtain ⟨w, -, h⟩ := tryDo_eq_next.mp h
    split at h <;> cases h
    · exact microStep_finish _ fun _ => rfl
    · exact microStep_goto fun _ => rfl
  | timingFdCbt | timingFdFdcbt | timingCbt | rxId => exact microStep_writeStep h fun _ => rfl
  | zeroRam k =>
    dsimp only at h
    split at h
    · rename_i hk
      exact microStep_writeStep h fun _ => decide_eq_true hk
    · obtain ⟨u, hu, h⟩ := tryDo_eq_next.mp h
      cases h
      exact ⟨_, .lastZero k u hpos hu, rfl, fun _ => hpool⟩
  | mask i | tag i => exact microStep_writeStep h fun _ => initNext_fits decide_eq_true hpool
  | findTag i =>
    obtain ⟨w, -, h⟩ := tryDo_eq_next.mp h
    split at h
    · cases h; exact microStep_goto fun hp => hp
    · split at h <;> cases h
      exact microStep_goto fun _ => decide_eq_true ‹_›

/-- TRANSMIT's ranges are those of the session's class (R147). -/
theorem posFits_transmit {inst len : Nat} {id src : Word} {x : Session} {c : PClass} (hc : x.cls = some c)
    (q : TxPos) : posFits (.transmit inst len id src) x (.transmit q) = txPosFits c q := by
  simp [posFits, hc]

/-- RECEIVE's ranges are those of the session's class (R161). -/
theorem posFits_receive {inst len : Nat} {dst : Word} {x : Session} {c : PClass} (hc : x.cls = some c)
    (q : RxPos) : posFits (.receive inst len dst) x (.receive q) = rxPosFits c q := by
  simp [posFits, hc]

theorem transmitMicro_microStep {inst len : Nat} {id src : Word} {c : PClass} {p : TxPos}
    (hc : s.sess.cls = some c) (hpos : s.seq.pos = .transmit p)
    (h : transmitMicro c id src p s = .next t) :
    MicroStep (StaysFit (.transmit inst len id src) s.sess (.transmit p)) s t := by
  have fits : ∀ {q}, (txPosFits c p = true → txPosFits c q = true) →
      StaysFit (.transmit inst len id src) s.sess (.transmit p) (.transmit q) := fun hq => by
    rw [StaysFit, posFits_transmit hc, posFits_transmit hc]
    exact hq
  unfold transmitMicro at h
  cases p with
  | scan i =>
    obtain ⟨w, -, h⟩ := tryDo_eq_next.mp h
    split at h
    · cases h; exact microStep_goto (fits fun hj => hj)
    · split at h <;> cases h
      exact microStep_goto (fits fun _ => decide_eq_true ‹_›)
  | writeId j =>
    refine microStep_transmitPut h (fits fun hj => ?_)
    simp only [txPosFits, Bool.and_eq_true, decide_eq_true_eq] at hj ⊢
    exact ⟨hj, dataWords_pos c⟩
  | writeData j k =>
    refine microStep_transmitPut h (fits fun hj => ?_)
    simp only [txPosFits, Bool.and_eq_true, decide_eq_true_eq] at hj
    split
    · simp [txPosFits, hj.1, *]
    · simp [txPosFits, hj.1]
  | writeCs j => exact microStep_transmitPut h (fits fun hj => hj)
  | request j => exact microStep_writeStep h (fits fun hj => hj)
  | poll j =>
    exact microStep_pollStep h (by rw [hpos]; exact fun hp => hp) (fits fun _ => rfl) (fits fun hj => hj)
  | complete => cases h; exact microStep_finish _ fun _ => rfl
  | revoke j => exact microStep_transmitPut h (fits fun _ => rfl)
  | timeoutFinish => cases h; exact microStep_finish _ fun _ => rfl

theorem receiveMicro_microStep {inst len : Nat} {dst : Word} {c : PClass} {p : RxPos}
    (hc : s.sess.cls = some c) (hpos : s.seq.pos = .receive p)
    (h : receiveMicro c len dst p s = .next t) :
    MicroStep (StaysFit (.receive inst len dst) s.sess (.receive p)) s t := by
  have fits : ∀ {q}, (rxPosFits c p = true → rxPosFits c q = true) →
      StaysFit (.receive inst len dst) s.sess (.receive p) (.receive q) := fun hq => by
    rw [StaysFit, posFits_receive hc, posFits_receive hc]
    exact hq
  unfold receiveMicro at h
  cases p with
  | scan i =>
    obtain ⟨f, -, h⟩ := tryDo_eq_next.mp h
    cases h
    split
    · refine microStep_start (fits fun hi => ?_)
      simp only [rxPosFits, Bool.and_eq_true, decide_eq_true_eq] at hi ⊢
      exact ⟨⟨hi, dataWords_pos c⟩, rfl⟩
    · split
      · exact microStep_goto (fits fun _ => decide_eq_true ‹_›)
      · exact ⟨s, .stay, pollFailed_movesSeq (s := s.goto (.receive (.scan 0)))
          (fits fun _ => decide_eq_true (poolSize_pos c)) fun u => ⟨rfl, fun _ => rfl⟩⟩
  | readData j k w =>
    obtain ⟨v, -, h⟩ := tryDo_eq_next.mp h
    cases h
    refine microStep_goto (fits fun hj => ?_)
    simp only [rxPosFits, Bool.and_eq_true, decide_eq_true_eq] at hj
    obtain ⟨⟨hj, hk⟩, hw⟩ := hj
    split
    · simp [rxPosFits, *]
    · simp only [rxPosFits, Bool.and_eq_true, decide_eq_true_eq, List.length_append, List.length_singleton]
      omega
  | copy j w =>
    obtain ⟨u, hu, h⟩ := tryDo_eq_next.mp h
    cases h
    refine ⟨u, .copy j w _ _ _ u hpos hu, rfl, fits fun hj => ?_⟩
    simp only [rxPosFits, Bool.and_eq_true, decide_eq_true_eq] at hj ⊢
    exact hj.1
  | release j => exact microStep_writeStep h (fits fun _ => rfl)
  | complete => cases h; exact microStep_finish _ fun _ => rfl

theorem calcMicro_microStep {inst : Nat} {tpar : Tpar} {nbr : Word} {p : CalcPos}
    (h : calcMicro tpar nbr p s = .next t) :
    MicroStep (StaysFit (.calcTiming inst tpar nbr) s.sess (.calcTiming p)) s t := by
  unfold calcMicro at h
  cases p with
  | readMcr =>
    obtain ⟨m, -, h⟩ := tryDo_eq_next.mp h
    cases h
    exact microStep_goto fun hp => hp
  | fdCbt => exact microStep_writeStep h fun _ => rfl
  | fdFdcbt => exact microStep_writeAndFinish h fun _ => rfl
  | readCtrl1 =>
    obtain ⟨w, -, h⟩ := tryDo_eq_next.mp h
    split at h <;> cases h
    · exact microStep_finish _ fun _ => rfl
    · exact microStep_goto fun _ => rfl
  | writeCbt r => exact microStep_writeAndFinish h fun _ => rfl

/-! ## exec (R22) -/

theorem calcStart_microStep {inst : Nat} {tpar : Tpar} {nbr : Word} {p : Pos} :
    MicroStep (StaysFit (.calcTiming inst tpar nbr) s.sess p) s (calcStart inst tpar s) := by
  unfold calcStart
  split
  · exact microStep_finish _ fun _ => rfl
  · split
    · exact ⟨s, .stay, rfl, fun _ => rfl⟩
    · exact microStep_start fun _ => rfl

theorem initStart_microStep {inst : Nat} {cfg : Cfg} {nbr dbr txid rxid : Word} {p : Pos} :
    MicroStep (StaysFit (.init inst cfg nbr dbr txid rxid) s.sess p) s (initStart inst cfg nbr s) := by
  unfold initStart
  split
  · exact microStep_finish _ fun _ => rfl
  · split
    · exact ⟨s, .stay, rfl, fun _ => rfl⟩
    · exact microStep_start fun _ => rfl

/-- TRANSMIT starts under a session with a payload class (R148). -/
theorem transmitStart_spec {inst len : Nat} {src : Word} (h : transmitStart inst len src s = .ok t) :
    (∃ c, s.sess.cls = some c) ∧ t = s.start (.transmit (.scan 0)) := by
  simp only [transmitStart, thenDo_eq_ok, sessClass, needed_eq_ok] at h
  obtain ⟨_, -, _, -, c, hc, _, -, _, -, h⟩ := h
  exact ⟨⟨c, hc⟩, (Except.ok.inj h).symm⟩

/-- RECEIVE starts under a session with a payload class (R162). -/
theorem receiveStart_spec {inst len : Nat} {dst : Word} (h : receiveStart inst len dst s = .ok t) :
    (∃ c, s.sess.cls = some c) ∧ t = s.start (.receive (.scan 0)) := by
  simp only [receiveStart, thenDo_eq_ok, sessClass, needed_eq_ok] at h
  obtain ⟨_, -, _, -, c, hc, _, -, h⟩ := h
  exact ⟨⟨c, hc⟩, (Except.ok.inj h).symm⟩

/-- READ32 and WRITE32 start by moving the sequencer to their access (R173). -/
theorem accessStart_spec {inst : Nat} {off : Word} {p : Pos} (h : accessStart inst off p s = .ok t) :
    t = s.start p := by
  simp only [accessStart, thenDo_eq_ok] at h
  obtain ⟨_, -, _, -, h⟩ := h
  exact (Except.ok.inj h).symm

/-- Every next state of `exec` comes from one effect and one move of the sequencer, inside the ranges of the
operation where it was inside them. -/
theorem exec_microStep {i : Instr} (h : exec i s = .next t) :
    MicroStep (StaysFit i s.sess s.seq.pos) s t := by
  cases i with
  | init inst cfg nbr dbr txid rxid =>
    simp only [exec, execInit] at h
    split at h
    · cases h; exact initStart_microStep
    · rename_i p hpos
      rw [hpos]
      exact initMicro_microStep hpos h
    · cases h
  | transmit inst len id src =>
    simp only [exec, execTransmit] at h
    split at h
    · obtain ⟨u, hu, h⟩ := tryDo_eq_next.mp h
      cases h
      obtain ⟨⟨c, hc⟩, rfl⟩ := transmitStart_spec hu
      refine microStep_start fun _ => ?_
      rw [posFits_transmit hc]
      exact decide_eq_true (poolSize_pos c)
    · rename_i p hpos
      obtain ⟨c, hc, h⟩ := tryDo_eq_next.mp h
      rw [hpos]
      exact transmitMicro_microStep (needed_eq_ok.mp hc) hpos h
    · cases h
  | receive inst len dst =>
    simp only [exec, execReceive] at h
    split at h
    · obtain ⟨u, hu, h⟩ := tryDo_eq_next.mp h
      cases h
      obtain ⟨⟨c, hc⟩, rfl⟩ := receiveStart_spec hu
      refine microStep_start fun _ => ?_
      rw [posFits_receive hc]
      exact decide_eq_true (poolSize_pos c)
    · rename_i p hpos
      obtain ⟨c, hc, h⟩ := tryDo_eq_next.mp h
      rw [hpos]
      exact receiveMicro_microStep (needed_eq_ok.mp hc) hpos h
    · cases h
  | calcTiming inst tpar nbr =>
    simp only [exec, execCalcTiming] at h
    split at h
    · cases h; exact calcStart_microStep
    · rename_i p hpos
      rw [hpos]
      exact calcMicro_microStep h
    · cases h
  | read32 inst off =>
    simp only [exec, execRead32] at h
    split at h
    · obtain ⟨u, hu, h⟩ := tryDo_eq_next.mp h
      cases h
      rw [accessStart_spec hu]
      exact microStep_start fun _ => rfl
    · obtain ⟨v, -, h⟩ := tryDo_eq_next.mp h
      cases h
      exact ⟨s, .stay, rfl, fun _ => rfl⟩
    · cases h
  | write32 inst off val =>
    simp only [exec, execWrite32] at h
    split at h
    · obtain ⟨u, hu, h⟩ := tryDo_eq_next.mp h
      cases h
      rw [accessStart_spec hu]
      exact microStep_start fun _ => rfl
    · exact microStep_writeAndFinish h fun _ => rfl
    · cases h

/-! ## What `exec` refuses (R22) -/

theorem tryDo_ne_refused {α : Type} {x : Except Fault α} {k : α → Out State} {r : Refusal}
    (h : ∀ a, k a ≠ .refused r) : tryDo x k ≠ .refused r := fun hr =>
  let ⟨a, _, ha⟩ := tryDo_eq_refused.mp hr
  h a ha

theorem writeStep_ne_refused {off : Nat} {v : Word} {p : Pos} {r : Refusal} :
    writeStep off v p s ≠ .refused r := tryDo_ne_refused fun _ => nofun

theorem pollStep_ne_refused {off : Nat} {c : Word → Bool} {p q : Pos} {r : Refusal} :
    pollStep off c p q s ≠ .refused r := tryDo_ne_refused fun _ => nofun

theorem fieldStep_ne_refused {off : Nat} {mask v : Word} {w : Option Word} {here : Option Word → Pos}
    {p : Pos} {r : Refusal} : fieldStep off mask v w here p s ≠ .refused r := by
  cases w with
  | none => exact tryDo_ne_refused fun _ => nofun
  | some x => exact writeStep_ne_refused

theorem transmitPut_ne_refused {k : Nat} {v : Except Fault Word} {p : TxPos} {r : Refusal} :
    transmitPut k v p s ≠ .refused r := tryDo_ne_refused fun _ => writeStep_ne_refused

theorem initMicro_not_busy {cfg : Cfg} {nbr rxid : Word} {p : InitPos} :
    initMicro cfg nbr rxid p s ≠ .refused .sequencerBusy := by
  unfold initMicro initField initPoll
  cases p with
  | clearValid | session | complete | timeoutFinish => nofun
  | disable | clkSrc | enable | fdEn | fdCtrl | maxMb | loopBack | exitFreeze | timeoutDisable =>
    exact fieldStep_ne_refused
  | pollDisabled | pollEnabled | pollFrozen | pollUnfrozen | pollReady => exact pollStep_ne_refused
  | timingFdCbt | timingFdFdcbt | timingCbt | mask | tag | rxId => exact writeStep_ne_refused
  | timingMcr => exact tryDo_ne_refused fun _ => nofun
  | timingCtrl1 => exact tryDo_ne_refused fun w => by split <;> nofun
  | zeroRam k =>
    dsimp only
    split
    · exact writeStep_ne_refused
    · exact tryDo_ne_refused fun _ => nofun
  | findTag i =>
    refine tryDo_ne_refused fun w => ?_
    split
    · nofun
    · split <;> nofun

theorem transmitMicro_not_busy {c : PClass} {id src : Word} {p : TxPos} :
    transmitMicro c id src p s ≠ .refused .sequencerBusy := by
  unfold transmitMicro
  cases p with
  | scan i =>
    refine tryDo_ne_refused fun w => ?_
    split
    · nofun
    · split <;> nofun
  | writeId | writeData | writeCs | revoke => exact transmitPut_ne_refused
  | request => exact writeStep_ne_refused
  | poll => exact pollStep_ne_refused
  | complete | timeoutFinish => nofun

theorem receiveMicro_not_busy {c : PClass} {len : Nat} {dst : Word} {p : RxPos} :
    receiveMicro c len dst p s ≠ .refused .sequencerBusy := by
  unfold receiveMicro
  cases p with
  | scan | readData | copy => exact tryDo_ne_refused fun _ => nofun
  | release => exact writeStep_ne_refused
  | complete => nofun

theorem calcMicro_not_busy {tpar : Tpar} {nbr : Word} {p : CalcPos} :
    calcMicro tpar nbr p s ≠ .refused .sequencerBusy := by
  unfold calcMicro
  cases p with
  | readMcr | fdFdcbt | writeCbt => exact tryDo_ne_refused fun _ => nofun
  | fdCbt => exact writeStep_ne_refused
  | readCtrl1 => exact tryDo_ne_refused fun w => by split <;> nofun

/-- Inside an operation the sequencer stands in the operation of its instruction. -/
theorem posFits_op {i : Instr} {x : Session} {p : Pos} (h : posFits i x p = true) (hp : p ≠ .idle) :
    opOfPos p = opOf i := by
  cases p with
  | idle => exact absurd rfl hp
  | init | transmit | receive | calcTiming | read32 | write32 =>
    simp only [posFits] at h
    split at h
    · rfl
    · cases h

/-- Between operations every instruction may start. -/
theorem exec_idle_not_busy {i : Instr} (hp : s.seq.pos = .idle) : exec i s ≠ .refused .sequencerBusy := by
  cases i with
  | init => simp only [exec, execInit, hp]; nofun
  | transmit => simp only [exec, execTransmit, hp]; exact tryDo_ne_refused fun _ => nofun
  | receive => simp only [exec, execReceive, hp]; exact tryDo_ne_refused fun _ => nofun
  | calcTiming => simp only [exec, execCalcTiming, hp]; nofun
  | read32 => simp only [exec, execRead32, hp]; exact tryDo_ne_refused fun _ => nofun
  | write32 => simp only [exec, execWrite32, hp]; exact tryDo_ne_refused fun _ => nofun

/-- At a micro-step of its own operation no instruction is refused for another operation. -/
theorem exec_not_busy {i : Instr} (hf : posFits i s.sess s.seq.pos = true) :
    exec i s ≠ .refused .sequencerBusy := by
  by_cases hidle : s.seq.pos = .idle
  · exact exec_idle_not_busy hidle
  have hop := posFits_op hf hidle
  cases hp : s.seq.pos with
  | idle => exact absurd hp hidle
  | init p =>
    rw [hp] at hop
    cases i <;> cases hop
    simp only [exec, execInit, hp]
    exact initMicro_not_busy
  | transmit p =>
    rw [hp] at hop
    cases i <;> cases hop
    simp only [exec, execTransmit, hp]
    exact tryDo_ne_refused fun _ => transmitMicro_not_busy
  | receive p =>
    rw [hp] at hop
    cases i <;> cases hop
    simp only [exec, execReceive, hp]
    exact tryDo_ne_refused fun _ => receiveMicro_not_busy
  | calcTiming p =>
    rw [hp] at hop
    cases i <;> cases hop
    simp only [exec, execCalcTiming, hp]
    exact calcMicro_not_busy
  | read32 =>
    rw [hp] at hop
    cases i <;> cases hop
    simp only [exec, execRead32, hp]
    exact tryDo_ne_refused fun _ => nofun
  | write32 =>
    rw [hp] at hop
    cases i <;> cases hop
    simp only [exec, execWrite32, hp]
    exact tryDo_ne_refused fun _ => nofun

/-! ## Taking a descriptor (R22, R88) -/

/-- A decoded descriptor is its own words: they decode alone, with nothing left. -/
theorem decode_take {ws rest : List Word} {i : Instr} (h : decode ws = .ok (i, rest)) :
    decode (ws.take (descWords i)) = .ok (i, []) := by
  cases ws with
  | nil => cases h
  | cons cmd ws =>
    rw [decode] at h
    split at h
    · rename_i hk
      unfold decodeOperands at h
      split at h <;> cases h <;>
      · rename_i hop
        simp only [descWords, List.take_succ_cons, List.take_zero, decode, hk, if_true, decodeOperands, hop]
    · cases h

/-- The descriptor HOST works on: the next one of the program, or the one in seq.desc. -/
theorem fetch_spec {i : Instr} {u : State} (h : fetch s = .ok (i, u)) :
    (∃ rest, s.seq.pos = .idle ∧ decode s.prog = .ok (i, rest) ∧
        u = { s with prog := rest, seq := { s.seq with desc := some (s.prog.take (descWords i)) } }) ∨
      ∃ ws rest, s.seq.pos ≠ .idle ∧ s.seq.desc = some ws ∧ decode ws = .ok (i, rest) ∧ u = s := by
  unfold fetch at h
  split at h
  · rename_i hpos
    split at h <;> cases h
    exact .inl ⟨_, hpos, ‹_›, rfl⟩
  · rename_i hpos
    obtain ⟨ws, hws, h⟩ := thenDo_eq_ok.mp h
    split at h <;> cases h
    exact .inr ⟨ws, _, hpos, needed_eq_ok.mp hws, ‹_›, rfl⟩

/-- HOST's step is `exec` of the descriptor it works on, or the fault of its decoding. -/
theorem hostStep_cases (s : State) :
    (∃ r, hostStep s = .fault r) ∨ ∃ i u, fetch s = .ok (i, u) ∧ hostStep s = exec i u := by
  unfold hostStep
  split
  · exact .inl ⟨_, rfl⟩
  · exact .inr ⟨_, _, ‹_›, rfl⟩

end Sys2Proof.Machine
end

section
/-! PROOFS. The arrays stay in canonical form (O58). -/

namespace Sys2Proof.Machine

variable {s t u : State}

/-! ## Canonical arrays (R20, R23, R35, R57) -/

/-- The three arrays are in canonical form, each by its own check. -/
theorem cellsCanonical_iff :
    cellsCanonical s = true ↔
      ramWf s.ram = true ∧ rximrWf s.rximr = true ∧ Memory.wf s.hostMem = true := by
  simp only [cellsCanonical, Bool.and_eq_true, and_assoc]

/-- A block write stores at the index its offset names, which is in range (R54). -/
theorem regWrite_cellsCanonical {off : Nat} {v : Word} (h : regWrite off v s = .ok u)
    (hc : cellsCanonical s = true) : cellsCanonical u = true := by
  obtain ⟨w, hw, h⟩ := regWrite_spec h
  cases w with
  | mcr => rw [writeMcr_spec h]; exact hc
  | ctrl1 => rw [(writeCtrl1_spec h).2.2.2]; exact hc
  | cbt => rw [writeCbt_spec h]; exact hc
  | fdctrl => rw [(writeFdctrl_spec h).2]; exact hc
  | fdcbt => rw [(writeFdcbt_spec h).2]; exact hc
  | iflag1 =>
    obtain ⟨hram, hrest⟩ := cellsCanonical_iff.mp hc
    rw [(writeIflag_spec h).2]
    exact cellsCanonical_iff.mpr ⟨(cellsFrom_cellMap ..).trans hram, hrest⟩
  | ram k =>
    obtain ⟨hram, hrest⟩ := cellsCanonical_iff.mp hc
    have hput := putRam_ramWf v (blockWord_eq_ram hw).1 hram
    obtain ⟨-, ⟨-, -, rfl⟩ | ⟨-, rfl⟩⟩ := writeRam_spec h.2 <;>
      exact cellsCanonical_iff.mpr ⟨hput, hrest⟩
  | rximr i =>
    obtain ⟨hram, hrximr, hmem⟩ := cellsCanonical_iff.mp hc
    rw [writeRximr_spec h.2]
    exact cellsCanonical_iff.mpr
      ⟨hram, cellsFrom_cellWrite v hrximr (Nat.zero_le _) (blockWord_eq_rximr hw).1, hmem⟩

theorem hostEffect_cellsCanonical (h : HostEffect s u) (hc : cellsCanonical s = true) :
    cellsCanonical u = true := by
  cases h with
  | stay => exact hc
  | session => exact hc
  | write off v _ hw => exact regWrite_cellsCanonical hw hc
  | lastZero k v _ hw =>
    have hv : cellsCanonical v = true := regWrite_cellsCanonical hw hc
    exact hv
  | copy j ws a f ms _ _ hw =>
    obtain ⟨hram, hrximr, hmem⟩ := cellsCanonical_iff.mp hc
    have hwf := hostWriteAll_wf hw hmem
    rw [hostWriteAll_outside hw]
    exact cellsCanonical_iff.mpr ⟨hram, hrximr, hwf⟩

/-- Moving the sequencer does not touch the arrays. -/
theorem movesSeq_cellsCanonical (h : MovesSeq u t) : cellsCanonical t = cellsCanonical u := by
  rw [h]; rfl

theorem hostStep_cellsCanonical (h : hostStep s = .next t) (hc : cellsCanonical s = true) :
    cellsCanonical t = true := by
  obtain ⟨r, hr⟩ | ⟨i, u, hf, he⟩ := hostStep_cases s
  · rw [hr] at h; cases h
  · rw [he] at h
    obtain ⟨v, hv, hm, -⟩ := exec_microStep h
    rw [movesSeq_cellsCanonical hm]
    apply hostEffect_cellsCanonical hv
    obtain ⟨rest, -, -, rfl⟩ | ⟨-, -, -, -, -, rfl⟩ := fetch_spec hf <;> exact hc

/-- A frame that fills a buffer's payload words fits the RAM at a buffer of the pool. -/
theorem deliverInto_ramWf {f : Frame} {j : Nat} (hj : j < poolSize (hwClass s))
    (hf : f.data.length = dataWords (hwClass s)) (hc : ramWf s.ram = true) :
    ramWf (deliverInto f j s).ram = true := by
  have hlt := csIndex_lt hj
  rw [bufWords_eq] at hlt
  have hid : idIndex (hwClass s) j < Config.ramWords := by
    simp only [csIndex, idIndex] at hlt ⊢; omega
  have hdata : dataIndex (hwClass s) j 0 + f.data.length ≤ Config.ramWords := by
    simp only [csIndex, dataIndex] at hlt ⊢; omega
  exact putRam_ramWf _ (csIndex_lt_ram hj) (putWords_ramWf (putRam_ramWf _ hid hc) hdata)

/-- ENGINE uses only buffers of the pool (R26). -/
theorem usable_lt {j : Nat} (h : usable s j = true) : j < poolSize (hwClass s) := by
  simp only [usable, Bool.and_eq_true, decide_eq_true_eq] at h
  exact h.1

theorem deliver_ramWf {f : Frame} (h : deliver f s = .ok t)
    (hf : f.data.length = dataWords (hwClass s)) (hc : ramWf s.ram = true) : ramWf t.ram = true := by
  obtain ⟨j, hj, rfl⟩ | ⟨-, rfl⟩ := deliver_spec h
  · exact deliverInto_ramWf (usable_lt (findRx_some hj).2.1) hf hc
  · exact hc

/-- A buffer's frame has the payload words of the geometry (R190). -/
theorem frameOf_length {i : Nat} {cs : Word} {f : Frame} (h : frameOf i cs s = .ok f) :
    f.data.length = dataWords (hwClass s) := by
  simp only [frameOf, thenDo_eq_ok] at h
  obtain ⟨_, -, ws, hws, h⟩ := h
  cases h
  have hlen := ((readData_eq_ok ..).mp hws).1
  rwa [List.length_range] at hlen

theorem txStep_ramWf {i : Nat} (h : txStep i s = .ok t) (hi : i < poolSize (hwClass s))
    (hc : ramWf s.ram = true) : ramWf t.ram = true := by
  simp only [txStep, thenDo_eq_ok] at h
  obtain ⟨cs, -, f, hf, h⟩ := h
  have hsent : ramWf (completeTx i cs s).ram = true := putRam_ramWf _ (csIndex_lt_ram hi) hc
  split at h
  · have hlen : f.data.length = dataWords (hwClass s) := frameOf_length hf
    exact deliver_ramWf h hlen hsent
  · cases h; exact hsent

theorem rxFrameStep_ramWf (h : rxFrameStep s = .ok t) (hc : ramWf s.ram = true) :
    ramWf t.ram = true :=
  deliver_ramWf h (by simp [drawnFrame]) hc

/-- TX(i) is a step of a buffer of the pool (R189). -/
theorem tx_enabled_lt {i : Nat} (h : .tx i ∈ enabledMoves s) : i < poolSize (hwClass s) := by
  have hon : txOn i s = true := (List.mem_filter.mp h).2
  simp only [txOn, Bool.and_eq_true] at hon
  exact usable_lt hon.1.1.2

/-- Every enabled move keeps the arrays in canonical form. -/
theorem runMove_cellsCanonical {m : Move} (hm : m ∈ enabledMoves s) (h : runMove m s = .next t)
    (hc : cellsCanonical s = true) : cellsCanonical t = true := by
  obtain ⟨hram, hrximr, hmem⟩ := cellsCanonical_iff.mp hc
  cases m with
  | host => exact hostStep_cellsCanonical h hc
  | lpmEnter | lpmExit | frzEnter | frzExit | ready => cases h; exact hc
  | tx i =>
    have hu := runMove_tx.mp h
    have hwf := txStep_ramWf hu (tx_enabled_lt hm) hram
    rw [txStep_frame hu]
    exact cellsCanonical_iff.mpr ⟨hwf, hrximr, hmem⟩
  | rxFrame =>
    have hu := runMove_rxFrame.mp h
    have hwf := rxFrameStep_ramWf hu hram
    rw [rxFrameStep_frame hu]
    exact cellsCanonical_iff.mpr ⟨hwf, hrximr, hmem⟩

end Sys2Proof.Machine

open Sys2Proof Sys2Proof.Machine

/-- Settles O58: every move keeps the arrays canonical, and the schedule is no array. -/
theorem stepKeepsCellsCanonical : Obligations.StepKeepsCellsCanonical := by
  unfold Obligations.StepKeepsCellsCanonical
  intro s t hc
  refine step_of_moves (P := fun s => cellsCanonical s = true)
    (Q := fun o => o = .next t → cellsCanonical t = true) hc ?_ (fun _ _ _ h => h) ?_
  · intro s hs h
    cases h
    exact hs
  · exact fun s m hs hm h => runMove_cellsCanonical hm h hs

end

section
/-! PROOFS. The sequencer stays at a micro-step of its descriptor (O60). -/

namespace Sys2Proof.Machine

variable {s t u : State}

/-! ## The sequencer and its descriptor (R22) -/

/-- The sequencer agrees with its descriptor when it is idle, or the descriptor decodes to the operation it
stands in. -/
theorem coherent_iff :
    coherent s = true ↔
      s.seq.pos = .idle ∨
        ∃ ws i rest, s.seq.desc = some ws ∧ decode ws = .ok (i, rest) ∧
          posFits i s.sess s.seq.pos = true := by
  unfold coherent
  split
  · simp [*]
  · rename_i hpos
    constructor
    · intro h
      right
      split at h
      · cases h
      · rename_i ws hws
        split at h
        · cases h
        · rename_i i rest hd
          exact ⟨ws, i, rest, hws, hd, h⟩
    · rintro (h | ⟨ws, i, rest, hws, hd, h⟩)
      · exact absurd h hpos
      · rw [hws]
        simp only [hd]
        exact h

/-- INIT's ranges do not depend on the session. -/
theorem posFits_init_sess (inst : Nat) (cfg : Cfg) (nbr dbr txid rxid : Word) (x y : Session) (p : Pos) :
    posFits (.init inst cfg nbr dbr txid rxid) x p = posFits (.init inst cfg nbr dbr txid rxid) y p := by
  cases p <;> rfl

/-- Where HOST changes the session it runs INIT, whose ranges do not depend on it. -/
theorem microStep_posFits {i : Instr} (h : MicroStep (StaysFit i s.sess s.seq.pos) s t)
    (hf : posFits i s.sess s.seq.pos = true) : posFits i t.sess t.seq.pos = true := by
  obtain ⟨u, hu, hm, hp⟩ := h
  have hp := hp hf
  rw [hm.sess]
  cases hu with
  | stay => exact hp
  | write off v _ hw => rw [(regWrite_outside hw).sess]; exact hp
  | lastZero k u _ hw => rw [State.dropRequests_sess, (regWrite_outside hw).sess]; exact hp
  | copy j ws a f ms _ _ hw => rw [hostWriteAll_outside hw]; exact hp
  | session p x hpos =>
    have hop := posFits_op hf (by rw [hpos]; nofun)
    rw [hpos] at hop
    cases i <;> cases hop
    rw [posFits_init_sess]
    exact hp

/-- No micro-step of HOST changes seq.desc. -/
theorem microStep_desc {P : Pos → Prop} (h : MicroStep P s t) : t.seq.desc = s.seq.desc := by
  obtain ⟨u, hu, hm, -⟩ := h
  rw [hm.desc]
  cases hu with
  | stay | session => rfl
  | write off v _ hw => rw [(regWrite_outside hw).seq]
  | lastZero k u _ hw => rw [State.dropRequests_seq, (regWrite_outside hw).seq]
  | copy j ws a f ms _ _ hw => rw [hostWriteAll_outside hw]

/-- The descriptor HOST works on is in seq.desc, and the sequencer stands at a micro-step of it. -/
theorem fetch_fits {i : Instr} (hc : coherent s = true) (h : fetch s = .ok (i, u)) :
    (∃ ws rest, u.seq.desc = some ws ∧ decode ws = .ok (i, rest)) ∧
      posFits i u.sess u.seq.pos = true := by
  obtain ⟨rest, hpos, hd, rfl⟩ | ⟨ws, rest, hpos, hws, hd, rfl⟩ := fetch_spec h
  · refine ⟨⟨_, [], rfl, decode_take hd⟩, ?_⟩
    simp only [hpos]
    rfl
  · refine ⟨⟨ws, rest, hws, hd⟩, ?_⟩
    obtain hidle | ⟨ws', i', rest', hws', hd', hf⟩ := coherent_iff.mp hc
    · exact absurd hidle hpos
    · rw [hws] at hws'
      cases hws'
      rw [hd] at hd'
      cases hd'
      exact hf

theorem hostStep_coherent (hc : coherent s = true) (h : hostStep s = .next t) : coherent t = true := by
  obtain ⟨r, hr⟩ | ⟨i, u, hf, he⟩ := hostStep_cases s
  · rw [hr] at h; cases h
  · rw [he] at h
    obtain ⟨⟨ws, rest, hws, hd⟩, hfit⟩ := fetch_fits hc hf
    have hm := exec_microStep h
    refine coherent_iff.mpr (.inr ⟨ws, i, rest, ?_, hd, microStep_posFits hm hfit⟩)
    rw [microStep_desc hm, hws]

theorem hostStep_not_busy (hc : coherent s = true) : hostStep s ≠ .refused .sequencerBusy := by
  obtain ⟨r, hr⟩ | ⟨i, u, hf, he⟩ := hostStep_cases s
  · rw [hr]; nofun
  · rw [he]
    exact exec_not_busy (fetch_fits hc hf).2

/-- A step of CTRL, ENGINE or BUS leaves the sequencer and the session alone, and is never refused. -/
theorem runMove_hardware {m : Move} (hm : m ≠ .host) :
    (∀ t, runMove m s = .next t → t.seq = s.seq ∧ t.sess = s.sess) ∧ ∀ r, runMove m s ≠ .refused r := by
  cases m with
  | host => exact absurd rfl hm
  | lpmEnter | lpmExit | frzEnter | frzExit | ready =>
    exact ⟨fun t h => by cases h; exact ⟨rfl, rfl⟩, nofun⟩
  | tx i =>
    refine ⟨fun t h => ?_, fun r => tryDo_ne_refused fun _ => nofun⟩
    have hu := runMove_tx.mp h
    rw [txStep_frame hu]
    exact ⟨rfl, rfl⟩
  | rxFrame =>
    refine ⟨fun t h => ?_, fun r => tryDo_ne_refused fun _ => nofun⟩
    have hu := runMove_rxFrame.mp h
    rw [rxFrameStep_frame hu]
    exact ⟨rfl, rfl⟩

/-- Every move keeps the sequencer at a micro-step of its descriptor, and is not refused for another one. -/
theorem runMove_coherent (m : Move) (hc : coherent s = true) :
    (∀ t, runMove m s = .next t → coherent t = true) ∧ runMove m s ≠ .refused .sequencerBusy := by
  by_cases hm : m = .host
  · subst hm
    exact ⟨fun t => hostStep_coherent hc, hostStep_not_busy hc⟩
  · obtain ⟨hkeep, href⟩ := runMove_hardware (s := s) hm
    refine ⟨fun t h => ?_, href _⟩
    obtain ⟨hseq, hsess⟩ := hkeep t h
    rw [← hc, coherent, coherent, hseq, hsess]

end Sys2Proof.Machine

open Sys2Proof Sys2Proof.Machine

/-- Settles O60: HOST's micro-step goes to another one of the descriptor it took, and the other agents leave
the sequencer and the session alone. -/
theorem stepKeepsSequencerCoherent : Obligations.StepKeepsSequencerCoherent := by
  unfold Obligations.StepKeepsSequencerCoherent
  intro s hc
  refine step_of_moves (P := fun s => coherent s = true)
    (Q := fun o => (∀ t, o = .next t → coherent t = true) ∧ o ≠ .refused .sequencerBusy) hc ?_
    (fun _ _ _ h => h) fun s m hs _ => runMove_coherent m hs
  refine fun s hs => ⟨fun t h => ?_, nofun⟩
  cases h
  exact hs

end

section
/-! PROOFS. WRITE32 of MCR and IFLAG1 (O12, O15), who writes what (O57), HOST's step (O5), reset (O9). -/

namespace Sys2Proof.Machine

variable {s t u : State}

/-! ## The access of WRITE32 (R176, R28, R34) -/

/-- WRITE32's access is its block write, which finishes it. -/
theorem exec_write32_access {inst : Nat} {off v : Word} (hp : s.seq.pos = .write32)
    (h : regWrite off.toNat v s = .ok u) : exec (.write32 inst off v) s = .next (u.finish .ok) := by
  simp only [exec, execWrite32, hp, h, tryDo_ok]

theorem exec_write32_fault {inst : Nat} {off v : Word} {r : Fault} (hp : s.seq.pos = .write32)
    (h : regWrite off.toNat v s = .error r) : exec (.write32 inst off v) s = .fault r := by
  simp only [exec, execWrite32, hp, h, tryDo_error]

theorem flagsReadable_iff {v : Word} :
    flagsReadable v s = true ↔
      ∀ i, i < poolSize (hwClass s) → v.getLsbD i = true → hwCs s i ≠ none := by
  simp only [flagsReadable, List.all_eq_true, List.mem_range, Bool.or_eq_true, Bool.not_eq_true',
    Option.isSome_iff_ne_none, or_iff_not_imp_left, Bool.not_eq_false]

/-- A write to IFLAG1 is made where no control word it looks at is poison (R61 item 1). -/
theorem regWrite_iflag1 {v : Word} (h : flagsReadable v s = true) :
    regWrite offIflag1 v s =
      .ok { s with
            iflag := w1c s.iflag v
            txPending := s.txPending ||| requestMask v s
            ram := cellMap (releasedWord v (hwClass s)) s.ram } := by
  show writeIflag v s = _
  simp only [writeIflag, h, check_true, thenDo_ok]

theorem regWrite_iflag1_poison {v : Word} (h : flagsReadable v s = false) :
    regWrite offIflag1 v s = .error .readPoison := by
  show writeIflag v s = _
  simp only [writeIflag, h, check_false, thenDo_error]

/-- A full buffer whose flag bit is written is released: its control word's code becomes RX_EMPTY. -/
theorem releasedWord_full {v : Word} {c : PClass} {i : Nat} {w : Word} (hi : i < poolSize c)
    (hv : v.getLsbD i = true) (hw : codeOf w = codeRxFull) :
    releasedWord v c (csIndex c i) w = withCode w codeRxEmpty := by
  have hmod : csIndex c i % bufWords c = 0 := Nat.mul_mod_left ..
  simp only [releasedWord, hmod, csIndex_div, hi, hv, hw, and_self, if_true]

/-- A RAM word that a write to IFLAG1 does not release reads as before. -/
theorem cellRead_released_other {v : Word} {k : Nat}
    (h : ¬ ∃ i, i < poolSize (hwClass s) ∧ k = csIndex (hwClass s) i ∧ v.getLsbD i = true ∧
      hwCodeIs s codeRxFull i = true) :
    cellRead (cellMap (releasedWord v (hwClass s)) s.ram) k = cellRead s.ram k := by
  rw [cellRead_cellMap]
  cases hr : cellRead s.ram k with
  | none => rfl
  | some w => rw [Option.map_some, releasedWord_of_not hr h]

/-! ## Who writes the status bits and host memory (R28, R33, R57) -/

/-- Words of MCR that agree outside the writable fields have the same acknowledge bits. -/
theorem acks_of_kept {a b : Word} (h : a &&& ~~~mcrWritable = b &&& ~~~mcrWritable) :
    lpmAck a = lpmAck b ∧ frzAck a = frzAck b ∧ notRdy a = notRdy b := by
  have key : ∀ i, (~~~mcrWritable).getLsbD i = true → a.getLsbD i = b.getLsbD i := fun i hi => by
    have hbit := congrArg (fun w : Word => w.getLsbD i) h
    simpa only [BitVec.getLsbD_and, hi, Bool.and_true] using hbit
  exact ⟨key 20 (by decide), key 24 (by decide), key 27 (by decide)⟩

/-- What a step of an agent other than CTRL keeps of the acknowledge bits. -/
def AcksKept (s t : State) : Prop :=
  lpmAck t.mcr = lpmAck s.mcr ∧ frzAck t.mcr = frzAck s.mcr ∧ notRdy t.mcr = notRdy s.mcr

theorem acksKept_of_mcr (h : t.mcr = s.mcr) : AcksKept s t := by
  rw [AcksKept, h]
  exact ⟨rfl, rfl, rfl⟩

theorem regWrite_acks {off : Nat} {v : Word} (h : regWrite off v s = .ok u) : AcksKept s u := by
  obtain ⟨w, hw, -⟩ := regWrite_spec h
  exact acks_of_kept (regWrite_frame hw h).mcrKept

/-- A block write sets no flag: IFLAG1 is write-1-to-clear (R33, R34). -/
theorem regWrite_flags {off : Nat} {v : Word} (h : regWrite off v s = .ok u) {b : Nat}
    (hb : u.iflag.getLsbD b = true) : s.iflag.getLsbD b = true := by
  obtain ⟨w, hw, hspec⟩ := regWrite_spec h
  by_cases hi : w = .iflag1
  · subst hi
    rw [(writeIflag_spec hspec).2] at hb
    have hb : (w1c s.iflag v).getLsbD b = true := hb
    rw [getLsbD_w1c, Bool.and_eq_true] at hb
    exact hb.1
  · rw [← (regWrite_frame hw h).iflag b fun he => absurd (Option.some.inj he) hi]
    exact hb

/-- HOST's micro-step keeps the acknowledge bits, sets no flag, and writes host memory in RECEIVE's copy
only. -/
theorem hostEffect_status (h : HostEffect s u) :
    AcksKept s u ∧ (∀ b, u.iflag.getLsbD b = true → s.iflag.getLsbD b = true) ∧
      (u.hostMem ≠ s.hostMem → ∃ j ws, s.seq.pos = .receive (.copy j ws)) := by
  cases h with
  | stay | session => exact ⟨acksKept_of_mcr rfl, fun _ => id, fun h => absurd rfl h⟩
  | write off v _ hw =>
    exact ⟨regWrite_acks hw, fun _ => regWrite_flags hw, fun h => absurd (regWrite_outside hw).hostMem h⟩
  | lastZero k v _ hw =>
    have hacks : AcksKept s v := regWrite_acks hw
    exact ⟨hacks, fun _ => regWrite_flags hw, fun h => absurd (regWrite_outside hw).hostMem h⟩
  | copy j ws a f ms _ hpos hw =>
    refine ⟨?_, ?_, fun _ => ⟨j, ws, hpos⟩⟩ <;> rw [hostWriteAll_outside hw]
    · exact acksKept_of_mcr rfl
    · exact fun _ => id

theorem hostStep_status (h : hostStep s = .next t) :
    AcksKept s t ∧ (∀ b, t.iflag.getLsbD b = true → s.iflag.getLsbD b = true) ∧
      (t.hostMem ≠ s.hostMem → ∃ j ws, s.seq.pos = .receive (.copy j ws)) := by
  obtain ⟨r, hr⟩ | ⟨i, u, hf, he⟩ := hostStep_cases s
  · rw [hr] at h; cases h
  · rw [he] at h
    obtain ⟨v, hv, hm, -⟩ := exec_microStep h
    have hst := hostEffect_status hv
    rw [AcksKept, hm.mcr, hm.iflag, hm.hostMem]
    obtain ⟨rest, -, -, rfl⟩ | ⟨-, -, -, -, -, rfl⟩ := fetch_spec hf <;> exact hst

/-- A delivery sets the flag of a buffer of the pool only (R194). -/
theorem deliver_flags {f : Frame} (h : deliver f s = .ok t) {b : Nat} (hb : t.iflag.getLsbD b = true) :
    s.iflag.getLsbD b = true ∨ b < poolSize (hwClass s) := by
  obtain ⟨j, hj, rfl⟩ | ⟨-, rfl⟩ := deliver_spec h
  · rw [deliverInto_eq] at hb
    have hb : (setBit s.iflag j).getLsbD b = true := hb
    rw [getLsbD_setBit, Bool.or_eq_true, Bool.and_eq_true, decide_eq_true_eq] at hb
    obtain hb | ⟨rfl, -⟩ := hb
    · exact .inl hb
    · exact .inr (usable_lt (findRx_some hj).2.1)
  · exact .inl hb

/-- TX(i) sets its own flag and the one of its loop-back delivery only (R190, R191). -/
theorem txStep_flags {i : Nat} (h : txStep i s = .ok t) (hi : i < poolSize (hwClass s)) {b : Nat}
    (hb : t.iflag.getLsbD b = true) : s.iflag.getLsbD b = true ∨ b < poolSize (hwClass s) := by
  simp only [txStep, thenDo_eq_ok] at h
  obtain ⟨cs, -, f, -, h⟩ := h
  have hsent : (completeTx i cs s).iflag.getLsbD b = true →
      s.iflag.getLsbD b = true ∨ b < poolSize (hwClass s) := fun hb => by
    have hb : (setBit s.iflag i).getLsbD b = true := hb
    rw [getLsbD_setBit, Bool.or_eq_true, Bool.and_eq_true, decide_eq_true_eq] at hb
    obtain hb | ⟨rfl, -⟩ := hb
    · exact .inl hb
    · exact .inr hi
  split at h
  · obtain hb | hb := deliver_flags h hb
    · exact hsent hb
    · exact .inr hb
  · cases h
    exact hsent hb

/-- Only CTRL's steps write the acknowledge bits (R28). -/
theorem runMove_acks {m : Move} (h : runMove m s = .next t) :
    AcksKept s t ∨ m = .lpmEnter ∨ m = .lpmExit ∨ m = .frzEnter ∨ m = .frzExit ∨ m = .ready := by
  cases m with
  | host => exact .inl (hostStep_status h).1
  | lpmEnter | lpmExit | frzEnter | frzExit | ready => simp
  | tx i =>
    have hu := runMove_tx.mp h
    rw [txStep_frame hu]
    exact .inl (acksKept_of_mcr rfl)
  | rxFrame =>
    have hu := runMove_rxFrame.mp h
    rw [rxFrameStep_frame hu]
    exact .inl (acksKept_of_mcr rfl)

/-- Only ENGINE's and BUS's steps set flags, those of buffers of the pool (R33). -/
theorem runMove_flags {m : Move} (h : runMove m s = .next t) (hm : m ∈ enabledMoves s) {b : Nat}
    (hb : t.iflag.getLsbD b = true) :
    s.iflag.getLsbD b = true ∨ (m = .rxFrame ∨ ∃ i, m = .tx i) ∧ b < poolSize (hwClass s) := by
  cases m with
  | host => exact .inl ((hostStep_status h).2.1 b hb)
  | lpmEnter | lpmExit | frzEnter | frzExit | ready => cases h; exact .inl hb
  | tx i =>
    have hu := runMove_tx.mp h
    exact (txStep_flags hu (tx_enabled_lt hm) hb).imp_right fun hb => ⟨.inr ⟨i, rfl⟩, hb⟩
  | rxFrame =>
    have hu := runMove_rxFrame.mp h
    exact (deliver_flags hu hb).imp_right fun hb => ⟨.inl rfl, hb⟩

/-- Only RECEIVE's copy writes host memory (R57). -/
theorem runMove_hostMem {m : Move} (h : runMove m s = .next t) (hne : t.hostMem ≠ s.hostMem) :
    m = .host ∧ ∃ j ws, s.seq.pos = .receive (.copy j ws) := by
  cases m with
  | host => exact ⟨rfl, (hostStep_status h).2.2 hne⟩
  | lpmEnter | lpmExit | frzEnter | frzExit | ready => cases h; exact absurd rfl hne
  | tx i =>
    have hu := runMove_tx.mp h
    rw [txStep_frame hu] at hne
    exact absurd rfl hne
  | rxFrame =>
    have hu := runMove_rxFrame.mp h
    rw [rxFrameStep_frame hu] at hne
    exact absurd rfl hne

/-! ## HOST steps next (R22, R66) -/

/-- HOST has a step where its program has a descriptor left. -/
theorem host_enabled_of_prog (h : s.prog ≠ []) : .host ∈ enabledMoves s := by
  refine List.mem_filter.mpr ⟨by simp [allMoves], ?_⟩
  simp [moveOn, h]

/-- Between operations HOST's step runs the descriptor it takes. -/
theorem hostStep_takes {i : Instr} {rest : List Word} (hp : s.seq.pos = .idle)
    (hd : decode s.prog = .ok (i, rest)) :
    hostStep s =
      exec i { s with prog := rest, seq := { s.seq with desc := some (s.prog.take (descWords i)) } } := by
  simp only [hostStep, fetch, hp, hd]

/-- Where HOST steps next the step is HOST's. -/
theorem step_of_hostNext (h : HostNext s t) (hon : .host ∈ enabledMoves s) : step s = hostStep t := by
  unfold step stepOnce pickMove
  obtain ⟨ag, ha, rfl⟩ | ⟨ha, hone, rfl⟩ := h
  · obtain ⟨m, ms, hms⟩ := List.exists_cons_of_ne_nil (List.ne_nil_of_mem hon)
    rw [hms] at hon ⊢
    simp only [ha, if_pos hon]
    rfl
  · rw [hone, ha]
    rfl

/-- The agenda is no part of the sequencer or the program. -/
theorem hostNext_same (h : HostNext s t) : t.seq = s.seq ∧ t.prog = s.prog := by
  obtain ⟨ag, -, rfl⟩ | ⟨-, -, rfl⟩ := h <;> exact ⟨rfl, rfl⟩

end Sys2Proof.Machine

open Sys2Proof Sys2Proof.Machine

/-- Settles O12: the write of MCR passes its checks and leaves the word of R28. -/
theorem write32SetsMcrRequests : Obligations.Write32SetsMcrRequests := by
  unfold Obligations.Write32SetsMcrRequests
  intro inst v s hp hn hf
  exact ⟨_, exec_write32_access hp (regWrite_mcr hn hf), mcrIs_hostWrite s.mcr v⟩

/-- Settles O15: the write of IFLAG1 as one block write, its three side effects read off bit by bit. -/
theorem iflagWriteClearsRequestsAndReleases : Obligations.IflagWriteClearsRequestsAndReleases := by
  unfold Obligations.IflagWriteClearsRequestsAndReleases
  intro inst v s hp
  refine ⟨regRead_iflag1 s, ?_, ?_⟩
  · rintro ⟨i, hi, hv, hcs⟩
    refine exec_write32_fault hp (regWrite_iflag1_poison ?_)
    rw [← Bool.not_eq_true, flagsReadable_iff]
    exact fun h => h i hi hv hcs
  · intro hread
    refine ⟨_, _, _, exec_write32_access hp (regWrite_iflag1 (flagsReadable_iff.mpr hread)),
      getLsbD_w1c s.iflag v, ?_, ?_, fun k => cellRead_released_other⟩
    · intro b
      simp only [BitVec.getLsbD_or, getLsbD_requestMask, Bool.or_eq_true, Bool.and_eq_true,
        decide_eq_true_eq, and_assoc]
    · intro i w hi hv hw hfull
      refine ⟨withCode w codeRxEmpty, ?_, codeOf_withCode .., ?_⟩
      · rw [hwCs] at hw
        rw [cellRead_cellMap, hw, Option.map_some, releasedWord_full hi hv hfull]
      · intro b hb
        rw [getLsbD_withCode, if_neg (by omega)]

/-- Settles O57: move by move, who writes the acknowledge bits, the flags and host memory. -/
theorem eachStatusBitHasOneWriter : Obligations.EachStatusBitHasOneWriter := by
  unfold Obligations.EachStatusBitHasOneWriter
  intro s t m h
  refine ⟨fun hne => ?_, fun b hm hb hs => ?_, runMove_hostMem h⟩
  · obtain ⟨hl, hf, hn⟩ | hctrl := runMove_acks h
    · exact absurd hne (by simp [hl, hf, hn])
    · exact hctrl
  · obtain hb | hb := runMove_flags h hm hb
    · rw [hb] at hs; cases hs
    · exact hb

/-- Settles O5: HOST's move is the one picked, and it runs the descriptor fetched. -/
theorem stepRunsTheTakenDescriptor : Obligations.StepRunsTheTakenDescriptor := by
  unfold Obligations.StepRunsTheTakenDescriptor
  intro s t i rest hnext
  obtain ⟨hseq, hprog⟩ := hostNext_same hnext
  refine ⟨fun hp hd => ?_, fun hp ws hws hd => ?_⟩
  · have hne : s.prog ≠ [] := fun he => by rw [he] at hd; cases hd
    rw [step_of_hostNext hnext (host_enabled_of_prog hne), ← hprog]
    exact hostStep_takes (by rw [hseq, hp]) (by rw [hprog, hd])
  · rw [step_of_hostNext hnext (host_enabled hp)]
    exact hostStep_inside hd (by rwa [hseq]) (by rwa [hseq])

/-- Settles O9: at reset the arrays are empty, the registers hold their reset values and HOST is idle. -/
theorem resetMeetsTheInvariants : Obligations.ResetMeetsTheInvariants := by
  unfold Obligations.ResetMeetsTheInvariants
  obtain ⟨hmem, hram, hrximr⟩ := reset_cells_wf
  refine ⟨cellsCanonical_iff.mpr ⟨hram, hrximr, hmem⟩, ?_, rfl, coherent_iff.mpr (.inl rfl)⟩
  have hfdctrl : State.reset.fdctrl = State.reset.params.fdctrlReset := rfl
  rw [nmAtReset, hfdctrl, beq_self_eq_true, Bool.and_true]
  decide

end

section
/-! PROOFS. The not-modelled bits and the acknowledge bits under every step (O59); what a step is (O6). -/

namespace Sys2Proof.Machine

variable {s t u : State}

/-! ## Not-modelled bits, acknowledge bits and parameters (R13, R75, R187) -/

/-- From `s` to `t` the parameters and the not-modelled bits are the same, and the acknowledge bits agree
where they did. -/
structure RegistersKept (s t : State) : Prop where
  params : t.params = s.params
  mcr : t.mcr &&& mcrNm = s.mcr &&& mcrNm
  ctrl1 : t.ctrl1 &&& ctrl1Nm = s.ctrl1 &&& ctrl1Nm
  fdcbt : t.fdcbt &&& fdcbtNm = s.fdcbt &&& fdcbtNm
  fdctrl : t.fdctrl &&& fdctrlNm = s.fdctrl &&& fdctrlNm
  acks : acksAgree s = true → acksAgree t = true

theorem RegistersKept.refl (s : State) : RegistersKept s s := ⟨rfl, rfl, rfl, rfl, rfl, id⟩

theorem RegistersKept.trans (h : RegistersKept s t) (h' : RegistersKept t u) : RegistersKept s u :=
  ⟨h'.params.trans h.params, h'.mcr.trans h.mcr, h'.ctrl1.trans h.ctrl1, h'.fdcbt.trans h.fdcbt,
    h'.fdctrl.trans h.fdctrl, h'.acks ∘ h.acks⟩

/-- The not-modelled bits hold their reset values on both sides or on neither. -/
theorem RegistersKept.nmAtReset_eq (h : RegistersKept s t) : nmAtReset t = nmAtReset s := by
  rw [nmAtReset, nmAtReset, h.params, h.mcr, h.ctrl1, h.fdcbt, h.fdctrl]

/-- The agreement of the acknowledge bits depends on them alone. -/
theorem AcksKept.acksAgree_eq (h : AcksKept s t) : acksAgree t = acksAgree s := by
  obtain ⟨hlpm, hfrz, hrdy⟩ := h
  rw [acksAgree, acksAgree, hlpm, hfrz, hrdy]

/-- R187: a disabled controller is not frozen and not ready, a frozen one is not ready. -/
theorem acksAgree_iff :
    acksAgree s = true ↔
      (lpmAck s.mcr = true → frzAck s.mcr = false ∧ notRdy s.mcr = true) ∧
        (frzAck s.mcr = true → notRdy s.mcr = true) := by
  rw [acksAgree]
  cases lpmAck s.mcr <;> cases frzAck s.mcr <;> cases notRdy s.mcr <;> decide

/-- R75: a block write that is made leaves every not-modelled bit, and HOST writes no acknowledge bit. -/
theorem regWrite_registersKept {off : Nat} {v : Word} (h : regWrite off v s = .ok u) :
    RegistersKept s u := by
  have hacks : acksAgree s = true → acksAgree u = true := fun ha => by
    rw [(regWrite_acks h).acksAgree_eq, ha]
  obtain ⟨w, -, h⟩ := regWrite_spec h
  cases w with
  | mcr =>
    obtain rfl := writeMcr_spec h
    exact ⟨rfl, mergeBits_and_of_disjoint _ _ (by decide), rfl, rfl, rfl, hacks⟩
  | ctrl1 =>
    obtain ⟨hnm, -, -, rfl⟩ := writeCtrl1_spec h
    exact ⟨rfl, rfl, (changes_eq_false.mp hnm).symm, rfl, rfl, hacks⟩
  | fdcbt =>
    obtain ⟨hnm, rfl⟩ := writeFdcbt_spec h
    exact ⟨rfl, rfl, rfl, (changes_eq_false.mp hnm).symm, rfl, hacks⟩
  | fdctrl =>
    obtain ⟨hnm, rfl⟩ := writeFdctrl_spec h
    exact ⟨rfl, rfl, rfl, rfl, (changes_eq_false.mp hnm).symm, hacks⟩
  | iflag1 => obtain ⟨-, rfl⟩ := writeIflag_spec h; exact ⟨rfl, rfl, rfl, rfl, rfl, hacks⟩
  | cbt => obtain rfl := writeCbt_spec h; exact ⟨rfl, rfl, rfl, rfl, rfl, hacks⟩
  | rximr i => obtain rfl := writeRximr_spec h.2; exact ⟨rfl, rfl, rfl, rfl, rfl, hacks⟩
  | ram k =>
    obtain ⟨-, ⟨-, -, rfl⟩ | ⟨-, rfl⟩⟩ := writeRam_spec h.2 <;>
      exact ⟨rfl, rfl, rfl, rfl, rfl, hacks⟩

theorem hostEffect_registersKept (h : HostEffect s u) : RegistersKept s u := by
  cases h with
  | stay | session => exact ⟨rfl, rfl, rfl, rfl, rfl, id⟩
  | write off v _ hw => exact regWrite_registersKept hw
  | lastZero k v _ hw => exact (regWrite_registersKept hw).trans ⟨rfl, rfl, rfl, rfl, rfl, id⟩
  | copy j ws a f ms _ _ hw => rw [hostWriteAll_outside hw]; exact ⟨rfl, rfl, rfl, rfl, rfl, id⟩

theorem movesSeq_registersKept (h : MovesSeq u t) : RegistersKept u t := by
  rw [h]; exact ⟨rfl, rfl, rfl, rfl, rfl, id⟩

theorem hostStep_registersKept (h : hostStep s = .next t) : RegistersKept s t := by
  obtain ⟨r, hr⟩ | ⟨i, u, hf, he⟩ := hostStep_cases s
  · rw [hr] at h; cases h
  · have hfetch : RegistersKept s u := by
      obtain ⟨rest, -, -, rfl⟩ | ⟨-, -, -, -, -, rfl⟩ := fetch_spec hf <;>
        exact ⟨rfl, rfl, rfl, rfl, rfl, id⟩
    rw [he] at h
    obtain ⟨v, hv, hm, -⟩ := exec_microStep h
    exact hfetch.trans ((hostEffect_registersKept hv).trans (movesSeq_registersKept hm))

/-- CTRL drives the acknowledge bits only: its step keeps the rest of MCR, and the bits it leaves agree. -/
theorem withAcks_registersKept {lpm frz rdy : Bool}
    (h : acksAgree s = true → (lpm = true → frz = false ∧ rdy = true) ∧ (frz = true → rdy = true)) :
    RegistersKept s { s with mcr := withAcks s.mcr lpm frz rdy } := by
  refine ⟨rfl, withAcks_and_nm .., rfl, rfl, rfl, fun ha => acksAgree_iff.mpr ?_⟩
  rw [lpmAck_withAcks, frzAck_withAcks, notRdy_withAcks]
  exact h ha

/-- Every enabled move keeps the registers' invariants. FRZ-ENTER and READY do by their guards: neither
steps while LPMACK is set, and READY not while FRZACK is. -/
theorem runMove_registersKept {m : Move} (hm : m ∈ enabledMoves s) (h : runMove m s = .next t) :
    RegistersKept s t := by
  have hon : moveOn s m = true := (List.mem_filter.mp hm).2
  cases m with
  | host => exact hostStep_registersKept h
  | lpmEnter => cases h; exact withAcks_registersKept fun _ => by decide
  | lpmExit =>
    cases h
    exact withAcks_registersKept fun ha => ⟨nofun, (acksAgree_iff.mp ha).2⟩
  | frzEnter =>
    simp only [moveOn, frzEnterOn, Bool.and_eq_true, Bool.not_eq_true'] at hon
    obtain ⟨⟨⟨-, hlpm⟩, -⟩, -⟩ := hon
    cases h
    exact withAcks_registersKept fun _ => by rw [hlpm]; decide
  | frzExit =>
    cases h
    exact withAcks_registersKept fun ha => ⟨fun hl => ⟨rfl, ((acksAgree_iff.mp ha).1 hl).2⟩, nofun⟩
  | ready =>
    simp only [moveOn, readyOn, Bool.and_eq_true, Bool.not_eq_true'] at hon
    obtain ⟨⟨⟨⟨-, hlpm⟩, hfrz⟩, -⟩, -⟩ := hon
    cases h
    exact withAcks_registersKept fun _ => by rw [hlpm, hfrz]; decide
  | tx i =>
    rw [txStep_frame (runMove_tx.mp h)]
    exact ⟨rfl, rfl, rfl, rfl, rfl, id⟩
  | rxFrame =>
    rw [rxFrameStep_frame (runMove_rxFrame.mp h)]
    exact ⟨rfl, rfl, rfl, rfl, rfl, id⟩

theorem step_registersKept (h : step s = .next t) : RegistersKept s t := by
  refine step_of_moves (P := RegistersKept s) (Q := fun o => o = .next t → RegistersKept s t)
    (RegistersKept.refl s) (fun u hu he => ?_)
    (fun _ _ _ hu => hu.trans ⟨rfl, rfl, rfl, rfl, rfl, id⟩)
    (fun u m hu hm he => hu.trans (runMove_registersKept hm he)) h
  cases he
  exact hu

/-! ## What a step is (R66) -/

theorem step_of_no_moves (h : enabledMoves s = []) : step s = .next s := by
  unfold step stepOnce pickMove
  rw [h]

/-- An enabled move at the head of the agenda is the one that runs. -/
theorem step_agenda_head {m : Move} (ag : List Move) (h : m ∈ enabledMoves s) :
    step { s with agenda := m :: ag } = runMove m { s with agenda := ag } := by
  have he : enabledMoves { s with agenda := m :: ag } = enabledMoves s :=
    enabledMoves_schedule s (m :: ag) s.choices
  obtain ⟨a, ms, hms⟩ := List.exists_cons_of_ne_nil (List.ne_nil_of_mem h)
  rw [hms] at h he
  unfold step stepOnce pickMove
  rw [he]
  simp only [if_pos h]

end Sys2Proof.Machine

open Sys2Proof Sys2Proof.Machine

/-- Settles O59: every enabled move keeps the registers' invariants, and so does a step. -/
theorem stepKeepsRegisterInvariants : Obligations.StepKeepsRegisterInvariants := by
  unfold Obligations.StepKeepsRegisterInvariants
  intro s t h
  have hkept := step_registersKept h
  exact ⟨hkept.nmAtReset_eq.trans, hkept.acks, hkept.params⟩

/-- Settles O6: no enabled move, one of them, and the one the agenda names. -/
theorem stepTakesAnEnabledMove : Obligations.StepTakesAnEnabledMove := by
  unfold Obligations.StepTakesAnEnabledMove
  exact ⟨fun _ => step_of_no_moves, fun _ => step_spec, fun _ _ ag => step_agenda_head ag⟩

end

section
/-! PROOFS. Host writes to the words of a buffer: stores, ownership and codes (O14, O18, O19). -/

namespace Sys2Proof.Machine

variable {s : State} {k i : Nat} {v w : Word}

/-! ## Ownership and codes (R61, R63, R74) -/

theorem hwCodeIs_of_hwCs (c : BitVec 4) (hw : hwCs s i = some w) :
    hwCodeIs s c i = (codeOf w == c) := by
  simp only [hwCodeIs, hw]

/-- R63's exception, for a buffer whose control word is no poison. -/
theorem isRevocation_iff (hw : hwCs s i = some w) :
    isRevocation k i v s = true ↔
      k = csIndex (hwClass s) i ∧ codeOf w = codeTxData ∧ s.txPending.getLsbD i = true ∧
        codeOf v = codeTxInactive := by
  simp only [isRevocation, hwCodeIs_of_hwCs _ hw, Bool.and_eq_true, decide_eq_true_eq, beq_iff_eq,
    and_assoc]

/-- A buffer ENGINE owns is not written, but for a revocation. -/
theorem writeRam_violation (hi : i = k / bufWords (hwClass s)) (hp : i < poolSize (hwClass s))
    (ho : EngineOwns s i) (hr : isRevocation k i v s = false) :
    writeRam k v s = .error .ownershipViolation := by
  simp only [writeRam, ← hi, hp, if_true, hostMayWrite, engineOwns_of_engineOwns ho, thenDo_ok, hr,
    Bool.not_true, Bool.or_false, check_false, thenDo_error]

theorem writeRam_reserved (hi : i = k / bufWords (hwClass s)) (hp : i < poolSize (hwClass s))
    (ho : HostOwns s i) (hk : k = csIndex (hwClass s) i) (hd : codeDefined (codeOf v) = false) :
    writeRam k v s = .error .reservedCode := by
  have hcs : isCsWord k s = true := by rw [isCsWord_eq hi hp, hk, decide_eq_true rfl]
  simp only [writeRam, ← hi, hp, if_true, hostMayWrite, engineOwns_of_hostOwns ho, thenDo_ok,
    Bool.not_false, Bool.true_or, check_true, hcs, hd, check_false, thenDo_error]

/-- ENGINE owns buffers only while the module is enabled (R62). -/
theorem lpmAck_of_engineOwns (h : EngineOwns s i) : lpmAck s.mcr = false := by
  have hop : operational s = true := h.1
  simp only [operational, operationalMcr, Bool.and_eq_true, Bool.not_eq_true'] at hop
  obtain ⟨⟨hlpm, -⟩, -⟩ := hop
  exact hlpm

end Sys2Proof.Machine

open Sys2Proof Sys2Proof.Machine

/-- Settles O14: WRITE32's access is the RAM write of its word's kind. -/
theorem write32StoresRamWords : Obligations.Write32StoresRamWords := by
  unfold Obligations.Write32StoresRamWords
  intro inst k i off v s hp hl hk hoff hi
  have access : ∀ {u}, writeRam k v s = .ok u →
      exec (.write32 inst off v) s = .next (u.finish .ok) := fun h => by
    refine exec_write32_access hp ?_
    rw [hoff]
    exact (regWrite_ram v hk hl).trans h
  exact ⟨fun hpool ho hcs hd => access (writeRam_cs hi hpool ho hcs hd),
    fun hpool ho hcs => access (writeRam_other hi hpool ho hcs),
    fun hbeyond => access (writeRam_beyond hi hbeyond)⟩

/-- Settles O18: ENGINE owns buffers of an enabled module only, so ownership is the check that decides. -/
theorem engineOwnedWordsAreProtected : Obligations.EngineOwnedWordsAreProtected := by
  unfold Obligations.EngineOwnedWordsAreProtected
  intro k i v w s hi hpool ho hw
  have hl := lpmAck_of_engineOwns ho
  have hk : k < Config.ramWords := ram_of_pool (hi ▸ hpool)
  refine ⟨fun hnot => ?_, fun hcs hdata hpend hv => ?_, fun u hu => ?_⟩
  · refine (regWrite_ram v hk hl).trans (writeRam_violation hi hpool ho ?_)
    rw [← Bool.not_eq_true, isRevocation_iff hw]
    exact hnot
  · have hrev : isRevocation k i v s = true := (isRevocation_iff hw).mpr ⟨hcs, hdata, hpend, hv⟩
    have hclear : (clearBit s.txPending i).getLsbD i = false := by simp [getLsbD_clearBit]
    refine ⟨_, (regWrite_ram v hk hl).trans (writeRam_revocation hi hpool hcs
        ⟨true, engineOwns_of_engineOwns ho⟩ hrev), cellRead_cellWrite_same .., hclear, ?_, ?_⟩
    · refine .inr ⟨v, ?_, by rw [hv]; decide, by rw [hv]; exact fun h => absurd h.1 (by decide)⟩
      rw [hcs]
      exact cellRead_cellWrite_same ..
    · simp only [txOn, hclear, Bool.and_false, Bool.false_and]
  · exact (regRead_ram s hk hl).trans (by rw [hu, needed_some])

/-- Settles O19: the code is checked for a control word of the pool and for no other word. -/
theorem reservedCodesAreRefused : Obligations.ReservedCodesAreRefused := by
  unfold Obligations.ReservedCodesAreRefused
  intro k i v s hi hk hl
  refine ⟨fun hpool ho hcs hcode => ?_, fun hpool ho hcs => ?_, fun hbeyond => ?_⟩
  · obtain ⟨h0, h4, h2, h8, h12⟩ := hcode
    refine (regWrite_ram v hk hl).trans (writeRam_reserved hi hpool ho hcs ?_)
    simp only [codeDefined, codeRxInactive, codeRxEmpty, codeRxFull, codeTxInactive, codeTxData,
      beq_false_of_ne h0, beq_false_of_ne h4, beq_false_of_ne h2, beq_false_of_ne h8,
      beq_false_of_ne h12, Bool.or_false]
  · exact (regWrite_ram v hk hl).trans (writeRam_other hi hpool ho hcs)
  · exact (regWrite_ram v hk hl).trans (writeRam_beyond hi hbeyond)

end

section
/-! PROOFS. Register writes that change not-modelled bits or windowed fields (O16, O17). -/

namespace Sys2Proof.Machine

variable {s : State} {v : Word}

/-! ## The checks of a register write (R64, R75, R177) -/

theorem keepsNm_same {nm old new : Word} (h : new &&& nm = old &&& nm) : keepsNm nm old new = .ok () := by
  rw [keepsNm, changes_false_of h, Bool.not_false, check_true]

theorem keepsNm_changed {nm old new : Word} (h : new &&& nm ≠ old &&& nm) :
    keepsNm nm old new = .error .unmodelledField := by
  rw [keepsNm, changes_true_of h, Bool.not_true, check_false]

theorem inWindow_closed {mask old new : Word} (h : changes mask old new = true) :
    inWindow false mask old new = .error .configWindow := by
  rw [inWindow, h, Bool.not_true, Bool.or_false, check_false]

/-- A window check that fails is ConfigWindow. -/
theorem inWindow_cases (isOpen : Bool) (mask old new : Word) :
    inWindow isOpen mask old new = .ok () ∨ inWindow isOpen mask old new = .error .configWindow := by
  rw [inWindow]
  cases isOpen || !changes mask old new
  · exact .inr rfl
  · exact .inl rfl

/-! ## Windowed fields outside their window (R64) -/

theorem regWrite_mcr_configWindow (hf : frzAck s.mcr = false) (hn : v &&& mcrNm = s.mcr &&& mcrNm)
    (h : fdEn v ≠ fdEn s.mcr ∨ maxMb v ≠ maxMb s.mcr) : regWrite offMcr v s = .error .configWindow := by
  have hc : changes mcrFreeze s.mcr v = true := changes_true_of fun he => by
    obtain ⟨hfd, hmax⟩ := and_mcrFreeze_eq_iff.mp he
    exact h.elim (absurd hfd) (absurd hmax)
  show writeMcr v s = _
  simp only [writeMcr, keepsNm_same hn, thenDo_ok, hf, inWindow_closed hc, thenDo_error]

theorem regWrite_ctrl1_lpb (hf : frzAck s.mcr = false) (hn : v &&& ctrl1Nm = s.ctrl1 &&& ctrl1Nm)
    (h : lpb v ≠ lpb s.ctrl1) : regWrite offCtrl1 v s = .error .configWindow := by
  have hc : changes ctrl1Lpb s.ctrl1 v = true := changes_of_bit 12 (by decide) h
  show writeCtrl1 v s = _
  simp only [writeCtrl1, keepsNm_same hn, thenDo_ok, hf, inWindow_closed hc, thenDo_error]

/-- CLKSRC is checked after LPB, and both checks have the same fault. -/
theorem regWrite_ctrl1_clkSrc (hl : lpmAck s.mcr = false) (hn : v &&& ctrl1Nm = s.ctrl1 &&& ctrl1Nm)
    (h : v.getLsbD 13 ≠ s.ctrl1.getLsbD 13) : regWrite offCtrl1 v s = .error .configWindow := by
  have hc : changes ctrl1Clk s.ctrl1 v = true := changes_of_bit 13 (by decide) h
  show writeCtrl1 v s = _
  obtain hlpb | hlpb := inWindow_cases (frzAck s.mcr) ctrl1Lpb s.ctrl1 v <;>
    simp only [writeCtrl1, keepsNm_same hn, thenDo_ok, hlpb, hl, inWindow_closed hc, thenDo_error]

theorem regWrite_cbt_configWindow (hf : frzAck s.mcr = false) (h : v ≠ s.cbt) :
    regWrite offCbt v s = .error .configWindow := by
  have hc : changes (~~~0#32) s.cbt v = true :=
    changes_of_cover (n := 0#32) (by decide) (by rw [BitVec.and_zero, BitVec.and_zero]) h
  show writeCbt v s = _
  simp only [writeCbt, hf, inWindow_closed hc, thenDo_error]

theorem regWrite_fdcbt_configWindow (hf : frzAck s.mcr = false)
    (hn : v &&& fdcbtNm = s.fdcbt &&& fdcbtNm) (h : v ≠ s.fdcbt) :
    regWrite offFdcbt v s = .error .configWindow := by
  have hc : changes (~~~fdcbtNm) s.fdcbt v = true := changes_of_cover (by decide) hn h
  show writeFdcbt v s = _
  simp only [writeFdcbt, keepsNm_same hn, thenDo_ok, hf, inWindow_closed hc, thenDo_error]

theorem regWrite_fdctrl_configWindow (hf : frzAck s.mcr = false)
    (hn : v &&& fdctrlNm = s.fdctrl &&& fdctrlNm) (h : v ≠ s.fdctrl) :
    regWrite offFdctrl v s = .error .configWindow := by
  have hc : changes fdctrlFreeze s.fdctrl v = true := changes_of_cover (by decide) hn h
  show writeFdctrl v s = _
  simp only [writeFdctrl, keepsNm_same hn, thenDo_ok, hf, inWindow_closed hc, thenDo_error]

theorem regWrite_rximr_configWindow {i : Nat} (hi : i < Config.mbMax) (hl : lpmAck s.mcr = false)
    (hf : frzAck s.mcr = false) (h : cellRead s.rximr i ≠ some v) :
    regWrite (offRximr i) v s = .error .configWindow := by
  rw [regWrite_rximr v hi hl]
  simp only [writeRximr, hf, beq_false_of_ne h, Bool.or_false, check_false, thenDo_error]

/-- A mask written with the value it has is stored again in every state of an enabled module. -/
theorem regWrite_rximr_same {i : Nat} (hi : i < Config.mbMax) (hl : lpmAck s.mcr = false)
    (h : cellRead s.rximr i = some v) :
    regWrite (offRximr i) v s = .ok { s with rximr := cellWrite s.rximr i v } := by
  rw [regWrite_rximr v hi hl]
  simp only [writeRximr, h, beq_self_eq_true, Bool.or_true, check_true, thenDo_ok]

end Sys2Proof.Machine

open Sys2Proof Sys2Proof.Machine

/-- Settles O16: register by register, the closed window's fault, then the writes that change no windowed
field. -/
theorem windowedFieldsNeedTheirWindow : Obligations.WindowedFieldsNeedTheirWindow := by
  unfold Obligations.WindowedFieldsNeedTheirWindow
  intro v s
  refine ⟨fun hf => ⟨regWrite_mcr_configWindow hf, regWrite_ctrl1_lpb hf, regWrite_cbt_configWindow hf,
      regWrite_fdcbt_configWindow hf, regWrite_fdctrl_configWindow hf,
      fun i hi hl => regWrite_rximr_configWindow hi hl hf⟩,
    regWrite_ctrl1_clkSrc, fun hn hfd hmax => ?_, regWrite_ctrl1 rfl (.inr rfl) (.inr rfl),
    regWrite_cbt (.inr rfl), regWrite_fdcbt rfl (.inr rfl), regWrite_fdctrl rfl (.inr rfl),
    fun i hi hl hv => ⟨_, regWrite_rximr_same hi hl hv, fun a => ?_⟩⟩
  · obtain ⟨hmdis, hfrz, hhalt, -⟩ := mcrIs_hostWrite s.mcr v
    exact ⟨_, regWrite_mcr hn (.inr ⟨hfd, hmax⟩), hmdis, hfrz, hhalt⟩
  · by_cases ha : a = i
    · rw [ha, hv]
      exact cellRead_cellWrite_same ..
    · exact cellRead_cellWrite_other _ _ ha

/-- Settles O17: the not-modelled bits are the first check of each of the four writes (R177). -/
theorem notModelledBitsMayNotChange : Obligations.NotModelledBitsMayNotChange := by
  unfold Obligations.NotModelledBitsMayNotChange
  intro v s
  refine ⟨fun h => ?_, fun h => ?_, fun h => ?_, fun h => ?_⟩
  · show writeMcr v s = _
    rw [writeMcr, keepsNm_changed h, thenDo_error]
  · show writeCtrl1 v s = _
    rw [writeCtrl1, keepsNm_changed h, thenDo_error]
  · show writeFdcbt v s = _
    rw [writeFdcbt, keepsNm_changed h, thenDo_error]
  · show writeFdctrl v s = _
    rw [writeFdctrl, keepsNm_changed h, thenDo_error]

end

section
/-! PROOFS. The payload packing (O35). -/

namespace Sys2Proof.Machine

/-! ## Packing and unpacking (R55) -/

/-- Appending a byte makes it the least significant one. -/
theorem toNat_append_byte {n : Nat} (a : BitVec n) (b : Byte) :
    (a ++ b).toNat = a.toNat * 256 + b.toNat := by
  rw [BitVec.toNat_append, ← Nat.shiftLeft_add_eq_or_of_lt b.isLt, Nat.shiftLeft_eq]

theorem toNat_packWord (b0 b1 b2 b3 : Byte) :
    (packWord b0 b1 b2 b3).toNat =
      b0.toNat * 2 ^ 24 + b1.toNat * 2 ^ 16 + b2.toNat * 2 ^ 8 + b3.toNat := by
  rw [packWord, toNat_append_byte, toNat_append_byte, toNat_append_byte]
  omega

theorem toNat_unpackByte (w : Word) (j : Nat) :
    (unpackByte w j).toNat = w.toNat / 2 ^ (24 - 8 * j) % 256 := by
  rw [unpackByte, BitVec.toNat_setWidth, BitVec.toNat_ushiftRight, Nat.shiftRight_eq_div_pow]

/-- Byte j of the word packed from the bytes `b 0` to `b 3` is `b j`. -/
theorem unpackByte_packWord (b : Nat → Byte) {j : Nat} (hj : j < 4) :
    unpackByte (packWord (b 0) (b 1) (b 2) (b 3)) j = b j := by
  apply BitVec.eq_of_toNat_eq
  rw [toNat_unpackByte, toNat_packWord]
  have h0 := (b 0).isLt
  have h1 := (b 1).isLt
  have h2 := (b 2).isLt
  have h3 := (b 3).isLt
  obtain rfl | rfl | rfl | rfl : j = 0 ∨ j = 1 ∨ j = 2 ∨ j = 3 := by omega
  all_goals omega

end Sys2Proof.Machine

open Sys2Proof Sys2Proof.Machine

/-- Settles O35: byte m is byte `m % 4` of word `m / 4`. -/
theorem payloadUnpacksToItself : Obligations.PayloadUnpacksToItself := by
  unfold Obligations.PayloadUnpacksToItself
  refine ⟨toNat_packWord, fun w j _ => toNat_unpackByte w j, fun b n m hm => ?_⟩
  have hword : m / 4 < n := by omega
  have hbyte : m % 4 < 4 := Nat.mod_lt _ (by decide)
  rw [unpackAt, List.getD_eq_getElem _ _ (by simpa using hword), List.getElem_map, List.getElem_range]
  refine (unpackByte_packWord (fun r => b (4 * (m / 4) + r)) hbyte).trans ?_
  rw [Nat.div_add_mod]

end

section
/-! PROOFS. Descriptors and their words, both ways (O1, O2, O3). -/

namespace Sys2Proof

variable {cmd w : Word} {ws rest : List Word} {i : Instr}

/-! ## Fields of a word (R9) -/

theorem bits_lt (w : Word) (hi lo : Nat) : bits w hi lo < 2 ^ (hi - lo + 1) :=
  Nat.mod_lt _ (Nat.two_pow_pos _)

/-- A field put above the bits below it makes the bits up to its own highest one. -/
theorem bits_add_mod (w : Word) {hi lo : Nat} (h : lo ≤ hi) :
    bits w hi lo * 2 ^ lo + w.toNat % 2 ^ lo = w.toNat % 2 ^ (hi + 1) := by
  rw [bits, show hi + 1 = lo + (hi - lo + 1) by omega, pow_add _ lo, Nat.mod_mul, mul_comm, add_comm]

theorem bits_zero (w : Word) (hi : Nat) : bits w hi 0 = w.toNat % 2 ^ (hi + 1) := by
  rw [bits, pow_zero, Nat.div_one, Nat.sub_zero]

/-- A one-bit field read as a flag and written again. -/
theorem toNat_decide_eq_one {n : Nat} (h : n < 2) : (decide (n = 1)).toNat = n := by
  obtain rfl | rfl : n = 0 ∨ n = 1 := by omega
  all_goals rfl

/-- A flag written as a one-bit field and read again. -/
theorem decide_toNat_eq_one (b : Bool) : decide (b.toNat = 1) = b := by cases b <;> rfl

/-! ## The CFG word (R81) -/

theorem Cfg.fits_iff {c : Cfg} :
    c.fits = true ↔ c.rsvHigh < 2 ∧ c.sp < 128 ∧ c.qpb < 256 ∧ c.rsvLow < 128 := by
  simp only [Cfg.fits, Bool.and_eq_true, decide_eq_true_eq, and_assoc]

/-- The ten fields of the CFG word of a configuration that fits. -/
theorem bits_encodeCfg {c : Cfg} (h : c.fits = true) :
    bits (encodeCfg c) 31 31 = c.rsvHigh ∧ bits (encodeCfg c) 30 24 = c.sp ∧
      bits (encodeCfg c) 23 16 = c.qpb ∧ bits (encodeCfg c) 15 9 = c.rsvLow ∧
      bits (encodeCfg c) 8 8 = idTypeToBits c.idt ∧ bits (encodeCfg c) 7 6 = pclassToBits c.pclass ∧
      bits (encodeCfg c) 5 5 = c.brs.toNat ∧ bits (encodeCfg c) 4 4 = clkToBits c.clk ∧
      bits (encodeCfg c) 3 3 = protoToBits c.proto ∧ bits (encodeCfg c) 2 0 = modeToBits c.mode := by
  obtain ⟨hhigh, hsp, hqpb, hlow⟩ := Cfg.fits_iff.mp h
  have hidt := idTypeToBits_lt c.idt
  have hpclass := pclassToBits_lt c.pclass
  have hbrs := Bool.toNat_lt c.brs
  have hclk := clkToBits_lt c.clk
  have hproto := protoToBits_lt c.proto
  have hmode := modeToBits_lt c.mode
  simp only [encodeCfg, bits_ofNat]
  refine ⟨?_, ?_, ?_, ?_, ?_, ?_, ?_, ?_, ?_, ?_⟩ <;> omega

theorem decodeCfg_encodeCfg {c : Cfg} (h : c.fits = true) : decodeCfg (encodeCfg c) = c := by
  obtain ⟨hhigh, hsp, hqpb, hlow, hidt, hpclass, hbrs, hclk, hproto, hmode⟩ := bits_encodeCfg h
  simp only [decodeCfg, hhigh, hsp, hqpb, hlow, hidt, hpclass, hbrs, hclk, hproto, hmode,
    idTypeOfBits_toBits, pclassOfBits_toBits, decide_toNat_eq_one, clkOfBits_toBits, protoOfBits_toBits,
    modeOfBits_toBits]

/-- The fields of the CFG word are all of its bits. -/
theorem encodeCfg_decodeCfg (w : Word) : encodeCfg (decodeCfg w) = w := by
  simp only [encodeCfg, decodeCfg, idTypeToBits_ofBits (bits_lt w 8 8), pclassToBits_ofBits (bits_lt w 7 6),
    toNat_decide_eq_one (bits_lt w 5 5), clkToBits_ofBits (bits_lt w 4 4),
    protoToBits_ofBits (bits_lt w 3 3), modeToBits_ofBits (bits_lt w 2 0)]
  simp only [add_assoc, bits_zero, bits_add_mod, Nat.reduceLeDiff, Nat.mod_eq_of_lt w.isLt,
    BitVec.ofNat_toNat, BitVec.setWidth_eq]

theorem decodeCfg_fits (w : Word) : (decodeCfg w).fits = true :=
  Cfg.fits_iff.mpr ⟨bits_lt w 31 31, bits_lt w 30 24, bits_lt w 23 16, bits_lt w 15 9⟩

/-! ## The TPAR word (R85) -/

theorem Tpar.fits_iff {t : Tpar} : t.fits = true ↔ t.rsv < 131072 ∧ t.sp < 128 ∧ t.qpb < 256 := by
  simp only [Tpar.fits, Bool.and_eq_true, decide_eq_true_eq, and_assoc]

theorem decodeTpar_encodeTpar {t : Tpar} (h : t.fits = true) : decodeTpar (encodeTpar t) = t := by
  obtain ⟨hrsv, hsp, hqpb⟩ := Tpar.fits_iff.mp h
  have h31 : bits (encodeTpar t) 31 15 = t.rsv := by rw [encodeTpar, bits_ofNat]; omega
  have h14 : bits (encodeTpar t) 14 8 = t.sp := by rw [encodeTpar, bits_ofNat]; omega
  have h7 : bits (encodeTpar t) 7 0 = t.qpb := by rw [encodeTpar, bits_ofNat]; omega
  simp only [decodeTpar, h31, h14, h7]

/-- The fields of the TPAR word are all of its bits. -/
theorem encodeTpar_decodeTpar (w : Word) : encodeTpar (decodeTpar w) = w := by
  simp only [encodeTpar, decodeTpar, add_assoc, bits_zero, bits_add_mod, Nat.reduceLeDiff,
    Nat.mod_eq_of_lt w.isLt, BitVec.ofNat_toNat, BitVec.setWidth_eq]

theorem decodeTpar_fits (w : Word) : (decodeTpar w).fits = true :=
  Tpar.fits_iff.mpr ⟨bits_lt w 31 15, bits_lt w 14 8, bits_lt w 7 0⟩

/-! ## The command word (R77, R88) -/

theorem commandKnown_iff : commandKnown cmd = true ↔ 1 ≤ bits cmd 3 0 ∧ bits cmd 3 0 ≤ 6 := by
  simp only [commandKnown, Bool.and_eq_true, decide_eq_true_eq]

theorem commandClean_iff :
    commandClean cmd = true ↔
      bits cmd 15 8 = 0 ∧ (bits cmd 3 0 = 2 ∨ bits cmd 3 0 = 3 ∨ bits cmd 31 16 = 0) := by
  simp only [commandClean, Bool.and_eq_true, Bool.or_eq_true, decide_eq_true_eq, or_assoc]

/-- A command word whose reserved bits are 0 is the one built from its three fields. -/
theorem commandWord_bits (h : bits cmd 15 8 = 0) :
    commandWord (bits cmd 3 0) (bits cmd 7 4) (bits cmd 31 16) = cmd := by
  apply BitVec.eq_of_toNat_eq
  have hcmd := cmd.isLt
  simp only [bits] at h
  simp only [commandWord, BitVec.toNat_ofNat, bits]
  omega

/-! ## Decoding a descriptor (R76 to R88) -/

theorem decode_accepted (h : commandKnown cmd = true ∧ commandClean cmd = true) :
    decode (cmd :: ws) = decodeOperands cmd ws := by
  rw [decode, h.1, h.2, Bool.and_self, if_pos rfl]

theorem decode_illegal (h : ¬ (commandKnown cmd = true ∧ commandClean cmd = true)) :
    decode (cmd :: ws) = .error .illegalOp := by
  rw [decode, if_neg (by rwa [Bool.and_eq_true])]

/-- What decodes has a command word that passed R88 items 1 to 3, and its operands follow. -/
theorem decode_eq_ok (h : decode ws = .ok (i, rest)) :
    ∃ cmd ops, ws = cmd :: ops ∧ (commandKnown cmd = true ∧ commandClean cmd = true) ∧
      decodeOperands cmd ops = .ok (i, rest) := by
  cases ws with
  | nil => cases h
  | cons cmd ops =>
    by_cases hc : commandKnown cmd = true ∧ commandClean cmd = true
    · exact ⟨cmd, ops, rfl, hc, by rwa [← decode_accepted hc]⟩
    · rw [decode_illegal hc] at h
      cases h

/-- A command word built from fields that fit is decoded to its operation's operands. -/
theorem decode_commandWord {op inst len : Nat} (ho : 1 ≤ op ∧ op ≤ 6) (hi : inst < 16)
    (hl : len < 65536) (h : op = 2 ∨ op = 3 ∨ len = 0) :
    decode (commandWord op inst len :: ws) = decodeOperands (commandWord op inst len) ws :=
  decode_accepted (commandWord_accepted ho hi hl h)

/-! ## The operand words of each operation (R80 to R87) -/

theorem decodeOperands_init (h : bits cmd 3 0 = 1) (cfg nbr dbr txid rxid : Word) :
    decodeOperands cmd (cfg :: nbr :: dbr :: txid :: rxid :: rest) =
      .ok (.init (bits cmd 7 4) (decodeCfg cfg) nbr dbr txid rxid, rest) := by
  simp only [decodeOperands, h]

theorem decodeOperands_transmit (h : bits cmd 3 0 = 2) (id src : Word) :
    decodeOperands cmd (id :: src :: rest) =
      .ok (.transmit (bits cmd 7 4) (bits cmd 31 16) id src, rest) := by
  simp only [decodeOperands, h]

theorem decodeOperands_receive (h : bits cmd 3 0 = 3) (dst : Word) :
    decodeOperands cmd (dst :: rest) = .ok (.receive (bits cmd 7 4) (bits cmd 31 16) dst, rest) := by
  simp only [decodeOperands, h]

theorem decodeOperands_calcTiming (h : bits cmd 3 0 = 4) (tpar nbr : Word) :
    decodeOperands cmd (tpar :: nbr :: rest) =
      .ok (.calcTiming (bits cmd 7 4) (decodeTpar tpar) nbr, rest) := by
  simp only [decodeOperands, h]

theorem decodeOperands_read32 (h : bits cmd 3 0 = 5) (off : Word) :
    decodeOperands cmd (off :: rest) = .ok (.read32 (bits cmd 7 4) off, rest) := by
  simp only [decodeOperands, h]

theorem decodeOperands_write32 (h : bits cmd 3 0 = 6) (off val : Word) :
    decodeOperands cmd (off :: val :: rest) = .ok (.write32 (bits cmd 7 4) off val, rest) := by
  simp only [decodeOperands, h]

/-! ## Encoding and decoding (R76 to R87) -/

/-- The decoder reads back what the encoder wrote. -/
theorem decode_encode (h : WellFormed i = true) : decode (encode i ++ rest) = .ok (i, rest) := by
  cases i with
  | init inst cfg nbr dbr txid rxid =>
    simp only [WellFormed, instFits, Bool.and_eq_true, decide_eq_true_eq] at h
    obtain ⟨hi, hcfg⟩ := h
    refine (decode_commandWord (by decide) hi (by decide) (.inr (.inr rfl))).trans ?_
    refine (decodeOperands_init (bits_commandWord_op (by decide)) ..).trans ?_
    rw [bits_commandWord_inst (by decide) hi, decodeCfg_encodeCfg hcfg]
    rfl
  | transmit inst len id src =>
    simp only [WellFormed, instFits, lenFits, Bool.and_eq_true, decide_eq_true_eq] at h
    obtain ⟨hi, hl⟩ := h
    refine (decode_commandWord (by decide) hi hl (.inl rfl)).trans ?_
    refine (decodeOperands_transmit (bits_commandWord_op (by decide)) ..).trans ?_
    rw [bits_commandWord_inst (by decide) hi, bits_commandWord_len (by decide) hi hl]
    rfl
  | receive inst len dst =>
    simp only [WellFormed, instFits, lenFits, Bool.and_eq_true, decide_eq_true_eq] at h
    obtain ⟨hi, hl⟩ := h
    refine (decode_commandWord (by decide) hi hl (.inr (.inl rfl))).trans ?_
    refine (decodeOperands_receive (bits_commandWord_op (by decide)) ..).trans ?_
    rw [bits_commandWord_inst (by decide) hi, bits_commandWord_len (by decide) hi hl]
    rfl
  | calcTiming inst tpar nbr =>
    simp only [WellFormed, instFits, Bool.and_eq_true, decide_eq_true_eq] at h
    obtain ⟨hi, htpar⟩ := h
    refine (decode_commandWord (by decide) hi (by decide) (.inr (.inr rfl))).trans ?_
    refine (decodeOperands_calcTiming (bits_commandWord_op (by decide)) ..).trans ?_
    rw [bits_commandWord_inst (by decide) hi, decodeTpar_encodeTpar htpar]
    rfl
  | read32 inst off =>
    have hi : inst < 16 := of_decide_eq_true h
    refine (decode_commandWord (by decide) hi (by decide) (.inr (.inr rfl))).trans ?_
    refine (decodeOperands_read32 (bits_commandWord_op (by decide)) ..).trans ?_
    rw [bits_commandWord_inst (by decide) hi]
    rfl
  | write32 inst off val =>
    have hi : inst < 16 := of_decide_eq_true h
    refine (decode_commandWord (by decide) hi (by decide) (.inr (.inr rfl))).trans ?_
    refine (decodeOperands_write32 (bits_commandWord_op (by decide)) ..).trans ?_
    rw [bits_commandWord_inst (by decide) hi]
    rfl

/-- The encoder writes again what the decoder read. -/
theorem encode_decoded (h : decode ws = .ok (i, rest)) : WellFormed i = true ∧ ws = encode i ++ rest := by
  obtain ⟨cmd, ops, rfl, hc, h⟩ := decode_eq_ok h
  obtain ⟨hrsv, hlen⟩ := commandClean_iff.mp hc.2
  have hinst : instFits (bits cmd 7 4) = true := decide_eq_true (bits_lt cmd 7 4)
  have hlenFits : lenFits (bits cmd 31 16) = true := decide_eq_true (bits_lt cmd 31 16)
  have hcmd := commandWord_bits hrsv
  unfold decodeOperands at h
  split at h <;> cases h <;> rename_i hop <;> rw [hop] at hlen hcmd
  case h_1 =>
    rw [show bits cmd 31 16 = 0 by omega] at hcmd
    exact ⟨by rw [WellFormed, hinst, decodeCfg_fits]; rfl, by rw [encode, hcmd, encodeCfg_decodeCfg]; rfl⟩
  case h_2 => exact ⟨by rw [WellFormed, hinst, hlenFits]; rfl, by rw [encode, hcmd]; rfl⟩
  case h_3 => exact ⟨by rw [WellFormed, hinst, hlenFits]; rfl, by rw [encode, hcmd]; rfl⟩
  case h_4 =>
    rw [show bits cmd 31 16 = 0 by omega] at hcmd
    exact ⟨by rw [WellFormed, hinst, decodeTpar_fits]; rfl,
      by rw [encode, hcmd, encodeTpar_decodeTpar]; rfl⟩
  case h_5 =>
    rw [show bits cmd 31 16 = 0 by omega] at hcmd
    exact ⟨hinst, by rw [encode, hcmd]; rfl⟩
  case h_6 =>
    rw [show bits cmd 31 16 = 0 by omega] at hcmd
    exact ⟨hinst, by rw [encode, hcmd]; rfl⟩

end Sys2Proof

open Sys2Proof

/-- Settles O2: the command word keeps its fields, and each operation's operand words follow it. -/
theorem decodeReturnsEncodedInstruction : Obligations.DecodeReturnsEncodedInstruction := by
  unfold Obligations.DecodeReturnsEncodedInstruction
  exact fun _ _ => decode_encode

/-- Settles O3: the fields of the command, CFG and TPAR words are all of their bits. -/
theorem decodedInstructionEncodesBack : Obligations.DecodedInstructionEncodesBack := by
  unfold Obligations.DecodedInstructionEncodesBack
  exact fun _ _ _ => encode_decoded

/-- Settles O1: the decoder evaluated on the seven descriptors. -/
theorem descriptorWordsDecode : Obligations.DescriptorWordsDecode := by
  unfold Obligations.DescriptorWordsDecode
  decide

end

section
/-! PROOFS. The checks of a command word when HOST takes the descriptor (O4). -/

namespace Sys2Proof

/-! ## The operand words of a command word (R78, R88 item 4) -/

/-- The number of operand words after a command word with operation code `op` (R78). -/
def operandWords (op : Nat) : Nat := if op = 1 then 5 else if op = 3 ∨ op = 5 then 1 else 2

/-- The INST field of an instruction (R77). -/
def instOf : Instr → Nat
  | .init inst _ _ _ _ _ => inst
  | .transmit inst _ _ _ => inst
  | .receive inst _ _ => inst
  | .calcTiming inst _ _ => inst
  | .read32 inst _ => inst
  | .write32 inst _ _ => inst

variable {cmd : Word} {ws : List Word}

open Laws.Encoding (opCode)

theorem decodeOperands_truncated (h : ws.length < operandWords (bits cmd 3 0)) :
    decodeOperands cmd ws = .error .truncated := by
  unfold decodeOperands
  split
  case h_7 => rfl
  all_goals
    rename_i hop
    simp +arith [hop, operandWords] at h

/-- With enough operand words an operation is decoded: the one of OP, with the INST of the command word. -/
theorem decodeOperands_complete (hk : commandKnown cmd = true)
    (hn : operandWords (bits cmd 3 0) ≤ ws.length) :
    ∃ i, decodeOperands cmd ws = .ok (i, ws.drop (operandWords (bits cmd 3 0))) ∧
      descWords i = operandWords (bits cmd 3 0) + 1 ∧ opCode i = bits cmd 3 0 ∧
      instOf i = bits cmd 7 4 := by
  obtain ⟨hlow, hhigh⟩ := commandKnown_iff.mp hk
  obtain hop | hop | hop | hop | hop | hop : bits cmd 3 0 = 1 ∨ bits cmd 3 0 = 2 ∨ bits cmd 3 0 = 3 ∨
    bits cmd 3 0 = 4 ∨ bits cmd 3 0 = 5 ∨ bits cmd 3 0 = 6 := by omega
  all_goals rw [hop] at hn ⊢
  · match ws, hn with
    | cfg :: nbr :: dbr :: txid :: rxid :: _, _ =>
      exact ⟨_, decodeOperands_init hop cfg nbr dbr txid rxid, rfl, rfl, rfl⟩
  · match ws, hn with
    | id :: src :: _, _ => exact ⟨_, decodeOperands_transmit hop id src, rfl, rfl, rfl⟩
  · match ws, hn with
    | dst :: _, _ => exact ⟨_, decodeOperands_receive hop dst, rfl, rfl, rfl⟩
  · match ws, hn with
    | tpar :: nbr :: _, _ => exact ⟨_, decodeOperands_calcTiming hop tpar nbr, rfl, rfl, rfl⟩
  · match ws, hn with
    | off :: _, _ => exact ⟨_, decodeOperands_read32 hop off, rfl, rfl, rfl⟩
  · match ws, hn with
    | off :: val :: _, _ => exact ⟨_, decodeOperands_write32 hop off val, rfl, rfl, rfl⟩

end Sys2Proof

namespace Sys2Proof.Machine

open Laws.Encoding (opCode)

variable {s : State} {i : Instr}

/-! ## A nonzero INST (R88 item 5) -/

/-- INIT and CALC_TIMING finish NOT_OK on a bad instance, with no other effect. -/
theorem exec_notOk_of_inst (hp : s.seq.pos = .idle) (hi : instOf i ≠ 0)
    (hop : opCode i = 1 ∨ opCode i = 4) :
    exec i s = .next (s.finish .notOk) := by
  cases i with
  | init inst => simp only [exec, execInit, hp, initStart, if_pos (show inst ≠ Config.modelledInst from hi)]
  | calcTiming inst =>
    simp only [exec, execCalcTiming, hp, calcStart, if_pos (show inst ≠ Config.modelledInst from hi)]
  | transmit => simp [opCode] at hop
  | receive => simp [opCode] at hop
  | read32 => simp [opCode] at hop
  | write32 => simp [opCode] at hop

/-- The instance check fails on a bad instance. -/
theorem check_inst {inst : Nat} (h : inst ≠ 0) :
    check (decide (inst = Config.modelledInst)) .badInstance = .error .badInstance := by
  rw [decide_eq_false (show ¬ inst = Config.modelledInst from h), check_false]

/-- The other four operations fault on a bad instance before they look at anything else. -/
theorem exec_badInstance (hp : s.seq.pos = .idle) (hi : instOf i ≠ 0)
    (hop : opCode i = 2 ∨ opCode i = 3 ∨ opCode i = 5 ∨ opCode i = 6) :
    exec i s = .fault .badInstance := by
  cases i with
  | init => simp [opCode] at hop
  | calcTiming => simp [opCode] at hop
  | transmit inst =>
    have hc := check_inst (inst := inst) hi
    simp only [exec, execTransmit, hp, transmitStart, hc, thenDo_error, tryDo_error]
  | receive inst =>
    have hc := check_inst (inst := inst) hi
    simp only [exec, execReceive, hp, receiveStart, hc, thenDo_error, tryDo_error]
  | read32 inst =>
    have hc := check_inst (inst := inst) hi
    simp only [exec, execRead32, hp, accessStart, hc, thenDo_error, tryDo_error]
  | write32 inst =>
    have hc := check_inst (inst := inst) hi
    simp only [exec, execWrite32, hp, accessStart, hc, thenDo_error, tryDo_error]

/-! ## HOST between operations (R22, R88) -/

/-- Between operations a descriptor that does not decode is HOST's fault. -/
theorem hostStep_refuses {e : DecodeError} (hp : s.seq.pos = .idle) (hd : decode s.prog = .error e) :
    hostStep s = .fault (faultOf e) := by
  simp only [hostStep, fetch, hp, hd, raise]

end Sys2Proof.Machine

open Sys2Proof Sys2Proof.Machine

/-- Settles O4: an unknown or unclean command word does not decode, a clean one does exactly when its operand
words are there, and then the instance is the first thing `exec` looks at. -/
theorem commandWordIsCheckedInOrder : Obligations.CommandWordIsCheckedInOrder := by
  unfold Obligations.CommandWordIsCheckedInOrder
  intro s cmd ws op n hp hprog hop hn
  obtain rfl := hop
  obtain rfl : n = operandWords (bits cmd 3 0) := hn
  have illegal (h : ¬ (commandKnown cmd = true ∧ commandClean cmd = true)) :
      hostStep s = .fault .illegalOp :=
    hostStep_refuses (e := .illegalOp) hp (by rw [hprog, decode_illegal h])
  rw [commandKnown_iff, commandClean_iff] at illegal
  refine ⟨fun h => illegal (by omega), fun _ _ h => illegal (by omega), fun _ _ h => illegal (by omega),
    fun hlow hhigh hrsv hlen => ?_⟩
  have hk := commandKnown_iff.mpr ⟨hlow, hhigh⟩
  have hd : decode s.prog = decodeOperands cmd ws := by
    rw [hprog, decode_accepted ⟨hk, commandClean_iff.mpr ⟨hrsv, hlen⟩⟩]
  refine ⟨fun hshort => hostStep_refuses (e := .truncated) hp (by rw [hd, decodeOperands_truncated hshort]),
    fun hfull hinst => ?_⟩
  obtain ⟨i, hi, hwords, hcode, hfield⟩ := decodeOperands_complete hk hfull
  rw [hostStep_takes hp (hd.trans hi), hprog, hwords, List.take_succ_cons, ← hcode]
  rw [← hfield] at hinst
  exact ⟨exec_notOk_of_inst hp hinst, exec_badInstance hp hinst⟩

end

section
/-! PROOFS. The fields of the CBT word (O24). -/

namespace Sys2Proof.Machine

/-- A field of 10 bits takes the prescaler modulo 1024. -/
theorem bits_cbtWord_presdiv (r : Timing) : (bits (cbtWord r) 30 21 : Int) = r.presdiv % 1024 := by
  rw [bits, toNat_cbtWord]
  omega

/-- The segments of a feasible timing fit their fields of the CBT word (R91, R113). -/
theorem timing_segments_fit {rule : Config.PrescalerRule} {qpb sp nbr fclk : Nat} {r : Timing}
    (h : timing rule qpb sp nbr fclk = some r) :
    r.rjw < 32 ∧ r.prop < 64 ∧ r.ps1 < 32 ∧ r.ps2 < 32 := by
  obtain ⟨hseg, -, rfl⟩ := timing_eq_some.mp h
  obtain ⟨-, -, -, -, -, hps, hprop⟩ := segmentsFeasible_iff.mp hseg
  have hrjw : resyncWidth qpb sp ≤ phaseSeg qpb sp - 1 := min_le_left ..
  refine ⟨?_, ?_, ?_, ?_⟩ <;> dsimp only <;> omega

/-- The prescaler of a feasible timing fits its field under CONVENTIONAL (R113 condition 8). -/
theorem timing_presdiv_fits {rule : Config.PrescalerRule} {qpb sp nbr fclk : Nat} {r : Timing}
    (h : timing rule qpb sp nbr fclk = some r) (hr : rule = .conventional) :
    0 ≤ r.presdiv ∧ r.presdiv < 1024 := by
  obtain ⟨-, hfits, rfl⟩ := timing_eq_some.mp h
  obtain ⟨hlow, hhigh⟩ := prescalerFits_iff.mp hfits hr
  exact ⟨hlow, Int.lt_add_one_of_le hhigh⟩

end Sys2Proof.Machine

open Sys2Proof Sys2Proof.Machine

/-- Settles O24: the fields read off the CBT word as a number; their bounds from R113. -/
theorem cbtWordFieldsReadBack : Obligations.CbtWordFieldsReadBack := by
  unfold Obligations.CbtWordFieldsReadBack
  refine ⟨fun r => ⟨?_, bits_cbtWord_presdiv r, ?_, ?_, ?_, ?_⟩, fun rule qpb sp nbr fclk r h => ?_⟩
  iterate 5
    · rw [bits, toNat_cbtWord]
      omega
  · obtain ⟨hrjw, hprop, hps1, hps2⟩ := timing_segments_fit h
    exact ⟨hrjw, hprop, hps1, hps2, timing_presdiv_fits h⟩

end

section
/-! PROOFS. What CALC_TIMING refuses (O27). -/

namespace Sys2Proof.Machine

variable {s : State} {inst : Nat} {tpar : Tpar} {nbr : Word}

/-- Between operations CALC_TIMING's micro-step is its checks. -/
theorem exec_calcTiming_idle (hp : s.seq.pos = .idle) :
    exec (.calcTiming inst tpar nbr) s = .next (calcStart inst tpar s) := by
  simp only [exec, execCalcTiming, hp]

/-- Inside CALC_TIMING the micro-step is the one its position names. -/
theorem exec_calcTiming_micro {p : CalcPos} (hp : s.seq.pos = .calcTiming p) :
    exec (.calcTiming inst tpar nbr) s = calcMicro tpar nbr p s := by
  simp only [exec, execCalcTiming, hp]

theorem calcStart_reserved (hi : inst = 0) (hr : tpar.rsv ≠ 0) : calcStart inst tpar s = s.startNotOk := by
  rw [calcStart, if_neg (show ¬ inst ≠ Config.modelledInst from not_not_intro hi), if_pos hr]

/-- The calculation with the clock that CTRL1.CLKSRC selects (R90). -/
theorem timingFor_clkSrcOf (p : Config.Params) (ctrl1 : Word) (qpb sp : Nat) :
    timingFor p (clkSrcOf ctrl1) qpb sp nbr =
      timing p.prescalerRule qpb sp nbr.toNat (if ctrl1.getLsbD 13 then p.fClkBus else p.fClkOsc) := by
  rw [timingFor, clkSrcOf]
  cases ctrl1.getLsbD 13 <;> rfl

theorem calcMicro_infeasible (h : timingFor s.params (clkSrcOf s.ctrl1) tpar.qpb tpar.sp nbr = none) :
    calcMicro tpar nbr .readCtrl1 s = .next (s.finish .notOk) := by
  rw [calcMicro, regRead_ctrl1, tryDo_ok, h]

theorem calcMicro_writeCbt_configWindow {r : Timing} (hf : frzAck s.mcr = false) (h : cbtWord r ≠ s.cbt) :
    calcMicro tpar nbr (.writeCbt r) s = .fault .configWindow := by
  rw [calcMicro, writeAndFinish, regWrite_cbt_configWindow hf h, tryDo_error]

end Sys2Proof.Machine

open Sys2Proof Sys2Proof.Machine

/-- Settles O27: the two checks of micro-step 0, the infeasible calculation, and the closed window of CBT. -/
theorem calcTimingRefusesBadInput : Obligations.CalcTimingRefusesBadInput := by
  unfold Obligations.CalcTimingRefusesBadInput
  intro inst tpar nbr s
  refine ⟨fun hp hi => exec_notOk_of_inst hp hi (.inr rfl), fun hp hi hr => ?_, fun hp ht => ?_,
    fun r hp hf hne => ?_⟩
  · rw [exec_calcTiming_idle hp, calcStart_reserved hi hr]
    rfl
  · rw [exec_calcTiming_micro hp]
    exact calcMicro_infeasible (by rw [timingFor_clkSrcOf, ht])
  · rw [exec_calcTiming_micro hp]
    exact calcMicro_writeCbt_configWindow hf hne

end

section
/-! PROOFS. The sample quanta (O21), and the values and laws of a feasible timing (O22, O23). -/

namespace Sys2Proof.Machine

/-! ## The sample quanta (R106) -/

/-- Over the common denominator 200, the quotient with the half added is the dividend of `sampleQuanta`. -/
theorem sampleQuanta_eq_floor (qpb sp : Nat) :
    (sampleQuanta qpb sp : Int) = ⌊((qpb : ℚ) * sp / 100 + 1 / 2)⌋ := by
  have hq : (qpb : ℚ) * sp / 100 + 1 / 2 = ((2 * qpb * sp + 100 : Nat) : ℚ) / (200 : Nat) := by
    push_cast
    ring
  rw [hq, Rat.floor_natCast_div_natCast]
  rfl

/-! ## The values of a feasible timing (R107 to R112) -/

variable {rule : Config.PrescalerRule} {qpb sp nbr fclk : Nat} {r : Timing}

/-- A feasible timing has a phase segment and no negative propagation segment (R113). -/
theorem timing_segments_nonneg (h : timing rule qpb sp nbr fclk = some r) :
    1 ≤ phaseSeg qpb sp ∧ 0 ≤ propSeg qpb sp := by
  obtain ⟨hseg, -, -⟩ := timing_eq_some.mp h
  obtain ⟨-, -, -, hps, hprop, -, -⟩ := segmentsFeasible_iff.mp hseg
  exact ⟨hps, hprop⟩

theorem timing_ps2 (h : timing rule qpb sp nbr fclk = some r) : (r.ps2 : Int) = phaseSeg qpb sp := by
  obtain ⟨hps, -⟩ := timing_segments_nonneg h
  obtain ⟨-, -, rfl⟩ := timing_eq_some.mp h
  exact Int.toNat_of_nonneg (by omega)

theorem timing_ps1 (h : timing rule qpb sp nbr fclk = some r) : r.ps1 = r.ps2 := by
  obtain ⟨-, -, rfl⟩ := timing_eq_some.mp h
  rfl

theorem timing_prop (h : timing rule qpb sp nbr fclk = some r) : (r.prop : Int) = propSeg qpb sp := by
  obtain ⟨-, hprop⟩ := timing_segments_nonneg h
  obtain ⟨-, -, rfl⟩ := timing_eq_some.mp h
  exact Int.toNat_of_nonneg hprop

theorem timing_rjw (h : timing rule qpb sp nbr fclk = some r) :
    (r.rjw : Int) = min (phaseSeg qpb sp - 1) 3 := by
  obtain ⟨hps, -⟩ := timing_segments_nonneg h
  obtain ⟨-, -, rfl⟩ := timing_eq_some.mp h
  exact Int.toNat_of_nonneg (le_min (by omega) (by decide))

theorem timing_presdiv (h : timing rule qpb sp nbr fclk = some r) :
    r.presdiv = prescaler rule fclk (serialClock qpb nbr) := by
  obtain ⟨-, -, rfl⟩ := timing_eq_some.mp h
  rfl

/-- The quanta of a bit: the sync quantum, the propagation segment and two equal phase segments (R108). -/
theorem propSeg_add (qpb sp : Nat) : 1 + propSeg qpb sp + 2 * phaseSeg qpb sp = qpb := by
  rw [propSeg]
  ring

/-- The quanta of a bit: those before the sample point and the phase segment after it (R107). -/
theorem sampleQuanta_add (qpb sp : Nat) : (sampleQuanta qpb sp : Int) + phaseSeg qpb sp = qpb := by
  rw [phaseSeg]
  ring

end Sys2Proof.Machine

open Sys2Proof Sys2Proof.Machine

/-- Settles O21: the rounding as a floor; the integer formula is the definition, and the example computes. -/
theorem sampleQuantaRoundHalfUp : Obligations.SampleQuantaRoundHalfUp := by
  unfold Obligations.SampleQuantaRoundHalfUp
  exact ⟨sampleQuanta_eq_floor, fun _ _ => rfl, rfl⟩

/-- Settles O22: the conditions of R113 negated one by one, and the values field by field. -/
theorem timingIsInfeasibleExactly : Obligations.TimingIsInfeasibleExactly := by
  unfold Obligations.TimingIsInfeasibleExactly
  intro rule qpb sp nbr fclk ps prop pd hps hprop hpd
  obtain rfl : ps = phaseSeg qpb sp := hps
  obtain rfl : prop = propSeg qpb sp := hprop
  obtain rfl : pd = prescaler rule fclk (serialClock qpb nbr) := by
    rw [hpd]
    cases rule <;> rfl
  refine ⟨?_, fun r h => ?_⟩
  · rw [timing_eq_none, segmentsFeasible_iff, prescalerFits_iff]
    by_cases hr : rule = .conventional
    · simp only [hr, true_imp_iff, true_and]
      omega
    · simp only [hr, false_imp_iff, false_and, and_true, or_false]
      omega
  · have hrjw := timing_rjw h
    exact ⟨timing_ps2 h, timing_ps1 h, timing_prop h, hrjw, by omega, timing_presdiv h⟩

/-- Settles O23: the two ways R107 and R108 count the quanta of a bit, over the values of the timing. -/
theorem feasibleTimingLaws : Obligations.FeasibleTimingLaws := by
  unfold Obligations.FeasibleTimingLaws
  intro rule qpb sp nbr fclk r h
  obtain ⟨hpos, -⟩ := timing_segments_nonneg h
  have hps2 := timing_ps2 h
  have hps1 := timing_ps1 h
  have hprop := timing_prop h
  have hrjw := timing_rjw h
  have hbit := propSeg_add qpb sp
  have hsample := sampleQuanta_add qpb sp
  refine ⟨?_, ?_, Nat.zero_le _, ?_, Nat.zero_le _, ?_, ?_, ?_⟩ <;> omega

end

section
/-! PROOFS. What CALC_TIMING writes (O25, O26). -/

namespace Sys2Proof.Machine

variable {s : State} {inst : Nat} {tpar : Tpar} {nbr : Word}

/-! ## Its micro-steps (R116) -/

theorem calcStart_accepted (hi : inst = 0) (hr : tpar.rsv = 0) :
    calcStart inst tpar s = s.start (.calcTiming .readMcr) := by
  rw [calcStart, if_neg (show ¬ inst ≠ Config.modelledInst from not_not_intro hi),
    if_neg (not_not_intro hr)]

theorem calcMicro_readMcr :
    calcMicro tpar nbr .readMcr s =
      .next (s.goto (.calcTiming (if fdEn s.mcr then .fdCbt else .readCtrl1))) := by
  rw [calcMicro, regRead_mcr, tryDo_ok]

theorem calcMicro_feasible {r : Timing}
    (h : timingFor s.params (clkSrcOf s.ctrl1) tpar.qpb tpar.sp nbr = some r) :
    calcMicro tpar nbr .readCtrl1 s = .next (s.goto (.calcTiming (.writeCbt r))) := by
  rw [calcMicro, regRead_ctrl1, tryDo_ok, h]

theorem calcMicro_writeCbt {r : Timing} (h : frzAck s.mcr = true ∨ cbtWord r = s.cbt) :
    calcMicro tpar nbr (.writeCbt r) s = .next ({ s with cbt := cbtWord r }.finish .ok) := by
  rw [calcMicro, writeAndFinish, regWrite_cbt h, tryDo_ok]

theorem calcMicro_fdCbt (hf : frzAck s.mcr = true) :
    calcMicro tpar nbr .fdCbt s =
      .next ({ s with cbt := s.params.fdCbtWord }.goto (.calcTiming .fdFdcbt)) := by
  rw [calcMicro, writeStep, regWrite_cbt (.inl hf), tryDo_ok]

theorem calcMicro_fdFdcbt (hf : frzAck s.mcr = true)
    (hn : s.params.fdFdcbtWord &&& fdcbtNm = s.fdcbt &&& fdcbtNm) :
    calcMicro tpar nbr .fdFdcbt s = .next ({ s with fdcbt := s.params.fdFdcbtWord }.finish .ok) := by
  rw [calcMicro, writeAndFinish, regWrite_fdcbt hn (.inl hf), tryDo_ok]

/-! ## Its micro-steps in a row -/

/-- The first two micro-steps check the operands and take the path that FDEN names. -/
theorem runExec_calcTiming_path (n : Nat) (hp : s.seq.pos = .idle) (hi : inst = 0) (hr : tpar.rsv = 0) :
    runExec (.calcTiming inst tpar nbr) (n + 2) s =
      runExec (.calcTiming inst tpar nbr) n
        (s.start (.calcTiming (if fdEn s.mcr then .fdCbt else .readCtrl1))) := by
  rw [runExec_step (n + 1) (exec_calcTiming_idle hp), calcStart_accepted hi hr,
    runExec_step n ((exec_calcTiming_micro rfl).trans calcMicro_readMcr)]
  rfl

/-- Two micro-steps of CALC_TIMING in a row, the first inside the operation and going on to the second. -/
theorem runExec_calcTiming_two {p q : CalcPos} {t u : State} (hp : s.seq.pos = .calcTiming p)
    (h : calcMicro tpar nbr p s = .next t) (hq : t.seq.pos = .calcTiming q)
    (h' : calcMicro tpar nbr q t = .next u) :
    runExec (.calcTiming inst tpar nbr) 2 s = .next u := by
  rw [runExec_step 1 ((exec_calcTiming_micro hp).trans h)]
  exact runExec_one ((exec_calcTiming_micro hq).trans h')

end Sys2Proof.Machine

open Sys2Proof Sys2Proof.Machine

/-- Settles O25: the write alone, and the path of FDEN = 0 with the calculation and the write. -/
theorem calcTimingWritesCbt : Obligations.CalcTimingWritesCbt := by
  unfold Obligations.CalcTimingWritesCbt
  intro inst tpar nbr s r hw
  refine ⟨fun hp => (exec_calcTiming_micro hp).trans (calcMicro_writeCbt hw), fun hp hi hr hfd ht => ?_⟩
  rw [← timingFor_clkSrcOf] at ht
  rw [runExec_calcTiming_path 2 hp hi hr, hfd]
  exact runExec_calcTiming_two rfl (calcMicro_feasible ht) rfl (calcMicro_writeCbt hw)

/-- Settles O26: the last write alone, and the path of FDEN = 1 with its two writes. -/
theorem calcTimingWritesFdLiterals : Obligations.CalcTimingWritesFdLiterals := by
  unfold Obligations.CalcTimingWritesFdLiterals
  intro inst tpar nbr s hf hn
  refine ⟨fun hp => (exec_calcTiming_micro hp).trans (calcMicro_fdFdcbt hf hn), fun hp hi hr hfd => ?_⟩
  rw [runExec_calcTiming_path 2 hp hi hr, hfd]
  exact runExec_calcTiming_two rfl (calcMicro_fdCbt hf) rfl (calcMicro_fdFdcbt hf hn)

end

section
/-! PROOFS. The frame of CALC_TIMING (O28). -/

namespace Sys2Proof.Machine

variable {s t u : State} {inst : Nat} {tpar : Tpar} {nbr : Word}

/-! ## The two halves of a micro-step: a write, and a move of the sequencer -/

/-- What a micro-step of CALC_TIMING does to block space: nothing, or a write of the word its position
names (R116). -/
inductive CalcWrite (s : State) : State → Prop
  | stay : CalcWrite s s
  | cbt (p : CalcPos) (v : Word) : s.seq.pos = .calcTiming p → calcTarget p = some .cbt →
      CalcWrite s { s with cbt := v }
  | fdcbt (p : CalcPos) (v : Word) : s.seq.pos = .calcTiming p → calcTarget p = some .fdcbt →
      CalcWrite s { s with fdcbt := v }

/-- `t` is `u` but for the sequencer, which keeps its descriptor and its value, and the statuses, which only
grow. -/
structure MovesOnly (u t : State) : Prop where
  rest : t = { u with seq := t.seq, statuses := t.statuses }
  desc : t.seq.desc = u.seq.desc
  value : t.seq.value = u.seq.value
  statuses : ∃ l, t.statuses = u.statuses ++ l

theorem MovesOnly.hostFrame (h : MovesOnly u t) : HostFrame u t := .of_seq h.rest h.desc h.statuses

theorem movesOnly_goto (p : Pos) : MovesOnly u (u.goto p) := ⟨rfl, rfl, rfl, [], (List.append_nil _).symm⟩

theorem movesOnly_start (p : Pos) : MovesOnly u (u.start p) := ⟨rfl, rfl, rfl, [], (List.append_nil _).symm⟩

theorem movesOnly_finish (st : Status) : MovesOnly u (u.finish st) := ⟨rfl, rfl, rfl, [st], rfl⟩

theorem movesOnly_startNotOk : MovesOnly u u.startNotOk := ⟨rfl, rfl, rfl, [.notOk], rfl⟩

theorem CalcWrite.rest (h : CalcWrite s u) : u = { s with cbt := u.cbt, fdcbt := u.fdcbt } := by
  cases h <;> rfl

theorem CalcWrite.cbt_eq (h : CalcWrite s u)
    (hp : ∀ p, s.seq.pos = .calcTiming p → calcTarget p ≠ some .cbt) : u.cbt = s.cbt := by
  cases h with
  | stay => rfl
  | cbt p v hpos ht => exact absurd ht (hp p hpos)
  | fdcbt => rfl

theorem CalcWrite.fdcbt_eq (h : CalcWrite s u)
    (hp : ∀ p, s.seq.pos = .calcTiming p → calcTarget p ≠ some .fdcbt) : u.fdcbt = s.fdcbt := by
  cases h with
  | stay => rfl
  | cbt => rfl
  | fdcbt p v hpos ht => exact absurd ht (hp p hpos)

/-! ## Every micro-step is a write and a move -/

/-- A write to CBT that is made is the write of the word and nothing else (R30). -/
theorem regWrite_cbt_spec {v : Word} (h : regWrite offCbt v s = .ok u) : u = { s with cbt := v } :=
  writeCbt_spec h

/-- A write to FDCBT that is made is the write of the word and nothing else (R31). -/
theorem regWrite_fdcbt_spec {v : Word} (h : regWrite offFdcbt v s = .ok u) : u = { s with fdcbt := v } :=
  (writeFdcbt_spec h).2

theorem calcStart_movesOnly : MovesOnly s (calcStart inst tpar s) := by
  unfold calcStart
  split
  · exact movesOnly_finish _
  · split
    · exact movesOnly_startNotOk
    · exact movesOnly_start _

theorem writeAndFinish_eq_next {off : Nat} {v : Word} (h : writeAndFinish off v s = .next t) :
    ∃ u, regWrite off v s = .ok u ∧ t = u.finish .ok := by
  obtain ⟨u, hu, h⟩ := tryDo_eq_next.mp h
  exact ⟨u, hu, (Host.Outcome.next.inj h).symm⟩

theorem calcMicro_next {p : CalcPos} (hp : s.seq.pos = .calcTiming p)
    (h : calcMicro tpar nbr p s = .next t) : ∃ u, CalcWrite s u ∧ MovesOnly u t := by
  cases p with
  | readMcr =>
    rw [calcMicro_readMcr] at h
    cases h
    exact ⟨s, .stay, movesOnly_goto _⟩
  | fdCbt =>
    obtain ⟨u, hu, rfl⟩ := writeStep_eq_next.mp h
    obtain rfl := regWrite_cbt_spec hu
    exact ⟨_, .cbt _ _ hp rfl, movesOnly_goto _⟩
  | fdFdcbt =>
    obtain ⟨u, hu, rfl⟩ := writeAndFinish_eq_next h
    obtain rfl := regWrite_fdcbt_spec hu
    exact ⟨_, .fdcbt _ _ hp rfl, movesOnly_finish _⟩
  | readCtrl1 =>
    cases ht : timingFor s.params (clkSrcOf s.ctrl1) tpar.qpb tpar.sp nbr with
    | none =>
      rw [calcMicro_infeasible ht] at h
      cases h
      exact ⟨s, .stay, movesOnly_finish _⟩
    | some r =>
      rw [calcMicro_feasible ht] at h
      cases h
      exact ⟨s, .stay, movesOnly_goto _⟩
  | writeCbt r =>
    obtain ⟨u, hu, rfl⟩ := writeAndFinish_eq_next h
    obtain rfl := regWrite_cbt_spec hu
    exact ⟨_, .cbt _ _ hp rfl, movesOnly_finish _⟩

theorem exec_calcTiming_next (h : exec (.calcTiming inst tpar nbr) s = .next t) :
    ∃ u, CalcWrite s u ∧ MovesOnly u t := by
  simp only [exec, execCalcTiming] at h
  split at h
  · cases h
    exact ⟨s, .stay, calcStart_movesOnly⟩
  · rename_i p hp
    exact calcMicro_next hp h
  · cases h

end Sys2Proof.Machine

open Sys2Proof Sys2Proof.Machine

/-- Settles O28: every micro-step is at most the write its position names, then a move of the sequencer. -/
theorem calcTimingLeavesTheRest : Obligations.CalcTimingLeavesTheRest := by
  unfold Obligations.CalcTimingLeavesTheRest
  intro inst tpar nbr s t h
  obtain ⟨u, hw, hm⟩ := exec_calcTiming_next h
  have hf := hm.hostFrame
  have hcbt : t.cbt = u.cbt := by rw [hm.rest]
  have hfdcbt : t.fdcbt = u.fdcbt := by rw [hm.rest]
  refine ⟨?_, ?_, ?_, fun hp => hcbt.trans (hw.cbt_eq hp), fun hp => hfdcbt.trans (hw.fdcbt_eq hp)⟩
  · rw [hcbt, hfdcbt]
    have ht := hm.rest
    rw [hw.rest] at ht
    exact ht
  · rw [hw.rest] at hf
    exact ⟨hf.params, hf.prog, hf.desc, hf.agenda, hf.choices, hf.draws, hf.statuses⟩
  · rw [hm.value, hw.rest]

end

section
/-! PROOFS. INIT's validation (O41). -/

namespace Sys2Proof.Machine

variable {s : State} {inst : Nat} {cfg : Cfg} {nbr dbr txid rxid : Word}

/-- Between operations INIT's micro-step is its validation. -/
theorem exec_init_idle (hp : s.seq.pos = .idle) :
    exec (.init inst cfg nbr dbr txid rxid) s = .next (initStart inst cfg nbr s) := by
  simp only [exec, execInit, hp]

/-- Inside INIT the micro-step is the one its position names. -/
theorem exec_init_micro {p : InitPos} (hp : s.seq.pos = .init p) :
    exec (.init inst cfg nbr dbr txid rxid) s = initMicro cfg nbr rxid p s := by
  simp only [exec, execInit, hp]

theorem clockOf_eq (p : Config.Params) (clk : ClkSrc) :
    clockOf p clk = if clk = .bus then p.fClkBus else p.fClkOsc := by
  cases clk <;> rfl

/-- The invalid inputs of R124. -/
theorem initInvalid_iff {p : Config.Params} :
    initInvalid p inst cfg nbr = true ↔
      inst ≠ 0 ∨ cfg.rsvHigh ≠ 0 ∨ cfg.rsvLow ≠ 0 ∨ 100 < cfg.sp ∨
        (cfg.proto = .can20 ∧ timingFor p cfg.clk cfg.qpb cfg.sp nbr = none) := by
  simp only [initInvalid, Bool.or_eq_true, Bool.and_eq_true, decide_eq_true_eq,
    beq_iff_eq, Option.isNone_iff_eq_none, or_assoc]
  exact Iff.rfl

theorem initStart_badInstance (hi : inst ≠ 0) : initStart inst cfg nbr s = s.finish .notOk :=
  if_pos hi

theorem initStart_invalid (hi : inst = 0) (h : initInvalid s.params inst cfg nbr = true) :
    initStart inst cfg nbr s = s.startNotOk := by
  rw [initStart, if_neg (show ¬ inst ≠ Config.modelledInst from not_not_intro hi), if_pos h]

theorem initStart_valid (hi : inst = 0) (h : initInvalid s.params inst cfg nbr = false) :
    initStart inst cfg nbr s = s.start (.init .clearValid) := by
  rw [initStart, if_neg (show ¬ inst ≠ Config.modelledInst from not_not_intro hi),
    if_neg (Bool.eq_false_iff.mp h)]

end Sys2Proof.Machine

open Sys2Proof Sys2Proof.Machine

/-- Settles O41: the three branches of the validation, over the list of invalid inputs. -/
theorem initValidatesItsInput : Obligations.InitValidatesItsInput := by
  unfold Obligations.InitValidatesItsInput
  intro inst cfg nbr dbr txid rxid s bad hp hbad
  rw [← clockOf_eq, ← timingFor, ← initInvalid_iff] at hbad
  refine ⟨fun hi => ?_, fun hi hb => ?_, fun hb => ?_⟩
  · rw [exec_init_idle hp, initStart_badInstance hi]
  · rw [exec_init_idle hp, initStart_invalid hi (hbad.mp hb)]
    rfl
  · have hok := Bool.eq_false_iff.mpr (mt hbad.mpr hb)
    have hi : inst = 0 := by
      by_contra hi
      exact hb (hbad.mpr (initInvalid_iff.mpr (.inl hi)))
    rw [exec_init_idle hp, initStart_valid hi hok]

end

section
/-! PROOFS. INIT's field writes: the modes it requests (O42) and the configuration it sets (O43). -/

namespace Sys2Proof.Machine

/-! ## A field written in a word (R72) -/

section
variable {m n a b : Word} {i : Nat}

theorem getLsbD_mergeBits_inside (h : m.getLsbD i = true) :
    (mergeBits m a b).getLsbD i = b.getLsbD i := by
  rw [getLsbD_mergeBits, if_pos h]

theorem getLsbD_mergeBits_outside (h : m.getLsbD i = false) :
    (mergeBits m a b).getLsbD i = a.getLsbD i := by
  rw [getLsbD_mergeBits, if_neg (Bool.eq_false_iff.mp h)]

/-- The write of a one-bit field. -/
theorem getLsbD_mergeBits_flag {j : Nat} (hm : m = bitWord j) (hj : j < 32) (x : Bool) (i : Nat) :
    (mergeBits m a (flagAt x j)).getLsbD i = if i = j then x else a.getLsbD i := by
  rw [getLsbD_mergeBits, hm, getLsbD_bitWord, getLsbD_flagAt]
  by_cases h : i = j
  · simp [h, hj]
  · simp [h]

/-- Where the fields written lie inside the writable ones, the writable part of the write is all of it. -/
theorem mergeBits_within (h : m &&& ~~~n = 0#32) (a b : Word) :
    mergeBits n a (mergeBits m a b) = mergeBits m a b := by
  apply word_ext
  intro i hi
  rw [getLsbD_mergeBits n]
  split
  · rfl
  · rename_i hn
    have hm := congrArg (fun w : Word => w.getLsbD i) h
    simp only [BitVec.getLsbD_and, BitVec.getLsbD_not, hi, hn, BitVec.getLsbD_zero] at hm
    exact (getLsbD_mergeBits_outside (by simpa using hm)).symm

/-- Fields inside the writable ones of MCR touch no not-modelled bit. -/
theorem and_mcrNm_of_writable (h : m &&& ~~~mcrWritable = 0#32) : m &&& mcrNm = 0#32 := by
  have hnm : mcrNm = ~~~mcrWritable &&& mcrNm := by decide
  rw [hnm, ← BitVec.and_assoc, h, BitVec.zero_and]

/-- The fields of MCR after a field write (R28): the acknowledge bits and the not-modelled bits stay. -/
theorem mcrIs_mergeBits (h : m &&& ~~~mcrWritable = 0#32) {md fz hl fd : Bool} {mx : Nat}
    (hmd : mdis (mergeBits m a b) = md) (hfz : frz (mergeBits m a b) = fz)
    (hhl : halt (mergeBits m a b) = hl) (hfd : fdEn (mergeBits m a b) = fd)
    (hmx : maxMb (mergeBits m a b) = mx) : McrIs (mergeBits m a b) a md fz hl fd mx := by
  have h' := mcrIs_field a m b hmd hfz hhl hfd hmx
  rwa [mergeBits_within h] at h'

/-- Words whose bits of a field agree have the same number in it. -/
theorem bits_congr {hi lo : Nat} (hlh : lo ≤ hi) (h : ∀ i, lo ≤ i → i ≤ hi → a.getLsbD i = b.getLsbD i) :
    bits a hi lo = bits b hi lo := by
  unfold bits
  apply Nat.eq_of_testBit_eq
  intro i
  rw [Nat.testBit_mod_two_pow, Nat.testBit_mod_two_pow, Nat.testBit_div_two_pow,
    Nat.testBit_div_two_pow]
  by_cases hi' : i < hi - lo + 1
  · have := h (lo + i) (by omega) (by omega)
    simp only [BitVec.getLsbD] at this
    simp [hi', Nat.add_comm i, this]
  · simp [hi']

/-- The freeze fields of FDCTRL cover MBDSR0 (R32). -/
theorem getLsbD_fdctrlFreeze (hlo : 16 ≤ i) (hhi : i ≤ 17) : fdctrlFreeze.getLsbD i = true := by
  obtain rfl | rfl : i = 16 ∨ i = 17 := by omega
  all_goals decide

end

/-! ## The two micro-steps of a field write of INIT -/

section
variable {s : State} {inst : Nat} {cfg : Cfg} {nbr dbr txid rxid : Word} {mask v : Word}
  {next : InitPos}

theorem runExec_mcrField (here : Option Word → InitPos) (hp : s.seq.pos = .init (here none))
    (hm : ∀ x u, initMicro cfg nbr rxid (here x) u = initField offMcr mask v x here next u)
    (hmask : mask &&& ~~~mcrWritable = 0#32)
    (hf : frzAck s.mcr = true ∨ mask &&& mcrFreeze = 0#32) :
    runExec (.init inst cfg nbr dbr txid rxid) 2 s =
      .next ({ s with mcr := mergeBits mask s.mcr v }.goto (.init next)) := by
  have hw := regWrite_mcrField (s := s.goto (.init (here (some s.mcr)))) (v := v)
    (and_mcrNm_of_writable hmask) hf
  rw [mergeBits_within hmask] at hw
  exact (runExec_field ((exec_init_micro hp).trans (hm _ _)) (regRead_mcr s)
    ((exec_init_micro rfl).trans (hm _ _)) hw).trans rfl

theorem runExec_ctrl1Field (here : Option Word → InitPos) (hp : s.seq.pos = .init (here none))
    (hm : ∀ x u, initMicro cfg nbr rxid (here x) u = initField offCtrl1 mask v x here next u)
    (hmask : mask &&& ctrl1Nm = 0#32) (hf : frzAck s.mcr = true ∨ mask.getLsbD 12 = false)
    (hl : lpmAck s.mcr = true ∨ mask.getLsbD 13 = false) :
    runExec (.init inst cfg nbr dbr txid rxid) 2 s =
      .next ({ s with ctrl1 := mergeBits mask s.ctrl1 v }.goto (.init next)) :=
  (runExec_field ((exec_init_micro hp).trans (hm _ _)) (regRead_ctrl1 s)
    ((exec_init_micro rfl).trans (hm _ _))
    (regWrite_ctrl1 (mergeBits_and_of_disjoint _ _ hmask) (hf.imp_right getLsbD_mergeBits_outside)
      (hl.imp_right getLsbD_mergeBits_outside))).trans rfl

theorem runExec_fdctrlField (here : Option Word → InitPos) (hp : s.seq.pos = .init (here none))
    (hm : ∀ x u, initMicro cfg nbr rxid (here x) u = initField offFdctrl mask v x here next u)
    (hmask : mask &&& fdctrlNm = 0#32) (hf : frzAck s.mcr = true) :
    runExec (.init inst cfg nbr dbr txid rxid) 2 s =
      .next ({ s with fdctrl := mergeBits mask s.fdctrl v }.goto (.init next)) :=
  (runExec_field ((exec_init_micro hp).trans (hm _ _)) (regRead_fdctrl s)
    ((exec_init_micro rfl).trans (hm _ _))
    (regWrite_fdctrl (mergeBits_and_of_disjoint _ _ hmask) (.inl hf))).trans rfl

end

/-! ## The fields of MCR after INIT's writes (R125, R128, R131, R133, R141) -/

/-- MDIS <- 1, the other fields kept. -/
theorem mcrIs_disable (old : Word) :
    McrIs (mergeBits mdisMask old (flagAt true 31)) old true (frz old) (halt old) (fdEn old)
      (maxMb old) :=
  mcrIs_mergeBits (by decide) (getLsbD_mergeBits_inside (by decide))
    (getLsbD_mergeBits_outside (by decide)) (getLsbD_mergeBits_outside (by decide))
    (getLsbD_mergeBits_outside (by decide)) (maxMb_mergeBits (by decide))

/-- MDIS <- 0, FRZ <- 1, HALT <- 1, the other fields kept. -/
theorem mcrIs_enable (old : Word) :
    McrIs (mergeBits (mdisMask ||| frzHaltMask) old frzHaltMask) old false true true (fdEn old)
      (maxMb old) :=
  mcrIs_mergeBits (by decide) (getLsbD_mergeBits_inside (by decide))
    (getLsbD_mergeBits_inside (by decide)) (getLsbD_mergeBits_inside (by decide))
    (getLsbD_mergeBits_outside (by decide)) (maxMb_mergeBits (by decide))

/-- FRZ <- 0, HALT <- 0, the other fields kept. -/
theorem mcrIs_exitFreeze (old : Word) :
    McrIs (mergeBits frzHaltMask old 0#32) old (mdis old) false false (fdEn old) (maxMb old) :=
  mcrIs_mergeBits (by decide) (getLsbD_mergeBits_outside (by decide))
    (getLsbD_mergeBits_inside (by decide)) (getLsbD_mergeBits_inside (by decide))
    (getLsbD_mergeBits_outside (by decide)) (maxMb_mergeBits (by decide))

/-- FDEN <- PROTO, the other fields kept. -/
theorem mcrIs_fdEn (old : Word) (cfg : Cfg) :
    McrIs (mergeBits (fieldMask 11 11) old (fdEnValue cfg)) old (mdis old) (frz old) (halt old)
      (decide (cfg.proto = .canFd)) (maxMb old) := by
  refine mcrIs_mergeBits (by decide) (getLsbD_mergeBits_outside (by decide))
    (getLsbD_mergeBits_outside (by decide)) (getLsbD_mergeBits_outside (by decide))
    ((getLsbD_mergeBits_inside (by decide)).trans ?_) (maxMb_mergeBits (by decide))
  rw [fdEnValue]
  cases cfg.proto <;> decide

/-- MAXMB <- N - 1, the other fields kept. -/
theorem mcrIs_maxMb (old : Word) (c : PClass) :
    McrIs (mergeBits (fieldMask 6 0) old (BitVec.ofNat 32 (poolSize c - 1))) old (mdis old) (frz old)
      (halt old) (fdEn old) (poolSize c - 1) := by
  refine mcrIs_mergeBits (by decide) (getLsbD_mergeBits_outside (by decide))
    (getLsbD_mergeBits_outside (by decide)) (getLsbD_mergeBits_outside (by decide))
    (getLsbD_mergeBits_outside (by decide)) ?_
  have hmask : ∀ j : Fin 7, (fieldMask 6 0).getLsbD j.val = true := by decide
  rw [maxMb_congr fun i hi => getLsbD_mergeBits_inside (hmask ⟨i, by omega⟩)]
  cases c <;> decide

/-! ## The lines of INIT that write MCR, CTRL1 and FDCTRL -/

section
variable {s : State} {inst : Nat} {cfg : Cfg} {nbr dbr txid rxid : Word}

/-- Line 1 (R125). -/
theorem runExec_disable (hp : s.seq.pos = .init .clearValid) :
    ∃ m, runExec (.init inst cfg nbr dbr txid rxid) 3 s =
        .next ({ s with mcr := m, sess := { s.sess with valid := false } }.goto
          (.init .pollDisabled)) ∧
      McrIs m s.mcr true (frz s.mcr) (halt s.mcr) (fdEn s.mcr) (maxMb s.mcr) := by
  refine ⟨_, ?_, mcrIs_disable s.mcr⟩
  rw [runExec_step 2 (exec_init_micro hp)]
  exact runExec_mcrField .disable rfl (fun _ _ => rfl) (by decide) (.inr (by decide))

/-- Line 3 (R127). -/
theorem runExec_clkSrc (hp : s.seq.pos = .init (.clkSrc none)) (hl : lpmAck s.mcr = true) :
    ∃ w, runExec (.init inst cfg nbr dbr txid rxid) 2 s =
        .next ({ s with ctrl1 := w }.goto (.init (.enable none))) ∧
      ∀ b, w.getLsbD b = if b = 13 then decide (cfg.clk = .bus) else s.ctrl1.getLsbD b :=
  ⟨_, runExec_ctrl1Field .clkSrc hp (fun _ _ => rfl) (by decide) (.inr (by decide)) (.inl hl),
    getLsbD_mergeBits_flag (by decide) (by decide) _⟩

/-- Line 4 (R128). -/
theorem runExec_enable (hp : s.seq.pos = .init (.enable none)) :
    ∃ m, runExec (.init inst cfg nbr dbr txid rxid) 2 s =
        .next ({ s with mcr := m }.goto (.init .pollEnabled)) ∧
      McrIs m s.mcr false true true (fdEn s.mcr) (maxMb s.mcr) :=
  ⟨_, runExec_mcrField .enable hp (fun _ _ => rfl) (by decide) (.inr (by decide)), mcrIs_enable s.mcr⟩

/-- Line 7, its first field write (R131, R133). -/
theorem runExec_fdEn (hp : s.seq.pos = .init (.fdEn none)) (hf : frzAck s.mcr = true) :
    ∃ m, runExec (.init inst cfg nbr dbr txid rxid) 2 s =
        .next ({ s with mcr := m }.goto
          (.init (if cfg.proto = Proto.canFd then .fdCtrl none else .session))) ∧
      McrIs m s.mcr (mdis s.mcr) (frz s.mcr) (halt s.mcr) (decide (cfg.proto = Proto.canFd))
        (maxMb s.mcr) := by
  refine ⟨_, runExec_mcrField .fdEn hp (fun _ _ => ?_) (by decide) (.inl hf), mcrIs_fdEn s.mcr cfg⟩
  rw [initMicro]
  cases cfg.proto <;> rfl

/-- Line 7, its second field write (R131). -/
theorem runExec_fdCtrl (hp : s.seq.pos = .init (.fdCtrl none)) (hf : frzAck s.mcr = true) :
    ∃ w, runExec (.init inst cfg nbr dbr txid rxid) 2 s =
        .next ({ s with fdctrl := w }.goto (.init .session)) ∧
      w.getLsbD 31 = cfg.brs ∧ pclassOfBits (bits w 17 16) = cfg.pclass ∧
      w &&& fdctrlNm = s.fdctrl &&& fdctrlNm := by
  refine ⟨_, runExec_fdctrlField .fdCtrl hp (fun _ _ => rfl) (by decide) hf,
    (getLsbD_mergeBits_inside (by decide)).trans ?_, ?_, mergeBits_and_of_disjoint _ _ (by decide)⟩
  · rw [fdctrlValue]
    cases cfg.brs <;> cases cfg.pclass <;> decide
  · rw [bits_congr (by decide) fun i hi hi' => getLsbD_mergeBits_inside (getLsbD_fdctrlFreeze hi hi'),
      fdctrlValue]
    cases cfg.brs <;> cases cfg.pclass <;> decide

/-- Line 8 (R132). -/
theorem runExec_session (hp : s.seq.pos = .init .session) (hf : frzAck s.mcr = true) :
    ∃ m, runExec (.init inst cfg nbr dbr txid rxid) 3 s =
        .next ({ s with
                  mcr := m
                  sess := { s.sess with cls := some (initClass cfg), idType := some cfg.idt } }.goto
          (.init .timingMcr)) ∧
      McrIs m s.mcr (mdis s.mcr) (frz s.mcr) (halt s.mcr) (fdEn s.mcr)
        (poolSize (initClass cfg) - 1) := by
  refine ⟨_, ?_, mcrIs_maxMb s.mcr (initClass cfg)⟩
  rw [runExec_step 2 (exec_init_micro hp)]
  exact runExec_mcrField .maxMb rfl (fun _ _ => rfl) (by decide) (.inl hf)

/-- Line 15 (R140). -/
theorem runExec_loopBack (hp : s.seq.pos = .init (.loopBack none)) (hf : frzAck s.mcr = true) :
    ∃ w, runExec (.init inst cfg nbr dbr txid rxid) 2 s =
        .next ({ s with ctrl1 := w }.goto (.init (.exitFreeze none))) ∧
      ∀ b, w.getLsbD b = if b = 12 then decide (cfg.mode = .loopBack) else s.ctrl1.getLsbD b :=
  ⟨_, runExec_ctrl1Field .loopBack hp (fun _ _ => rfl) (by decide) (.inl hf) (.inr (by decide)),
    getLsbD_mergeBits_flag (by decide) (by decide) _⟩

/-- Line 16 (R141). -/
theorem runExec_exitFreeze (hp : s.seq.pos = .init (.exitFreeze none)) :
    ∃ m, runExec (.init inst cfg nbr dbr txid rxid) 2 s =
        .next ({ s with mcr := m }.goto (.init .pollUnfrozen)) ∧
      McrIs m s.mcr (mdis s.mcr) false false (fdEn s.mcr) (maxMb s.mcr) :=
  ⟨_, runExec_mcrField .exitFreeze hp (fun _ _ => rfl) (by decide) (.inr (by decide)),
    mcrIs_exitFreeze s.mcr⟩

/-- The first item of the timeout rule (R144). -/
theorem runExec_timeoutDisable (hp : s.seq.pos = .init (.timeoutDisable none)) :
    ∃ m, runExec (.init inst cfg nbr dbr txid rxid) 2 s =
        .next ({ s with mcr := m }.goto (.init .timeoutFinish)) ∧
      McrIs m s.mcr true (frz s.mcr) (halt s.mcr) (fdEn s.mcr) (maxMb s.mcr) :=
  ⟨_, runExec_mcrField .timeoutDisable hp (fun _ _ => rfl) (by decide) (.inr (by decide)),
    mcrIs_disable s.mcr⟩

end
end Sys2Proof.Machine

open Sys2Proof Sys2Proof.Machine

/-- Settles O42: the field writes of lines 1, 4 and 16 and of the timeout rule. -/
theorem initRequestsModes : Obligations.InitRequestsModes := by
  unfold Obligations.InitRequestsModes
  rintro inst cfg nbr dbr txid rxid s i rfl
  exact ⟨runExec_disable, runExec_enable, runExec_exitFreeze, runExec_timeoutDisable⟩

/-- Settles O43: the field writes of lines 3, 7, 8 and 15, each inside its window. -/
theorem initSetsConfiguration : Obligations.InitSetsConfiguration := by
  unfold Obligations.InitSetsConfiguration
  rintro inst cfg nbr dbr txid rxid s i c rfl hc
  obtain rfl : c = initClass cfg := hc
  exact ⟨runExec_clkSrc, runExec_fdEn, runExec_fdCtrl, runExec_session, runExec_loopBack⟩

end

section
/-! PROOFS. INIT's polls and its ends (O44), and its bit-timing step (O45). -/

namespace Sys2Proof.Machine

variable {s : State} {inst : Nat} {cfg : Cfg} {nbr dbr txid rxid : Word}

/-- A run inside INIT starts with the micro-step of its position. -/
theorem runExec_init_step {p : InitPos} {t : State} (n : Nat) (hp : s.seq.pos = .init p)
    (h : initMicro cfg nbr rxid p s = .next t) :
    runExec (.init inst cfg nbr dbr txid rxid) (n + 1) s =
      runExec (.init inst cfg nbr dbr txid rxid) n t :=
  runExec_step n ((exec_init_micro hp).trans h)

/-! ## One attempt of a poll (R226) -/

section
variable {c : Word → Bool} {p q : InitPos}

theorem initPoll_done (q : InitPos) (h : c s.mcr = true) :
    initPoll c q s = .next (s.start (.init q)) := by
  rw [initPoll, pollStep, regRead_mcr, tryDo_ok, if_pos h]
  rfl

/-- A failed attempt under a limit counts, and the last one leads to the timeout rule (R144). -/
theorem initPoll_counts {n : Nat} (hp : s.seq.pos = .init p) (h : c s.mcr = false)
    (hl : s.params.pollLimit = some n) :
    initPoll c q s =
      .next
        { s with
          seq :=
            { s.seq with
              attempts := s.seq.attempts + 1
              pos :=
                if s.seq.attempts + 1 = n then .init (.timeoutDisable none)
                else .init p } } := by
  rw [initPoll, pollStep, regRead_mcr, tryDo_ok, if_neg (Bool.eq_false_iff.mp h), State.pollFailed, hl]
  dsimp only
  split
  · rfl
  · rw [← hp]

end

/-- The five polls of INIT (R126, R129, R130, R142, R143): from line `p` they go on to line `q` when `c`. -/
theorem initMicro_poll {p q : InitPos} {c : Bool}
    (h : (p, q, c) ∈
      [(.pollDisabled, .clkSrc none, lpmAck s.mcr), (.pollEnabled, .pollFrozen, !lpmAck s.mcr),
        (.pollFrozen, .fdEn none, frzAck s.mcr), (.pollUnfrozen, .pollReady, !frzAck s.mcr),
        (.pollReady, .complete, !notRdy s.mcr)]) :
    ∃ cond : Word → Bool, initMicro cfg nbr rxid p s = initPoll cond q s ∧ cond s.mcr = c := by
  simp only [List.mem_cons, Prod.mk.injEq, List.not_mem_nil, or_false] at h
  obtain ⟨rfl, rfl, rfl⟩ | ⟨rfl, rfl, rfl⟩ | ⟨rfl, rfl, rfl⟩ | ⟨rfl, rfl, rfl⟩ | ⟨rfl, rfl, rfl⟩ := h
  all_goals exact ⟨_, rfl, rfl⟩

/-! ## The bit-timing step (R114, R115, R135) -/

theorem initMicro_timingMcr :
    initMicro cfg nbr rxid .timingMcr s =
      .next (s.goto (.init (if fdEn s.mcr then .timingFdCbt else .timingCtrl1))) := by
  rw [initMicro, regRead_mcr, tryDo_ok]

theorem initMicro_timingFdCbt (hf : frzAck s.mcr = true) :
    initMicro cfg nbr rxid .timingFdCbt s =
      .next ({ s with cbt := s.params.fdCbtWord }.goto (.init .timingFdFdcbt)) := by
  rw [initMicro, writeStep, regWrite_cbt (.inl hf), tryDo_ok]

theorem initMicro_timingFdFdcbt (hf : frzAck s.mcr = true)
    (hn : s.params.fdFdcbtWord &&& fdcbtNm = s.fdcbt &&& fdcbtNm) :
    initMicro cfg nbr rxid .timingFdFdcbt s =
      .next ({ s with fdcbt := s.params.fdFdcbtWord }.goto (.init (.zeroRam 0))) := by
  rw [initMicro, writeStep, regWrite_fdcbt hn (.inl hf), tryDo_ok]

theorem initMicro_timingCtrl1 {r : Timing}
    (h : timingFor s.params (clkSrcOf s.ctrl1) cfg.qpb cfg.sp nbr = some r) :
    initMicro cfg nbr rxid .timingCtrl1 s = .next (s.goto (.init (.timingCbt r))) := by
  rw [initMicro, regRead_ctrl1, tryDo_ok, h]

theorem initMicro_timingCbt (r : Timing) (hf : frzAck s.mcr = true) :
    initMicro cfg nbr rxid (.timingCbt r) s =
      .next ({ s with cbt := cbtWord r }.goto (.init (.zeroRam 0))) := by
  rw [initMicro, writeStep, regWrite_cbt (.inl hf), tryDo_ok]

/-- Line 9 with FDEN = 1. -/
theorem runExec_timingLiterals (hp : s.seq.pos = .init .timingMcr) (hf : frzAck s.mcr = true)
    (hfd : fdEn s.mcr = true) (hn : s.params.fdFdcbtWord &&& fdcbtNm = s.fdcbt &&& fdcbtNm) :
    runExec (.init inst cfg nbr dbr txid rxid) 3 s =
      .next ({ s with cbt := s.params.fdCbtWord, fdcbt := s.params.fdFdcbtWord }.goto
        (.init (.zeroRam 0))) := by
  rw [runExec_init_step 2 hp initMicro_timingMcr, if_pos hfd,
    runExec_init_step 1 (State.goto_pos s _) (initMicro_timingFdCbt hf)]
  exact runExec_init_step 0 rfl (initMicro_timingFdFdcbt hf hn)

/-- Line 9 with FDEN = 0. -/
theorem runExec_timingCalculated {r : Timing} (hp : s.seq.pos = .init .timingMcr)
    (hf : frzAck s.mcr = true) (hfd : fdEn s.mcr = false)
    (ht : timingFor s.params (clkSrcOf s.ctrl1) cfg.qpb cfg.sp nbr = some r) :
    runExec (.init inst cfg nbr dbr txid rxid) 3 s =
      .next ({ s with cbt := cbtWord r }.goto (.init (.zeroRam 0))) := by
  rw [runExec_init_step 2 hp initMicro_timingMcr, if_neg (Bool.eq_false_iff.mp hfd),
    runExec_init_step 1 (State.goto_pos s _) (initMicro_timingCtrl1 ht)]
  exact runExec_init_step 0 rfl (initMicro_timingCbt r hf)

end Sys2Proof.Machine

open Sys2Proof Sys2Proof.Machine

/-- Settles O44: every poll is an attempt on MCR; the two ends are single micro-steps. -/
theorem initWaitsAndFinishes : Obligations.InitWaitsAndFinishes := by
  unfold Obligations.InitWaitsAndFinishes
  rintro inst cfg nbr dbr txid rxid s i rfl
  refine ⟨fun p q c hp h => ?_, fun hp => exec_init_micro hp, fun hp => exec_init_micro hp⟩
  obtain ⟨cond, hmicro, rfl⟩ := initMicro_poll (cfg := cfg) (nbr := nbr) (rxid := rxid) h
  rw [exec_init_micro hp, hmicro]
  exact ⟨initPoll_done q, fun hc hl => pollStep_fails hl (regRead_mcr s) hc,
    fun n hc hl => initPoll_counts hp hc hl⟩

/-- Settles O45: the literals, or the word of the timing calculated for the clock of CTRL1. -/
theorem initWritesTiming : Obligations.InitWritesTiming := by
  unfold Obligations.InitWritesTiming
  rintro inst cfg nbr dbr txid rxid s i rfl hp hf
  refine ⟨runExec_timingLiterals hp hf, fun r hfd ht => ?_⟩
  rw [← timingFor_clkSrcOf] at ht
  exact runExec_timingCalculated hp hf hfd ht

end

section
/-! PROOFS. INIT's loops over the RAM, the masks and the tags (O46, O47). -/

namespace Sys2Proof.Machine

/-! ## A loop that fills cells -/

/-- `m` is `m₀` after the first `k` writes of a loop that writes `val i` at the key `idx i`. -/
structure Filled (m₀ : WordCells) (idx : Nat → Nat) (val : Nat → Word) (k : Nat) (m : WordCells) :
    Prop where
  written : ∀ i, i < k → cellRead m (idx i) = some (val i)
  kept : ∀ a, (∀ i, i < k → a ≠ idx i) → cellRead m a = cellRead m₀ a

theorem filled_zero (m₀ : WordCells) (idx : Nat → Nat) (val : Nat → Word) : Filled m₀ idx val 0 m₀ :=
  ⟨fun _ h => absurd h (Nat.not_lt_zero _), fun _ _ => rfl⟩

/-- The next write of the loop, where no key comes twice. -/
theorem Filled.succ {m₀ m : WordCells} {idx : Nat → Nat} {val : Nat → Word} {k : Nat}
    (h : Filled m₀ idx val k m) (hidx : Function.Injective idx) :
    Filled m₀ idx val (k + 1) (cellWrite m (idx k) (val k)) := by
  refine ⟨fun i hi => ?_, fun a ha => ?_⟩
  · by_cases hik : i = k
    · rw [hik, cellRead_cellWrite_same]
    · rw [cellRead_cellWrite_other _ _ (hidx.ne hik), h.written i (by omega)]
  · rw [cellRead_cellWrite_other _ _ (ha k (by omega)), h.kept a fun i hi => ha i (by omega)]

theorem csIndex_injective (c : PClass) : Function.Injective (csIndex c) := fun i j h => by
  rw [← csIndex_div (c := c) i, h, csIndex_div]

/-- The position before element `k` of one of INIT's loops over `0 .. n-1`, or after the loop. -/
def loopPos (n : Nat) (again : Nat → InitPos) (after : InitPos) (k : Nat) : InitPos :=
  if k < n then again k else after

theorem initNext_eq (i n : Nat) (again : Nat → InitPos) (after : InitPos) :
    initNext i n again after = .init (loopPos n again after (i + 1)) := rfl

variable {s u : State} {inst : Nat} {cfg : Cfg} {nbr dbr txid rxid : Word}

theorem goto_of_pos {p : Pos} (h : s.seq.pos = p) : s.goto p = s := by rw [← h]; rfl

/-! ## The RAM words (R136) -/

/-- A RAM word written in freeze is stored; only the requests may change too. -/
theorem regWrite_ram_frozen {k : Nat} {v : Word} (hk : k < Config.ramWords) (hl : lpmAck s.mcr = false)
    (hf : frzAck s.mcr = true) (hd : codeDefined (codeOf v) = true) :
    ∃ pend, regWrite (offRam k) v s = .ok { s with ram := cellWrite s.ram k v, txPending := pend } := by
  rw [regWrite_ram v hk hl]
  by_cases hi : k / bufWords (hwClass s) < poolSize (hwClass s)
  · by_cases hcs : k = csIndex (hwClass s) (k / bufWords (hwClass s))
    · exact ⟨_, writeRam_cs rfl hi (hostOwns_of_frozen _ hf) hcs hd⟩
    · exact ⟨_, writeRam_other rfl hi (hostOwns_of_frozen _ hf) hcs⟩
  · exact ⟨_, writeRam_beyond rfl (Nat.le_of_not_lt hi)⟩

/-- `u` is `s` with line 10 done for the words below `k`. -/
structure RamZeroed (s : State) (k : Nat) (u : State) : Prop where
  rest : u = { s with ram := u.ram, txPending := u.txPending }.goto (.init (.zeroRam k))
  ram : Filled s.ram id (fun _ => 0#32) k u.ram

/-- One write of line 10: the word is stored, and the sequencer and the requests change at most. -/
theorem RamZeroed.write {k : Nat} (h : RamZeroed s k u) (hk : k < Config.ramWords)
    (hl : lpmAck s.mcr = false) (hf : frzAck s.mcr = true) :
    ∃ v, regWrite (offRam k) 0#32 u = .ok v ∧
      v = { s with ram := v.ram, txPending := v.txPending }.goto (.init (.zeroRam k)) ∧
      Filled s.ram id (fun _ => 0#32) (k + 1) v.ram := by
  have hmcr : u.mcr = s.mcr := by rw [h.rest]; rfl
  rw [← hmcr] at hl hf
  obtain ⟨pend, hw⟩ := regWrite_ram_frozen (v := 0#32) hk hl hf (by decide)
  refine ⟨_, hw, ?_, h.ram.succ Function.injective_id⟩
  rw [h.rest]
  rfl

theorem RamZeroed.next {k : Nat} (h : RamZeroed s k u) (hk : k + 1 < Config.ramWords)
    (hl : lpmAck s.mcr = false) (hf : frzAck s.mcr = true) :
    ∃ v, exec (.init inst cfg nbr dbr txid rxid) u = .next v ∧ RamZeroed s (k + 1) v := by
  obtain ⟨v, hw, hrest, hram⟩ := h.write (by omega) hl hf
  have hpos : u.seq.pos = .init (.zeroRam k) := by rw [h.rest]; rfl
  refine ⟨v.goto (.init (.zeroRam (k + 1))), ?_, by rw [hrest]; rfl, hram⟩
  rw [exec_init_micro hpos, initMicro, if_pos hk, writeStep, hw, tryDo_ok]

/-- Line 10 (R136, R146). -/
theorem runExec_zeroRam (hp : s.seq.pos = .init (.zeroRam 0)) (hf : frzAck s.mcr = true)
    (hl : lpmAck s.mcr = false) :
    ∃ ram, runExec (.init inst cfg nbr dbr txid rxid) 128 s =
        .next ({ s with ram := ram, txPending := 0#32 }.goto (.init (.mask 0))) ∧
      Filled s.ram id (fun _ => 0#32) 128 ram := by
  obtain ⟨u, hrun, hu⟩ := runExec_inv (i := .init inst cfg nbr dbr txid rxid) (RamZeroed s) 127 s
    ⟨(goto_of_pos hp).symm, filled_zero ..⟩ fun k u hk h => h.next (Nat.succ_lt_succ hk) hl hf
  obtain ⟨v, hw, hrest, hram⟩ := hu.write (by decide) hl hf
  have hpos : u.seq.pos = .init (.zeroRam 127) := by rw [hu.rest]; rfl
  refine ⟨v.ram, ?_, hram⟩
  rw [runExec_add 1 hrun]
  apply runExec_one
  rw [exec_init_micro hpos, initMicro, if_neg (by decide), hw, tryDo_ok, hrest]
  rfl

/-! ## The receive masks (R137) -/

/-- `u` is `s` with line 11 done for the masks below `k`. -/
structure MasksOpened (s : State) (n k : Nat) (u : State) : Prop where
  rest : u = { s with rximr := u.rximr }.goto (.init (loopPos n .mask (.tag 0) k))
  rximr : Filled s.rximr id (fun _ => 0#32) k u.rximr

theorem regWrite_rximr_frozen {i : Nat} (v : Word) (hi : i < Config.mbMax) (hl : lpmAck s.mcr = false)
    (hf : frzAck s.mcr = true) :
    regWrite (offRximr i) v s = .ok { s with rximr := cellWrite s.rximr i v } := by
  rw [regWrite_rximr v hi hl, writeRximr, hf, Bool.true_or, check_true, thenDo_ok]

theorem MasksOpened.next {k : Nat} (h : MasksOpened s (poolSize (initClass cfg)) k u)
    (hk : k < poolSize (initClass cfg)) (hl : lpmAck s.mcr = false) (hf : frzAck s.mcr = true) :
    ∃ v, exec (.init inst cfg nbr dbr txid rxid) u = .next v ∧
      MasksOpened s (poolSize (initClass cfg)) (k + 1) v := by
  have hmcr : u.mcr = s.mcr := by rw [h.rest]; rfl
  have hpos : u.seq.pos = .init (.mask k) := by rw [h.rest, loopPos, if_pos hk]; rfl
  rw [← hmcr] at hl hf
  refine ⟨{ u with rximr := cellWrite u.rximr k 0#32 }.goto
    (.init (loopPos (poolSize (initClass cfg)) .mask (.tag 0) (k + 1))), ?_, by rw [h.rest]; rfl,
    h.rximr.succ Function.injective_id⟩
  rw [exec_init_micro hpos, initMicro, writeStep,
    regWrite_rximr_frozen _ (hk.trans_le (poolSize_le _)) hl hf, tryDo_ok, initNext_eq]
  rfl

/-- Line 11 (R137). -/
theorem runExec_mask (hp : s.seq.pos = .init (.mask 0)) (hf : frzAck s.mcr = true)
    (hl : lpmAck s.mcr = false) :
    ∃ rximr, runExec (.init inst cfg nbr dbr txid rxid) (poolSize (initClass cfg)) s =
        .next ({ s with rximr := rximr }.goto (.init (.tag 0))) ∧
      Filled s.rximr id (fun _ => 0#32) (poolSize (initClass cfg)) rximr := by
  have hstart : MasksOpened s (poolSize (initClass cfg)) 0 s := by
    refine ⟨?_, filled_zero ..⟩
    rw [loopPos, if_pos (poolSize_pos _)]
    exact (goto_of_pos hp).symm
  obtain ⟨t, hrun, ht⟩ := runExec_inv (i := .init inst cfg nbr dbr txid rxid) _ _ s hstart
    fun k u hk h => h.next hk hl hf
  have hrest := ht.rest
  rw [loopPos, if_neg (Nat.lt_irrefl _)] at hrest
  exact ⟨t.rximr, hrun.trans (congrArg _ hrest), ht.rximr⟩

/-! ## The tags (R138) -/

/-- `u` is `s` with line 12 done for the buffers below `k`. -/
structure PoolTagged (s : State) (c : PClass) (k : Nat) (u : State) : Prop where
  rest : u = { s with ram := u.ram, txPending := u.txPending }.goto
    (.init (loopPos (poolSize c) .tag (.findTag 0) k))
  ram : Filled s.ram (csIndex c) (tagOf c) k u.ram
  txPending : ∀ b, u.txPending.getLsbD b = (s.txPending.getLsbD b && decide (k ≤ b))

theorem tagOf_rx {c : PClass} {i : Nat} (h : i < poolSize c / 2) : tagOf c i = 0x04000000#32 := if_pos h

theorem tagOf_tx {c : PClass} {i : Nat} (h : poolSize c / 2 ≤ i) : tagOf c i = 0x08000000#32 :=
  if_neg (Nat.not_lt_of_le h)

theorem codeDefined_tagOf (c : PClass) (i : Nat) : codeDefined (codeOf (tagOf c i)) = true := by
  rw [tagOf]
  split <;> decide

theorem PoolTagged.next {k : Nat} (h : PoolTagged s (initClass cfg) k u)
    (hk : k < poolSize (initClass cfg)) (hc : hwClass s = initClass cfg) (hl : lpmAck s.mcr = false)
    (hf : frzAck s.mcr = true) :
    ∃ v, exec (.init inst cfg nbr dbr txid rxid) u = .next v ∧
      PoolTagged s (initClass cfg) (k + 1) v := by
  have hmcr : u.mcr = s.mcr := by rw [h.rest]; rfl
  have hclass : hwClass u = initClass cfg := by rw [h.rest]; exact hc
  have hpos : u.seq.pos = .init (.tag k) := by rw [h.rest, loopPos, if_pos hk]; rfl
  rw [← hmcr] at hl hf
  have hw := regWrite_csWord (tagOf (initClass cfg) k) hclass hl hk (hostOwns_of_frozen k hf)
    (codeDefined_tagOf _ k)
  refine ⟨State.goto
    { u with
      ram := cellWrite u.ram (csIndex (initClass cfg) k) (tagOf (initClass cfg) k)
      txPending := clearBit u.txPending k }
    (.init (loopPos (poolSize (initClass cfg)) .tag (.findTag 0) (k + 1))), ?_, by rw [h.rest]; rfl,
    h.ram.succ (csIndex_injective _), fun b => ?_⟩
  · rw [exec_init_micro hpos, initMicro, writeStep, hw, tryDo_ok, initNext_eq]
  · rw [State.goto_txPending, getLsbD_clearBit, h.txPending, Bool.and_assoc]
    congr 1
    by_cases hb : k + 1 ≤ b
    · simp [hb]; omega
    · simp [hb]; omega

/-- Line 12 (R138). -/
theorem runExec_tag (hp : s.seq.pos = .init (.tag 0)) (hc : hwClass s = initClass cfg)
    (hf : frzAck s.mcr = true) (hl : lpmAck s.mcr = false) :
    ∃ ram pend, runExec (.init inst cfg nbr dbr txid rxid) (poolSize (initClass cfg)) s =
        .next ({ s with ram := ram, txPending := pend }.goto (.init (.findTag 0))) ∧
      Filled s.ram (csIndex (initClass cfg)) (tagOf (initClass cfg)) (poolSize (initClass cfg)) ram ∧
      ∀ b, pend.getLsbD b =
        (s.txPending.getLsbD b && decide (poolSize (initClass cfg) ≤ b)) := by
  have hstart : PoolTagged s (initClass cfg) 0 s := by
    refine ⟨?_, filled_zero .., fun b => by simp⟩
    rw [loopPos, if_pos (poolSize_pos _)]
    exact (goto_of_pos hp).symm
  obtain ⟨t, hrun, ht⟩ := runExec_inv (i := .init inst cfg nbr dbr txid rxid) _ _ s hstart
    fun k u hk h => h.next hk hc hl hf
  have hrest := ht.rest
  rw [loopPos, if_neg (Nat.lt_irrefl _)] at hrest
  exact ⟨t.ram, t.txPending, hrun.trans (congrArg _ hrest), ht.ram, ht.txPending⟩

/-! ## The receive identifier (R139) -/

theorem csIndex_zero (c : PClass) : csIndex c 0 = 0 := Nat.zero_mul _

/-- Lines 13 and 14 (R139), from the tagged pool. -/
theorem runExec_rxId (hp : s.seq.pos = .init (.findTag 0)) (hc : hwClass s = initClass cfg)
    (hf : frzAck s.mcr = true) (hl : lpmAck s.mcr = false) (htag : cellRead s.ram 0 = some tagRxEmpty) :
    runExec (.init inst cfg nbr dbr txid rxid) 2 s =
      .next ({ s with ram := cellWrite s.ram 1 (rxIdWord cfg.idt rxid) }.goto
        (.init (.loopBack none))) := by
  have hfind : initMicro cfg nbr rxid (.findTag 0) s = .next (s.goto (.init (.rxId 0))) := by
    rw [initMicro, csIndex_zero, regRead_ram s (by decide) hl, htag, needed_some, tryDo_ok, if_pos rfl]
  have hw := regWrite_bufferWord (s := s.goto (.init (.rxId 0))) (m := 1) (rxIdWord cfg.idt rxid) hc hl
    (poolSize_pos _) (hostOwns_of_frozen 0 hf) (by rw [bufWords_eq]; omega) (by decide)
  rw [runExec_init_step 1 hp hfind]
  refine runExec_init_step 0 rfl ?_
  rw [initMicro, writeStep, show idIndex (initClass cfg) 0 = csIndex (initClass cfg) 0 + 1 from rfl, hw,
    tryDo_ok, csIndex_zero]
  rfl

end Sys2Proof.Machine

open Sys2Proof Sys2Proof.Machine

/-- Settles O46: the loop's invariant for 127 words, then the last word with every request. -/
theorem initZeroesRam : Obligations.InitZeroesRam := by
  unfold Obligations.InitZeroesRam
  intro inst cfg nbr dbr txid rxid s hp hf hl
  obtain ⟨ram, hrun, hram⟩ := runExec_zeroRam hp hf hl
  exact ⟨_, hrun, rfl, hram.written, fun k hk => hram.kept k fun i hi => Nat.ne_of_gt (hi.trans_le hk),
    fun _ => BitVec.getLsbD_zero⟩

/-- Settles O47: the loops of lines 11 and 12, and the two micro-steps of lines 13 and 14. -/
theorem initPartitionsThePool : Obligations.InitPartitionsThePool := by
  unfold Obligations.InitPartitionsThePool
  rintro inst cfg nbr dbr txid rxid s i c rfl rfl hc hf hl
  refine ⟨fun hp => ?_, fun hp => ?_, fun hp htag => ?_⟩
  · obtain ⟨rximr, hrun, hmask⟩ := runExec_mask hp hf hl
    exact ⟨_, hrun, rfl, hmask.written,
      fun a ha => hmask.kept a fun i hi => Nat.ne_of_gt (hi.trans_le ha)⟩
  · obtain ⟨ram, pend, hrun, hram, hpend⟩ := runExec_tag hp hc hf hl
    exact ⟨_, hrun, rfl, fun a ha => (hram.written a (by omega)).trans (congrArg some (tagOf_rx ha)),
      fun a ha ha' => (hram.written a ha').trans (congrArg some (tagOf_tx ha)), hram.kept, hpend⟩
  · rw [runExec_rxId hp hc hf hl htag]
    cases cfg.idt <;> rfl

end

section
/-! PROOFS. INIT's frame (O48). -/

namespace Sys2Proof.Machine

variable {s t u : State} {inst : Nat} {cfg : Cfg} {nbr dbr txid rxid : Word} {c : PClass} {p : InitPos}

/-! ## The two halves of a micro-step of INIT: an effect, and a move of the sequencer -/

/-- What the micro-step of INIT at `p` does outside the sequencer and the statuses: nothing, a session part,
the write of the word its position names, or line 10's last write, which drops the requests. -/
inductive InitEffect (c : PClass) (p : InitPos) (s : State) : State → Prop
  | stay : p ≠ .zeroRam 127 → InitEffect c p s s
  | valid (x : Bool) : p = .clearValid ∨ p = .complete →
      InitEffect c p s { s with sess := { s.sess with valid := x } }
  | session (k : PClass) (idt : IdType) : p = .session →
      InitEffect c p s { s with sess := { s.sess with cls := some k, idType := some idt } }
  | write {off : Nat} {v : Word} {w : BlockWord} {u : State} : initTarget c p = some w →
      p ≠ .zeroRam 127 → blockWord off = .ok w → regWrite off v s = .ok u → InitEffect c p s u
  | lastZero {u : State} : p = .zeroRam 127 → regWrite (offRam 127) 0#32 s = .ok u →
      InitEffect c p s u.dropRequests

/-- How INIT's sequencer moves: to a position of INIT, or to its end. -/
inductive InitMove (u : State) : State → Prop
  | inside (q : InitPos) (n : Nat) :
      InitMove u { u with seq := { u.seq with pos := .init q, attempts := n } }
  | finish (st : Status) : InitMove u (u.finish st)

theorem initMove_goto (q : InitPos) : InitMove u (u.goto (.init q)) := .inside q u.seq.attempts

theorem initMove_start (q : InitPos) : InitMove u (u.start (.init q)) := .inside q 0

theorem InitMove.movesOnly (h : InitMove u t) : MovesOnly u t := by
  cases h with
  | inside => exact ⟨rfl, rfl, rfl, [], (List.append_nil _).symm⟩
  | finish st => exact movesOnly_finish st

/-! ## Every micro-step is an effect and a move -/

/-- A micro-step of INIT: its effect, then its move. -/
def InitStep (c : PClass) (p : InitPos) (s t : State) : Prop := ∃ u, InitEffect c p s u ∧ InitMove u t

theorem initStep_writeStep {off : Nat} {v : Word} {w : BlockWord} {q : InitPos}
    (ht : initTarget c p = some w) (hp : p ≠ .zeroRam 127) (hw : blockWord off = .ok w)
    (h : writeStep off v (.init q) s = .next t) : InitStep c p s t := by
  obtain ⟨u, hu, rfl⟩ := writeStep_eq_next.mp h
  exact ⟨u, .write ht hp hw hu, initMove_goto q⟩

/-- A field write: its position names the word once its read is made. -/
theorem initStep_initField {off : Nat} {mask v : Word} {x : Option Word} {here : Option Word → InitPos}
    {w : BlockWord} {q : InitPos} (ht : ∀ y, initTarget c (here (some y)) = some w)
    (hp : ∀ y, here y ≠ .zeroRam 127) (hw : blockWord off = .ok w)
    (h : initField off mask v x here q s = .next t) : InitStep c (here x) s t := by
  obtain ⟨rfl, y, -, rfl⟩ | ⟨y, u, rfl, hu, rfl⟩ := fieldStep_eq_next h
  · exact ⟨s, .stay (hp none), initMove_goto _⟩
  · exact ⟨u, .write (ht y) (hp (some y)) hw hu, initMove_goto q⟩

theorem initStep_initPoll {cond : Word → Bool} {q : InitPos} (hpos : s.seq.pos = .init p)
    (hp : p ≠ .zeroRam 127) (h : initPoll cond q s = .next t) : InitStep c p s t := by
  refine ⟨s, .stay hp, ?_⟩
  obtain ⟨-, -, ⟨-, rfl⟩ | ⟨-, -, ht⟩ | ⟨n, -, -, ⟨-, rfl⟩ | ⟨-, rfl⟩⟩⟩ := pollStep_eq_next h
  · exact initMove_start q
  · rw [ht]
    have hm := initMove_goto (u := s) p
    rwa [goto_of_pos hpos] at hm
  · exact .inside (.timeoutDisable none) (s.seq.attempts + 1)
  · have hm := InitMove.inside (u := s) p (s.seq.attempts + 1)
    rw [← hpos] at hm
    exact hm

theorem initMicro_initStep (hpos : s.seq.pos = .init p) (hfit : initPosFits (initClass cfg) p = true)
    (h : initMicro cfg nbr rxid p s = .next t) : InitStep (initClass cfg) p s t := by
  cases p with
  | clearValid => cases h; exact ⟨_, .valid false (.inl rfl), initMove_goto _⟩
  | complete => cases h; exact ⟨_, .valid true (.inr rfl), .finish _⟩
  | session => cases h; exact ⟨_, .session _ _ rfl, initMove_goto _⟩
  | timeoutFinish => cases h; exact ⟨s, .stay nofun, .finish _⟩
  | disable x | enable x | fdEn x | maxMb x | exitFreeze x | timeoutDisable x =>
    exact initStep_initField (fun _ => rfl) nofun blockWord_mcr h
  | clkSrc x | loopBack x => exact initStep_initField (fun _ => rfl) nofun blockWord_ctrl1 h
  | fdCtrl x => exact initStep_initField (fun _ => rfl) nofun blockWord_fdctrl h
  | pollDisabled | pollEnabled | pollFrozen | pollUnfrozen | pollReady =>
    exact initStep_initPoll hpos nofun h
  | timingMcr =>
    rw [initMicro_timingMcr] at h
    cases h
    exact ⟨s, .stay nofun, initMove_goto _⟩
  | timingFdCbt => exact initStep_writeStep rfl nofun blockWord_cbt h
  | timingFdFdcbt => exact initStep_writeStep rfl nofun blockWord_fdcbt h
  | timingCbt r => exact initStep_writeStep rfl nofun blockWord_cbt h
  | timingCtrl1 =>
    rw [initMicro, regRead_ctrl1, tryDo_ok] at h
    split at h <;> cases h
    · exact ⟨s, .stay nofun, .finish _⟩
    · exact ⟨s, .stay nofun, initMove_goto _⟩
  | zeroRam k =>
    have hk : k < Config.ramWords := of_decide_eq_true hfit
    rw [initMicro] at h
    split at h
    · rename_i hk'
      refine initStep_writeStep rfl (fun hp => ?_) (blockWord_ram hk) h
      cases hp
      exact absurd hk' (by decide)
    · obtain rfl : k = 127 := by simp only [Config.ramWords] at *; omega
      obtain ⟨u, hu, h⟩ := tryDo_eq_next.mp h
      cases h
      exact ⟨_, .lastZero rfl hu, initMove_goto _⟩
  | mask i =>
    have hi : i < poolSize (initClass cfg) := of_decide_eq_true hfit
    exact initStep_writeStep rfl nofun (blockWord_rximr (hi.trans_le (poolSize_le _))) h
  | tag i => exact initStep_writeStep rfl nofun (blockWord_ram (csIndex_lt_ram (of_decide_eq_true hfit))) h
  | findTag i =>
    obtain ⟨w, -, h⟩ := tryDo_eq_next.mp h
    split at h
    · cases h; exact ⟨s, .stay nofun, initMove_goto _⟩
    · split at h <;> cases h
      exact ⟨s, .stay nofun, initMove_goto _⟩
  | rxId j =>
    have hj := csIndex_lt (of_decide_eq_true hfit)
    rw [bufWords_eq] at hj
    exact initStep_writeStep rfl nofun (blockWord_ram (by rw [idIndex, ← csIndex]; omega)) h

/-! ## What the two halves leave alone -/

theorem HostFrame.trans (h : HostFrame s u) (h' : HostFrame u t) : HostFrame s t := by
  obtain ⟨l, hl⟩ := h.statuses
  obtain ⟨l', hl'⟩ := h'.statuses
  exact ⟨h'.params.trans h.params, h'.prog.trans h.prog, h'.desc.trans h.desc, h'.agenda.trans h.agenda,
    h'.choices.trans h.choices, h'.draws.trans h.draws, l ++ l', by rw [hl', hl, List.append_assoc]⟩

theorem SameOutside.hostFrame (h : SameOutside s t) : HostFrame s t :=
  ⟨h.params, h.prog, congrArg Seq.desc h.seq, h.agenda, h.choices, h.draws, [],
    by rw [h.statuses, List.append_nil]⟩

theorem HostFrame.refl (s : State) : HostFrame s s := (SameOutside.refl s).hostFrame

/-- INIT writes no flag (R145). -/
theorem initTarget_ne_iflag1 (c : PClass) (p : InitPos) : initTarget c p ≠ some .iflag1 := by
  cases p with
  | disable x | clkSrc x | enable x | fdEn x | fdCtrl x | maxMb x | loopBack x | exitFreeze x
  | timeoutDisable x => cases x <;> nofun
  | _ => nofun

/-- What every effect of INIT leaves alone. -/
structure InitKeeps (s u : State) : Prop where
  host : HostFrame s u
  hostMem : u.hostMem = s.hostMem
  iflag : u.iflag = s.iflag
  seq : u.seq = s.seq

theorem regWrite_initKeeps {off : Nat} {v : Word} {w : BlockWord} (hw : blockWord off = .ok w)
    (hne : w ≠ .iflag1) (h : regWrite off v s = .ok u) : InitKeeps s u := by
  have o := regWrite_outside h
  refine ⟨o.hostFrame, o.hostMem, word_ext fun b _ => (regWrite_frame hw h).iflag b fun he => ?_, o.seq⟩
  exact absurd (Option.some.inj he) hne

theorem InitEffect.keeps (h : InitEffect c p s u) : InitKeeps s u := by
  cases h with
  | stay => exact ⟨.refl s, rfl, rfl, rfl⟩
  | valid | session => exact ⟨⟨rfl, rfl, rfl, rfl, rfl, rfl, [], (List.append_nil _).symm⟩, rfl, rfl, rfl⟩
  | write ht _ hw h => exact regWrite_initKeeps hw (fun he => initTarget_ne_iflag1 c p (he ▸ ht)) h
  | lastZero _ h =>
    obtain ⟨host, hmem, hflag, hseq⟩ := regWrite_initKeeps (blockWord_ram (by decide)) nofun h
    exact ⟨⟨host.params, host.prog, host.desc, host.agenda, host.choices, host.draws, host.statuses⟩,
      hmem, hflag, hseq⟩

/-- The session is not in block space. -/
theorem BlockFrame.of_sess {target : Option BlockWord} {v : Word} (x : Session) :
    BlockFrame target v s { s with sess := x } :=
  ⟨fun _ => rfl, rfl, fun _ => rfl, fun _ => rfl, fun _ => rfl, fun _ => rfl, fun _ _ => rfl,
    fun _ _ => rfl, fun _ _ _ => rfl, fun _ _ _ => rfl⟩

theorem InitEffect.blockFrame (h : InitEffect c p s u) (hp : p ≠ .zeroRam 127) :
    BlockFrame (initTarget c p) 0#32 s u := by
  cases h with
  | stay => exact .of_block_eq rfl
  | valid | session => exact .of_sess _
  | write ht _ hw h =>
    rw [ht]
    exact (regWrite_frame hw h).of_not_flags fun he => initTarget_ne_iflag1 c p (he ▸ ht)
  | lastZero hp' => exact absurd hp' hp

/-- Line 10's last write: the frame of the write, but for the requests, which it drops. -/
theorem InitEffect.lastFrame (h : InitEffect c p s u) (hp : p = .zeroRam 127) :
    BlockFrame (some (.ram 127)) 0#32 s { u with txPending := s.txPending } ∧ u.txPending = 0#32 := by
  cases h with
  | stay hp' => exact absurd hp hp'
  | valid x hpos => subst hp; simp at hpos
  | session _ _ hpos => subst hp; cases hpos
  | write _ hp' => exact absurd hp hp'
  | lastZero _ h =>
    have f := regWrite_frame (blockWord_ram (by decide)) h
    exact ⟨⟨f.mcr, f.mcrKept, f.ctrl1, f.cbt, f.fdcbt, f.fdctrl, f.iflag, f.rximr, f.ram,
      fun _ _ _ => rfl⟩, rfl⟩

theorem InitEffect.sess_classes (h : InitEffect c p s u) (hp : p ≠ .session) :
    u.sess.cls = s.sess.cls ∧ u.sess.idType = s.sess.idType := by
  cases h with
  | stay | valid => exact ⟨rfl, rfl⟩
  | session _ _ hp' => exact absurd hp' hp
  | write _ _ _ h => rw [(regWrite_outside h).sess]; exact ⟨rfl, rfl⟩
  | lastZero _ h => rw [State.dropRequests_sess, (regWrite_outside h).sess]; exact ⟨rfl, rfl⟩

theorem InitEffect.sess_valid (h : InitEffect c p s u) (hp : p ≠ .clearValid) (hp' : p ≠ .complete) :
    u.sess.valid = s.sess.valid := by
  cases h with
  | stay | session => rfl
  | valid x hpos => exact absurd hpos (not_or_intro hp hp')
  | write _ _ _ h => rw [(regWrite_outside h).sess]
  | lastZero _ h => rw [State.dropRequests_sess, (regWrite_outside h).sess]

/-- A move of the sequencer keeps a block frame. -/
theorem BlockFrame.movesOnly {target : Option BlockWord} {v : Word} (h : BlockFrame target v s u)
    (hm : MovesOnly u t) : BlockFrame target v s t := by
  rw [hm.rest]
  exact ⟨h.mcr, h.mcrKept, h.ctrl1, h.cbt, h.fdcbt, h.fdctrl, h.iflag, h.rximr, h.ram, h.txPending⟩

theorem initStart_movesOnly : MovesOnly s (initStart inst cfg nbr s) := by
  unfold initStart
  split
  · exact movesOnly_finish _
  · split
    · exact movesOnly_startNotOk
    · exact movesOnly_start _

end Sys2Proof.Machine

open Sys2Proof Sys2Proof.Machine

/-- Settles O48: the validation only moves the sequencer; every other micro-step is an effect of its position,
then a move. -/
theorem initLeavesTheRest : Obligations.InitLeavesTheRest := by
  unfold Obligations.InitLeavesTheRest
  intro inst cfg nbr dbr txid rxid s t hfit h
  cases hpos : s.seq.pos with
  | idle =>
    rw [exec_init_idle hpos] at h
    cases h
    have hm : MovesOnly s (initStart inst cfg nbr s) := initStart_movesOnly
    refine ⟨hm.hostFrame, by rw [hm.rest], by rw [hm.rest], hm.value,
      fun _ => ⟨.of_block_eq hm.rest, by rw [hm.rest]⟩, nofun⟩
  | init p =>
    rw [hpos] at hfit
    rw [exec_init_micro hpos] at h
    obtain ⟨u, he, hmove⟩ := initMicro_initStep hpos hfit h
    have hm := hmove.movesOnly
    have hk := he.keeps
    have hsess : t.sess = u.sess := by rw [hm.rest]
    have hpend : t.txPending = u.txPending := by rw [hm.rest]
    refine ⟨hk.host.trans hm.hostFrame, by rw [hm.rest]; exact hk.hostMem, by rw [hm.rest]; exact hk.iflag,
      by rw [hm.value, hk.seq], nofun, ?_⟩
    rintro _ ⟨⟩
    refine ⟨fun hp => (he.blockFrame hp).movesOnly hm, fun hp => ?_, fun hp => ?_, fun hp hp' => ?_⟩
    · obtain ⟨hframe, hzero⟩ := he.lastFrame hp
      refine ⟨?_, fun b => by rw [hpend, hzero, BitVec.getLsbD_zero]⟩
      exact hframe.movesOnly ⟨by rw [hm.rest], hm.desc, hm.value, hm.statuses⟩
    · rw [hsess]; exact he.sess_classes hp
    · rw [hsess]; exact he.sess_valid hp hp'
  | transmit p | receive p | calcTiming p => rw [hpos] at hfit; cases hfit
  | read32 | write32 => rw [hpos] at hfit; cases hfit

end

section
/-! PROOFS. INIT from reset, with CTRL's four steps in the order of R221 (O49). -/

namespace Sys2Proof.Machine

/-! ## A run of INIT as moves of HOST (R22, R66) -/

section
variable {s t u : State} {inst : Nat} {cfg : Cfg} {nbr dbr txid rxid : Word}

/-- A run in two parts. -/
theorem runExec_trans {i : Instr} {m n : Nat} (h : runExec i m s = .next u)
    (h' : runExec i n u = .next t) : runExec i (m + n) s = .next t := (runExec_add n h).trans h'

/-- The statuses only grow along a run of INIT. -/
theorem runExec_init_statuses (n : Nat)
    (hfit : posFits (.init inst cfg nbr dbr txid rxid) s.sess s.seq.pos = true)
    (h : runExec (.init inst cfg nbr dbr txid rxid) n s = .next t) :
    ∃ l, t.statuses = s.statuses ++ l := by
  induction n generalizing s with
  | zero => cases h; exact ⟨[], (List.append_nil _).symm⟩
  | succ n ih =>
    rw [runExec] at h
    split at h
    · rename_i u hu
      obtain ⟨⟨_, _, _, _, _, _, l, hl⟩, -⟩ := initLeavesTheRest _ _ _ _ _ _ s u hfit hu
      obtain ⟨l', hl'⟩ := ih (microStep_posFits (exec_microStep hu) hfit) h
      exact ⟨l ++ l', by rw [hl', hl, List.append_assoc]⟩
    · cases h
    · cases h

/-- A micro-step inside INIT stays inside it, or finishes and adds a status. -/
theorem initStep_inside_or_finish {c : PClass} {p : InitPos} (h : InitStep c p s u) :
    (∃ q, u.seq.pos = .init q) ∨ s.statuses.length < u.statuses.length := by
  obtain ⟨v, he, hm⟩ := h
  cases hm with
  | inside q n => exact .inl ⟨q, rfl⟩
  | finish st =>
    obtain ⟨l, hl⟩ := he.keeps.host.statuses
    right
    rw [State.finish_statuses, hl]
    simp

/-- A run of INIT that adds no status stays inside INIT, so that its micro-steps are HOST's moves. -/
theorem runsTo_of_runExec_init {ws rest : List Word} {p : InitPos} (n : Nat)
    (hd : decode ws = .ok (.init inst cfg nbr dbr txid rxid, rest)) (hp : s.seq.pos = .init p)
    (hfit : initPosFits (initClass cfg) p = true) (hdesc : s.seq.desc = some ws)
    (h : runExec (.init inst cfg nbr dbr txid rxid) n s = .next t) (hst : t.statuses = s.statuses) :
    RunsTo (List.replicate n .host) s t := by
  induction n generalizing s p with
  | zero => cases h; rfl
  | succ n ih =>
    have hne : s.seq.pos ≠ .idle := by rw [hp]; nofun
    have hposFits : posFits (.init inst cfg nbr dbr txid rxid) s.sess s.seq.pos = true := by
      rw [hp]; exact hfit
    rw [runExec] at h
    split at h
    · rename_i u hu
      have hufit := microStep_posFits (exec_microStep hu) hposFits
      obtain ⟨⟨_, _, hudesc, _, _, _, l, hl⟩, -⟩ := initLeavesTheRest _ _ _ _ _ _ s u hposFits hu
      obtain ⟨l', hl'⟩ := runExec_init_statuses n hufit h
      have hlen : t.statuses.length = u.statuses.length + l'.length := by rw [hl', List.length_append]
      have hlen' : u.statuses.length = s.statuses.length + l.length := by rw [hl, List.length_append]
      rw [hst] at hlen
      have hstep := hu
      rw [exec_init_micro hp] at hstep
      obtain ⟨q, hq⟩ | hlt := initStep_inside_or_finish (initMicro_initStep hp hfit hstep)
      · rw [List.replicate_succ, RunsTo_cons (host_enabled hne) ((hostStep_inside hd hne hdesc).trans hu)]
        rw [hq] at hufit
        refine ih hq hufit (hudesc.trans hdesc) h ?_
        rw [hst, hl, List.eq_nil_of_length_eq_zero (show l.length = 0 by omega), List.append_nil]
      · omega
    · cases h
    · cases h

/-- Where a run leads when it moves the sequencer last. -/
theorem pos_of_goto {i : Instr} {n : Nat} {p : Pos} (_ : runExec i n s = .next (u.goto p)) :
    (u.goto p).seq.pos = p := rfl

theorem pos_of_start {i : Instr} {n : Nat} {p : Pos} (_ : runExec i n s = .next (u.start p)) :
    (u.start p).seq.pos = p := rfl

theorem pos_of_runsTo_start {ms : List Move} {p : Pos} (_ : RunsTo ms s (u.start p)) :
    (u.start p).seq.pos = p := rfl

/-! ## MCR under INIT and CTRL -/

theorem McrIs.trans {m m' old : Word} {md fz hl fd md' fz' hl' fd' : Bool} {mx mx' : Nat}
    (h : McrIs m old md fz hl fd mx) (h' : McrIs m' m md' fz' hl' fd' mx') :
    McrIs m' old md' fz' hl' fd' mx' := by
  obtain ⟨-, -, -, -, -, hlpm, hfrz, hrdy, hnm⟩ := h
  obtain ⟨hmd, hfz, hhl, hfd, hmx, hlpm', hfrz', hrdy', hnm'⟩ := h'
  exact ⟨hmd, hfz, hhl, hfd, hmx, hlpm'.trans hlpm, hfrz'.trans hfrz, hrdy'.trans hrdy, hnm'.trans hnm⟩

section
variable {m old : Word} {md fz hl fd : Bool} {mx : Nat}

theorem McrIs.mdis_eq (h : McrIs m old md fz hl fd mx) : mdis m = md := h.1

theorem McrIs.frz_eq (h : McrIs m old md fz hl fd mx) : frz m = fz := by
  obtain ⟨-, h, -⟩ := h
  exact h

theorem McrIs.halt_eq (h : McrIs m old md fz hl fd mx) : halt m = hl := by
  obtain ⟨-, -, h, -⟩ := h
  exact h

theorem McrIs.fdEn_eq (h : McrIs m old md fz hl fd mx) : fdEn m = fd := by
  obtain ⟨-, -, -, h, -⟩ := h
  exact h

theorem McrIs.maxMb_eq (h : McrIs m old md fz hl fd mx) : maxMb m = mx := by
  obtain ⟨-, -, -, -, h, -⟩ := h
  exact h

theorem McrIs.lpmAck_eq (h : McrIs m old md fz hl fd mx) : lpmAck m = lpmAck old := by
  obtain ⟨-, -, -, -, -, h, -⟩ := h
  exact h

theorem McrIs.frzAck_eq (h : McrIs m old md fz hl fd mx) : frzAck m = frzAck old := by
  obtain ⟨-, -, -, -, -, -, h, -⟩ := h
  exact h

theorem McrIs.notRdy_eq (h : McrIs m old md fz hl fd mx) : notRdy m = notRdy old := by
  obtain ⟨-, -, -, -, -, -, -, h, -⟩ := h
  exact h

end

theorem maxMb_withAcks (m : Word) (a b c : Bool) : maxMb (withAcks m a b c) = maxMb m :=
  maxMb_congr fun i hi => by
    rw [getLsbD_withAcks, if_neg (by omega), if_neg (by omega), if_neg (by omega)]

/-! ## INIT's lines between two answers of CTRL -/

/-- A poll whose condition holds (R226). -/
theorem runExec_poll {p q : InitPos} {c : Word → Bool} (hp : s.seq.pos = .init p)
    (hm : initMicro cfg nbr rxid p s = initPoll c q s) (h : c s.mcr = true) :
    runExec (.init inst cfg nbr dbr txid rxid) 1 s = .next (s.start (.init q)) :=
  runExec_init_step 0 hp (hm.trans (initPoll_done q h))

/-- Lines 1 to 4, from a disabled module. -/
theorem runExec_toPollEnabled (hp : s.seq.pos = .init .clearValid) (hl : lpmAck s.mcr = true) :
    ∃ m w, runExec (.init inst cfg nbr dbr txid rxid) 8 s =
        .next ({ s with mcr := m, ctrl1 := w, sess := { s.sess with valid := false } }.start
          (.init .pollEnabled)) ∧
      McrIs m s.mcr false true true (fdEn s.mcr) (maxMb s.mcr) ∧
      ∀ b, w.getLsbD b = if b = 13 then decide (cfg.clk = .bus) else s.ctrl1.getLsbD b := by
  obtain ⟨m₁, hrun₁, hm₁⟩ := @runExec_disable s inst cfg nbr dbr txid rxid hp
  have hl₁ : lpmAck m₁ = true := hm₁.lpmAck_eq.trans hl
  have hrun₂ := @runExec_poll _ inst cfg nbr dbr txid rxid _ _ lpmAck (pos_of_goto hrun₁) rfl hl₁
  obtain ⟨w, hrun₃, hw⟩ := @runExec_clkSrc _ inst cfg nbr dbr txid rxid (pos_of_start hrun₂) hl₁
  obtain ⟨m₂, hrun₄, hm₂⟩ := @runExec_enable _ inst cfg nbr dbr txid rxid (pos_of_goto hrun₃)
  refine ⟨m₂, w, runExec_trans hrun₁ (runExec_trans hrun₂ (runExec_trans hrun₃ hrun₄)), ?_, hw⟩
  rw [← hm₁.fdEn_eq, ← hm₁.maxMb_eq]
  exact hm₁.trans hm₂

/-- Lines 5 to 7's first field write, in freeze. -/
theorem runExec_toFdEn (hp : s.seq.pos = .init .pollEnabled) (hl : lpmAck s.mcr = false)
    (hf : frzAck s.mcr = true) :
    ∃ m, runExec (.init inst cfg nbr dbr txid rxid) 4 s =
        .next ({ s with mcr := m }.start
          (.init (if cfg.proto = Proto.canFd then .fdCtrl none else .session))) ∧
      McrIs m s.mcr (mdis s.mcr) (frz s.mcr) (halt s.mcr) (decide (cfg.proto = Proto.canFd))
        (maxMb s.mcr) := by
  have hrun₁ := @runExec_poll _ inst cfg nbr dbr txid rxid _ _ (fun m => !lpmAck m) hp rfl
    (congrArg not hl)
  have hrun₂ := @runExec_poll _ inst cfg nbr dbr txid rxid _ _ frzAck (pos_of_start hrun₁) rfl hf
  obtain ⟨m, hrun₃, hm⟩ := @runExec_fdEn _ inst cfg nbr dbr txid rxid (pos_of_start hrun₂) hf
  exact ⟨m, runExec_trans hrun₁ (runExec_trans hrun₂ hrun₃), hm⟩

/-- Lines 5 to 9 of CAN-FD, in freeze. -/
theorem runExec_toZeroRam_canFd (hp : s.seq.pos = .init .pollEnabled) (hl : lpmAck s.mcr = false)
    (hf : frzAck s.mcr = true) (hproto : cfg.proto = .canFd)
    (hn : s.params.fdFdcbtWord &&& fdcbtNm = s.fdcbt &&& fdcbtNm) :
    ∃ m f cb fcb, runExec (.init inst cfg nbr dbr txid rxid) 12 s =
        .next ({ s with
                  mcr := m
                  fdctrl := f
                  cbt := cb
                  fdcbt := fcb
                  sess := { s.sess with cls := some (initClass cfg), idType := some cfg.idt } }.start
          (.init (.zeroRam 0))) ∧
      McrIs m s.mcr (mdis s.mcr) (frz s.mcr) (halt s.mcr) true (poolSize (initClass cfg) - 1) ∧
      pclassOfBits (bits f 17 16) = cfg.pclass := by
  obtain ⟨m₁, hrun₁, hm₁⟩ := @runExec_toFdEn _ inst cfg nbr dbr txid rxid hp hl hf
  rw [if_pos hproto] at hrun₁
  rw [decide_eq_true hproto] at hm₁
  have hf₁ : frzAck m₁ = true := hm₁.frzAck_eq.trans hf
  obtain ⟨f, hrun₂, -, hclass, -⟩ := @runExec_fdCtrl _ inst cfg nbr dbr txid rxid (pos_of_start hrun₁) hf₁
  obtain ⟨m₂, hrun₃, hm₂⟩ := @runExec_session _ inst cfg nbr dbr txid rxid (pos_of_goto hrun₂) hf₁
  have hm := hm₁.trans hm₂
  have hrun₄ := @runExec_timingLiterals _ inst cfg nbr dbr txid rxid (pos_of_goto hrun₃)
    (hm.frzAck_eq.trans hf) (hm₂.fdEn_eq.trans hm₁.fdEn_eq) hn
  refine ⟨m₂, f, _, _,
    runExec_trans hrun₁ (runExec_trans hrun₂ (runExec_trans hrun₃ hrun₄)), ?_, hclass⟩
  rw [← hm₁.mdis_eq, ← hm₁.frz_eq, ← hm₁.halt_eq, ← hm₁.fdEn_eq]
  exact hm

/-- Lines 5 to 9 of CAN 2.0, in freeze. -/
theorem runExec_toZeroRam_can20 {r : Timing} (hp : s.seq.pos = .init .pollEnabled)
    (hl : lpmAck s.mcr = false) (hf : frzAck s.mcr = true) (hproto : cfg.proto = .can20)
    (ht : timingFor s.params (clkSrcOf s.ctrl1) cfg.qpb cfg.sp nbr = some r) :
    ∃ m, runExec (.init inst cfg nbr dbr txid rxid) 10 s =
        .next ({ s with
                  mcr := m
                  cbt := cbtWord r
                  sess := { s.sess with cls := some (initClass cfg), idType := some cfg.idt } }.start
          (.init (.zeroRam 0))) ∧
      McrIs m s.mcr (mdis s.mcr) (frz s.mcr) (halt s.mcr) false (poolSize (initClass cfg) - 1) := by
  have hnot : ¬ cfg.proto = .canFd := by rw [hproto]; nofun
  obtain ⟨m₁, hrun₁, hm₁⟩ := @runExec_toFdEn _ inst cfg nbr dbr txid rxid hp hl hf
  rw [if_neg hnot] at hrun₁
  rw [decide_eq_false hnot] at hm₁
  obtain ⟨m₂, hrun₂, hm₂⟩ := @runExec_session _ inst cfg nbr dbr txid rxid (pos_of_start hrun₁)
    (hm₁.frzAck_eq.trans hf)
  have hm := hm₁.trans hm₂
  have hrun₃ := @runExec_timingCalculated _ inst cfg nbr dbr txid rxid r (pos_of_goto hrun₂)
    (hm.frzAck_eq.trans hf) (hm₂.fdEn_eq.trans hm₁.fdEn_eq) ht
  refine ⟨m₂, runExec_trans hrun₁ (runExec_trans hrun₂ hrun₃), ?_⟩
  rw [← hm₁.mdis_eq, ← hm₁.frz_eq, ← hm₁.halt_eq, ← hm₁.fdEn_eq]
  exact hm

/-- In freeze, the class of the hardware is the one INIT applies once FDEN and MBDSR0 are set (R26, R134). -/
theorem hwClass_eq_initClass (hfd : fdEn s.mcr = decide (cfg.proto = .canFd))
    (hclass : cfg.proto = .canFd → pclassOfBits (bits s.fdctrl 17 16) = cfg.pclass) :
    hwClass s = initClass cfg := by
  rw [hwClass, initClass, hfd]
  cases hproto : cfg.proto with
  | canFd => exact hclass hproto
  | can20 => rfl

/-- Lines 5 to 9, in freeze. -/
theorem runExec_toZeroRam (hp : s.seq.pos = .init .pollEnabled) (hl : lpmAck s.mcr = false)
    (hf : frzAck s.mcr = true)
    (hn : cfg.proto = .canFd → s.params.fdFdcbtWord &&& fdcbtNm = s.fdcbt &&& fdcbtNm)
    (ht : cfg.proto = .can20 → timingFor s.params (clkSrcOf s.ctrl1) cfg.qpb cfg.sp nbr ≠ none) :
    ∃ m f cb fcb,
      runExec (.init inst cfg nbr dbr txid rxid) ((if cfg.proto = .canFd then 6 else 4) + 6) s =
        .next ({ s with
                  mcr := m
                  fdctrl := f
                  cbt := cb
                  fdcbt := fcb
                  sess := { s.sess with cls := some (initClass cfg), idType := some cfg.idt } }.start
          (.init (.zeroRam 0))) ∧
      McrIs m s.mcr (mdis s.mcr) (frz s.mcr) (halt s.mcr) (decide (cfg.proto = .canFd))
        (poolSize (initClass cfg) - 1) ∧
      (cfg.proto = .canFd → pclassOfBits (bits f 17 16) = cfg.pclass) := by
  cases hproto : cfg.proto with
  | canFd =>
    obtain ⟨m, f, cb, fcb, hrun, hm, hclass⟩ :=
      @runExec_toZeroRam_canFd s inst cfg nbr dbr txid rxid hp hl hf hproto (hn hproto)
    exact ⟨m, f, cb, fcb, hrun, hm, fun _ => hclass⟩
  | can20 =>
    obtain ⟨r, hr⟩ := Option.ne_none_iff_exists'.mp (ht hproto)
    obtain ⟨m, hrun, hm⟩ :=
      @runExec_toZeroRam_can20 s inst cfg nbr dbr txid rxid r hp hl hf hproto hr
    exact ⟨m, s.fdctrl, cbtWord r, s.fdcbt, hrun, hm, nofun⟩

/-- The pool as INIT leaves it: the masks, the tags, the receive identifier, the other words (R136 to R139). -/
structure PoolSetUp (c : PClass) (idw : Word) (ram rximr : WordCells) : Prop where
  masks : ∀ a, a < poolSize c → cellRead rximr a = some 0#32
  rxTags : ∀ a, a < poolSize c / 2 → cellRead ram (csIndex c a) = some 0x04000000#32
  txTags : ∀ a, poolSize c / 2 ≤ a → a < poolSize c → cellRead ram (csIndex c a) = some 0x08000000#32
  rxId : cellRead ram 1 = some idw
  zeros : ∀ k, k < 128 → k ≠ 1 → (∀ a, a < poolSize c → k ≠ csIndex c a) → cellRead ram k = some 0#32

theorem tagOf_zero (c : PClass) : tagOf c 0 = tagRxEmpty := by cases c <;> rfl

theorem csIndex_ne_one (c : PClass) (a : Nat) : csIndex c a ≠ 1 := by
  rw [csIndex]
  cases c <;> simp only [bufWords] <;> omega

theorem poolSetUp_of_filled {c : PClass} {ram₀ ram₁ ram₂ rximr₀ rximr₁ : WordCells} (idw : Word)
    (hzero : Filled ram₀ id (fun _ => 0#32) 128 ram₁)
    (htag : Filled ram₁ (csIndex c) (tagOf c) (poolSize c) ram₂)
    (hmask : Filled rximr₀ id (fun _ => 0#32) (poolSize c) rximr₁) :
    PoolSetUp c idw (cellWrite ram₂ 1 idw) rximr₁ where
  masks := hmask.written
  rxTags a ha := by
    rw [cellRead_cellWrite_other _ _ (csIndex_ne_one c a), htag.written a (by omega), tagOf_rx ha]
  txTags a ha ha' := by
    rw [cellRead_cellWrite_other _ _ (csIndex_ne_one c a), htag.written a ha', tagOf_tx ha]
  rxId := cellRead_cellWrite_same ..
  zeros k hk h1 hcs := by
    rw [cellRead_cellWrite_other _ _ h1, htag.kept k hcs]
    exact hzero.written k hk

/-- Lines 10 to 12, in freeze under the class INIT applies: the pool is set up but for the identifier. -/
theorem runExec_toFindTag (hp : s.seq.pos = .init (.zeroRam 0)) (hf : frzAck s.mcr = true)
    (hl : lpmAck s.mcr = false) (hc : hwClass s = initClass cfg) :
    ∃ ram rximr, runExec (.init inst cfg nbr dbr txid rxid) (128 + 2 * poolSize (initClass cfg)) s =
        .next ({ s with ram := ram, rximr := rximr, txPending := 0#32 }.goto (.init (.findTag 0))) ∧
      cellRead ram 0 = some tagRxEmpty ∧
      ∀ idw, PoolSetUp (initClass cfg) idw (cellWrite ram 1 idw) rximr := by
  obtain ⟨ram₁, hrun₁, hzero⟩ := @runExec_zeroRam s inst cfg nbr dbr txid rxid hp hf hl
  obtain ⟨rximr, hrun₂, hmask⟩ := @runExec_mask _ inst cfg nbr dbr txid rxid (pos_of_goto hrun₁) hf hl
  obtain ⟨ram₂, pend, hrun₃, htag, hpend⟩ :=
    @runExec_tag _ inst cfg nbr dbr txid rxid (pos_of_goto hrun₂) hc hf hl
  obtain rfl : pend = 0#32 := word_ext fun b _ => by simp [hpend]
  refine ⟨ram₂, rximr, ?_, ?_, fun idw => poolSetUp_of_filled idw hzero htag hmask⟩
  · rw [Nat.two_mul]
    exact runExec_trans hrun₁ (runExec_trans hrun₂ hrun₃)
  · rw [← csIndex_zero (initClass cfg), htag.written 0 (poolSize_pos _), tagOf_zero]

/-- Lines 13 to 16, in freeze under the class INIT applies. -/
theorem runExec_toPollUnfrozen (hp : s.seq.pos = .init (.findTag 0)) (hf : frzAck s.mcr = true)
    (hl : lpmAck s.mcr = false) (hc : hwClass s = initClass cfg)
    (htag : cellRead s.ram 0 = some tagRxEmpty) :
    ∃ m w, runExec (.init inst cfg nbr dbr txid rxid) 6 s =
        .next ({ s with
                  mcr := m
                  ctrl1 := w
                  ram := cellWrite s.ram 1 (rxIdWord cfg.idt rxid) }.goto (.init .pollUnfrozen)) ∧
      McrIs m s.mcr (mdis s.mcr) false false (fdEn s.mcr) (maxMb s.mcr) ∧
      ∀ b, w.getLsbD b = if b = 12 then decide (cfg.mode = .loopBack) else s.ctrl1.getLsbD b := by
  have hrun₁ := @runExec_rxId s inst cfg nbr dbr txid rxid hp hc hf hl htag
  obtain ⟨w, hrun₂, hw⟩ := @runExec_loopBack _ inst cfg nbr dbr txid rxid (pos_of_goto hrun₁) hf
  obtain ⟨m, hrun₃, hm⟩ := @runExec_exitFreeze _ inst cfg nbr dbr txid rxid (pos_of_goto hrun₂)
  exact ⟨m, w, runExec_trans hrun₁ (runExec_trans hrun₂ hrun₃), hm, hw⟩

/-- Lines 17 to 19, operational. -/
theorem runExec_toComplete (hp : s.seq.pos = .init .pollUnfrozen) (hf : frzAck s.mcr = false)
    (hr : notRdy s.mcr = false) :
    runExec (.init inst cfg nbr dbr txid rxid) 2 s = .next (s.start (.init .complete)) := by
  have hrun₁ := @runExec_poll _ inst cfg nbr dbr txid rxid _ _ (fun m => !frzAck m) hp rfl
    (congrArg not hf)
  have hrun₂ := @runExec_poll _ inst cfg nbr dbr txid rxid _ _ (fun m => !notRdy m)
    (pos_of_start hrun₁) rfl (congrArg not hr)
  exact runExec_trans hrun₁ hrun₂

/-! ## CTRL's answers (R182 to R186) -/

theorem withAcks_withAcks (m : Word) (a b c a' b' c' : Bool) :
    withAcks (withAcks m a b c) a' b' c' = withAcks m a' b' c' := by
  apply word_ext
  intro i _
  simp only [getLsbD_withAcks]
  split_ifs <;> rfl

/-- A step of CTRL is enabled where its guard holds. -/
theorem ctrl_enabled {m : Move} (hm : m ∈ allMoves) (hon : moveOn s m = true) : m ∈ enabledMoves s :=
  List.mem_filter.mpr ⟨hm, hon⟩

/-- LPM-EXIT and FRZ-ENTER, where an enabled module is asked for with freeze. -/
theorem runsTo_enterFreeze (hmd : mdis s.mcr = false) (hfz : frz s.mcr = true) (hhl : halt s.mcr = true)
    (hl : lpmAck s.mcr = true) (hf : frzAck s.mcr = false) :
    RunsTo [.lpmExit, .frzEnter] s { s with mcr := withAcks s.mcr false true true } := by
  rw [RunsTo_cons (u := lpmExit s) (ctrl_enabled (by decide) (by simp [moveOn, lpmExitOn, hmd, hl])) rfl,
    RunsTo_cons (u := frzEnter (lpmExit s)) (ctrl_enabled (by decide) ?_) rfl, RunsTo_nil, frzEnter,
    lpmExit, withAcks_withAcks, lpmAck_withAcks]
  simp [moveOn, frzEnterOn, freezeRequested, lpmExit, hmd, hfz, hhl, hf]

/-- FRZ-EXIT and READY, where freeze is no longer asked for. -/
theorem runsTo_leaveFreeze (hmd : mdis s.mcr = false) (hfz : frz s.mcr = false) (hl : lpmAck s.mcr = false)
    (hf : frzAck s.mcr = true) (hr : notRdy s.mcr = true) :
    RunsTo [.frzExit, .ready] s { s with mcr := withAcks s.mcr false false false } := by
  rw [RunsTo_cons (u := frzExit s)
      (ctrl_enabled (by decide) (by simp [moveOn, frzExitOn, freezeRequested, hl, hf, hfz])) rfl,
    RunsTo_cons (u := ready (frzExit s)) (ctrl_enabled (by decide) ?_) rfl, RunsTo_nil, ready, frzExit,
    withAcks_withAcks, lpmAck_withAcks, frzAck_withAcks, hl]
  simp [moveOn, readyOn, freezeRequested, frzExit, hmd, hfz, hl, hr]

/-! ## What a valid INIT may rely on (R92, R124) -/

/-- The data-phase literal has no not-modelled bit (R92). -/
theorem fdFdcbtWord_of_wf {p : Config.Params} (h : p.wf = true) : p.fdFdcbtWord &&& fdcbtNm = 0#32 := by
  simp only [Config.Params.wf, Bool.and_eq_true, beq_iff_eq] at h
  obtain ⟨⟨-, h⟩, -⟩ := h
  exact h

theorem timingFor_of_valid {p : Config.Params} (h : initInvalid p inst cfg nbr = false)
    (hproto : cfg.proto = .can20) : timingFor p cfg.clk cfg.qpb cfg.sp nbr ≠ none := fun ht =>
  Bool.eq_false_iff.mp h (initInvalid_iff.mpr (.inr (.inr (.inr (.inr ⟨hproto, ht⟩)))))

/-- CLKSRC names the clock whose bit it holds (R29, R90). -/
theorem clkSrcOf_eq {w : Word} {clk : ClkSrc} (h : w.getLsbD 13 = decide (clk = .bus)) :
    clkSrcOf w = clk := by
  rw [clkSrcOf, h]
  cases clk <;> rfl

/-! ## The moves of R221 -/

/-- The launch state once HOST has taken its one descriptor and INIT's validation has passed. -/
def initTaken (p : Config.Params) (i : Instr) (mem : Memory) : State :=
  { State.launch p [] mem with
    seq :=
      { pos := .init .clearValid
        desc := some ((encode i).take (descWords i))
        attempts := 0
        status := none
        value := none } }

theorem lpmAck_initTaken {p : Config.Params} {i : Instr} {mem : Memory} :
    lpmAck (initTaken p i mem).mcr = true := show lpmAck 0xD890000F#32 = true by decide

theorem frzAck_initTaken {p : Config.Params} {i : Instr} {mem : Memory} :
    frzAck (initTaken p i mem).mcr = false := show frzAck 0xD890000F#32 = false by decide

/-- R221's order in three parts: into freeze, through the configuration and out of freeze, to the end. -/
theorem initSchedule_eq (cfg : Cfg) :
    initSchedule cfg =
      (List.replicate 9 Move.host ++ [.lpmExit, .frzEnter]) ++
        ((List.replicate
          ((if cfg.proto = .canFd then 6 else 4) + 6 + 128 + 2 * poolSize (initClass cfg) + 6) Move.host ++
          [.frzExit, .ready]) ++ List.replicate 3 Move.host) := by
  simp only [initSchedule, List.append_assoc]

/-- HOST takes the descriptor of a valid INIT. -/
theorem hostStep_initTaken {p : Config.Params} (mem : Memory)
    (hd : decode (encode (.init 0 cfg nbr dbr txid rxid)) = .ok (.init 0 cfg nbr dbr txid rxid, []))
    (hvalid : initInvalid p 0 cfg nbr = false) :
    hostStep (State.launch p (encode (.init 0 cfg nbr dbr txid rxid)) mem) =
      .next (initTaken p (.init 0 cfg nbr dbr txid rxid) mem) := by
  rw [hostStep_takes rfl hd, exec_init_idle rfl, initStart_valid rfl hvalid]
  rfl

/-- From reset to the first poll in freeze: HOST's lines 1 to 4, then LPM-EXIT and FRZ-ENTER. -/
theorem runsTo_frozen {p : Config.Params} {mem : Memory}
    (hd : decode (encode (.init 0 cfg nbr dbr txid rxid)) = .ok (.init 0 cfg nbr dbr txid rxid, []))
    (hvalid : initInvalid p 0 cfg nbr = false) :
    ∃ m w, RunsTo (List.replicate 9 Move.host ++ [.lpmExit, .frzEnter])
        (State.launch p (encode (.init 0 cfg nbr dbr txid rxid)) mem)
        ({ initTaken p (.init 0 cfg nbr dbr txid rxid) mem with mcr := m, ctrl1 := w }.start
          (.init .pollEnabled)) ∧
      mdis m = false ∧ lpmAck m = false ∧ frzAck m = true ∧ notRdy m = true ∧
      ∀ b, w.getLsbD b = if b = 13 then decide (cfg.clk = .bus) else false := by
  obtain ⟨m, w, hrun, hm, hw⟩ := @runExec_toPollEnabled
    (initTaken p (.init 0 cfg nbr dbr txid rxid) mem) 0 cfg nbr dbr txid rxid rfl lpmAck_initTaken
  have htake : runMove .host (State.launch p (encode (.init 0 cfg nbr dbr txid rxid)) mem) = _ :=
    hostStep_initTaken mem hd hvalid
  have hhost := runsTo_of_runExec_init 8 (decode_take hd) rfl rfl rfl hrun rfl
  refine ⟨withAcks m false true true, w, ?_, by simp [hm.mdis_eq], by simp, by simp, by simp, fun b => ?_⟩
  · refine (RunsTo_cons (host_enabled_of_prog (by nofun)) htake).mpr (RunsTo_append.mpr ⟨_, hhost, ?_⟩)
    exact runsTo_enterFreeze hm.mdis_eq hm.frz_eq hm.halt_eq (hm.lpmAck_eq.trans lpmAck_initTaken)
      (hm.frzAck_eq.trans frzAck_initTaken)
  · rw [hw, initTaken, State.launch, BitVec.getLsbD_zero]

/-- From the first poll in freeze to the first one after it: HOST's lines 5 to 16, then FRZ-EXIT and READY. -/
theorem runsTo_operational {ws rest : List Word}
    (hp : s.seq.pos = .init .pollEnabled)
    (hd : decode ws = .ok (.init inst cfg nbr dbr txid rxid, rest)) (hdesc : s.seq.desc = some ws)
    (hmd : mdis s.mcr = false) (hl : lpmAck s.mcr = false)
    (hf : frzAck s.mcr = true) (hr : notRdy s.mcr = true)
    (hn : cfg.proto = .canFd → s.params.fdFdcbtWord &&& fdcbtNm = s.fdcbt &&& fdcbtNm)
    (ht : cfg.proto = .can20 → timingFor s.params (clkSrcOf s.ctrl1) cfg.qpb cfg.sp nbr ≠ none) :
    ∃ m w f cb fcb ram rximr,
      RunsTo
        (List.replicate
          ((if cfg.proto = .canFd then 6 else 4) + 6 + 128 + 2 * poolSize (initClass cfg) + 6) Move.host ++
          [.frzExit, .ready]) s
        ({ s with
            mcr := m
            ctrl1 := w
            fdctrl := f
            cbt := cb
            fdcbt := fcb
            ram := ram
            rximr := rximr
            txPending := 0#32
            sess := { s.sess with cls := some (initClass cfg), idType := some cfg.idt } }.start
          (.init .pollUnfrozen)) ∧
      operationalMcr m = true ∧ fdEn m = decide (cfg.proto = .canFd) ∧
      maxMb m = poolSize (initClass cfg) - 1 ∧
      (cfg.proto = .canFd → pclassOfBits (bits f 17 16) = cfg.pclass) ∧
      (∀ b, w.getLsbD b = if b = 12 then decide (cfg.mode = .loopBack) else s.ctrl1.getLsbD b) ∧
      PoolSetUp (initClass cfg) (rxIdWord cfg.idt rxid) ram rximr := by
  obtain ⟨m₁, f, cb, fcb, hrun₁, hm₁, hclass⟩ :=
    @runExec_toZeroRam s inst cfg nbr dbr txid rxid hp hl hf hn ht
  have hl₁ : lpmAck m₁ = false := hm₁.lpmAck_eq.trans hl
  have hf₁ : frzAck m₁ = true := hm₁.frzAck_eq.trans hf
  obtain ⟨ram, rximr, hrun₂, htag, hpool⟩ := @runExec_toFindTag _ inst cfg nbr dbr txid rxid
    (pos_of_start hrun₁) hf₁ hl₁ (hwClass_eq_initClass hm₁.fdEn_eq hclass)
  obtain ⟨m₂, w, hrun₃, hm₂, hw⟩ := @runExec_toPollUnfrozen _ inst cfg nbr dbr txid rxid
    (pos_of_goto hrun₂) hf₁ hl₁ (hwClass_eq_initClass hm₁.fdEn_eq hclass) htag
  have hrun := runExec_trans hrun₁ (runExec_trans hrun₂ hrun₃)
  have hhost := runsTo_of_runExec_init _ hd hp rfl hdesc hrun rfl
  have hlen : (if cfg.proto = .canFd then 6 else 4) + 6 + 128 + 2 * poolSize (initClass cfg) + 6 =
      (if cfg.proto = .canFd then 6 else 4) + 6 + (128 + 2 * poolSize (initClass cfg) + 6) := by omega
  refine ⟨withAcks m₂ false false false, w, f, cb, fcb, _, rximr, ?_, by simp [operationalMcr], ?_, ?_,
    hclass, hw, hpool _⟩
  · rw [hlen]
    refine RunsTo_append.mpr ⟨_, hhost, ?_⟩
    exact runsTo_leaveFreeze (hm₂.mdis_eq.trans (hm₁.mdis_eq.trans hmd)) hm₂.frz_eq
      (hm₂.lpmAck_eq.trans hl₁) (hm₂.frzAck_eq.trans hf₁) (hm₂.notRdy_eq.trans (hm₁.notRdy_eq.trans hr))
  · rw [fdEn_withAcks]
    exact hm₂.fdEn_eq.trans hm₁.fdEn_eq
  · rw [maxMb_withAcks]
    exact hm₂.maxMb_eq.trans hm₁.maxMb_eq

/-- Line 19. -/
theorem exec_init_complete (hp : s.seq.pos = .init .complete) :
    exec (.init inst cfg nbr dbr txid rxid) s =
      .next ({ s with sess := { s.sess with valid := true } }.finish .ok) := exec_init_micro hp

/-- From the first poll after freeze to the end: HOST's lines 17 to 19. -/
theorem runsTo_finished {ws rest : List Word}
    (hp : s.seq.pos = .init .pollUnfrozen)
    (hd : decode ws = .ok (.init inst cfg nbr dbr txid rxid, rest)) (hdesc : s.seq.desc = some ws)
    (ho : operational s = true) :
    RunsTo (List.replicate 3 Move.host) s
      ({ s.start (.init .complete) with sess := { s.sess with valid := true } }.finish .ok) := by
  simp only [operational, operationalMcr, Bool.and_eq_true, Bool.not_eq_true'] at ho
  obtain ⟨⟨-, hf⟩, hr⟩ := ho
  have hrun := @runExec_toComplete s inst cfg nbr dbr txid rxid hp hf hr
  have hne : (s.start (.init .complete)).seq.pos ≠ .idle := by nofun
  have hlast : runMove .host (s.start (.init .complete)) =
      .next ({ s.start (.init .complete) with sess := { s.sess with valid := true } }.finish .ok) :=
    (hostStep_inside hd hne hdesc).trans (exec_init_complete (State.start_pos _ _))
  exact (RunsTo_append (ms := List.replicate 2 .host) (ns := [.host])).mpr
    ⟨_, runsTo_of_runExec_init 2 hd hp rfl hdesc hrun rfl, (RunsTo_cons (host_enabled hne) hlast).mpr rfl⟩

end
end Sys2Proof.Machine

open Sys2Proof Sys2Proof.Machine

/-- Settles O49: the three parts of the run, from reset into freeze, through the configuration in freeze, and out
of it. -/
theorem initFromResetBringsControllerUp : Obligations.InitFromResetBringsControllerUp := by
  unfold Obligations.InitFromResetBringsControllerUp
  rintro p cfg nbr dbr txid rxid mem c hwf hfits rfl hvalid
  have hd := decode_encode (rest := []) hfits
  rw [List.append_nil] at hd
  have hd' := decode_take hd
  obtain ⟨m₁, w₁, hrun₁, hmd, hl, hf, hr, hclk⟩ := runsTo_frozen (mem := mem) hd hvalid
  have hn : p.fdFdcbtWord &&& fdcbtNm = 0#32 &&& fdcbtNm := by
    rw [fdFdcbtWord_of_wf hwf, BitVec.zero_and]
  have hclkSrc : clkSrcOf w₁ = cfg.clk := clkSrcOf_eq (hclk 13)
  have ht : cfg.proto = .can20 → timingFor p (clkSrcOf w₁) cfg.qpb cfg.sp nbr ≠ none := by
    rw [hclkSrc]
    exact timingFor_of_valid hvalid
  obtain ⟨m, w, f, cb, fcb, ram, rximr, hrun₂, ho, hfd, hmx, hclass, hw, hpool⟩ :=
    runsTo_operational (pos_of_runsTo_start hrun₁) hd' rfl hmd hl hf hr (fun _ => hn) ht
  have hrun₃ := runsTo_finished (pos_of_runsTo_start hrun₂) hd' rfl ho
  have hrun := RunsTo_append.mpr ⟨_, hrun₁, RunsTo_append.mpr ⟨_, hrun₂, hrun₃⟩⟩
  rw [← initSchedule_eq] at hrun
  refine ⟨_, hrun, ⟨rfl, rfl⟩, rfl, ho, hwClass_eq_initClass hfd hclass, rfl, hmx, ?_, ?_, rfl, rfl, rfl,
    hpool.masks, hpool.rxTags, hpool.txTags, hpool.rxId, hpool.zeros⟩
  · exact hw 12
  · exact clkSrcOf_eq ((hw 13).trans (hclk 13))

end

section
/-! PROOFS. TRANSMIT's checks (O29) and its scan of the pool (O30). -/

namespace Sys2Proof.Machine

variable {s : State} {inst len : Nat} {id src : Word} {c : PClass}

/-- Between operations TRANSMIT's micro-step is its checks. -/
theorem exec_transmit_idle (hp : s.seq.pos = .idle) :
    exec (.transmit inst len id src) s = tryDo (transmitStart inst len src s) .next := by
  simp only [exec, execTransmit, hp]

/-- Inside TRANSMIT the micro-step is the one its position names, under the session's class. -/
theorem exec_transmit_micro {p : TxPos} (hp : s.seq.pos = .transmit p) (hc : s.sess.cls = some c) :
    exec (.transmit inst len id src) s = transmitMicro c id src p s := by
  simp only [exec, execTransmit, hp, sessClass, hc, needed_some, tryDo_ok]

/-! ## The checks of micro-step 0 (R148) -/

theorem transmitStart_notInitialized (hv : s.sess.valid = false) :
    transmitStart 0 len src s = .error .notInitialized := by
  simp [transmitStart, Config.modelledInst, hv]

theorem transmitStart_poison (hv : s.sess.valid = true) (hc : s.sess.cls = none) :
    transmitStart 0 len src s = .error .readPoison := by
  simp [transmitStart, Config.modelledInst, hv, sessClass, hc]

/-- Under a valid session with a class, two checks are left: LEN and the host range. -/
theorem transmitStart_session (hv : s.sess.valid = true) (hc : s.sess.cls = some c) :
    transmitStart 0 len src s =
      thenDo (check (decide (len = payloadBytes c)) .payloadLength) fun _ =>
        thenDo (check (hostRangeOk s.params src len) .hostRange) fun _ =>
          .ok (s.start (.transmit (.scan 0))) := by
  simp [transmitStart, Config.modelledInst, hv, sessClass, hc]

theorem transmitStart_accepted (hv : s.sess.valid = true) (hc : s.sess.cls = some c)
    (hlen : len = payloadBytes c) (hr : HostRangeFits s.params src.toNat len) :
    transmitStart 0 len src s = .ok (s.start (.transmit (.scan 0))) := by
  rw [transmitStart_session hv hc, decide_eq_true hlen, hostRangeOk_iff.mpr hr, check_true, check_true,
    thenDo_ok, thenDo_ok]

/-! ## The scan (R149, R150) -/

/-- The free control words of R149. -/
theorem txFree_iff {m : Config.TxFreeMatch} {w : Word} :
    txFree m w = true ↔
      (m = .codeField ∧ codeOf w = codeTxInactive) ∨ (m = .wholeWord ∧ w = 0x08000000#32) := by
  cases m <;> simp [txFree, tagTxInactive]

/-- The micro-step that reads the control word of buffer `i`. -/
theorem transmitMicro_scan {i : Nat} {w : Word} (hi : i < poolSize c) (hl : lpmAck s.mcr = false)
    (hw : cellRead s.ram (csIndex c i) = some w) :
    transmitMicro c id src (.scan i) s =
      if txFree s.params.txFreeMatch w then .next (s.goto (.transmit (.writeId i)))
      else if i + 1 < poolSize c then .next (s.goto (.transmit (.scan (i + 1))))
      else .fault .noFreeTxBuffer := by
  rw [transmitMicro, regRead_ram s (csIndex_lt_ram hi) hl, hw, needed_some, tryDo_ok]
  rfl

/-- The scan passes over the buffers that are not free. -/
theorem runExec_transmit_pass {n : Nat} {cs : Nat → Word} (hp : s.seq.pos = .transmit (.scan 0))
    (hc : s.sess.cls = some c) (hl : lpmAck s.mcr = false) (hn : n < poolSize c)
    (hcs : ∀ i, i < n → cellRead s.ram (csIndex c i) = some (cs i))
    (hbusy : ∀ i, i < n → ¬ txFree s.params.txFreeMatch (cs i) = true) :
    runExec (.transmit inst len id src) n s = .next (s.goto (.transmit (.scan n))) := by
  have hloop := runExec_loop (i := .transmit inst len id src)
    (fun i => s.goto (.transmit (.scan i))) n fun i hi => ?_
  · rwa [goto_of_pos hp] at hloop
  · have hscan := transmitMicro_scan (s := s.goto (.transmit (.scan i))) (id := id) (src := src)
      (hi.trans hn) hl (hcs i hi)
    refine (exec_transmit_micro (State.goto_pos s _) hc).trans (hscan.trans ?_)
    exact (if_neg (hbusy i hi)).trans (if_pos (by omega))

/-- The scan stops at the first free buffer. -/
theorem runExec_transmit_claim {j : Nat} {cs : Nat → Word} (hp : s.seq.pos = .transmit (.scan 0))
    (hc : s.sess.cls = some c) (hl : lpmAck s.mcr = false) (hj : j < poolSize c)
    (hcs : ∀ i, i < poolSize c → cellRead s.ram (csIndex c i) = some (cs i))
    (hfree : txFree s.params.txFreeMatch (cs j) = true)
    (hbusy : ∀ i, i < j → ¬ txFree s.params.txFreeMatch (cs i) = true) :
    runExec (.transmit inst len id src) (j + 1) s = .next (s.goto (.transmit (.writeId j))) := by
  have hpass := runExec_transmit_pass (inst := inst) (len := len) (id := id) (src := src) hp hc hl hj
    (fun i hi => hcs i (hi.trans hj)) hbusy
  have hscan := transmitMicro_scan (s := s.goto (.transmit (.scan j))) (id := id) (src := src) hj hl
    (hcs j hj)
  refine runExec_trans hpass (runExec_one ?_)
  exact (exec_transmit_micro (State.goto_pos s _) hc).trans (hscan.trans (if_pos hfree))

/-- Where no buffer is free, the read of the last control word is the fault. -/
theorem runExec_transmit_noFree {cs : Nat → Word} (hp : s.seq.pos = .transmit (.scan 0))
    (hc : s.sess.cls = some c) (hl : lpmAck s.mcr = false)
    (hcs : ∀ i, i < poolSize c → cellRead s.ram (csIndex c i) = some (cs i))
    (hbusy : ∀ i, i < poolSize c → ¬ txFree s.params.txFreeMatch (cs i) = true) :
    runExec (.transmit inst len id src) (poolSize c) s = .fault .noFreeTxBuffer := by
  obtain ⟨n, hn⟩ := Nat.exists_eq_succ_of_ne_zero (poolSize_pos c).ne'
  have hlast : n < poolSize c := by omega
  have hpass := runExec_transmit_pass (inst := inst) (len := len) (id := id) (src := src) hp hc hl hlast
    (fun i hi => hcs i (hi.trans hlast)) fun i hi => hbusy i (hi.trans hlast)
  have hscan := transmitMicro_scan (s := s.goto (.transmit (.scan n))) (id := id) (src := src) hlast hl
    (hcs n hlast)
  rw [hn, Nat.succ_eq_add_one, runExec_add 1 hpass]
  refine runExec_fault 0 ((exec_transmit_micro (State.goto_pos s _) hc).trans (hscan.trans ?_))
  exact (if_neg (hbusy n hlast)).trans (if_neg (by omega))

end Sys2Proof.Machine

open Sys2Proof Sys2Proof.Machine

/-- Settles O29: the checks of micro-step 0 in their order. -/
theorem transmitChecksPreconditions : Obligations.TransmitChecksPreconditions := by
  unfold Obligations.TransmitChecksPreconditions
  intro inst len id src s hp
  refine ⟨fun hi => exec_badInstance hp hi (.inl rfl), ?_, ?_, ?_⟩
  · rintro rfl hv
    rw [exec_transmit_idle hp, transmitStart_notInitialized hv, tryDo_error]
  · rintro rfl hv hc
    rw [exec_transmit_idle hp, transmitStart_poison hv hc, tryDo_error]
  · rintro c rfl hv hc
    refine ⟨fun hlen => ?_, fun hlen hr => ?_, fun hlen hr => ?_⟩
    · rw [exec_transmit_idle hp, transmitStart_session hv hc, decide_eq_false hlen, check_false,
        thenDo_error, tryDo_error]
    · rw [← hostRangeOk_iff, Bool.not_eq_true] at hr
      rw [exec_transmit_idle hp, transmitStart_session hv hc, decide_eq_true hlen, hr, check_true,
        thenDo_ok, check_false, thenDo_error, tryDo_error]
    · rw [exec_transmit_idle hp, transmitStart_accepted hv hc hlen hr, tryDo_ok]

/-- Settles O30: the scan passes over the buffers before the first free one, or over all but the last. -/
theorem transmitClaimsFirstFreeBuffer : Obligations.TransmitClaimsFirstFreeBuffer := by
  unfold Obligations.TransmitClaimsFirstFreeBuffer
  intro inst len id src s c cs free hp hc hl hcs hfree
  have hiff : ∀ w, free w ↔ txFree s.params.txFreeMatch w = true := fun w =>
    (hfree w).trans txFree_iff.symm
  simp only [hiff]
  exact ⟨fun j hj => runExec_transmit_claim hp hc hl hj hcs, runExec_transmit_noFree hp hc hl hcs⟩

end

section
/-! PROOFS. What TRANSMIT stores in its buffer (O31). -/

namespace Sys2Proof.Machine

variable {s u : State} {inst len j : Nat} {id src : Word} {c : PClass} {ext : Bool}

/-! ## The words TRANSMIT makes (R100, R151, R152) -/

/-- The identifier encoding in force (R151). -/
theorem sessExtended_eq
    (h : (s.params.txIdMode = .alwaysStandard ∧ ext = false) ∨
      (s.params.txIdMode = .followConfig ∧
        ((s.sess.idType = some .standard ∧ ext = false) ∨
          (s.sess.idType = some .extended ∧ ext = true)))) : sessExtended s = .ok ext := by
  obtain ⟨hm, rfl⟩ | ⟨hm, ⟨ht, rfl⟩ | ⟨ht, rfl⟩⟩ := h
  · simp only [sessExtended, hm]
  · simp only [sessExtended, hm, ht, needed_some, thenDo_ok, txExtended]
  · simp only [sessExtended, hm, ht, needed_some, thenDo_ok, txExtended]

/-- The control word of each class, as numbers (R100). -/
theorem txCs_eq (ext : Bool) (c : PClass) :
    txCs ext c =
      (if ext then 0x00600000#32 else 0#32) |||
        (match c with
          | .b8 => 0x0C080000#32
          | .b16 => 0x0C0A0000#32
          | .b32 => 0x0C0D0000#32
          | .b64 => 0x0C0F0000#32) := by
  cases ext <;> cases c <;> decide

@[simp] theorem codeOf_txCs (ext : Bool) (c : PClass) : codeOf (txCs ext c) = codeTxData := by
  cases ext <;> cases c <;> decide

/-- A payload word is packed from its four host bytes. -/
theorem packFrom_ok {k : Nat} {b0 b1 b2 b3 : Byte}
    (h0 : cellRead s.hostMem (src.toNat + 4 * k) = some b0)
    (h1 : cellRead s.hostMem (src.toNat + 4 * k + 1) = some b1)
    (h2 : cellRead s.hostMem (src.toNat + 4 * k + 2) = some b2)
    (h3 : cellRead s.hostMem (src.toNat + 4 * k + 3) = some b3) :
    packFrom src k s = .ok (packWord b0 b1 b2 b3) := by
  simp only [packFrom, hostRead, ← Nat.add_assoc, h0, h1, h2, h3, needed_some, thenDo_ok]

/-- Poison met now or later on is ReadPoison. -/
theorem thenDo_needed_poison {α β : Type} {x : Option α} {k : α → Except Fault β}
    (h : x = none ∨ ∀ a, k a = .error .readPoison) : thenDo (needed x) k = .error .readPoison := by
  cases x with
  | none => rfl
  | some a => exact h.elim nofun fun hk => hk a

/-- A poison host byte of a payload word is ReadPoison, whatever the bytes before it are. -/
theorem packFrom_poison {k m : Nat} (hm : m < 4)
    (h : cellRead s.hostMem (src.toNat + 4 * k + m) = none) :
    packFrom src k s = .error .readPoison := by
  rw [Nat.add_assoc] at h
  obtain rfl | rfl | rfl | rfl : m = 0 ∨ m = 1 ∨ m = 2 ∨ m = 3 := by omega
  · exact thenDo_needed_poison (.inl h)
  · exact thenDo_needed_poison (.inr fun _ => thenDo_needed_poison (.inl h))
  · exact thenDo_needed_poison (.inr fun _ => thenDo_needed_poison (.inr fun _ =>
      thenDo_needed_poison (.inl h)))
  · exact thenDo_needed_poison (.inr fun _ => thenDo_needed_poison (.inr fun _ =>
      thenDo_needed_poison (.inr fun _ => thenDo_needed_poison (.inl h))))

/-! ## The three kinds of store (R147 lines 2 to 4) -/

/-- The position of payload word `k` of buffer `j`, or the one after the payload. -/
def txDataPos (c : PClass) (j k : Nat) : TxPos :=
  if k < dataWords c then .writeData j k else .writeCs j

/-- `TxStore s c id src ext j p x w q`: in `s`, TRANSMIT's micro-step at `p` makes the word `w` for RAM[x],
a word of buffer `j`, and goes on to `q`. -/
inductive TxStore (s : State) (c : PClass) (id src : Word) (ext : Bool) (j : Nat) :
    TxPos → Nat → Word → TxPos → Prop
  | identifier : TxStore s c id src ext j (.writeId j) (csIndex c j + 1) (txIdWord ext id) (.writeData j 0)
  | payload {k : Nat} {w : Word} : k < dataWords c → packFrom src k s = .ok w →
      TxStore s c id src ext j (.writeData j k) (csIndex c j + 2 + k) w (txDataPos c j (k + 1))
  | control : TxStore s c id src ext j (.writeCs j) (csIndex c j) (txCs ext c) (.request j)

variable {p q : TxPos} {x : Nat} {w : Word}

/-- The micro-step of a store is the block write of its word (R159). -/
theorem TxStore.exec_eq (h : TxStore s c id src ext j p x w q) (hp : s.seq.pos = .transmit p)
    (hc : s.sess.cls = some c) (he : sessExtended s = .ok ext) :
    exec (.transmit inst len id src) s = writeStep (offRam x) w (.transmit q) s := by
  rw [exec_transmit_micro hp hc]
  cases h with
  | identifier => rw [transmitMicro, he, thenDo_ok, transmitPut, tryDo_ok]; rfl
  | payload _ hw => rw [transmitMicro, hw, transmitPut, tryDo_ok]; rfl
  | control => rw [transmitMicro, he, thenDo_ok, transmitPut, tryDo_ok]

theorem writeStep_ok {off : Nat} {v : Word} {r : Pos} (h : regWrite off v s = .ok u) :
    writeStep off v r s = .next (u.goto r) := writeStep_eq_next.mpr ⟨u, h, rfl⟩

theorem writeStep_error {off : Nat} {v : Word} {r : Pos} {f : Fault} (h : regWrite off v s = .error f) :
    writeStep off v r s = .fault f := by
  rw [writeStep, h, tryDo_error]

/-- TRANSMIT's stores in buffer `j` are made: HOST owns it, in an enabled module, under one class `c`; `ext` is
the encoding in force. -/
structure TxOpen (s : State) (c : PClass) (ext : Bool) (j : Nat) : Prop where
  cls : s.sess.cls = some c
  encoding : sessExtended s = .ok ext
  geometry : hwClass s = c
  enabled : lpmAck s.mcr = false
  inPool : j < poolSize c
  owned : HostOwns s j

/-- The identifier's store. -/
theorem exec_transmit_writeId (hp : s.seq.pos = .transmit (.writeId j)) (h : TxOpen s c ext j) :
    exec (.transmit inst len id src) s =
      .next ({ s with ram := cellWrite s.ram (csIndex c j + 1) (txIdWord ext id) }.goto
        (.transmit (.writeData j 0))) :=
  (TxStore.identifier.exec_eq hp h.cls h.encoding).trans
    (writeStep_ok (regWrite_bufferWord _ h.geometry h.enabled h.inPool h.owned
      (by rw [bufWords_eq]; omega) Nat.one_ne_zero))

/-- The store of payload word `k`. -/
theorem exec_transmit_writeData {k : Nat} (hp : s.seq.pos = .transmit (.writeData j k))
    (h : TxOpen s c ext j) (hk : k < dataWords c) (hw : packFrom src k s = .ok w) :
    exec (.transmit inst len id src) s =
      .next ({ s with ram := cellWrite s.ram (csIndex c j + 2 + k) w }.goto
        (.transmit (txDataPos c j (k + 1)))) := by
  refine ((TxStore.payload hk hw).exec_eq hp h.cls h.encoding).trans (writeStep_ok ?_)
  rw [Nat.add_assoc]
  exact regWrite_bufferWord _ h.geometry h.enabled h.inPool h.owned (by rw [bufWords_eq]; omega)
    (by omega)

/-- The store of the control word. -/
theorem exec_transmit_writeCs (hp : s.seq.pos = .transmit (.writeCs j)) (h : TxOpen s c ext j) :
    exec (.transmit inst len id src) s =
      .next ({ s with
                ram := cellWrite s.ram (csIndex c j) (txCs ext c)
                txPending := clearBit s.txPending j }.goto (.transmit (.request j))) :=
  (TxStore.control.exec_eq hp h.cls h.encoding).trans
    (writeStep_ok (regWrite_csWord _ h.geometry h.enabled h.inPool h.owned (by rw [codeOf_txCs]; rfl)))

/-- A payload word that cannot be made is the fault of its micro-step (log 19). -/
theorem exec_transmit_poison {k m : Nat} (hp : s.seq.pos = .transmit (.writeData j k))
    (hc : s.sess.cls = some c) (hm : m < 4)
    (h : cellRead s.hostMem (src.toNat + 4 * k + m) = none) :
    exec (.transmit inst len id src) s = .fault .readPoison := by
  rw [exec_transmit_micro hp hc, transmitMicro, packFrom_poison hm h, transmitPut, tryDo_error]

end Sys2Proof.Machine

open Sys2Proof Sys2Proof.Machine

/-- Settles O31: each micro-step is the block write of its word, which is made in a buffer HOST owns. -/
theorem transmitWritesItsBuffer : Obligations.TransmitWritesItsBuffer := by
  unfold Obligations.TransmitWritesItsBuffer
  intro inst len j id src s c ext idw csw i hi hc hj hext hidw hcsw
  subst hi
  obtain rfl : idw = txIdWord ext id := hidw
  obtain rfl : csw = txCs ext c := hcsw.trans (txCs_eq ext c).symm
  have he := sessExtended_eq hext
  refine ⟨fun hh hl ho => ?_, fun k m hp hk hm h => exec_transmit_poison hp hc hm h,
    fun p q x w hp hstore => ?_⟩
  · have hopen : TxOpen s c ext j := ⟨hc, he, hh, hl, hj, ho⟩
    exact ⟨fun hp => exec_transmit_writeId hp hopen, fun k b0 b1 b2 b3 hp hk h0 h1 h2 h3 =>
      exec_transmit_writeData hp hopen hk (packFrom_ok h0 h1 h2 h3), fun hp => exec_transmit_writeCs hp hopen⟩
  · have hstore : TxStore s c id src ext j p x w q := by
      obtain ⟨rfl, rfl, rfl, rfl⟩ | ⟨k, b0, b1, b2, b3, rfl, hk, rfl, h0, h1, h2, h3, rfl, rfl⟩ |
        ⟨rfl, rfl, rfl, rfl⟩ := hstore
      · exact .identifier
      · exact .payload hk (packFrom_ok h0 h1 h2 h3)
      · exact .control
    have hexec := hstore.exec_eq (inst := inst) (len := len) hp hc he
    exact ⟨fun u hu => hexec.trans (writeStep_ok hu), fun r hr => hexec.trans (writeStep_error hr)⟩

end

section
/-! PROOFS. TRANSMIT's request and its poll (O32), and the revocation of a request that timed out (O33). -/

namespace Sys2Proof.Machine

variable {s : State} {inst len j : Nat} {id src : Word} {c : PClass} {w : Word}

/-! ## The request (R61, R152) -/

/-- A write of flag `j` that finds no full buffer there changes no RAM word. -/
theorem cellRead_released_flag (hw : hwCs s j = some w) (hne : codeOf w ≠ codeRxFull) (k : Nat) :
    cellRead (cellMap (releasedWord (bitWord j) (hwClass s)) s.ram) k = cellRead s.ram k := by
  refine cellRead_released_other ?_
  rintro ⟨i, -, -, hbit, hfull⟩
  rw [getLsbD_bitWord, Bool.and_eq_true, decide_eq_true_eq] at hbit
  obtain ⟨rfl, -⟩ := hbit
  rw [hwCodeIs_of_hwCs _ hw] at hfull
  exact hne (beq_iff_eq.mp hfull)

/-- A write of flag `j` of a TX_DATA buffer requests that buffer and no other. -/
theorem getLsbD_request (hj : j < poolSize (hwClass s)) (hw : hwCs s j = some w)
    (hd : codeOf w = codeTxData) (b : Nat) :
    (s.txPending ||| requestMask (bitWord j) s).getLsbD b =
      (s.txPending.getLsbD b || decide (b = j)) := by
  rw [BitVec.getLsbD_or, getLsbD_requestMask, getLsbD_flagWord (hj.trans_le (poolSize_le _))]
  by_cases hb : b = j
  · subst hb
    simp [hj, hwCodeIs_of_hwCs _ hw, hd]
  · simp [hb]

/-- The request's micro-step. -/
theorem exec_transmit_request (hp : s.seq.pos = .transmit (.request j)) (hc : s.sess.cls = some c)
    (hw : hwCs s j = some w) :
    exec (.transmit inst len id src) s =
      .next ({ s with
                iflag := w1c s.iflag (bitWord j)
                txPending := s.txPending ||| requestMask (bitWord j) s
                ram := cellMap (releasedWord (bitWord j) (hwClass s)) s.ram }.goto
        (.transmit (.poll j))) :=
  (exec_transmit_micro hp hc).trans (writeStep_ok (regWrite_flag hw))

/-! ## The poll (R153, R226) -/

theorem pollStep_done {off : Nat} {cond : Word → Bool} {p q : Pos} (hr : regRead off s = .ok w)
    (h : cond w = true) : pollStep off cond p q s = .next (s.start p) := by
  rw [pollStep, hr, tryDo_ok, if_pos h]
  rfl

/-- A failed attempt under a limit counts, and the last one leads to the timeout rule (R226). -/
theorem pollStep_counts {off n : Nat} {cond : Word → Bool} {p q here : Pos} (hr : regRead off s = .ok w)
    (h : cond w = false) (hpos : s.seq.pos = here) (hl : s.params.pollLimit = some n) :
    pollStep off cond p q s =
      .next { s with
                seq :=
                  { s.seq with
                    attempts := s.seq.attempts + 1
                    pos := if s.seq.attempts + 1 = n then q else here } } := by
  rw [pollStep, hr, tryDo_ok, if_neg (Bool.eq_false_iff.mp h), State.pollFailed, hl]
  dsimp only
  split
  · rfl
  · rw [← hpos]

/-- One attempt of TRANSMIT's poll is one read of IFLAG1. -/
theorem exec_transmit_poll (hp : s.seq.pos = .transmit (.poll j)) (hc : s.sess.cls = some c) :
    exec (.transmit inst len id src) s =
      pollStep offIflag1 (fun f => f.getLsbD j) (.transmit .complete) (.transmit (.revoke j)) s :=
  exec_transmit_micro hp hc

theorem exec_transmit_polled (hp : s.seq.pos = .transmit (.poll j)) (hc : s.sess.cls = some c)
    (hf : s.iflag.getLsbD j = true) :
    exec (.transmit inst len id src) s = .next (s.start (.transmit .complete)) :=
  (exec_transmit_poll hp hc).trans (pollStep_done (regRead_iflag1 s) hf)

theorem exec_transmit_complete (hp : s.seq.pos = .transmit .complete) (hc : s.sess.cls = some c) :
    exec (.transmit inst len id src) s = .next (s.finish .ok) :=
  exec_transmit_micro hp hc

/-! ## The revocation (R63, R155) -/

/-- A buffer whose control word is no poison has one owner (R62). -/
theorem hostOwns_or_engineOwns (hw : hwCs s j = some w) : HostOwns s j ∨ EngineOwns s j := by
  by_cases hop : operational s = true
  · by_cases hown : codeOf w = codeRxEmpty ∨ (codeOf w = codeTxData ∧ s.txPending.getLsbD j = true)
    · exact .inr ⟨hop, w, hw, hown⟩
    · rw [not_or] at hown
      exact .inl (.inr ⟨w, hw, hown⟩)
  · exact .inl (.inl (Bool.eq_false_iff.mpr hop))

/-- The control word of a buffer ENGINE owns (R62). -/
theorem EngineOwns.code (h : EngineOwns s j) (hw : hwCs s j = some w) :
    codeOf w = codeRxEmpty ∨ (codeOf w = codeTxData ∧ s.txPending.getLsbD j = true) := by
  obtain ⟨-, w', hw', hown⟩ := h
  obtain rfl : w = w' := Option.some.inj (hw.symm.trans hw')
  exact hown

/-- HOST owns a buffer whose code is neither RX_EMPTY nor TX_DATA. -/
theorem hostOwns_of_code (hw : hwCs s j = some w) (hrx : codeOf w ≠ codeRxEmpty)
    (htx : codeOf w ≠ codeTxData) : HostOwns s j :=
  .inr ⟨w, hw, hrx, fun h => htx h.1⟩

theorem hwCodeIs_iff {x : BitVec 4} :
    hwCodeIs s x j = true ↔ ∃ w, hwCs s j = some w ∧ codeOf w = x := by
  rw [hwCodeIs]
  cases hwCs s j <;> simp

/-- The transmit tag is stored in a TX_DATA buffer whoever owns it, as a plain write or as a revocation. -/
theorem regWrite_revoke (hh : hwClass s = c) (hl : lpmAck s.mcr = false) (hj : j < poolSize c)
    (h : HostOwns s j ∨ hwCodeIs s codeTxData j = true) :
    regWrite (offRam (csIndex c j)) tagTxInactive s =
      .ok { s with
            ram := cellWrite s.ram (csIndex c j) tagTxInactive
            txPending := clearBit s.txPending j } := by
  have plain : HostOwns s j → _ := fun ho =>
    regWrite_csWord tagTxInactive hh hl hj ho (show codeDefined (codeOf tagTxInactive) = true by decide)
  obtain ho | hd := h
  · exact plain ho
  obtain ⟨w, hw, hd⟩ := hwCodeIs_iff.mp hd
  obtain ho | ho := hostOwns_or_engineOwns hw
  · exact plain ho
  have hpend : s.txPending.getLsbD j = true := by
    obtain hrx | ⟨-, hpend⟩ := ho.code hw
    · rw [hd] at hrx; exact absurd hrx (by decide)
    · exact hpend
  subst hh
  rw [regWrite_ram _ (csIndex_lt_ram hj) hl]
  exact writeRam_revocation (csIndex_div j).symm hj rfl ⟨true, engineOwns_of_engineOwns ho⟩
    ((isRevocation_iff hw).mpr ⟨rfl, hd, hpend, by decide⟩)

end Sys2Proof.Machine

open Sys2Proof Sys2Proof.Machine

/-- Settles O32: the request as one write of IFLAG1, the attempts of the poll, the end. -/
theorem transmitRequestsAndWaits : Obligations.TransmitRequestsAndWaits := by
  unfold Obligations.TransmitRequestsAndWaits
  intro inst len j id src s c hc hj
  refine ⟨fun w hp hh hw hd => ?_, fun hp => ⟨fun hf => exec_transmit_polled hp hc hf,
    fun hf hl => ?_, fun n hf hl => ?_⟩, fun hp => exec_transmit_complete hp hc⟩
  · subst hh
    have hram := cellRead_released_flag hw (by rw [hd]; decide)
    have hpend := getLsbD_request hj hw hd
    refine ⟨_, exec_transmit_request hp hc hw, rfl, fun b => ?_, hpend, hram, fun hop => ?_⟩
    · exact (getLsbD_w1c _ _ b).trans (by rw [getLsbD_flagWord (hj.trans_le (poolSize_le _))])
    · exact ⟨hop, w, (hram _).trans hw, .inr ⟨hd, (hpend j).trans (by simp)⟩⟩
  · exact (exec_transmit_poll hp hc).trans (pollStep_fails hl (regRead_iflag1 s) hf)
  · exact (exec_transmit_poll hp hc).trans (pollStep_counts (regRead_iflag1 s) hf hp hl)

/-- Settles O33: the tag is stored whoever owns the buffer, and its code leaves it to HOST. -/
theorem transmitTimeoutRevokes : Obligations.TransmitTimeoutRevokes := by
  unfold Obligations.TransmitTimeoutRevokes
  intro inst len j id src s c hc
  refine ⟨fun hp hj hh hl hown => ?_, fun hp => exec_transmit_micro hp hc⟩
  have hexec : exec (.transmit inst len id src) s = _ :=
    (exec_transmit_micro hp hc).trans (writeStep_ok (regWrite_revoke hh hl hj hown))
  refine ⟨_, hexec, rfl, ?_⟩
  subst hh
  have hcs : hwCs (State.goto
      { s with
        ram := cellWrite s.ram (csIndex (hwClass s) j) tagTxInactive
        txPending := clearBit s.txPending j } (.transmit .timeoutFinish)) j = some tagTxInactive :=
    cellRead_cellWrite_same ..
  exact ⟨hcs, by simp [getLsbD_clearBit], hostOwns_of_code hcs (by decide) (by decide)⟩

end

section
/-! PROOFS. The frame of TRANSMIT (O34). -/

namespace Sys2Proof.Machine

variable {s t : State} {id src : Word} {c : PClass} {p : TxPos}

/-! ## What a micro-step leaves alone, by its position -/

/-- From `s` to `t` the micro-step of TRANSMIT at `p` wrote at most the word its position names. -/
structure TxFrame (c : PClass) (p : TxPos) (s t : State) : Prop where
  host : HostFrame s t
  sess : t.sess = s.sess
  hostMem : t.hostMem = s.hostMem
  value : t.seq.value = s.seq.value
  block : ∃ flags, (∀ j, p = .request j → ∀ b, flags.getLsbD b = decide (b = j)) ∧
    BlockFrame (txTarget c p) flags s t

/-- A micro-step that writes the word its position names and goes on. -/
theorem txFrame_writeStep {off : Nat} {v : Word} {w : BlockWord} {q : Pos}
    (ht : txTarget c p = some w) (hw : blockWord off = .ok w)
    (hv : ∀ j, p = .request j → ∀ b, v.getLsbD b = decide (b = j))
    (h : writeStep off v q s = .next t) : TxFrame c p s t := by
  obtain ⟨u, hu, rfl⟩ := writeStep_eq_next.mp h
  obtain ⟨hhost, hsess, hmem, hvalue, hblock⟩ := regWrite_goto_frame q hw hu
  exact ⟨hhost, hsess, hmem, hvalue, v, hv, ht ▸ hblock⟩

/-- A micro-step that stores a RAM word, once the word is made. -/
theorem txFrame_transmitPut {k : Nat} {v : Except Fault Word} {q : TxPos}
    (ht : txTarget c p = some (.ram k)) (hk : k < Config.ramWords) (hp : ∀ j, p ≠ .request j)
    (h : transmitPut k v q s = .next t) : TxFrame c p s t := by
  obtain ⟨w, -, h⟩ := tryDo_eq_next.mp h
  exact txFrame_writeStep ht (blockWord_ram hk) (fun j hj => absurd hj (hp j)) h

/-- A micro-step that only moves the sequencer. -/
theorem txFrame_movesOnly (hp : ∀ j, p ≠ .request j) (h : MovesOnly s t) : TxFrame c p s t :=
  ⟨h.hostFrame, by rw [h.rest], by rw [h.rest], h.value, 0#32, fun j hj => absurd hj (hp j),
    .of_block_eq h.rest⟩

/-- A poll attempt only moves the sequencer (R226). -/
theorem movesOnly_pollStep {off : Nat} {cond : Word → Bool} {q r : Pos}
    (h : pollStep off cond q r s = .next t) : MovesOnly s t := by
  obtain ⟨w, -, ⟨-, rfl⟩ | ⟨-, -, rfl⟩ | ⟨n, -, -, ⟨-, rfl⟩ | ⟨-, rfl⟩⟩⟩ := pollStep_eq_next h
  · exact movesOnly_start q
  all_goals exact ⟨rfl, rfl, rfl, [], (List.append_nil _).symm⟩

/-- A word of a buffer of the pool is a RAM word. -/
theorem bufferIndex_lt {m : Nat} (hj : j < poolSize c) (hm : m < bufWords c) :
    csIndex c j + m < Config.ramWords := by
  have hlt := csIndex_lt hj
  omega

theorem transmitMicro_frame (hfit : txPosFits c p = true) (h : transmitMicro c id src p s = .next t) :
    TxFrame c p s t := by
  have hwords := bufWords_eq c
  cases p with
  | scan i =>
    obtain ⟨w, -, h⟩ := tryDo_eq_next.mp h
    split at h
    · cases h; exact txFrame_movesOnly nofun (movesOnly_goto _)
    · split at h <;> cases h
      exact txFrame_movesOnly nofun (movesOnly_goto _)
  | writeId j =>
    exact txFrame_transmitPut rfl (bufferIndex_lt (of_decide_eq_true hfit) (by omega)) nofun h
  | writeData j k =>
    simp only [txPosFits, Bool.and_eq_true, decide_eq_true_eq] at hfit
    obtain ⟨hj, hk⟩ := hfit
    refine txFrame_transmitPut rfl ?_ nofun h
    rw [dataIndex, Nat.add_assoc]
    exact bufferIndex_lt hj (by omega)
  | writeCs j => exact txFrame_transmitPut rfl (csIndex_lt_ram (of_decide_eq_true hfit)) nofun h
  | revoke j => exact txFrame_transmitPut rfl (csIndex_lt_ram (of_decide_eq_true hfit)) nofun h
  | request j =>
    refine txFrame_writeStep rfl blockWord_iflag1 ?_ h
    rintro _ ⟨⟩
    exact getLsbD_flagWord ((of_decide_eq_true hfit : j < poolSize c).trans_le (poolSize_le c))
  | poll j => exact txFrame_movesOnly nofun (movesOnly_pollStep h)
  | complete => cases h; exact txFrame_movesOnly nofun (movesOnly_finish _)
  | timeoutFinish => cases h; exact txFrame_movesOnly nofun (movesOnly_finish _)

end Sys2Proof.Machine

open Sys2Proof Sys2Proof.Machine

/-- Settles O34: the checks only move the sequencer; every other micro-step writes at most the word its
position names. -/
theorem transmitLeavesTheRest : Obligations.TransmitLeavesTheRest := by
  unfold Obligations.TransmitLeavesTheRest
  intro inst len id src s t hfit h
  cases hpos : s.seq.pos with
  | idle =>
    rw [exec_transmit_idle hpos] at h
    obtain ⟨u, hu, h⟩ := tryDo_eq_next.mp h
    cases h
    obtain ⟨-, rfl⟩ := transmitStart_spec hu
    exact ⟨(movesOnly_start _).hostFrame, rfl, rfl, rfl, fun _ => .of_block_eq rfl, nofun⟩
  | transmit p =>
    rw [hpos] at hfit
    cases hc : s.sess.cls with
    | none => simp [posFits, hc] at hfit
    | some c =>
      rw [posFits_transmit hc] at hfit
      rw [exec_transmit_micro hpos hc] at h
      obtain ⟨hhost, hsess, hmem, hvalue, hblock⟩ := transmitMicro_frame hfit h
      refine ⟨hhost, hsess, hmem, hvalue, nofun, ?_⟩
      rintro _ _ ⟨⟩ ⟨⟩
      exact hblock
  | init p | receive p | calcTiming p => rw [hpos] at hfit; cases hfit
  | read32 | write32 => rw [hpos] at hfit; cases hfit

end

section
/-! PROOFS. A whole TRANSMIT up to its poll: from the claimed buffer to the request. -/

namespace Sys2Proof.Machine

variable {s u : State} {inst len j : Nat} {id src : Word} {c : PClass} {ext : Bool} {word : Nat → Word}

/-! ## A buffer filled word by word (R25) -/

/-- Words of different buffers are different words. -/
theorem csIndex_ne {i m n : Nat} (h : i ≠ j) (hm : m < bufWords c) (hn : n < bufWords c) :
    csIndex c i + m ≠ csIndex c j + n := fun he => h <| by
  have hdiv := congrArg (· / bufWords c) he
  simpa only [csIndex, index_div hm, index_div hn] using hdiv

/-- `m` is `m₀` with the control word `cs`, the identifier word `idw` and the payload words `word k` in
buffer `i`. -/
structure BufferFilled (c : PClass) (i : Nat) (cs idw : Word) (word : Nat → Word) (m₀ m : WordCells) :
    Prop where
  control : cellRead m (csIndex c i) = some cs
  identifier : cellRead m (csIndex c i + 1) = some idw
  payload : ∀ k, k < dataWords c → cellRead m (dataIndex c i k) = some (word k)
  kept : ∀ a, (∀ n, n < bufWords c → a ≠ csIndex c i + n) → cellRead m a = cellRead m₀ a

/-- The words of the other buffers are as before. -/
theorem BufferFilled.other {i n : Nat} {cs idw : Word} {m₀ m : WordCells}
    (h : BufferFilled c i cs idw word m₀ m) (hj : j ≠ i) (hn : n < bufWords c) :
    cellRead m (csIndex c j + n) = cellRead m₀ (csIndex c j + n) :=
  h.kept _ fun _ hm => csIndex_ne hj hn hm

theorem BufferFilled.congr {i : Nat} {cs idw : Word} {m₀ m m' : WordCells}
    (h : BufferFilled c i cs idw word m₀ m) (he : ∀ a, cellRead m' a = cellRead m a) :
    BufferFilled c i cs idw word m₀ m' :=
  ⟨(he _).trans h.control, (he _).trans h.identifier, fun k hk => (he _).trans (h.payload k hk),
    fun a ha => (he _).trans (h.kept a ha)⟩

/-- The identifier word, then the payload words, then the control word fill a buffer. -/
theorem bufferFilled_of_writes {i : Nat} (cs : Word) {idw : Word} {m₀ m : WordCells}
    (h : Filled (cellWrite m₀ (csIndex c i + 1) idw) (dataIndex c i) word (dataWords c) m) :
    BufferFilled c i cs idw word m₀ (cellWrite m (csIndex c i) cs) := by
  have hwords := bufWords_eq c
  have hdata : ∀ k, dataIndex c i k = csIndex c i + 2 + k := fun _ => rfl
  refine ⟨cellRead_cellWrite_same .., ?_, fun k hk => ?_, fun a ha => ?_⟩
  · rw [cellRead_cellWrite_other _ _ (by omega), h.kept _ fun k _ => by rw [hdata]; omega,
      cellRead_cellWrite_same]
  · rw [cellRead_cellWrite_other _ _ (by rw [hdata]; omega), h.written k hk]
  · rw [cellRead_cellWrite_other _ _ (show a ≠ csIndex c i from ha 0 (by omega)),
      h.kept a fun k hk => by rw [hdata, Nat.add_assoc]; exact ha (2 + k) (by omega),
      cellRead_cellWrite_other _ _ (ha 1 (by omega))]

theorem dataIndex_injective (c : PClass) (i : Nat) : Function.Injective (dataIndex c i) :=
  fun _ _ h => Nat.add_left_cancel h

/-! ## The stores of TRANSMIT in a row (R151, R152) -/

/-- A store that leaves the buffer's control word alone leaves the buffer open to TRANSMIT. -/
theorem TxOpen.store {m : WordCells} (h : TxOpen s c ext j) (p : Pos)
    (hm : cellRead m (csIndex c j) = cellRead s.ram (csIndex c j)) :
    TxOpen ({ s with ram := m }.goto p) c ext j := by
  refine ⟨h.cls, h.encoding, h.geometry, h.enabled, h.inPool, ?_⟩
  have hcs : hwCs ({ s with ram := m }.goto p) j = hwCs s j := by
    rw [← h.geometry] at hm
    exact hm
  rw [HostOwns, hcs]
  exact h.owned

/-- `u` is `s` with the first `k` payload words of buffer `j` stored. -/
structure PayloadStored (s : State) (c : PClass) (j : Nat) (word : Nat → Word) (k : Nat) (u : State) :
    Prop where
  rest : u = { s with ram := u.ram }.goto (.transmit (txDataPos c j k))
  ram : Filled s.ram (dataIndex c j) word k u.ram

/-- The payload words leave the control word of their buffer alone. -/
theorem Filled.control_kept {k : Nat} {m₀ m : WordCells} (h : Filled m₀ (dataIndex c j) word k m) :
    cellRead m (csIndex c j) = cellRead m₀ (csIndex c j) :=
  h.kept _ fun n _ => by rw [dataIndex, ← csIndex]; omega

theorem PayloadStored.next {k : Nat} (h : PayloadStored s c j word k u) (hk : k < dataWords c)
    (hopen : TxOpen s c ext j) (hw : packFrom src k s = .ok (word k)) :
    ∃ v, exec (.transmit inst len id src) u = .next v ∧ PayloadStored s c j word (k + 1) v := by
  obtain ⟨hrest, hram⟩ := h
  refine ⟨{ s with ram := cellWrite u.ram (dataIndex c j k) (word k) }.goto
    (.transmit (txDataPos c j (k + 1))), ?_, rfl, hram.succ (dataIndex_injective c j)⟩
  rw [hrest, txDataPos, if_pos hk]
  exact exec_transmit_writeData (State.goto_pos _ _) (hopen.store _ hram.control_kept) hk hw

/-- Line 3 (R152). -/
theorem runExec_transmit_payload (hp : s.seq.pos = .transmit (.writeData j 0)) (hopen : TxOpen s c ext j)
    (hw : ∀ k, k < dataWords c → packFrom src k s = .ok (word k)) :
    ∃ m, runExec (.transmit inst len id src) (dataWords c) s =
        .next ({ s with ram := m }.goto (.transmit (.writeCs j))) ∧
      Filled s.ram (dataIndex c j) word (dataWords c) m := by
  have hstart : PayloadStored s c j word 0 s := by
    refine ⟨?_, filled_zero ..⟩
    rw [txDataPos, if_pos (dataWords_pos c)]
    exact (goto_of_pos hp).symm
  obtain ⟨t, hrun, hrest, hram⟩ := runExec_inv (i := .transmit inst len id src) _ _ s hstart
    fun k u hk h => h.next hk hopen (hw k hk)
  rw [txDataPos, if_neg (Nat.lt_irrefl _)] at hrest
  exact ⟨t.ram, hrun.trans (congrArg _ hrest), hram⟩

/-- Lines 2 to 4. -/
theorem runExec_transmit_fill (hp : s.seq.pos = .transmit (.writeId j)) (hopen : TxOpen s c ext j)
    (hw : ∀ k, k < dataWords c → packFrom src k s = .ok (word k)) :
    ∃ m, runExec (.transmit inst len id src) (1 + (dataWords c + 1)) s =
        .next ({ s with ram := m, txPending := clearBit s.txPending j }.goto (.transmit (.request j))) ∧
      BufferFilled c j (txCs ext c) (txIdWord ext id) word s.ram m := by
  have hrun₁ := runExec_one
    (exec_transmit_writeId (inst := inst) (len := len) (src := src) (id := id) hp hopen)
  have hopen₁ := hopen.store (.transmit (.writeData j 0))
    (cellRead_cellWrite_other s.ram (a := csIndex c j + 1) (txIdWord ext id) (by omega))
  obtain ⟨m, hrun₂, hram⟩ := runExec_transmit_payload (inst := inst) (len := len) (id := id) (src := src)
    (pos_of_goto hrun₁) hopen₁ hw
  have hrun₃ := runExec_one (exec_transmit_writeCs (inst := inst) (len := len) (src := src) (id := id)
    (pos_of_goto hrun₂) (hopen₁.store _ hram.control_kept))
  exact ⟨_, runExec_trans hrun₁ (runExec_trans hrun₂ hrun₃), bufferFilled_of_writes _ hram⟩

/-- Line 5: the request of a filled buffer, which changes no RAM word. -/
theorem exec_transmit_request_filled {cs idw : Word} {m₀ : WordCells}
    (hp : s.seq.pos = .transmit (.request j)) (hc : s.sess.cls = some c) (hh : hwClass s = c)
    (hj : j < poolSize c) (hb : BufferFilled c j cs idw word m₀ s.ram) (hd : codeOf cs = codeTxData) :
    ∃ m pend, exec (.transmit inst len id src) s =
        .next ({ s with ram := m, iflag := w1c s.iflag (bitWord j), txPending := pend }.goto
          (.transmit (.poll j))) ∧
      BufferFilled c j cs idw word m₀ m ∧ pend.getLsbD j = true := by
  subst hh
  have hw : hwCs s j = some cs := hb.control
  have hram := cellRead_released_flag hw (by rw [hd]; decide)
  exact ⟨_, _, exec_transmit_request hp hc hw, hb.congr hram, by simp [getLsbD_request hj hw hd]⟩

/-- A free buffer has the code TX_INACTIVE under both match rules (R149). -/
theorem codeOf_of_txFree {m : Config.TxFreeMatch} {w : Word} (h : txFree m w = true) :
    codeOf w = codeTxInactive := by
  obtain ⟨-, h⟩ | ⟨-, rfl⟩ := txFree_iff.mp h
  · exact h
  · decide

/-- A TRANSMIT that is accepted and finds buffer `j` free, up to its poll. -/
theorem runExec_transmit_toPoll {cs : Nat → Word} (hp : s.seq.pos = .idle)
    (hstart : transmitStart 0 len src s = .ok (s.start (.transmit (.scan 0))))
    (hc : s.sess.cls = some c) (he : sessExtended s = .ok ext) (hh : hwClass s = c)
    (hl : lpmAck s.mcr = false) (hj : j < poolSize c)
    (hcs : ∀ i, i < poolSize c → cellRead s.ram (csIndex c i) = some (cs i))
    (hfree : txFree s.params.txFreeMatch (cs j) = true)
    (hbusy : ∀ i, i < j → ¬ txFree s.params.txFreeMatch (cs i) = true)
    (hw : ∀ k, k < dataWords c → packFrom src k s = .ok (word k)) :
    ∃ m pend, runExec (.transmit 0 len id src) (j + dataWords c + 5) s =
        .next ({ s with ram := m, iflag := w1c s.iflag (bitWord j), txPending := pend }.start
          (.transmit (.poll j))) ∧
      BufferFilled c j (txCs ext c) (txIdWord ext id) word s.ram m ∧ pend.getLsbD j = true := by
  have hcode := codeOf_of_txFree hfree
  have hhw : hwCs (s.start (.transmit (.scan 0))) j = some (cs j) := by
    rw [hwCs, hwClass_start, hh]
    exact hcs j hj
  have hopen : TxOpen (s.start (.transmit (.scan 0))) c ext j :=
    ⟨hc, he, hh, hl, hj, hostOwns_of_code hhw (by rw [hcode]; decide) (by rw [hcode]; decide)⟩
  have hrun₁ : runExec (.transmit 0 len id src) 1 s = .next (s.start (.transmit (.scan 0))) :=
    runExec_one ((exec_transmit_idle hp).trans (by rw [hstart, tryDo_ok]))
  have hrun₂ := runExec_transmit_claim (inst := 0) (len := len) (id := id) (src := src)
    (pos_of_start hrun₁) hc hl hj hcs hfree hbusy
  obtain ⟨m, hrun₃, hfill⟩ := runExec_transmit_fill (inst := 0) (len := len) (id := id)
    (pos_of_goto hrun₂) (hopen.store _ rfl) hw
  obtain ⟨m', pend, hrun₄, hfill', hpend⟩ := exec_transmit_request_filled (inst := 0) (len := len)
    (id := id) (src := src) (pos_of_goto hrun₃) hc hh hj hfill (codeOf_txCs ext c)
  have hrun := runExec_trans hrun₁ (runExec_trans hrun₂ (runExec_trans hrun₃ (runExec_one hrun₄)))
  have hcount : 1 + (j + 1 + (1 + (dataWords c + 1) + 1)) = j + dataWords c + 5 := by omega
  rw [hcount] at hrun
  exact ⟨m', pend, hrun, hfill', hpend⟩

end Sys2Proof.Machine

end

section
/-! PROOFS. TX(i) in loop-back: the frame of a filled buffer arrives in the lowest RX_EMPTY one. -/

namespace Sys2Proof.Machine

variable {s : State} {c : PClass} {i r : Nat} {cs idw : Word} {word : Nat → Word} {m₀ : WordCells}

/-! ## The frame and the buffer that takes it (R190, R194) -/

/-- The payload words of a class, in order. -/
def payloadWords (c : PClass) (word : Nat → Word) : List Word := (List.range (dataWords c)).map word

@[simp] theorem length_payloadWords (c : PClass) (word : Nat → Word) :
    (payloadWords c word).length = dataWords c := by
  simp [payloadWords]

theorem getElem?_payloadWords {k : Nat} (hk : k < dataWords c) :
    (payloadWords c word)[k]? = some (word k) := by
  simp [payloadWords, hk]

/-- A filled buffer holds the frame of its identifier, its payload words and its length code. -/
theorem frameOf_filled (hh : hwClass s = c) (hb : BufferFilled c i cs idw word m₀ s.ram) :
    frameOf i cs s = .ok { idw := idw, data := payloadWords c word, dlc := dlcOf cs } := by
  subst hh
  have hid : cellRead s.ram (idIndex (hwClass s) i) = some idw := hb.identifier
  have hdata : readData s i (List.range (dataWords (hwClass s))) =
      .ok (payloadWords (hwClass s) word) := by
    refine (readData_eq_ok ..).mpr ⟨by simp, fun n hn => ?_⟩
    rw [List.length_range] at hn
    rw [List.getElem_range, hb.payload n hn, getElem?_payloadWords hn]
  rw [frameOf, hid, needed_some, thenDo_ok, hdata, thenDo_ok]

/-- A mask of zeros accepts every identifier (R101). -/
theorem idMatches_acceptAll (f idw : Word) : idMatches f idw 0#32 = true := by
  simp [idMatches]

/-- The lowest RX_EMPTY buffer, with a mask that accepts every identifier, takes the frame. -/
theorem findRx_lowest (f : Word) {w : Word} (hr : r < Config.mbMax) (hu : usable s r = true)
    (hbelow : ∀ x, x < r → ∃ w, hwCs s x = some w ∧ codeOf w ≠ codeRxEmpty)
    (hw : hwCs s r = some w) (hrx : codeOf w = codeRxEmpty)
    (hid : cellRead s.ram (idIndex (hwClass s) r) ≠ none) (hmask : cellRead s.rximr r = some 0#32) :
    findRx f s (List.range Config.mbMax) = .ok (some r) := by
  obtain ⟨idw, hid⟩ := Option.ne_none_iff_exists'.mp hid
  obtain ⟨n, hn⟩ := Nat.exists_eq_add_of_lt hr
  have hsplit : List.range Config.mbMax = List.range r ++ r :: ((List.range n).map Nat.succ).map (r + ·) := by
    rw [hn, Nat.add_assoc, List.range_add, List.range_succ_eq_map, List.map_cons, Nat.add_zero]
  rw [hsplit, findRx_skip]
  · simp only [findRx, hu, if_true, hw, needed_some, thenDo_ok, hrx, hid, hmask, idMatches_acceptAll]
  · intro x hx _
    obtain ⟨w, hw, hne⟩ := hbelow x (List.mem_range.mp hx)
    exact ⟨w, hw, fun he => absurd he hne⟩

/-! ## What a delivery leaves (R194) -/

theorem filled_putWords (j : Nat) (word : Nat → Word) (s : State) :
    Filled s.ram (dataIndex c j) word (dataWords c)
      (putWords (dataIndex c j 0) (payloadWords c word) s).ram := by
  have hidx : ∀ k, dataIndex c j k = dataIndex c j 0 + k := fun _ => rfl
  refine ⟨fun k hk => ?_, fun a ha => ?_⟩
  · rw [cellRead_putWords, hidx k, if_pos (by rw [length_payloadWords]; omega), Nat.add_sub_cancel_left,
      getElem?_payloadWords hk]
  · rw [cellRead_putWords, if_neg]
    rintro ⟨hle, hlt⟩
    rw [length_payloadWords] at hlt
    exact ha (a - dataIndex c j 0) (by omega) (by rw [hidx]; omega)

/-- A delivery fills its buffer with the frame. -/
theorem deliverInto_filled (hh : hwClass s = c) (dlc : BitVec 4) :
    BufferFilled c r (deliveredCs (draw s) dlc) idw word s.ram
      (deliverInto { idw := idw, data := payloadWords c word, dlc := dlc } r s).ram := by
  subst hh
  exact bufferFilled_of_writes _ (filled_putWords r word (s.putRam (idIndex (hwClass s) r) idw))

/-! ## TX(i) (R189 to R191) -/

/-- TX(i) is enabled for a requested TX_DATA buffer that ENGINE may use. -/
theorem tx_enabled (hop : operational s = true) (hu : usable s i = true)
    (hpend : s.txPending.getLsbD i = true) (hd : hwCodeIs s codeTxData i = true) :
    .tx i ∈ enabledMoves s := by
  have hi : i < Config.mbMax := (usable_lt hu).trans_le (poolSize_le _)
  refine List.mem_filter.mpr ⟨by simp [allMoves, hi], ?_⟩
  show txOn i s = true
  simp only [txOn, hop, hu, hpend, hd, Bool.true_or, Bool.and_self]

/-- In loop-back TX(i) fills buffer `r`, the lowest RX_EMPTY one, with the frame of buffer `i`. -/
theorem txStep_loopBack {w : Word} (hh : hwClass s = c) (hlpb : lpb s.ctrl1 = true)
    (hb : BufferFilled c i cs idw word m₀ s.ram) (hri : r < i) (hu : usable s r = true)
    (hbelow : ∀ x, x < r → ∃ w, hwCs s x = some w ∧ codeOf w ≠ codeRxEmpty)
    (hw : hwCs s r = some w) (hrx : codeOf w = codeRxEmpty)
    (hid : cellRead s.ram (csIndex c r + 1) ≠ none) (hmask : cellRead s.rximr r = some 0#32) :
    ∃ m csr m₁, txStep i s =
        .ok { s with
              ram := m
              txPending := clearBit s.txPending i
              iflag := setBit (setBit s.iflag i) r
              draws := s.draws + 1 + 1 } ∧
      BufferFilled c r csr idw word m₁ m := by
  have hcs : hwCs s i = some cs := by rw [hwCs, hh]; exact hb.control
  have sent : ∀ a, a ≠ csIndex c i → cellRead (completeTx i cs s).ram a = cellRead s.ram a :=
    fun a ha => cellRead_cellWrite_other _ _ (by rw [hh]; exact ha)
  have hsent : ∀ x, x < i → hwCs (completeTx i cs s) x = hwCs s x := fun x hx => by
    subst hh
    exact sent _ fun he => absurd (csIndex_injective _ he) (by omega)
  have hid' : cellRead (completeTx i cs s).ram (csIndex c r + 1) ≠ none := by
    rw [sent _ (csIndex_ne (n := 0) hri.ne (by rw [bufWords_eq]; omega) (by rw [bufWords_eq]; omega))]
    exact hid
  have hfind := findRx_lowest (s := completeTx i cs s) idw ((usable_lt hu).trans_le (poolSize_le _)) hu
    (fun x hx => by rw [hsent x (hx.trans hri)]; exact hbelow x hx) (by rw [hsent r hri]; exact hw) hrx
    (by subst hh; exact hid') hmask
  refine ⟨_, _, _, ?_, deliverInto_filled (s := completeTx i cs s) (r := r) hh (dlcOf cs)⟩
  rw [txStep, hcs, needed_some, thenDo_ok, frameOf_filled hh hb, thenDo_ok, if_pos hlpb, deliver, hfind,
    thenDo_ok]
  exact congrArg Except.ok (deliverInto_eq ..)

end Sys2Proof.Machine

end

section
/-! PROOFS. A whole RECEIVE of a buffer whose flag is the first one set. -/

namespace Sys2Proof.Machine

variable {s : State} {inst len r : Nat} {dst : Word} {c : PClass} {word : Nat → Word}

/-- Between operations RECEIVE's micro-step is its checks. -/
theorem exec_receive_idle (hp : s.seq.pos = .idle) :
    exec (.receive inst len dst) s = tryDo (receiveStart inst len dst s) .next := by
  simp only [exec, execReceive, hp]

/-- Inside RECEIVE the micro-step is the one its position names, under the session's class. -/
theorem exec_receive_micro {p : RxPos} (hp : s.seq.pos = .receive p) (hc : s.sess.cls = some c) :
    exec (.receive inst len dst) s = receiveMicro c len dst p s := by
  simp only [exec, execReceive, hp, sessClass, hc, needed_some, tryDo_ok]

/-! ## The checks of micro-step 0 (R162) -/

theorem receiveStart_accepted (hv : s.sess.valid = true) (hc : s.sess.cls = some c)
    (hr : HostRangeFits s.params dst.toNat (receiveBytes c len)) :
    receiveStart 0 len dst s = .ok (s.start (.receive (.scan 0))) := by
  simp [receiveStart, Config.modelledInst, hv, sessClass, hc, hostRangeOk_iff.mpr hr]

/-! ## The scan of the flags (R163) -/

theorem receiveMicro_scan_set {i : Nat} (hf : s.iflag.getLsbD i = true) :
    receiveMicro c len dst (.scan i) s = .next (s.start (.receive (.readData i 0 []))) := by
  rw [receiveMicro, regRead_iflag1, tryDo_ok, if_pos hf]
  rfl

theorem receiveMicro_scan_clear {i : Nat} (hf : s.iflag.getLsbD i = false) (hi : i + 1 < poolSize c) :
    receiveMicro c len dst (.scan i) s = .next (s.goto (.receive (.scan (i + 1)))) := by
  rw [receiveMicro, regRead_iflag1, tryDo_ok, if_neg (Bool.eq_false_iff.mp hf), if_pos hi]

/-- The scan stops at the first set flag. -/
theorem runExec_receive_scan (hp : s.seq.pos = .receive (.scan 0)) (hc : s.sess.cls = some c)
    (hr : r < poolSize c) (hclear : ∀ i, i < r → s.iflag.getLsbD i = false)
    (hset : s.iflag.getLsbD r = true) :
    runExec (.receive inst len dst) (r + 1) s = .next (s.start (.receive (.readData r 0 []))) := by
  have hloop := runExec_loop (i := .receive inst len dst) (fun i => s.goto (.receive (.scan i))) r
    fun i hi => (exec_receive_micro (State.goto_pos s _) hc).trans
      (receiveMicro_scan_clear (hclear i hi) (by omega))
  rw [goto_of_pos hp] at hloop
  exact runExec_trans hloop
    (runExec_one ((exec_receive_micro (State.goto_pos s _) hc).trans (receiveMicro_scan_set hset)))

/-! ## The payload words (R164) -/

/-- The position of payload word `k` of buffer `j` with the words before it, or the one after the payload. -/
def rxDataPos (c : PClass) (j k : Nat) (ws : List Word) : RxPos :=
  if k < dataWords c then .readData j k ws else .copy j ws

theorem receiveMicro_readData {k : Nat} {w : Word} {ws : List Word} (hl : lpmAck s.mcr = false)
    (hr : r < poolSize c) (hk : k < dataWords c) (hw : cellRead s.ram (dataIndex c r k) = some w) :
    receiveMicro c len dst (.readData r k ws) s =
      .next (s.goto (.receive (rxDataPos c r (k + 1) (ws ++ [w])))) := by
  have hlt : dataIndex c r k < Config.ramWords := by
    have hbuf := bufferIndex_lt (m := 2 + k) hr (by rw [bufWords_eq]; omega)
    rwa [← Nat.add_assoc] at hbuf
  rw [receiveMicro, regRead_ram s hlt hl, hw, needed_some, tryDo_ok]
  rfl

/-- Line 2: the payload words of the buffer, in order. -/
theorem runExec_receive_payload (hp : s.seq.pos = .receive (.readData r 0 [])) (hc : s.sess.cls = some c)
    (hl : lpmAck s.mcr = false) (hr : r < poolSize c)
    (hw : ∀ k, k < dataWords c → cellRead s.ram (dataIndex c r k) = some (word k)) :
    runExec (.receive inst len dst) (dataWords c) s =
      .next (s.goto (.receive (.copy r (payloadWords c word)))) := by
  have hloop := runExec_loop (i := .receive inst len dst)
    (fun k => s.goto (.receive (rxDataPos c r k ((List.range k).map word)))) (dataWords c) fun k hk => ?_
  · rw [rxDataPos, if_pos (dataWords_pos c), List.range_zero, List.map_nil, goto_of_pos hp, rxDataPos,
      if_neg (Nat.lt_irrefl _)] at hloop
    exact hloop
  · rw [rxDataPos, if_pos hk, List.range_succ, List.map_append]
    exact (exec_receive_micro (State.goto_pos s _) hc).trans (receiveMicro_readData hl hr hk (hw k hk))

/-! ## The copy, the release and the end (R165 to R167) -/

/-- `mem` is `mem₀` with the bytes `f 0` to `f (n - 1)` at the addresses from `a` on. -/
def Copied (mem₀ : Memory) (a n : Nat) (f : Nat → Byte) (mem : Memory) : Prop :=
  ∀ x, cellRead mem x = if a ≤ x ∧ x < a + n then some (f (x - a)) else cellRead mem₀ x

/-- A range that passed the check of R57 lies in host memory. -/
theorem HostRangeFits.le {p : Config.Params} {a n : Nat} (h : HostRangeFits p a n)
    (ha : a < Config.hostBytes) : a + n ≤ Config.hostBytes := by
  simp only [HostRangeFits, Config.hostBytes] at *
  omega

/-- Line 3: the bytes handed over go to the caller. -/
theorem exec_receive_copy {ws : List Word} (hp : s.seq.pos = .receive (.copy r ws))
    (hc : s.sess.cls = some c) (hr : HostRangeFits s.params dst.toNat (receiveBytes c len)) :
    ∃ mem, exec (.receive inst len dst) s =
        .next ({ s with hostMem := mem }.goto (.receive (.release r))) ∧
      Copied s.hostMem dst.toNat (receiveBytes c len) (unpackAt ws) mem := by
  obtain ⟨mem, hcopy, hmem⟩ := hostWriteAll_ok dst.toNat (unpackAt ws) (receiveBytes c len)
    (hr.le dst.isLt) (List.range (receiveBytes c len)) (fun _ => List.mem_range.mp) s
  refine ⟨mem, ?_, fun x => ?_⟩
  · rw [exec_receive_micro hp hc, receiveMicro, hcopy, tryDo_ok]
  · rw [hmem]
    refine if_congr ?_ rfl rfl
    rw [List.mem_range]
    omega

/-- Line 4: the release of a buffer whose control word is no poison changes control words only. -/
theorem exec_receive_release {w : Word} (hp : s.seq.pos = .receive (.release r))
    (hc : s.sess.cls = some c) (hw : hwCs s r = some w) :
    ∃ m pend, exec (.receive inst len dst) s =
        .next ({ s with ram := m, iflag := w1c s.iflag (bitWord r), txPending := pend }.goto
          (.receive .complete)) ∧
      ∀ a, (∀ i, a ≠ csIndex (hwClass s) i) → cellRead m a = cellRead s.ram a := by
  refine ⟨_, _, (exec_receive_micro hp hc).trans (writeStep_ok (regWrite_flag hw)), fun a ha => ?_⟩
  refine cellRead_released_other ?_
  rintro ⟨i, -, he, -⟩
  exact ha i he

theorem exec_receive_complete (hp : s.seq.pos = .receive .complete) (hc : s.sess.cls = some c) :
    exec (.receive inst len dst) s = .next (s.finish .ok) :=
  exec_receive_micro hp hc

/-- A RECEIVE that is accepted and finds flag `r` set first, from its checks to its end. -/
theorem runExec_receive {w : Word} (hp : s.seq.pos = .idle) (hv : s.sess.valid = true)
    (hc : s.sess.cls = some c) (hl : lpmAck s.mcr = false)
    (hrange : HostRangeFits s.params dst.toNat (receiveBytes c len)) (hr : r < poolSize c)
    (hclear : ∀ i, i < r → s.iflag.getLsbD i = false) (hset : s.iflag.getLsbD r = true)
    (hw : hwCs s r = some w)
    (hdata : ∀ k, k < dataWords c → cellRead s.ram (dataIndex c r k) = some (word k)) :
    ∃ mem m pend, runExec (.receive 0 len dst) (r + dataWords c + 5) s =
        .next (State.finish (State.start
          { s with
            ram := m
            iflag := w1c s.iflag (bitWord r)
            txPending := pend
            hostMem := mem } (.receive .complete)) .ok) ∧
      (∀ a, (∀ i, a ≠ csIndex (hwClass s) i) → cellRead m a = cellRead s.ram a) ∧
      Copied s.hostMem dst.toNat (receiveBytes c len) (unpackAt (payloadWords c word)) mem := by
  have hrun₁ : runExec (.receive 0 len dst) 1 s = .next (s.start (.receive (.scan 0))) :=
    runExec_one ((exec_receive_idle hp).trans (by rw [receiveStart_accepted hv hc hrange, tryDo_ok]))
  have hrun₂ : runExec (.receive 0 len dst) (r + 1) (s.start (.receive (.scan 0))) =
      .next (s.start (.receive (.readData r 0 []))) :=
    runExec_receive_scan (State.start_pos s _) hc hr hclear hset
  have hrun₃ : runExec (.receive 0 len dst) (dataWords c) (s.start (.receive (.readData r 0 []))) =
      .next (s.start (.receive (.copy r (payloadWords c word)))) :=
    runExec_receive_payload (State.start_pos s _) hc hl hr hdata
  obtain ⟨mem, hrun₄, hmem⟩ : ∃ mem, exec (.receive 0 len dst)
        (s.start (.receive (.copy r (payloadWords c word)))) =
        .next ({ s with hostMem := mem }.start (.receive (.release r))) ∧
      Copied s.hostMem dst.toNat (receiveBytes c len) (unpackAt (payloadWords c word)) mem :=
    exec_receive_copy (State.start_pos s _) hc hrange
  obtain ⟨m, pend, hrun₅, hkept⟩ : ∃ m pend, exec (.receive 0 len dst)
        ({ s with hostMem := mem }.start (.receive (.release r))) =
        .next (State.start
          { s with ram := m, iflag := w1c s.iflag (bitWord r), txPending := pend, hostMem := mem }
          (.receive .complete)) ∧
      ∀ a, (∀ i, a ≠ csIndex (hwClass s) i) → cellRead m a = cellRead s.ram a :=
    exec_receive_release (State.start_pos { s with hostMem := mem } _) hc hw
  have hrun₆ := exec_receive_complete (s := State.start
    { s with ram := m, iflag := w1c s.iflag (bitWord r), txPending := pend, hostMem := mem }
    (.receive .complete)) (inst := 0) (len := len) (dst := dst) (State.start_pos _ _) hc
  have hrun := runExec_trans hrun₁ (runExec_trans hrun₂ (runExec_trans hrun₃
    (runExec_trans (runExec_one hrun₄) (runExec_trans (runExec_one hrun₅) (runExec_one hrun₆)))))
  have hcount : 1 + (r + 1 + (dataWords c + (1 + (1 + 1)))) = r + dataWords c + 5 := by omega
  rw [hcount] at hrun
  exact ⟨mem, m, pend, hrun, hkept, hmem⟩

end Sys2Proof.Machine

end

section
/-! PROOFS. The payload sent in loop-back comes back (O55). -/

namespace Sys2Proof.Machine

variable {s : State} {c : PClass} {len j r : Nat} {id src idw : Word} {word : Nat → Word}

/-! ## The payload as words (R55) -/

/-- Payload word `k` of the bytes `b`. -/
def packedWord (b : Nat → Byte) (k : Nat) : Word :=
  packWord (b (4 * k)) (b (4 * k + 1)) (b (4 * k + 2)) (b (4 * k + 3))

theorem payloadBytes_eq (c : PClass) : payloadBytes c = 4 * dataWords c := by cases c <;> rfl

/-- The bytes at SRC, packed. -/
theorem packFrom_bytes {b : Nat → Byte} {k : Nat} (hk : k < dataWords c)
    (h : ∀ m, m < payloadBytes c → cellRead s.hostMem (src.toNat + m) = some (b m)) :
    packFrom src k s = .ok (packedWord b k) := by
  have hbytes := payloadBytes_eq c
  exact packFrom_ok (h (4 * k) (by omega)) (h (4 * k + 1) (by omega)) (h (4 * k + 2) (by omega))
    (h (4 * k + 3) (by omega))

/-- Unpacking the packed words gives the bytes back. -/
theorem unpackAt_payloadWords (b : Nat → Byte) {m : Nat} (hm : m < payloadBytes c) :
    unpackAt (payloadWords c (packedWord b)) m = b m := by
  obtain ⟨-, -, h⟩ := payloadUnpacksToItself
  exact h b (dataWords c) m (by rw [← payloadBytes_eq]; exact hm)

theorem Copied.inside {mem₀ mem : Memory} {a n m : Nat} {f : Nat → Byte} (h : Copied mem₀ a n f mem)
    (hm : m < n) : cellRead mem (a + m) = some (f m) := by
  rw [h, if_pos (by omega), Nat.add_sub_cancel_left]

theorem Copied.outside {mem₀ mem : Memory} {a n x : Nat} {f : Nat → Byte} (h : Copied mem₀ a n f mem)
    (hx : x < a ∨ a + n ≤ x) : cellRead mem x = cellRead mem₀ x := by
  rw [h, if_neg (by omega)]

/-- An identifier word is no control word. -/
theorem identifier_ne_control (c : PClass) (i x : Nat) : csIndex c i + 1 ≠ csIndex c x := by
  have hwords := bufWords_eq c
  by_cases h : i = x
  · subst h
    omega
  · exact csIndex_ne (n := 0) h (by omega) (by omega)

/-! ## ENGINE's answer to the request, and the end of TRANSMIT -/

theorem lpmAck_of_operational (h : operational s = true) : lpmAck s.mcr = false := by
  simp only [operational, operationalMcr, Bool.and_eq_true, Bool.not_eq_true'] at h
  obtain ⟨⟨hl, -⟩, -⟩ := h
  exact hl

theorem usable_of_le (hr : r < poolSize (hwClass s)) (hm : r ≤ maxMb s.mcr) : usable s r = true := by
  rw [usable, decide_eq_true hr, decide_eq_true hm]
  rfl

/-- A successful attempt of the poll, then the end. -/
theorem runExec_transmit_end (hp : s.seq.pos = .transmit (.poll j)) (hc : s.sess.cls = some c)
    (hf : s.iflag.getLsbD j = true) :
    runExec (.transmit 0 len id src) 2 s = .next ((s.start (.transmit .complete)).finish .ok) :=
  runExec_trans (runExec_one (exec_transmit_polled hp hc hf))
    (runExec_one (exec_transmit_complete (State.start_pos s _) hc))

/-- The flags after a request of buffer `j`, its completion and a delivery to `r` (R61, R190, R194). -/
def answeredFlags (f : Word) (j r : Nat) : Word := setBit (setBit (w1c f (bitWord j)) j) r

theorem answeredFlags_sent (f : Word) (r : Nat) (hj : j < 32) :
    (answeredFlags f j r).getLsbD j = true := by
  simp [answeredFlags, getLsbD_setBit, hj]

theorem answeredFlags_delivered (f : Word) (j : Nat) (hr : r < 32) :
    (answeredFlags f j r).getLsbD r = true := by
  simp [answeredFlags, getLsbD_setBit, hr]

theorem answeredFlags_other {f : Word} {i : Nat} (hj : i ≠ j) (hr : i ≠ r) (h : f.getLsbD i = false) :
    (answeredFlags f j r).getLsbD i = false := by
  simp [answeredFlags, getLsbD_setBit, getLsbD_w1c, hj, hr, h]

/-- The pool of a loop-back transfer from buffer `j` to buffer `r`: `j` is the first free one and ENGINE may use
it, `r` is the lowest RX_EMPTY one and accepts every identifier; `cs i` is the control word of buffer `i`. -/
structure LoopBackPool (s : State) (c : PClass) (j r : Nat) (cs : Nat → Word) : Prop where
  control : ∀ i, i < poolSize c → cellRead s.ram (csIndex c i) = some (cs i)
  inPool : j < poolSize c
  used : j ≤ maxMb s.mcr
  free : txFree s.params.txFreeMatch (cs j) = true
  busy : ∀ i, i < j → ¬ txFree s.params.txFreeMatch (cs i) = true
  lower : r < j
  empty : codeOf (cs r) = codeRxEmpty
  below : ∀ i, i < r → codeOf (cs i) ≠ codeRxEmpty
  identifier : cellRead s.ram (csIndex c r + 1) ≠ none
  mask : cellRead s.rximr r = some 0#32

/-- TRANSMIT's request of buffer `j`, with the RAM `m` and the requests `pend` it leaves. -/
def loopBackRequested (s : State) (m : WordCells) (pend : BitVec 32) (j : Nat) : State :=
  State.start { s with ram := m, iflag := w1c s.iflag (bitWord j), txPending := pend } (.transmit (.poll j))

/-- TX(j)'s answer to the request, with the RAM `m` it leaves. -/
def loopBackAnswered (s : State) (m : WordCells) (pend : BitVec 32) (j r : Nat) : State :=
  State.start
    { s with
      ram := m
      iflag := answeredFlags s.iflag j r
      txPending := clearBit pend j
      draws := s.draws + 1 + 1 } (.transmit (.poll j))

/-- In the requested state TX(j) is enabled, and it fills buffer `r` with the frame of buffer `j`. -/
theorem LoopBackPool.answered {cs : Nat → Word} {csj : Word} {m : WordCells} {pend : BitVec 32}
    (h : LoopBackPool s c j r cs) (hop : operational s = true) (hlpb : lpb s.ctrl1 = true)
    (hh : hwClass s = c) (hfill : BufferFilled c j csj idw word s.ram m) (hd : codeOf csj = codeTxData)
    (hpend : pend.getLsbD j = true) :
    .tx j ∈ enabledMoves (loopBackRequested s m pend j) ∧
      ∃ m' csr m₁, runMove (.tx j) (loopBackRequested s m pend j) =
          .next (loopBackAnswered s m' pend j r) ∧
        BufferFilled c r csr idw word m₁ m' := by
  subst hh
  have hwords := bufWords_eq (hwClass s)
  have hcs : ∀ x, x < j → cellRead m (csIndex (hwClass s) x) = some (cs x) := fun x hx =>
    (hfill.other (n := 0) hx.ne (by omega)).trans (h.control x (hx.trans h.inPool))
  have hid : cellRead m (csIndex (hwClass s) r + 1) ≠ none := by
    rw [hfill.other h.lower.ne (by omega)]
    exact h.identifier
  obtain ⟨m', csr, m₁, hstep, hfill'⟩ := txStep_loopBack (s := loopBackRequested s m pend j) rfl hlpb hfill
    h.lower (usable_of_le (h.lower.trans h.inPool) (h.lower.le.trans h.used))
    (fun x hx => ⟨cs x, hcs x (hx.trans h.lower), h.below x hx⟩) (hcs r h.lower) h.empty hid h.mask
  exact ⟨tx_enabled hop (usable_of_le h.inPool h.used) hpend (hwCodeIs_iff.mpr ⟨_, hfill.control, hd⟩),
    m', csr, m₁, runMove_tx.mpr hstep, hfill'⟩

end Sys2Proof.Machine

open Sys2Proof Sys2Proof.Machine

/-- Settles O55: TRANSMIT fills and requests buffer `j`, TX(j) fills buffer `r` with its frame, TRANSMIT ends, and
RECEIVE hands over the words of buffer `r`, the first one flagged. -/
theorem loopBackReturnsThePayload : Obligations.LoopBackReturnsThePayload := by
  unfold Obligations.LoopBackReturnsThePayload
  rintro s c len j r id src dst ext cs b free tx rx rfl rfl hp hop hlpb hv hc hh rfl hsrc hdst hbytes hext
    hfree hcs hj hmax hfreej hbusy hrj hrx hbelow hid hmask hflags
  have hl := lpmAck_of_operational hop
  have hfree : ∀ w, free w ↔ txFree s.params.txFreeMatch w = true := fun w =>
    (hfree w).trans txFree_iff.symm
  simp only [hfree] at hfreej hbusy
  have hpool : LoopBackPool s c j r cs :=
    ⟨hcs, hj, hmax, hfreej, hbusy, hrj, hrx, hbelow, hid, hmask⟩
  have hj32 : j < 32 := hj.trans_le (poolSize_le c)
  have hbytesRx : receiveBytes c (payloadBytes c) = payloadBytes c := min_self _
  obtain ⟨m, pend, hrun₁, hfill, hpend⟩ := runExec_transmit_toPoll (id := id) hp
    (transmitStart_accepted hv hc rfl hsrc) hc (sessExtended_eq hext) hh hl hj hcs hfreej hbusy
    fun k hk => packFrom_bytes hk hbytes
  obtain ⟨hon, m', csr, m₁, hmove, hfill'⟩ :=
    hpool.answered hop hlpb hh hfill (codeOf_txCs ext c) hpend
  have hrun₂ := runExec_transmit_end (id := id) (src := src) (len := payloadBytes c)
    (s := loopBackAnswered s m' pend j r) rfl hc (answeredFlags_sent _ _ hj32)
  subst hh
  obtain ⟨mem, m'', pend', hrun₃, hkept, hcopied⟩ := runExec_receive (len := payloadBytes (hwClass s))
    (dst := dst) (s := ((loopBackAnswered s m' pend j r).start (.transmit .complete)).finish .ok)
    rfl hv hc hl (hbytesRx.symm ▸ hdst) (hrj.trans hj)
    (fun i hi => answeredFlags_other (hi.trans hrj).ne hi.ne (hflags i hi))
    (answeredFlags_delivered _ _ (hrj.trans hj32)) hfill'.control hfill'.payload
  rw [hbytesRx] at hcopied
  exact ⟨_, _, _, _, hrun₁, hon, hmove, hrun₂, hrun₃, rfl, List.append_assoc ..,
    (hkept _ (identifier_ne_control (hwClass s) r)).trans hfill'.identifier,
    fun x hx => (hcopied.inside hx).trans (congrArg some (unpackAt_payloadWords b hx)),
    fun _ => hcopied.outside⟩

end

section
/-! PROOFS. RECEIVE's checks (O36) and its scan of the flags (O37). -/

namespace Sys2Proof.Machine

variable {s : State} {inst len : Nat} {dst : Word} {c : PClass}

/-! ## The checks of micro-step 0 (R162) -/

theorem receiveStart_notInitialized (hv : s.sess.valid = false) :
    receiveStart 0 len dst s = .error .notInitialized := by
  simp [receiveStart, Config.modelledInst, hv]

theorem receiveStart_poison (hv : s.sess.valid = true) (hc : s.sess.cls = none) :
    receiveStart 0 len dst s = .error .readPoison := by
  simp [receiveStart, Config.modelledInst, hv, sessClass, hc]

theorem receiveStart_hostRange (hv : s.sess.valid = true) (hc : s.sess.cls = some c)
    (hr : ¬ HostRangeFits s.params dst.toNat (receiveBytes c len)) :
    receiveStart 0 len dst s = .error .hostRange := by
  rw [← hostRangeOk_iff, Bool.not_eq_true] at hr
  simp [receiveStart, Config.modelledInst, hv, sessClass, hc, hr]

/-! ## A pass without a set flag (R163, R169, R226) -/

/-- The scan passes over the buffers whose flags are clear. -/
theorem runExec_receive_pass {n : Nat} (hp : s.seq.pos = .receive (.scan 0)) (hc : s.sess.cls = some c)
    (hn : n < poolSize c) (hclear : ∀ i, i < n → s.iflag.getLsbD i = false) :
    runExec (.receive inst len dst) n s = .next (s.goto (.receive (.scan n))) := by
  have hloop := runExec_loop (i := .receive inst len dst) (fun i => s.goto (.receive (.scan i))) n
    fun i hi => (exec_receive_micro (State.goto_pos s _) hc).trans
      (receiveMicro_scan_clear (hclear i hi) (by omega))
  rwa [goto_of_pos hp] at hloop

/-- The read of the last buffer's flag, when it is clear too, ends the pass. -/
theorem receiveMicro_scan_last {i : Nat} (hf : s.iflag.getLsbD i = false) (hi : i + 1 = poolSize c) :
    receiveMicro c len dst (.scan i) s = .next (receivePassFailed s) := by
  rw [receiveMicro, regRead_iflag1, tryDo_ok, if_neg (Bool.eq_false_iff.mp hf), if_neg (by omega)]

/-- A pass without a set flag is one failed attempt, whose timeout rule is the finish. -/
theorem runExec_receive_noFlag (hp : s.seq.pos = .receive (.scan 0)) (hc : s.sess.cls = some c)
    (hclear : ∀ i, i < poolSize c → s.iflag.getLsbD i = false) :
    runExec (.receive inst len dst) (poolSize c) s =
      .next (s.pollFailed fun t => t.finish .timeout) := by
  obtain ⟨n, hn⟩ := Nat.exists_eq_succ_of_ne_zero (poolSize_pos c).ne'
  have hlast : n < poolSize c := by omega
  have hpass := runExec_receive_pass (inst := inst) (len := len) (dst := dst) hp hc hlast
    fun i hi => hclear i (hi.trans hlast)
  have hread : exec (.receive inst len dst) (s.goto (.receive (.scan n))) =
      .next ((s.goto (.receive (.scan 0))).pollFailed fun t => t.finish .timeout) :=
    (exec_receive_micro (State.goto_pos s _) hc).trans (receiveMicro_scan_last (hclear n hlast) hn.symm)
  rw [goto_of_pos hp] at hread
  rw [hn]
  exact runExec_trans hpass (runExec_one hread)

/-- A failed attempt under a limit counts, and the last one runs the timeout rule (R226). -/
theorem pollFailed_limited {n : Nat} (h : s.params.pollLimit = some n) (f : State → State) :
    s.pollFailed f =
      if s.seq.attempts + 1 = n then f { s with seq := { s.seq with attempts := s.seq.attempts + 1 } }
      else { s with seq := { s.seq with attempts := s.seq.attempts + 1 } } := by
  rw [State.pollFailed, h]

end Sys2Proof.Machine

open Sys2Proof Sys2Proof.Machine

/-- Settles O36: the checks of micro-step 0 in their order. -/
theorem receiveChecksPreconditions : Obligations.ReceiveChecksPreconditions := by
  unfold Obligations.ReceiveChecksPreconditions
  intro inst len dst s hp
  refine ⟨fun hi => exec_badInstance hp hi (.inr (.inl rfl)), ?_, ?_, ?_⟩
  · rintro rfl hv
    rw [exec_receive_idle hp, receiveStart_notInitialized hv, tryDo_error]
  · rintro rfl hv hc
    rw [exec_receive_idle hp, receiveStart_poison hv hc, tryDo_error]
  · rintro c rfl hv hc
    refine ⟨fun hr => ?_, fun hr => ?_⟩
    · rw [exec_receive_idle hp, receiveStart_hostRange hv hc hr, tryDo_error]
    · rw [exec_receive_idle hp, receiveStart_accepted hv hc hr, tryDo_ok]

/-- Settles O37: the scan stops at the first set flag; a pass without one is one failed attempt. -/
theorem receiveScansFlags : Obligations.ReceiveScansFlags := by
  unfold Obligations.ReceiveScansFlags
  intro inst len dst s c hc hp
  refine ⟨fun j hj hset hclear => runExec_receive_scan hp hc hj hclear hset, fun hclear => ?_⟩
  rw [runExec_receive_noFlag hp hc hclear]
  refine ⟨fun hl => by rw [pollFailed_unlimited hl], fun n hl => ?_⟩
  rw [pollFailed_limited hl]
  exact ⟨fun hne => by rw [if_neg hne], fun heq => by rw [if_pos heq]⟩

end

section
/-! PROOFS. RECEIVE's reads and its copy (O38), its release and its end (O39). -/

namespace Sys2Proof.Machine

variable {s : State} {inst len j : Nat} {dst : Word} {c : PClass} {w : Word}

/-! ## The release (R61, R166) -/

/-- The release is the write of the buffer's flag. -/
theorem exec_receive_flag (hp : s.seq.pos = .receive (.release j)) (hc : s.sess.cls = some c)
    (hw : hwCs s j = some w) :
    exec (.receive inst len dst) s =
      .next ({ s with
                iflag := w1c s.iflag (bitWord j)
                txPending := s.txPending ||| requestMask (bitWord j) s
                ram := cellMap (releasedWord (bitWord j) (hwClass s)) s.ram }.goto
        (.receive .complete)) :=
  (exec_receive_micro hp hc).trans (writeStep_ok (regWrite_flag hw))

/-- A write of flag `j` releases the full buffer `j`. -/
theorem cellRead_released_full (hj : j < poolSize (hwClass s)) (hw : hwCs s j = some w)
    (hfull : codeOf w = codeRxFull) :
    cellRead (cellMap (releasedWord (bitWord j) (hwClass s)) s.ram) (csIndex (hwClass s) j) =
      some (withCode w codeRxEmpty) := by
  have hbit : (bitWord j).getLsbD j = true := by simp [getLsbD_flagWord (hj.trans_le (poolSize_le _))]
  rw [hwCs] at hw
  rw [cellRead_cellMap, hw, Option.map_some, releasedWord_full hj hbit hfull]

/-- A write of flag `j` changes no RAM word but the control word of buffer `j`. -/
theorem cellRead_released_ne {k : Nat} (hk : k ≠ csIndex (hwClass s) j) :
    cellRead (cellMap (releasedWord (bitWord j) (hwClass s)) s.ram) k = cellRead s.ram k := by
  refine cellRead_released_other ?_
  rintro ⟨i, -, rfl, hbit, -⟩
  rw [getLsbD_bitWord, Bool.and_eq_true, decide_eq_true_eq] at hbit
  exact hk (by rw [hbit.1])

/-- A write of flag `j` of a buffer that is not TX_DATA makes no request. -/
theorem getLsbD_noRequest (hw : hwCs s j = some w) (hd : codeOf w ≠ codeTxData) (b : Nat) :
    (s.txPending ||| requestMask (bitWord j) s).getLsbD b = s.txPending.getLsbD b := by
  rw [BitVec.getLsbD_or, getLsbD_requestMask, getLsbD_bitWord]
  by_cases hb : b = j
  · subst hb
    simp [hwCodeIs_of_hwCs _ hw, hd]
  · simp [hb]

end Sys2Proof.Machine

open Sys2Proof Sys2Proof.Machine

/-- Settles O38: a read appends the word read; the copy writes the bytes of its range. -/
theorem receiveReadsAndCopies : Obligations.ReceiveReadsAndCopies := by
  unfold Obligations.ReceiveReadsAndCopies
  intro inst len j dst s c hc hj
  refine ⟨fun k v ws hp hk hl hw => (exec_receive_micro hp hc).trans (receiveMicro_readData hl hj hk hw),
    ?_⟩
  rintro ws _ hp rfl hr
  obtain ⟨mem, hexec, hcopied⟩ := exec_receive_copy (inst := inst) hp hc hr
  exact ⟨mem, hexec, fun m => hcopied.inside, fun a => hcopied.outside⟩

/-- Settles O39: the release as one write of IFLAG1, its three side effects read off for buffer `j`. -/
theorem receiveReleasesAndFinishes : Obligations.ReceiveReleasesAndFinishes := by
  unfold Obligations.ReceiveReleasesAndFinishes
  intro inst len j dst s c hc
  refine ⟨fun w hp hj hh hw => ?_, fun hp => exec_receive_complete hp hc⟩
  subst hh
  refine ⟨_, exec_receive_flag hp hc hw, rfl, fun b => ?_, fun hfull => ?_,
    fun hne => (cellRead_released_flag hw hne _).trans hw, fun b => ?_, fun k => cellRead_released_ne⟩
  · exact (getLsbD_w1c _ _ b).trans (by rw [getLsbD_flagWord (hj.trans_le (poolSize_le _))])
  · have hcs := cellRead_released_full hj hw hfull
    refine ⟨_, hcs, codeOf_withCode .., fun b hb => ?_, fun hop => ⟨hop, _, hcs, .inl (codeOf_withCode ..)⟩⟩
    rw [getLsbD_withCode, if_neg (by omega)]
  · by_cases hd : codeOf w = codeTxData
    · exact (getLsbD_request hj hw hd b).trans (by simp [hd])
    · exact (getLsbD_noRequest hw hd b).trans (by simp [hd])

end

section
/-! PROOFS. The frame of RECEIVE (O40). -/

namespace Sys2Proof.Machine

variable {s t : State} {len : Nat} {dst : Word} {c : PClass} {p : RxPos}

/-! ## What a micro-step leaves alone, by its position -/

/-- From `s` to `t` the micro-step of RECEIVE at `p` wrote at most IFLAG1, in the release, and the bytes of the
caller's range, in the copy. -/
structure RxFrame (c : PClass) (len : Nat) (dst : Word) (p : RxPos) (s t : State) : Prop where
  host : HostFrame s t
  sess : t.sess = s.sess
  value : t.seq.value = s.seq.value
  block : ∃ flags, (∀ j, p = .release j → ∀ b, flags.getLsbD b = decide (b = j)) ∧
    BlockFrame (rxTarget p) flags s t
  hostMem : (∀ j ws, p ≠ .copy j ws) → t.hostMem = s.hostMem
  outside : ∀ a, (a < dst.toNat ∨ dst.toNat + receiveBytes c len ≤ a) →
    cellRead t.hostMem a = cellRead s.hostMem a

/-- A micro-step that only moves the sequencer. -/
theorem rxFrame_movesOnly (hp : ∀ j, p ≠ .release j) (h : MovesOnly s t) : RxFrame c len dst p s t :=
  ⟨h.hostFrame, by rw [h.rest], h.value, ⟨0#32, fun j hj => absurd hj (hp j), .of_block_eq h.rest⟩,
    fun _ => by rw [h.rest], fun _ _ => by rw [h.rest]⟩

/-- A failed pass only moves the sequencer (R163, R169). -/
theorem movesOnly_passFailed : MovesOnly s (receivePassFailed s) := by
  obtain ⟨hrest, hdesc, hvalue, hstatuses⟩ :=
    pollFailed_frame (s := s.goto (.receive (.scan 0))) (f := fun t => t.finish .timeout)
      fun u => ⟨rfl, rfl, rfl, [.timeout], rfl⟩
  exact ⟨hrest, hdesc, hvalue, hstatuses⟩

/-- A run of host byte writes leaves the addresses it does not name alone. -/
theorem hostWriteAll_other {a x : Nat} {f : Nat → Byte} {ms : List Nat}
    (h : hostWriteAll a f s ms = .ok t) (hx : ∀ m ∈ ms, x ≠ a + m) :
    cellRead t.hostMem x = cellRead s.hostMem x := by
  induction ms generalizing s with
  | nil => cases h; rfl
  | cons m ms ih =>
    obtain ⟨u, hu, h⟩ := thenDo_eq_ok.mp h
    obtain ⟨-, rfl⟩ := hostWrite_spec hu
    rw [ih h fun n hn => hx n (List.mem_cons_of_mem m hn)]
    exact cellRead_cellWrite_other _ _ (hx m List.mem_cons_self)

/-- A write to host memory is inside every frame of block space. -/
theorem BlockFrame.of_hostMem {target : Option BlockWord} {flags : Word} (mem : Memory) :
    BlockFrame target flags s { s with hostMem := mem } :=
  ⟨fun _ => rfl, rfl, fun _ => rfl, fun _ => rfl, fun _ => rfl, fun _ => rfl, fun _ _ => rfl,
    fun _ _ => rfl, fun _ _ _ => rfl, fun _ _ _ => rfl⟩

/-- The copy writes the caller's range and nothing else (R165). -/
theorem rxFrame_copy {j : Nat} {ws : List Word} {u : State} (q : Pos)
    (h : hostWriteAll dst.toNat (unpackAt ws) s (List.range (receiveBytes c len)) = .ok u) :
    RxFrame c len dst (.copy j ws) s (u.goto q) := by
  have hout : ∀ a, (a < dst.toNat ∨ dst.toNat + receiveBytes c len ≤ a) →
      cellRead u.hostMem a = cellRead s.hostMem a := fun a ha =>
    hostWriteAll_other h fun m hm => by
      rw [List.mem_range] at hm
      omega
  rw [hostWriteAll_outside h]
  exact ⟨⟨rfl, rfl, rfl, rfl, rfl, rfl, [], (List.append_nil _).symm⟩, rfl, rfl,
    ⟨0#32, nofun, (BlockFrame.of_hostMem _).goto q⟩, fun hp => absurd rfl (hp j ws), hout⟩

/-- The release writes the flag of its buffer (R166). -/
theorem rxFrame_release {j : Nat} {q : Pos} (hj : j < poolSize c)
    (h : writeStep offIflag1 (bitWord j) q s = .next t) : RxFrame c len dst (.release j) s t := by
  obtain ⟨u, hu, rfl⟩ := writeStep_eq_next.mp h
  obtain ⟨hhost, hsess, hmem, hvalue, hblock⟩ := regWrite_goto_frame q blockWord_iflag1 hu
  refine ⟨hhost, hsess, hvalue, ⟨bitWord j, ?_, hblock⟩, fun _ => hmem, fun a _ => by rw [hmem]⟩
  rintro _ ⟨⟩
  exact getLsbD_flagWord (hj.trans_le (poolSize_le c))

theorem receiveMicro_frame (hfit : rxPosFits c p = true) (h : receiveMicro c len dst p s = .next t) :
    RxFrame c len dst p s t := by
  cases p with
  | scan i =>
    rw [receiveMicro, regRead_iflag1, tryDo_ok] at h
    cases h
    refine rxFrame_movesOnly nofun ?_
    split
    · exact movesOnly_start _
    · split
      · exact movesOnly_goto _
      · exact movesOnly_passFailed
  | readData j k ws =>
    obtain ⟨v, -, h⟩ := tryDo_eq_next.mp h
    cases h
    exact rxFrame_movesOnly nofun (movesOnly_goto _)
  | copy j ws =>
    obtain ⟨u, hu, h⟩ := tryDo_eq_next.mp h
    cases h
    exact rxFrame_copy _ hu
  | release j => exact rxFrame_release (of_decide_eq_true hfit) h
  | complete => cases h; exact rxFrame_movesOnly nofun (movesOnly_finish _)

end Sys2Proof.Machine

open Sys2Proof Sys2Proof.Machine

/-- Settles O40: the checks only move the sequencer; the copy writes the caller's range, the release its flag,
and no other micro-step writes. -/
theorem receiveLeavesTheRest : Obligations.ReceiveLeavesTheRest := by
  unfold Obligations.ReceiveLeavesTheRest
  intro inst len dst s t hfit h
  cases hpos : s.seq.pos with
  | idle =>
    rw [exec_receive_idle hpos] at h
    obtain ⟨u, hu, h⟩ := tryDo_eq_next.mp h
    cases h
    obtain ⟨-, rfl⟩ := receiveStart_spec hu
    exact ⟨(movesOnly_start _).hostFrame, rfl, rfl, fun _ => ⟨.of_block_eq rfl, rfl⟩, nofun⟩
  | receive p =>
    rw [hpos] at hfit
    cases hc : s.sess.cls with
    | none => simp [posFits, hc] at hfit
    | some c =>
      rw [posFits_receive hc] at hfit
      rw [exec_receive_micro hpos hc] at h
      obtain ⟨hhost, hsess, hvalue, hblock, hmem, hout⟩ := receiveMicro_frame hfit h
      refine ⟨hhost, hsess, hvalue, nofun, ?_⟩
      rintro _ _ ⟨⟩ ⟨⟩
      exact ⟨hblock, hmem, hout⟩
  | init p | transmit p | calcTiming p => rw [hpos] at hfit; cases hfit
  | read32 | write32 => rw [hpos] at hfit; cases hfit

end

section
/-! PROOFS. The offset checks of READ32 and WRITE32 (O10), the word READ32 answers (O11), the configuration
words WRITE32 stores (O13), and WRITE32's frame (O20). -/

namespace Sys2Proof.Machine

variable {s t : State} {inst n : Nat} {off v : Word} {r : Fault}

/-! ## Micro-step 0 (R88 item 5, R173 items 1 and 2) -/

theorem blockWord_misaligned (h : n % 4 ≠ 0) : blockWord n = .error .misaligned := if_pos h

theorem accessStart_refused (h : blockWord off.toNat = .error r) (p : Pos) :
    accessStart 0 off p s = .error r := by
  simp only [accessStart, Config.modelledInst, decide_true, check_true, thenDo_ok, h, thenDo_error]

theorem accessStart_mapped (h : offsetMapped off.toNat = true) (p : Pos) :
    accessStart 0 off p s = .ok (s.start p) := by
  obtain ⟨w, hw⟩ := blockWord_mapped h
  simp only [accessStart, Config.modelledInst, decide_true, check_true, thenDo_ok, hw]

/-- READ32 and WRITE32 have the same checks at micro-step 0. -/
theorem exec_access_start_fault (v : Word) (hp : s.seq.pos = .idle)
    (h : ∀ p, accessStart inst off p s = .error r) :
    exec (.read32 inst off) s = .fault r ∧ exec (.write32 inst off v) s = .fault r := by
  simp only [exec, execRead32, execWrite32, hp, h, tryDo_error, and_self]

theorem exec_access_start (v : Word) (hp : s.seq.pos = .idle)
    (h : ∀ p, accessStart inst off p s = .ok (s.start p)) :
    exec (.read32 inst off) s = .next (s.start .read32) ∧
      exec (.write32 inst off v) s = .next (s.start .write32) := by
  simp only [exec, execRead32, execWrite32, hp, h, tryDo_ok, and_self]

/-! ## Access to a disabled module (R65, R173 item 3) -/

/-- An offset of a RAM word or a receive mask, which need the module enabled (R65). -/
def NeedsModule (n : Nat) : Prop :=
  (∃ k, k < 128 ∧ n = 0x080 + 4 * k) ∨ ∃ i, i < 32 ∧ n = 0x880 + 4 * i

theorem moduleEnabled_disabled (hl : lpmAck s.mcr = true) :
    moduleEnabled s = .error .moduleDisabled := by
  rw [moduleEnabled, hl, Bool.not_true, check_false]

theorem blockWord_of_needsModule (h : NeedsModule n) :
    (∃ k, blockWord n = .ok (.ram k)) ∨ ∃ i, blockWord n = .ok (.rximr i) := by
  obtain ⟨k, hk, rfl⟩ | ⟨i, hi, rfl⟩ := h
  · exact .inl ⟨k, blockWord_ram hk⟩
  · exact .inr ⟨i, blockWord_rximr hi⟩

theorem regRead_disabled (hl : lpmAck s.mcr = true) (h : NeedsModule n) :
    regRead n s = .error .moduleDisabled := by
  obtain ⟨_, hw⟩ | ⟨_, hw⟩ := blockWord_of_needsModule h <;>
    simp only [regRead, hw, thenDo_ok, readWord, moduleEnabled_disabled hl, thenDo_error]

theorem regWrite_disabled (hl : lpmAck s.mcr = true) (h : NeedsModule n) :
    regWrite n v s = .error .moduleDisabled := by
  obtain ⟨_, hw⟩ | ⟨_, hw⟩ := blockWord_of_needsModule h <;>
    simp only [regWrite, hw, thenDo_ok, writeWord, moduleEnabled_disabled hl, thenDo_error]

/-! ## The access of READ32 (R172, R174, R175) -/

theorem exec_read32_access (hp : s.seq.pos = .read32) (h : regRead off.toNat s = .ok v) :
    exec (.read32 inst off) s = .next ({ s with seq := { s.seq with value := some v } }.finish .ok) := by
  simp only [exec, execRead32, hp, h, tryDo_ok]

theorem exec_read32_fault (hp : s.seq.pos = .read32) (h : regRead off.toNat s = .error r) :
    exec (.read32 inst off) s = .fault r := by
  simp only [exec, execRead32, hp, h, tryDo_error]

/-- A read of a receive mask of an enabled module. -/
theorem regRead_rximr {i : Nat} (s : State) (hi : i < Config.mbMax) (hl : lpmAck s.mcr = false) :
    regRead (offRximr i) s = needed (cellRead s.rximr i) := by
  simp only [regRead, blockWord_rximr hi, thenDo_ok, readWord, moduleEnabled, hl, Bool.not_false,
    check_true]

/-- The word a block read answers is the one block space holds at the offset. -/
theorem regRead_of_blockHolds (h : BlockHolds s n v) : regRead n s = .ok v := by
  obtain ⟨rfl, rfl⟩ | ⟨rfl, rfl⟩ | ⟨rfl, rfl⟩ | ⟨rfl, rfl⟩ | ⟨rfl, rfl⟩ | ⟨rfl, rfl⟩ |
    ⟨hl, k, hk, rfl, hv⟩ | ⟨hl, i, hi, rfl, hv⟩ := h
  · exact regRead_mcr s
  · exact regRead_ctrl1 s
  · exact regRead_iflag1 s
  · exact regRead_cbt s
  · exact regRead_fdctrl s
  · exact regRead_fdcbt s
  · exact (regRead_ram s hk hl).trans (needed_eq_ok.mpr hv)
  · exact (regRead_rximr s hi hl).trans (needed_eq_ok.mpr hv)

/-- READ32 starts, or takes the word read and finishes. -/
theorem exec_read32_next (h : exec (.read32 inst off) s = .next t) :
    t = s.start .read32 ∨
      ∃ v, t = { s with seq := { s.seq with value := some v } }.finish .ok := by
  simp only [exec, execRead32] at h
  split at h
  · obtain ⟨u, hu, h⟩ := tryDo_eq_next.mp h
    cases h
    exact .inl (accessStart_spec hu)
  · obtain ⟨v, -, h⟩ := tryDo_eq_next.mp h
    exact .inr ⟨v, (Host.Outcome.next.inj h).symm⟩
  · cases h

/-! ## The access of WRITE32 (R176) -/

/-- A receive mask is stored in freeze, or where it keeps its value (R35, R64). -/
theorem regWrite_rximr_inWindow {i : Nat} (hi : i < Config.mbMax) (hl : lpmAck s.mcr = false)
    (h : frzAck s.mcr = true ∨ cellRead s.rximr i = some v) :
    regWrite (offRximr i) v s = .ok { s with rximr := cellWrite s.rximr i v } := by
  obtain hf | hv := h
  · exact regWrite_rximr_frozen v hi hl hf
  · exact regWrite_rximr_same hi hl hv

/-- WRITE32 only moves the sequencer, but for its block write. -/
theorem exec_write32_next (h : exec (.write32 inst off v) s = .next t) :
    ∃ u, (u = s ∨ regWrite off.toNat v s = .ok u) ∧ MovesOnly u t := by
  simp only [exec, execWrite32] at h
  split at h
  · obtain ⟨u, hu, h⟩ := tryDo_eq_next.mp h
    cases h
    rw [accessStart_spec hu]
    exact ⟨s, .inl rfl, movesOnly_start _⟩
  · obtain ⟨u, hu, h⟩ := tryDo_eq_next.mp h
    cases h
    exact ⟨u, .inr hu, movesOnly_finish _⟩
  · cases h

end Sys2Proof.Machine

open Sys2Proof Sys2Proof.Machine

/-- Settles O10: the three checks of micro-step 0 in their order, and the module check at the access. -/
theorem registerOffsetsAreChecked : Obligations.RegisterOffsetsAreChecked := by
  unfold Obligations.RegisterOffsetsAreChecked
  intro inst off v s
  refine ⟨fun hp hi => ⟨exec_badInstance hp hi (.inr (.inr (.inl rfl))),
      exec_badInstance hp hi (.inr (.inr (.inr rfl)))⟩, ?_, ?_, ?_,
    fun hl hn => ⟨fun hp => exec_read32_fault hp (regRead_disabled hl hn),
      fun hp => exec_write32_fault hp (regWrite_disabled hl hn)⟩⟩
  · rintro hp rfl h4
    exact exec_access_start_fault v hp (accessStart_refused (blockWord_misaligned h4))
  · rintro hp rfl h4 hm
    exact exec_access_start_fault v hp (accessStart_refused (blockWord_unmapped h4 hm))
  · rintro hp rfl hm
    exact exec_access_start v hp (accessStart_mapped hm)

/-- Settles O11: the read of the word held, the read of poison, and the two next states of READ32. -/
theorem read32ReturnsTheWord : Obligations.Read32ReturnsTheWord := by
  unfold Obligations.Read32ReturnsTheWord
  refine ⟨fun inst off v s hp h => exec_read32_access hp (regRead_of_blockHolds h),
    fun inst off s hp hl h => exec_read32_fault hp ?_, fun inst off s t h => ?_⟩
  · obtain ⟨k, hk, hoff, hv⟩ | ⟨i, hi, hoff, hv⟩ := h
    · rw [hoff, ← needed_none, ← hv]
      exact regRead_ram s hk hl
    · rw [hoff, ← needed_none, ← hv]
      exact regRead_rximr s hi hl
  · obtain rfl | ⟨v, rfl⟩ := exec_read32_next h
    · exact ⟨rfl, (movesOnly_start _).hostFrame⟩
    · exact ⟨rfl, .of_seq rfl rfl ⟨[.ok], rfl⟩⟩

/-- Settles O13: each word's block write passes its checks inside the window of the fields it changes. -/
theorem write32StoresConfigurationWords : Obligations.Write32StoresConfigurationWords := by
  unfold Obligations.Write32StoresConfigurationWords
  intro inst v s hp
  refine ⟨fun hn hlpb hclk => exec_write32_access hp (regWrite_ctrl1 hn hlpb hclk),
    fun hw => exec_write32_access hp (regWrite_cbt hw),
    fun hn hw => exec_write32_access hp (regWrite_fdcbt hn hw),
    fun hn hw => exec_write32_access hp (regWrite_fdctrl hn hw),
    fun i off hi hoff hl hw => exec_write32_access hp ?_⟩
  rw [hoff]
  exact regWrite_rximr_inWindow hi hl hw

/-- Settles O20: WRITE32 is at most the block write at its offset, then a move of the sequencer. -/
theorem write32LeavesTheRest : Obligations.Write32LeavesTheRest := by
  unfold Obligations.Write32LeavesTheRest
  intro inst off v s t w hw h
  obtain ⟨u, hu, hm⟩ := exec_write32_next h
  have outside : SameOutside s u := by
    obtain rfl | hu := hu
    · exact .refl u
    · exact regWrite_outside hu
  have frame : BlockFrame (some w) v s u := by
    obtain rfl | hu := hu
    · exact .of_block_eq rfl
    · exact regWrite_frame hw hu
  have hsess : t.sess = u.sess := by rw [hm.rest]
  have hmem : t.hostMem = u.hostMem := by rw [hm.rest]
  exact ⟨frame.movesOnly hm, outside.hostFrame.trans hm.hostFrame, hsess.trans outside.sess,
    hmem.trans outside.hostMem, hm.value.trans (congrArg Seq.value outside.seq)⟩

end

section
/-! SUPPORT. What the hardware agents' steps are and leave: enabled moves, control words, frames, the search for a
receive buffer, delivery and completion (R189 to R196). -/

namespace Sys2Proof.Machine

variable {s : State} {f : Frame} {m : Move} {c : PClass} {i j : Nat} {cs idw : Word}

/-! ## Enabled moves (R66) -/

theorem mem_enabledMoves_iff (hm : m ∈ allMoves) : m ∈ enabledMoves s ↔ moveOn s m = true := by
  simp only [enabledMoves, List.mem_filter, hm, true_and]

theorem usable_iff : usable s j = true ↔ j < poolSize (hwClass s) ∧ j ≤ maxMb s.mcr := by
  simp only [usable, Bool.and_eq_true, decide_eq_true_eq]

/-- The guard of TX(i) (R189, R26; over a poison control word R20). -/
theorem tx_mem_enabledMoves_iff :
    .tx i ∈ enabledMoves s ↔
      operational s = true ∧ i < poolSize (hwClass s) ∧ i ≤ maxMb s.mcr ∧
        (hwCodeIs s codeTxData i = true ∨ hwCs s i = none) ∧ s.txPending.getLsbD i = true := by
  have hon : moveOn s (.tx i) = true ↔
      operational s = true ∧ usable s i = true ∧ s.txPending.getLsbD i = true ∧
        (hwCodeIs s codeTxData i = true ∨ hwCs s i = none) := by
    simp only [moveOn, txOn, Bool.and_eq_true, Bool.or_eq_true, Option.isNone_iff_eq_none, and_assoc]
  constructor
  · intro h
    obtain ⟨hop, hu, hpend, hcode⟩ := hon.mp (List.mem_filter.mp h).2
    obtain ⟨hi, hmax⟩ := usable_iff.mp hu
    exact ⟨hop, hi, hmax, hcode, hpend⟩
  · rintro ⟨hop, hi, hmax, hcode, hpend⟩
    have hmem : Move.tx i ∈ allMoves := by simp [allMoves, hi.trans_le (poolSize_le _)]
    exact (mem_enabledMoves_iff hmem).mpr (hon.mpr ⟨hop, usable_of_le hi hmax, hpend, hcode⟩)

/-- The guard of RX-FRAME (R196). -/
theorem rxFrame_mem_enabledMoves_iff :
    .rxFrame ∈ enabledMoves s ↔
      operational s = true ∧ (lpb s.ctrl1 = false ∨ s.params.loopBackBus = true) := by
  rw [mem_enabledMoves_iff (by decide)]
  simp only [moveOn, rxFrameOn, Bool.and_eq_true, Bool.or_eq_true, Bool.not_eq_true']

/-! ## The control words ENGINE writes (R190, R194) -/

theorem getLsbD_sentCs (w d : Word) (b : Nat) :
    (sentCs w d).getLsbD b =
      if b < 16 then d.getLsbD b
      else if 24 ≤ b ∧ b < 28 then codeTxInactive.getLsbD (b - 24) else w.getLsbD b := by
  simp only [sentCs, getLsbD_mergeBits, getLsbD_stampMask, getLsbD_withCode, decide_eq_true_eq]

/-- Outside CODE and DLC a delivered control word is the draw. -/
theorem getLsbD_deliveredCs (d : Word) (dlc : BitVec 4) {b : Nat} (hdlc : ¬ (16 ≤ b ∧ b < 20))
    (hcode : ¬ (24 ≤ b ∧ b < 28)) : (deliveredCs d dlc).getLsbD b = d.getLsbD b := by
  simp only [deliveredCs, getLsbD_mergeBits, getLsbD_dlcMask, getLsbD_withCode, Bool.and_eq_true,
    decide_eq_true_eq, if_neg hdlc, if_neg hcode]

/-! ## Frames (R190, R192, R196) -/

/-- What buffer `i` holds as a frame. -/
theorem frameOf_eq_ok :
    frameOf i cs s = .ok f ↔
      cellRead s.ram (idIndex (hwClass s) i) = some f.idw ∧ f.data.length = dataWords (hwClass s) ∧
        (∀ k, k < dataWords (hwClass s) →
          cellRead s.ram (dataIndex (hwClass s) i k) = f.data[k]?) ∧
        f.dlc = dlcOf cs := by
  obtain ⟨idw, data, dlc⟩ := f
  simp only [frameOf, thenDo_eq_ok, needed_eq_ok, readData_eq_ok, List.length_range, List.getElem_range,
    Except.ok.injEq, Frame.mk.injEq]
  constructor
  · rintro ⟨_, hid, _, ⟨hlen, hdata⟩, rfl, rfl, rfl⟩
    exact ⟨hid, hlen, hdata, rfl⟩
  · rintro ⟨hid, hlen, hdata, rfl⟩
    exact ⟨idw, hid, data, ⟨hlen, hdata⟩, rfl, rfl, rfl⟩

/-- A buffer without a poison word holds a frame. -/
theorem frameOf_of_readable (cs : Word) (hid : cellRead s.ram (idIndex (hwClass s) i) = some idw)
    (hdata : ∀ k, k < dataWords (hwClass s) → cellRead s.ram (dataIndex (hwClass s) i k) ≠ none) :
    ∃ f, frameOf i cs s = .ok f := by
  refine ⟨⟨idw, payloadWords (hwClass s) fun k => (cellRead s.ram (dataIndex (hwClass s) i k)).getD 0#32,
    dlcOf cs⟩, frameOf_eq_ok.mpr ⟨hid, length_payloadWords .., fun k hk => ?_, rfl⟩⟩
  obtain ⟨w, hw⟩ := Option.ne_none_iff_exists'.mp (hdata k hk)
  rw [getElem?_payloadWords hk, hw, Option.getD_some]

/-- The frames of BUS are those whose parts are the draws in a row. -/
theorem eq_drawnFrame_iff {n : Nat} :
    f = drawnFrame c n ↔
      f.idw = Config.freeWord n ∧ f.data.length = dataWords c ∧
        (∀ k, k < dataWords c → f.data[k]? = some (Config.freeWord (n + 1 + k))) ∧
        f.dlc = (Config.freeWord (n + 1 + dataWords c)).setWidth 4 := by
  constructor
  · rintro rfl
    exact ⟨rfl, by simp [drawnFrame], fun k hk => by simp [drawnFrame, hk], rfl⟩
  · rintro ⟨hid, hlen, hdata, hdlc⟩
    have hwords : f.data = (drawnFrame c n).data := by
      refine List.ext_getElem? fun k => ?_
      by_cases hk : k < dataWords c
      · rw [hdata k hk]; simp [drawnFrame, hk]
      · rw [List.getElem?_eq_none (by omega)]; simp [drawnFrame, hk]
    obtain ⟨_, _, _⟩ := f
    exact congr (congr (congrArg Frame.mk hid) hwords) hdlc

/-- A payload of the pool's size as a function of the word's number. -/
theorem payloadWords_getD {data : List Word} (h : data.length = dataWords c) :
    payloadWords c (data.getD · 0#32) = data := by
  refine List.ext_getElem (by simp [h]) fun k hk hk' => ?_
  simp [payloadWords, hk']

/-! ## Delivery and completion (R190, R194) -/

/-- A delivered frame of the pool's size fills its buffer, and no word outside it changes. -/
theorem deliverInto_fills (hf : f.data.length = dataWords (hwClass s)) (j : Nat) :
    BufferFilled (hwClass s) j (deliveredCs (draw s) f.dlc) f.idw (f.data.getD · 0#32) s.ram
      (deliverInto f j s).ram := by
  have h := deliverInto_filled (s := s) (r := j) (idw := f.idw) (word := (f.data.getD · 0#32)) rfl f.dlc
  rwa [payloadWords_getD hf] at h

theorem deliver_of_found (h : findRx f.idw s (List.range Config.mbMax) = .ok (some j)) :
    deliver f s = .ok (deliverInto f j s) := by
  rw [deliver, h, thenDo_ok]

theorem deliver_of_none (h : findRx f.idw s (List.range Config.mbMax) = .ok none) :
    deliver f s = .ok s := by
  rw [deliver, h, thenDo_ok]

theorem deliver_of_error {r : Fault} (h : findRx f.idw s (List.range Config.mbMax) = .error r) :
    deliver f s = .error r := by
  rw [deliver, h, thenDo_error]

/-- The completion writes the control word of its buffer only. -/
theorem cellRead_completeTx_other {k : Nat} (h : k ≠ csIndex (hwClass s) i) :
    cellRead (completeTx i cs s).ram k = cellRead s.ram k :=
  cellRead_cellWrite_other _ _ h

theorem hwCs_completeTx (i : Nat) (cs : Word) (s : State) :
    hwCs (completeTx i cs s) i = some (sentCs cs (draw s)) :=
  cellRead_cellWrite_same ..

/-- TX(i) of a buffer that holds a frame completes it, and in loop-back delivers it (R190, R191). -/
theorem txStep_of_frame (hcs : hwCs s i = some cs) (hf : frameOf i cs s = .ok f) :
    txStep i s =
      if lpb s.ctrl1 then deliver f (completeTx i cs s) else .ok (completeTx i cs s) := by
  rw [txStep, hcs, needed_some, thenDo_ok, hf, thenDo_ok]

/-- Outside loop-back TX(i) is its completion (R190). -/
theorem txStep_normal (hcs : hwCs s i = some cs) (hf : frameOf i cs s = .ok f)
    (hlpb : lpb s.ctrl1 = false) : txStep i s = .ok (completeTx i cs s) := by
  rw [txStep_of_frame hcs hf, hlpb, if_neg Bool.false_ne_true]

/-! ## The search for a receive buffer (R194) -/

/-- ENGINE reads past buffer `j`: not usable, not RX_EMPTY, or not matching. -/
def PassedOver (g : Word) (s : State) (j : Nat) : Prop :=
  usable s j = true →
    ∃ cs, hwCs s j = some cs ∧
      (codeOf cs = codeRxEmpty →
        ∃ idw mask, cellRead s.ram (idIndex (hwClass s) j) = some idw ∧
          cellRead s.rximr j = some mask ∧ idMatches g idw mask = false)

/-- The search comes to a buffer when it has read past the ones below. -/
theorem findRx_reaches {g : Word} (hj : j < Config.mbMax) (h : ∀ i, i < j → PassedOver g s i) :
    ∃ js, findRx g s (List.range Config.mbMax) = findRx g s (j :: js) := by
  obtain ⟨n, hn⟩ := Nat.exists_eq_add_of_lt hj
  refine ⟨((List.range n).map Nat.succ).map (j + ·), ?_⟩
  rw [hn, Nat.add_assoc, List.range_add, List.range_succ_eq_map, List.map_cons, Nat.add_zero]
  exact findRx_skip g s _ _ fun i hi => h i (List.mem_range.mp hi)

theorem findRx_none {g : Word} (h : ∀ i, PassedOver g s i) (js : List Nat) : findRx g s js = .ok none := by
  have hskip := findRx_skip g s js [] fun i _ => h i
  rwa [List.append_nil] at hskip

end Sys2Proof.Machine

end

section
/-! PROOFS. Every word of a buffer has one writer (O56). -/

namespace Sys2Proof.Machine

variable {s t u : State} {f : Frame} {i n : Nat}

/-! ## HOST's changes (R62, R63) -/

/-- HOST owned buffer `i`, or it revoked its own request of it by the control word, RAM word `k`. -/
def HostChanges (s t : State) (i k : Nat) : Prop :=
  HostOwns s i ∨
    (k = csIndex (hwClass s) i ∧ hwCodeIs s codeTxData i = true ∧ hwCodeIs t codeTxInactive i = true)

/-- The write of a RAM word of a buffer is HOST's own, or a revocation (R63). -/
theorem writeRam_hostChanges {k : Nat} {v : Word} (hi : i < poolSize (hwClass s))
    (hk : k / bufWords (hwClass s) = i) (h : writeRam k v s = .ok t) : HostChanges s t i k := by
  obtain ⟨hmay, hstore⟩ := writeRam_spec h
  rw [hk] at hmay
  refine (hostMayWrite_spec (hmay hi)).imp_right fun hrev => ?_
  simp only [isRevocation, Bool.and_eq_true, decide_eq_true_eq, beq_iff_eq] at hrev
  obtain ⟨⟨⟨rfl, hdata⟩, -⟩, hv⟩ := hrev
  refine ⟨rfl, hdata, hwCodeIs_iff.mpr ⟨v, ?_, hv⟩⟩
  obtain ⟨-, -, rfl⟩ | ⟨-, rfl⟩ := hstore <;> exact cellRead_cellWrite_same ..

/-- A block write changes a word of a buffer by storing it, or by releasing a full buffer, which HOST owns. -/
theorem regWrite_hostChanges {off : Nat} {v : Word} (hi : i < poolSize (hwClass s))
    (hn : n < bufWords (hwClass s)) (h : regWrite off v s = .ok t)
    (hne : cellRead t.ram (csIndex (hwClass s) i + n) ≠ cellRead s.ram (csIndex (hwClass s) i + n)) :
    HostChanges s t i (csIndex (hwClass s) i + n) := by
  obtain ⟨w, hw, hspec⟩ := regWrite_spec h
  by_cases hram : w = .ram (csIndex (hwClass s) i + n)
  · subst hram
    exact writeRam_hostChanges hi (index_div hn) hspec.2
  by_cases hreleased : ∃ j, j < poolSize (hwClass s) ∧
      csIndex (hwClass s) i + n = csIndex (hwClass s) j ∧ v.getLsbD j = true ∧
        hwCodeIs s codeRxFull j = true
  · obtain ⟨j, -, hk, -, hfull⟩ := hreleased
    obtain rfl : i = j := by_contra fun hij =>
      csIndex_ne (n := 0) hij hn (by rw [bufWords_eq]; omega) hk
    obtain ⟨cs, hcs, hcode⟩ := hwCodeIs_iff.mp hfull
    exact .inl (hostOwns_of_code hcs (by rw [hcode]; decide) (by rw [hcode]; decide))
  · exact absurd ((regWrite_frame hw h).ram _ (fun he => hram (Option.some.inj he)) fun _ => hreleased) hne

theorem hostEffect_hostChanges (h : HostEffect s u) (hi : i < poolSize (hwClass s))
    (hn : n < bufWords (hwClass s))
    (hne : cellRead u.ram (csIndex (hwClass s) i + n) ≠ cellRead s.ram (csIndex (hwClass s) i + n)) :
    HostChanges s u i (csIndex (hwClass s) i + n) := by
  cases h with
  | stay | session => exact absurd rfl hne
  | write off v _ hw => exact regWrite_hostChanges hi hn hw hne
  | lastZero k v _ hw =>
    have hv : HostChanges s v i (csIndex (hwClass s) i + n) := regWrite_hostChanges hi hn hw hne
    exact hv
  | copy j ws a f ms _ _ hw =>
    rw [hostWriteAll_outside hw] at hne
    exact absurd rfl hne

/-- HOST's step changes a word of a buffer it owns, or it revokes. -/
theorem hostStep_hostChanges (hi : i < poolSize (hwClass s)) (hn : n < bufWords (hwClass s))
    (h : hostStep s = .next t)
    (hne : cellRead t.ram (csIndex (hwClass s) i + n) ≠ cellRead s.ram (csIndex (hwClass s) i + n)) :
    HostChanges s t i (csIndex (hwClass s) i + n) := by
  obtain ⟨r, hr⟩ | ⟨x, u, hf, he⟩ := hostStep_cases s
  · rw [hr] at h; cases h
  · rw [he] at h
    obtain ⟨v, hv, hm, -⟩ := exec_microStep h
    have hram : t.ram = v.ram := by rw [hm]
    rw [hram] at hne
    have hchanges : HostChanges s v i (csIndex (hwClass s) i + n) := by
      obtain ⟨rest, -, -, rfl⟩ | ⟨-, -, -, -, -, rfl⟩ := fetch_spec hf
      · have hfetched := hostEffect_hostChanges hv hi hn hne
        exact hfetched
      · exact hostEffect_hostChanges hv hi hn hne
    rw [hm]
    exact hchanges

/-! ## ENGINE's and BUS's changes (R62, R193) -/

/-- A delivery changes words of an RX_EMPTY buffer only, which ENGINE owns. -/
theorem deliver_engineOwns (hop : operational s = true) (hf : f.data.length = dataWords (hwClass s))
    (hn : n < bufWords (hwClass s)) (h : deliver f s = .ok t)
    (hne : cellRead t.ram (csIndex (hwClass s) i + n) ≠ cellRead s.ram (csIndex (hwClass s) i + n)) :
    EngineOwns s i := by
  obtain ⟨j, hj, rfl⟩ | ⟨-, rfl⟩ := deliver_spec h
  · by_cases hij : i = j
    · subst hij
      obtain ⟨-, -, cs, -, -, hcs, hempty, -⟩ := findRx_some hj
      exact ⟨hop, cs, hcs, .inl hempty⟩
    · exact absurd ((deliverInto_fills hf j).other hij hn) hne
  · exact absurd rfl hne

/-- A buffer other than `j` that ENGINE owns after TX(j)'s completion, it owned before. -/
theorem engineOwns_of_completeTx {j : Nat} {cs : Word} (hij : i ≠ j)
    (h : EngineOwns (completeTx j cs s) i) : EngineOwns s i := by
  obtain ⟨hop, w, hw, hown⟩ := h
  have hcs : hwCs s i = some w := by
    rw [← hw]
    exact (cellRead_completeTx_other fun he => hij (csIndex_injective _ he)).symm
  refine ⟨hop, w, hcs, hown.imp_right fun ⟨hdata, hpend⟩ => ⟨hdata, ?_⟩⟩
  have hbit : (clearBit s.txPending j).getLsbD i = true := hpend
  rw [getLsbD_clearBit, Bool.and_eq_true] at hbit
  exact hbit.1

/-- TX(j) changes its own buffer, which is TX_DATA and requested, and in loop-back an RX_EMPTY one. -/
theorem txStep_engineOwns {j : Nat} (hn : n < bufWords (hwClass s)) (hm : .tx j ∈ enabledMoves s)
    (h : txStep j s = .ok t)
    (hne : cellRead t.ram (csIndex (hwClass s) i + n) ≠ cellRead s.ram (csIndex (hwClass s) i + n)) :
    EngineOwns s i := by
  obtain ⟨hop, -, -, hcode, hpend⟩ := tx_mem_enabledMoves_iff.mp hm
  simp only [txStep, thenDo_eq_ok, needed_eq_ok] at h
  obtain ⟨cs, hcs, f, hf, h⟩ := h
  by_cases hij : i = j
  · subst hij
    obtain hdata | hnone := hcode
    · obtain ⟨w, hw, hcode⟩ := hwCodeIs_iff.mp hdata
      exact ⟨hop, w, hw, .inr ⟨hcode, hpend⟩⟩
    · rw [hnone] at hcs; cases hcs
  · have hkept : cellRead (completeTx j cs s).ram (csIndex (hwClass s) i + n) =
        cellRead s.ram (csIndex (hwClass s) i + n) :=
      cellRead_completeTx_other (csIndex_ne (n := 0) hij hn (by rw [bufWords_eq]; omega))
    rw [← hkept] at hne
    split at h
    · have hlen : f.data.length = dataWords (hwClass s) := frameOf_length hf
      exact engineOwns_of_completeTx hij (deliver_engineOwns hop hlen hn h hne)
    · cases h
      exact absurd rfl hne

/-- A move of CTRL, ENGINE or BUS changes words of buffers ENGINE owns only. -/
theorem runMove_engineOwns {m : Move} (hm : m ∈ enabledMoves s) (hhost : m ≠ .host)
    (hn : n < bufWords (hwClass s)) (h : runMove m s = .next t)
    (hne : cellRead t.ram (csIndex (hwClass s) i + n) ≠ cellRead s.ram (csIndex (hwClass s) i + n)) :
    EngineOwns s i := by
  cases m with
  | host => exact absurd rfl hhost
  | lpmEnter | lpmExit | frzEnter | frzExit | ready => cases h; exact absurd rfl hne
  | tx j => exact txStep_engineOwns hn hm (runMove_tx.mp h) hne
  | rxFrame =>
    have hop := (rxFrame_mem_enabledMoves_iff.mp hm).1
    have hdeliver := runMove_rxFrame.mp h
    have hlen : (drawnFrame (hwClass s) s.draws).data.length = dataWords (hwClass s) := by
      simp [drawnFrame]
    have hown : EngineOwns (s.drew (dataWords (hwClass s) + 2)) i :=
      deliver_engineOwns hop hlen hn hdeliver hne
    exact hown

end Sys2Proof.Machine

open Sys2Proof Sys2Proof.Machine

/-- Settles O56: a changed word of a buffer, by HOST through its block write, else by a completion or a delivery. -/
theorem everyBufferHasOneWriter : Obligations.EveryBufferHasOneWriter := by
  unfold Obligations.EveryBufferHasOneWriter
  intro s t m i k hm h hi hlo hhi hne
  obtain ⟨n, rfl⟩ := Nat.exists_eq_add_of_le hlo
  have hn : n < bufWords (hwClass s) := Nat.lt_of_add_lt_add_left hhi
  refine ⟨fun hhost => ?_, fun hhost => runMove_engineOwns hm hhost hn h hne⟩
  subst hhost
  exact hostStep_hostChanges hi hn h hne

end

section
/-! PROOFS. CTRL's steps (O50) and the table they settle in (O51). -/

namespace Sys2Proof.Machine

variable {s : State} {m : Move}

/-! ## One CTRL step (R182 to R186) -/

/-- A move that drives the acknowledge bits is enabled by its guard and changes no other bit of MCR. -/
theorem ctrl_answers {on lpm frz rdy : Bool} (hm : m ∈ allMoves) (hon : moveOn s m = on)
    (hrun : runMove m s = .next { s with mcr := withAcks s.mcr lpm frz rdy }) :
    (m ∈ enabledMoves s ↔ on = true) ∧
      ∃ w, runMove m s = .next { s with mcr := w } ∧ lpmAck w = lpm ∧ frzAck w = frz ∧ notRdy w = rdy ∧
        w &&& ~~~mcrReadOnly = s.mcr &&& ~~~mcrReadOnly :=
  ⟨by rw [mem_enabledMoves_iff hm, hon],
    _, hrun, lpmAck_withAcks .., frzAck_withAcks .., notRdy_withAcks ..,
    mergeBits_and_of_disjoint _ _ (by decide)⟩

theorem moveOn_of_not_mem (hm : m ∈ allMoves) (h : m ∉ enabledMoves s) : moveOn s m = false :=
  Bool.eq_false_iff.mpr fun hon => h ((mem_enabledMoves_iff hm).mpr hon)

/-- The guards of CTRL's five steps all fail. -/
structure CtrlSettled (s : State) : Prop where
  lpmEnter : lpmEnterOn s.mcr = false
  lpmExit : lpmExitOn s.mcr = false
  frzEnter : frzEnterOn s.mcr = false
  frzExit : frzExitOn s.mcr = false
  ready : readyOn s.mcr = false

theorem ctrlSettled_of_moves
    (h : ∀ m ∈ enabledMoves s,
      m ≠ .lpmEnter ∧ m ≠ .lpmExit ∧ m ≠ .frzEnter ∧ m ≠ .frzExit ∧ m ≠ .ready) : CtrlSettled s where
  lpmEnter := moveOn_of_not_mem (m := .lpmEnter) (by decide) fun hm => absurd (h _ hm) (by simp)
  lpmExit := moveOn_of_not_mem (m := .lpmExit) (by decide) fun hm => absurd (h _ hm) (by simp)
  frzEnter := moveOn_of_not_mem (m := .frzEnter) (by decide) fun hm => absurd (h _ hm) (by simp)
  frzExit := moveOn_of_not_mem (m := .frzExit) (by decide) fun hm => absurd (h _ hm) (by simp)
  ready := moveOn_of_not_mem (m := .ready) (by decide) fun hm => absurd (h _ hm) (by simp)

end Sys2Proof.Machine

open Sys2Proof Sys2Proof.Machine

/-- Settles O50: each row of the list by its guard and its effect. -/
theorem ctrlStepsAnswerRequests : Obligations.CtrlStepsAnswerRequests := by
  unfold Obligations.CtrlStepsAnswerRequests
  intro s mv on l f n hrow
  simp only [List.mem_cons, Prod.mk.injEq, List.not_mem_nil, or_false] at hrow
  obtain ⟨rfl, rfl, rfl, rfl, rfl⟩ | ⟨rfl, rfl, rfl, rfl, rfl⟩ | ⟨rfl, rfl, rfl, rfl, rfl⟩ |
    ⟨rfl, rfl, rfl, rfl, rfl⟩ | ⟨rfl, rfl, rfl, rfl, rfl⟩ := hrow
  · exact ctrl_answers (by decide) rfl rfl
  · exact ctrl_answers (by decide) rfl rfl
  · refine ctrl_answers (by decide) ?_ rfl
    simp only [moveOn, frzEnterOn, freezeRequested, Bool.and_assoc]
  · exact ctrl_answers (by decide) rfl rfl
  · exact ctrl_answers (by decide) rfl rfl

/-- Settles O51: MDIS and the freeze request decide which acknowledge bits the failed guards allow. -/
theorem ctrlSettlesInTheTable : Obligations.CtrlSettlesInTheTable := by
  unfold Obligations.CtrlSettlesInTheTable
  intro s hagree hmoves
  obtain ⟨hdisabled, hfrozen⟩ := acksAgree_iff.mp hagree
  have hoff := ctrlSettled_of_moves hmoves
  have enabled : mdis s.mcr = false → lpmAck s.mcr = false := fun hmd => by
    simpa [lpmExitOn, hmd] using hoff.lpmExit
  refine ⟨fun hmd => ?_, fun hmd hfreeze => ?_, fun hmd hfreeze => ?_⟩
  · have hl : lpmAck s.mcr = true := by simpa [lpmEnterOn, hmd] using hoff.lpmEnter
    obtain ⟨hf, hn⟩ := hdisabled hl
    exact ⟨hl, hf, hn, by simp [operational, operationalMcr, hl]⟩
  · have hl := enabled hmd
    have hf : frzAck s.mcr = true := by
      simpa [frzEnterOn, freezeRequested, hmd, hl, hfreeze] using hoff.frzEnter
    exact ⟨hl, hf, hfrozen hf, by simp [operational, operationalMcr, hf]⟩
  · have hl := enabled hmd
    have hf : frzAck s.mcr = false := by
      simpa [frzExitOn, freezeRequested, hl, hfreeze] using hoff.frzExit
    have hn : notRdy s.mcr = false := by
      simpa [readyOn, freezeRequested, hmd, hl, hf, hfreeze] using hoff.ready
    exact ⟨hl, hf, hn, by simp [operational, operationalMcr, hl, hf, hn]⟩

end

section
/-! PROOFS. TX(i) (O52), the delivery of a frame (O53) and where frames come from (O54). -/

open Sys2Proof Sys2Proof.Machine

/-- Settles O52: the guard of TX(i), and its completion as the one write of its control word. -/
theorem engineCompletesATransmission : Obligations.EngineCompletesATransmission := by
  unfold Obligations.EngineCompletesATransmission
  intro i s
  refine ⟨tx_mem_enabledMoves_iff, fun hcs => ?_, fun cs idw _ hcs hid hdata hlpb => ?_⟩
  · simp only [runMove, txStep, hcs, needed_none, thenDo_error, tryDo_error]
  · obtain ⟨f, hf⟩ := frameOf_of_readable cs hid hdata
    refine ⟨_, sentCs cs (draw s), runMove_tx.mpr (txStep_normal hcs hf hlpb), rfl, hwCs_completeTx i cs s,
      codeOf_sentCs .., fun b hb => ?_, fun b hb => ?_, fun k => cellRead_completeTx_other⟩
    · rw [getLsbD_sentCs, if_pos hb]
      rfl
    · rw [getLsbD_sentCs, if_neg (by omega), if_neg (by omega)]

/-- Settles O53: the search passes over every buffer that does not take the frame, and the buffer it stops at
decides. -/
theorem deliveryTakesTheLowestMatch : Obligations.DeliveryTakesTheLowestMatch := by
  unfold Obligations.DeliveryTakesTheLowestMatch
  rintro f s c cs idw mask takes rfl hf hcs hid htakes
  have htakes : ∀ j, takes j ↔
      usable s j = true ∧ codeOf (cs j) = codeRxEmpty ∧ idMatches f.idw (idw j) (mask j) = true :=
    fun j => by rw [htakes, usable_iff, idMatches, beq_iff_eq, and_assoc]
  have passed : ∀ i, ¬ takes i →
      (usable s i = true → codeOf (cs i) = codeRxEmpty → cellRead s.rximr i = some (mask i)) →
      PassedOver f.idw s i := fun i hnot hmask hu =>
    ⟨cs i, hcs i hu, fun hempty => ⟨idw i, mask i, hid i hu hempty, hmask hu hempty,
      Bool.eq_false_iff.mpr fun hmatch => hnot ((htakes i).mpr ⟨hu, hempty, hmatch⟩)⟩⟩
  have bound : ∀ j, usable s j = true → j < Config.mbMax := fun j hu =>
    (usable_lt hu).trans_le (poolSize_le _)
  refine ⟨fun j hj hbelow hmask => ?_, fun hnot hmask => ?_, fun j hu hempty hpoison hbelow hmask => ?_⟩
  · obtain ⟨hu, hempty, hmatch⟩ := (htakes j).mp hj
    obtain ⟨js, hjs⟩ := findRx_reaches (bound j hu) fun i hi =>
      passed i (hbelow i hi) (hmask i hi.le)
    have hfound : findRx f.idw s (List.range Config.mbMax) = .ok (some j) := by
      have hidj : cellRead s.ram (idIndex (hwClass s) j) = some (idw j) := hid j hu hempty
      simp only [hjs, findRx, hu, hcs j hu, hempty, hidj, hmask j le_rfl hu hempty, hmatch, needed_some,
        thenDo_ok, if_true]
    have hfill := deliverInto_fills hf j
    refine ⟨_, _, deliver_of_found hfound, deliverInto_eq f j s, hfill.identifier, fun k hk => ?_,
      hfill.control, codeOf_deliveredCs .., dlcOf_deliveredCs .., fun b hb => ?_, fun k hk => ?_⟩
    · refine (hfill.payload k hk).trans ?_
      rw [← hf] at hk
      rw [List.getD_eq_getElem _ _ hk, List.getElem?_eq_getElem hk]
    · exact getLsbD_deliveredCs _ _ (by omega) (by omega)
    · exact hfill.kept k fun n hn => by omega
  · exact deliver_of_none (findRx_none (fun i => passed i (hnot i) (hmask i)) _)
  · obtain ⟨js, hjs⟩ := findRx_reaches (bound j hu) fun i hi =>
      passed i (hbelow i hi) (hmask i hi)
    have hidj : cellRead s.ram (idIndex (hwClass s) j) = some (idw j) := hid j hu hempty
    refine deliver_of_error ?_
    simp only [hjs, findRx, hu, hcs j hu, hempty, hidj, hpoison, needed_some, needed_none, thenDo_ok,
      thenDo_error, if_true]

/-- Settles O54: TX(i) outside loop-back leaves the completed state into which, in loop-back, it delivers; RX-FRAME
delivers the one frame of draws. -/
theorem framesComeFromLoopBackOrBus : Obligations.FramesComeFromLoopBackOrBus := by
  unfold Obligations.FramesComeFromLoopBackOrBus
  intro i s
  refine ⟨fun cs f _ hcs hid hlen hdata hdlc hlpb => ?_, rxFrame_mem_enabledMoves_iff, fun t => ?_⟩
  · refine ⟨completeTx i cs s, ?_, rfl, fun t => ?_⟩
    · have hf : frameOf i cs { s with ctrl1 := 0#32 } = .ok f :=
        frameOf_eq_ok.mpr ⟨hid, hlen, hdata, hdlc⟩
      have hnormal : lpb 0#32 = false := by decide
      exact txStep_normal (s := { s with ctrl1 := 0#32 }) hcs hf hnormal
    · have hf : frameOf i cs s = .ok f := frameOf_eq_ok.mpr ⟨hid, hlen, hdata, hdlc⟩
      rw [runMove_tx, txStep_of_frame hcs hf, if_pos hlpb]
  · rw [runMove_rxFrame]
    constructor
    · intro h
      obtain ⟨hid, hlen, hdata, hdlc⟩ := eq_drawnFrame_iff.mp (rfl : drawnFrame (hwClass s) s.draws = _)
      exact ⟨_, hid, hlen, hdata, hdlc, h⟩
    · rintro ⟨f, hid, hlen, hdata, hdlc, h⟩
      obtain rfl := eq_drawnFrame_iff.mpr ⟨hid, hlen, hdata, hdlc⟩
      exact h

end

section
/-! PROOFS. The values at reset (O7), and who has a step in the reset state (O8). -/

namespace Sys2Proof.Machine

variable {s : State} {m : Move}

/-! ## Who has a step in the reset state (R40, R216) -/

/-- A disabled module that has acknowledged it leaves a step to no agent but HOST: CTRL has answered (R182, R183),
and ENGINE and BUS wait for the controller to be operational. -/
theorem moveOn_eq_false_of_disabled (hmd : mdis s.mcr = true) (hl : lpmAck s.mcr = true) (hm : m ≠ .host) :
    moveOn s m = false := by
  have hop : operational s = false := by simp [operational, operationalMcr, hl]
  cases m with
  | host => exact absurd rfl hm
  | lpmEnter => simp [moveOn, lpmEnterOn, hl]
  | lpmExit => simp [moveOn, lpmExitOn, hmd]
  | frzEnter => simp [moveOn, frzEnterOn, hl]
  | frzExit => simp [moveOn, frzExitOn, hl]
  | ready => simp [moveOn, readyOn, hl]
  | tx i => simp [moveOn, txOn, hop]
  | rxFrame => simp [moveOn, rxFrameOn, hop]

theorem launch_enabled_host {p : Config.Params} {prog : List Word} {mem : Memory}
    (hm : m ∈ enabledMoves (State.launch p prog mem)) : m = .host := by
  by_contra hne
  have hmd : mdis 0xD890000F#32 = true := by decide
  have hl : lpmAck 0xD890000F#32 = true := by decide
  have hon : moveOn (State.launch p prog mem) m = true := (List.mem_filter.mp hm).2
  exact absurd hon (Bool.eq_false_iff.mp (moveOn_eq_false_of_disabled hmd hl hne))

/-- HOST between operations has a step only while a descriptor is left (R22). -/
theorem host_mem_enabledMoves_idle_iff (h : s.seq.pos = .idle) : .host ∈ enabledMoves s ↔ s.prog ≠ [] := by
  rw [mem_enabledMoves_iff (by decide)]
  simp [moveOn, h]

end Sys2Proof.Machine

open Sys2Proof Sys2Proof.Machine

/-- Settles O7: the launch state lists each row's value, and what it does not list, a cell of RAM or a mask, is
poison. -/
theorem resetHoldsTheStatedValues : Obligations.ResetHoldsTheStatedValues := by
  unfold Obligations.ResetHoldsTheStatedValues
  rintro p prog mem s rfl
  have poison (k : Nat) : cellRead ([] : WordCells) k = none := cellRead_nil k
  have nonePending (i : Nat) : (0#32).getLsbD i = false := BitVec.getLsbD_zero
  exact ⟨rfl, rfl, rfl, rfl, rfl, rfl, poison, poison, rfl, rfl, nonePending, rfl, rfl, rfl, rfl, rfl, rfl, rfl,
    rfl, rfl, rfl, rfl⟩

/-- Settles O8: at launch the module is disabled and has acknowledged it, so HOST is the one agent with a step;
without a program it has none either. -/
theorem onlyHostMovesAfterReset : Obligations.OnlyHostMovesAfterReset := by
  unfold Obligations.OnlyHostMovesAfterReset
  intro p prog mem
  refine ⟨fun _ hm => launch_enabled_host hm, List.eq_nil_iff_forall_not_mem.mpr fun m hm => ?_⟩
  obtain rfl := launch_enabled_host hm
  exact (host_mem_enabledMoves_idle_iff rfl).mp hm rfl

end
